-- ==== Sys2Proof/Word.lean ====
section
/-! DEFINITION. The word types of ITR-CORE: 32-bit host registers and command words (00_scope R12, R14),
8-bit bytes, and bit sequences in stream order (R15). -/

namespace Sys2Proof

/-- A host register or a command word: 32 bits, unsigned (00_scope R12, R14). -/
abbrev Word := BitVec 32

/-- One byte of the SRC or SNK window (00_scope R11). -/
abbrev Byte := BitVec 8

/-- A bit sequence in stream order, first bit first (00_scope R15). -/
abbrev Bits := List Bool

end Sys2Proof
end

