-- ==== Sys2Proof/Syntax.lean ====
section
/-! DEFINITION. The commands of ITC-1, one constructor for each row of spec/opcode_table.json
(30_encoding R105). The only operand inside a command word is CNT (R101); every other operand comes from
the argument registers (R102). -/

namespace Sys2Proof

/-- The 18 commands of 30_encoding R105. -/
inductive Instr where
  /-- NOP, 44_system R330. -/
  | nop
  /-- CLR, 44_system R331. -/
  | clr
  /-- SRST, 44_system R332. -/
  | srst
  /-- BR.INIT, 40_bitstream R150. -/
  | brInit
  /-- BR.IGN, 40_bitstream R151. -/
  | brIgn
  /-- BR.READ with its CNT field, 40_bitstream R152. -/
  | brRead (cnt : Nat)
  /-- BW.INIT, 40_bitstream R155. -/
  | bwInit
  /-- BW.WRITE with its CNT field, 40_bitstream R156. -/
  | bwWrite (cnt : Nat)
  /-- BW.FILL, 40_bitstream R157. -/
  | bwFill
  /-- BW.FLUSH, 40_bitstream R158. -/
  | bwFlush
  /-- BW.SEEK0, 40_bitstream R159. -/
  | bwSeek0
  /-- BW.RAW, 40_bitstream R160. -/
  | bwRaw
  /-- EG.ENC, 41_elias_gamma R203. -/
  | egEnc
  /-- EG.DEC, 41_elias_gamma R204. -/
  | egDec
  /-- LZ.COMP, 42_lzss R241. -/
  | lzComp
  /-- LZ.DEC, 42_lzss R250. -/
  | lzDec
  /-- SF.COMP, 43_shannon_fano R291. -/
  | sfComp
  /-- SF.DEC, 43_shannon_fano R300. -/
  | sfDec
  deriving DecidableEq, Repr

end Sys2Proof
end

