-- ==== Sys2Proof/Decode.lean ====
section
/-! DEFINITION. The command word of 30_encoding R100 to R110: its fields, the decoder (total on every 32-bit word,
rejecting by name in the order of R110), the encoder, and the host's numbering of a table word. -/

namespace Sys2Proof

/-- Why a word is no legal command word (30_encoding R106 to R108). -/
inductive DecodeError where
  /-- OP is not in the opcode table: ILLEGAL(0x01), R106. -/
  | badOp
  /-- bits 31:14 are not 0: ILLEGAL(0x02), R107. -/
  | rsvSet
  /-- CNT is not 0 in a command that does not use it: ILLEGAL(0x03), R108. -/
  | cntUnused
  deriving DecidableEq, Repr

/-- OP = w[7:0] (30_encoding R100, R101). -/
def opField (w : Word) : BitVec 8 := w.extractLsb' 0 8

/-- CNT = w[13:8] (30_encoding R100, R101). -/
def cntField (w : Word) : BitVec 6 := w.extractLsb' 8 6

/-- RSV = w[31:14] (30_encoding R100). -/
def rsvField (w : Word) : BitVec 18 := w.extractLsb' 14 18

/-- The opcode of each command (30_encoding R105). -/
def opcode : Instr → BitVec 8
  | .nop => 0x00#8
  | .clr => 0x01#8
  | .srst => 0x02#8
  | .brInit => 0x10#8
  | .brIgn => 0x11#8
  | .brRead _ => 0x12#8
  | .bwInit => 0x20#8
  | .bwWrite _ => 0x21#8
  | .bwFill => 0x22#8
  | .bwFlush => 0x23#8
  | .bwSeek0 => 0x24#8
  | .bwRaw => 0x25#8
  | .egEnc => 0x30#8
  | .egDec => 0x31#8
  | .lzComp => 0x40#8
  | .lzDec => 0x41#8
  | .sfComp => 0x50#8
  | .sfDec => 0x51#8

/-- The opcode map read the other way (30_encoding R105): the command an OP value names, given its CNT. Every other OP
value is illegal (R106). -/
def instrOfOp (op : BitVec 8) (cnt : Nat) : Option Instr :=
  match op.toNat with
  | 0x00 => some .nop
  | 0x01 => some .clr
  | 0x02 => some .srst
  | 0x10 => some .brInit
  | 0x11 => some .brIgn
  | 0x12 => some (.brRead cnt)
  | 0x20 => some .bwInit
  | 0x21 => some (.bwWrite cnt)
  | 0x22 => some .bwFill
  | 0x23 => some .bwFlush
  | 0x24 => some .bwSeek0
  | 0x25 => some .bwRaw
  | 0x30 => some .egEnc
  | 0x31 => some .egDec
  | 0x40 => some .lzComp
  | 0x41 => some .lzDec
  | 0x50 => some .sfComp
  | 0x51 => some .sfDec
  | _ => none

/-- Only BR.READ (0x12) and BW.WRITE (0x21) use CNT (30_encoding R105, R108). -/
def usesCnt (op : BitVec 8) : Bool := op == 0x12#8 || op == 0x21#8

/-- The decoder: the checks of 30_encoding R110 in the order written, the first that fails reported. -/
def decode (w : Word) : Except DecodeError Instr :=
  match instrOfOp (opField w) (cntField w).toNat with
  | none => .error .badOp
  | some i =>
    if rsvField w ≠ 0#18 then .error .rsvSet
    else if cntField w ≠ 0#6 ∧ usesCnt (opField w) = false then .error .cntUnused
    else .ok i

/-- The CNT field a command's word carries; 0 for a command that does not use it (30_encoding R105). -/
def cntOf : Instr → Nat
  | .brRead cnt => cnt
  | .bwWrite cnt => cnt
  | .nop | .clr | .srst | .brInit | .brIgn | .bwInit | .bwFill | .bwFlush | .bwSeek0 | .bwRaw
  | .egEnc | .egDec | .lzComp | .lzDec | .sfComp | .sfDec => 0

/-- The encoder: OP in bits 7:0, CNT in bits 13:8, RSV 0 (30_encoding R100, R105 "command word"). -/
def encode (i : Instr) : Word :=
  (0#18 ++ BitVec.ofNat 6 (cntOf i)) ++ opcode i

/-- What this decoder reads from a table word: the row's bits `w`, numbered from bit 0 of the one command word, every bit
above `nbits` being 0. A command is one data word (30_encoding R100), so no byte order enters (log 24). -/
def decodeTableWord (nbits w : Nat) : Option Instr :=
  if nbits ≤ 32 then
    match decode (BitVec.ofNat 32 (w % 2 ^ nbits)) with
    | .ok i => some i
    | .error _ => none
  else none

end Sys2Proof
end

