-- ==== Sys2Proof/Machine/Bits.lean ====
section
/-! DEFINITION. The bit and integer functions of 00_scope R14 to R18: `nb`, `val`, `bitsOf`, `bytesOf`, `ceil_div`. -/

namespace Sys2Proof.Machine

/-- `nb(v, w)`: the `w`-bit list of `v`, most significant bit first (00_scope R16). -/
def nb (v : Nat) : Nat → Bits
  | 0 => []
  | w + 1 => v.testBit w :: nb v w

/-- `val(s)`: the number a bit list spells, most significant bit first (00_scope R16). -/
def val (s : Bits) : Nat := s.foldl (fun acc b => 2 * acc + b.toNat) 0

/-- The byte eight bits spell (20_memory R70). -/
def byteOf (s : Bits) : Byte := BitVec.ofNat 8 (val s)

/-- The eight bits of a byte in stream order (20_memory R70). -/
def bitsOfByte (b : Byte) : Bits := nb b.toNat 8

/-- Bit `i` (0 to 7) of a byte in stream order: bit `7 - i` of the byte (20_memory R70). -/
def byteBit (b : Byte) (i : Nat) : Bool := b.getLsbD (7 - i)

/-- `bitsOf(B)` (00_scope R17). -/
def bitsOf (bs : List Byte) : Bits := bs.flatMap bitsOfByte

/-- `bytesOf(s)` for a bit list whose length is a multiple of 8 (00_scope R17); bits of an incomplete last byte, which
that condition excludes, are left out. -/
def bytesOf : Bits → List Byte
  | b0 :: b1 :: b2 :: b3 :: b4 :: b5 :: b6 :: b7 :: rest =>
    byteOf [b0, b1, b2, b3, b4, b5, b6, b7] :: bytesOf rest
  | _ => []

/-- `ceil_div(a, b)` (00_scope R18). -/
def ceilDiv (a b : Nat) : Nat := (a + b - 1) / b

/-- `floor_log2(m)` for m ≥ 1 (00_scope R18). -/
def floorLog2 (m : Nat) : Nat := Nat.log2 m

end Sys2Proof.Machine
end

