-- ==== Sys2Proof/Machine/EngineMem.lean ====
section
/-! DEFINITION. The engine memories of 10_state section 6 (R57, R60 to R62) as plain data. They are internal, live only
during one engine command, and no host access reaches them (20_memory R78). -/

namespace Sys2Proof.Machine

/-- The ParserTree of 10_state R62 as a binary tree. DESIGN CHOICE (log 19): the arena's indices are not observable
(43 R276, 93 I25), so a node stands for itself; safe. `none` is the child NONE. -/
inductive PTree where
  /-- the missing child NONE. -/
  | none
  /-- a LEAF holding a Word. -/
  | leaf (w : Nat)
  /-- an INTERNAL node; child 0 is reached by bit 0, child 1 by bit 1. -/
  | node (c0 c1 : PTree)
  deriving DecidableEq, Repr, Inhabited

/-- The LZSS engine memories (10_state R60). -/
structure LzMem where
  /-- the run's `hb`. -/
  hb : Nat
  /-- the run's `mb`. -/
  mb : Nat
  /-- the run's search depth (encoder). -/
  depth : Nat
  /-- the History window; index 0 is the oldest byte since its last reset. -/
  hist : List Byte
  /-- the coding position. -/
  pos : Nat
  /-- the lookahead. -/
  look : List Byte
  deriving DecidableEq, Repr, Inhabited

/-- The Shannon-Fano engine memories (10_state R61, R62). -/
structure SfMem where
  /-- the run's word length. -/
  wl : Nat
  /-- the run's word pad count. -/
  p : Nat
  /-- the frequency table: (Word, count), Words rising, an absent Word counts 0 (log 20). -/
  freq : List (Nat × Nat)
  /-- the distinct Words in the order of 43 R273. -/
  order : List Nat
  /-- the Word to Code map. -/
  code : List (Nat × Bits)
  /-- the ParserTree, from its root. -/
  tree : PTree
  /-- the decode walk pointer: the subtree the walk has reached. -/
  node : PTree
  deriving DecidableEq, Repr, Inhabited

/-- All engine memories. -/
structure Engine where
  /-- LZSS. -/
  lz : LzMem
  /-- Shannon-Fano. -/
  sf : SfMem
  deriving DecidableEq, Repr, Inhabited

/-- The engine memories as an engine command creates them: all empty (10_state R57). -/
def Engine.empty : Engine where
  lz := ⟨0, 0, 0, [], 0, []⟩
  sf := ⟨0, 0, [], [], [], .none, .none⟩

end Sys2Proof.Machine
end

