-- ==== Sys2Proof/Config.lean ====
section
/-! DEFINITION. What an implementation fixes (the launch parameters of 00_scope R10, 20_memory R82, R84) and the free
values: opaque constants with no body, each applied to a counter of State, so that nothing can be proved of a value the
spec leaves open (93_implementation_defined). -/

namespace Sys2Proof

/-- The launch parameters (00_scope R10; 20_memory R82, R84; 93 I1 to I6), fixed for a whole run.
The two fault predicates are the lists of the failing indices of their windows. -/
structure Params where
  /-- HB_MAX, the largest history-bits value. -/
  hbMax : Nat
  /-- MB_MAX, the largest match-bits value. -/
  mbMax : Nat
  /-- WL_MAX, the largest word length in bits. -/
  wlMax : Nat
  /-- SRC_MAX, the size of the SRC window in bytes. -/
  srcMax : Nat
  /-- SNK_CAP, the size of the SNK window in bytes. -/
  snkCap : Nat
  /-- BUF_BYTES, the capacity of the reader refill buffer. -/
  bufBytes : Nat
  /-- WBUF_BYTES, the capacity of the writer staging buffer. -/
  wbufBytes : Nat
  /-- the indices `a` with `srcFault(a)` (20_memory R84). -/
  srcFaults : List Nat
  /-- the indices `a` with `snkFault(a)` (20_memory R84). -/
  snkFaults : List Nat
  /-- REG_BASE, which no rule reads (20_memory R82). -/
  regBase : Nat
  /-- SRC_BASE, which no rule reads (20_memory R82). -/
  srcBase : Nat
  /-- SNK_BASE, which no rule reads (20_memory R82). -/
  snkBase : Nat
  deriving DecidableEq, Repr

/-- The reference values of 00_scope R10. DESIGN CHOICE (log 2): the parameters State.reset carries; safe, since every
statement is made for all parameter values. -/
def Params.reference : Params where
  hbMax := 16
  mbMax := 16
  wlMax := 16
  srcMax := 65536
  snkCap := 131072
  bufBytes := 64
  wbufBytes := 64
  srcFaults := []
  snkFaults := []
  regBase := 0
  srcBase := 0
  snkBase := 0

namespace Config

/-- Free value: the byte SRC holds at an index that nothing has written since power-on (20_memory R85, 93 I13). -/
opaque srcPowerOn : Nat → Byte

/-- Free value: the byte SNK holds at an index that nothing has written since power-on (20_memory R85, 93 I13). -/
opaque snkPowerOn : Nat → Byte

/-- Free value: the byte SNK holds at an index (second argument) that draw number `n` (first argument) made any value
(60_exceptions R346, 44_system R332, 70_reset R380; 93 I8, I23). -/
opaque snkFree : Nat → Nat → Byte

/-- Free value: which of the points of its run a failing command's piece of state is left at (60_exceptions R346, 93 I7). -/
opaque freePoint : Nat → Nat

/-- Free value: a bit delivered from a SRC byte the host overwrote under the reader (70_reset R391, 93 I12). -/
opaque freeBit : Nat → Bool

/-- Free value: what the host reads of an SNK byte stored since the last flush point (70_reset R392, 93 I10). -/
opaque freeByte : Nat → Byte

/-- Free value: what the host reads by an access of another width or alignment (10_state R32, 93 I14). -/
opaque freeWord : Nat → Word

/-- Free value: the contents of the engine memories after an engine command has ended (10_state R57). -/
opaque freeEngine : Nat → Machine.Engine

end Config

end Sys2Proof
end

