-- ==== Sys2Proof/Machine/State.lean ====
section
/-! DEFINITION. The state of ITR-CORE (10_state R30) as plain data, its reset value (R64), the error causes
(60_exceptions R340, R341), the host's actions (70_reset R384), and the reasons a step can stop. -/

namespace Sys2Proof.Machine

/-- ERRCODE (60_exceptions R340); the values 7 to 15 are never produced. -/
inductive ErrCode where
  /-- 0, no error. -/
  | none
  /-- 1, a decoder found the SRC stream inconsistent. -/
  | malformed
  /-- 2, a flush point with an incomplete byte. -/
  | protocol
  /-- 3, a source or sink access failed, or the sink is full. -/
  | io
  /-- 4, the command word is no legal encoding. -/
  | illegal
  /-- 5, an operand or SRC_LEN is out of range. -/
  | badParam
  /-- 6, a file header names an unsupported parameter. -/
  | unsupported
  deriving DecidableEq, Repr

/-- The causes of error, one for each row of 60_exceptions R341. No other exists. -/
inductive Cause where
  /-- MALFORMED 0x01: the stream ends inside an Elias-gamma code. -/
  | truncGamma
  /-- MALFORMED 0x02: an Elias-gamma value exceeds 2^32 - 1. -/
  | gammaOverflow
  /-- MALFORMED 0x03: fewer than 3 logical bits in the file. -/
  | truncHeader
  /-- MALFORMED 0x04: the stream ends inside an LZSS record. -/
  | truncRecord
  /-- MALFORMED 0x05: an LZSS match reaches outside the window. -/
  | badReference
  /-- MALFORMED 0x06: the stream ends inside the tree header. -/
  | truncTree
  /-- MALFORMED 0x07: too many nodes or leaves. -/
  | treeTooLarge
  /-- MALFORMED 0x08: a code walk follows a missing child. -/
  | noChild
  /-- MALFORMED 0x09: the stream ends inside a Code. -/
  | truncCode
  /-- MALFORMED 0x0A: P > 0 and no Word was decoded. -/
  | padUnderflow
  /-- MALFORMED 0x0B: header P ≥ WL. -/
  | badPad
  /-- MALFORMED 0x0C: the pad count hides bits of the pad field itself. -/
  | padExceeds
  /-- MALFORMED 0x0D: the decoded bits are not whole bytes. -/
  | outMisaligned
  /-- PROTOCOL 0x01: flush point with WR_FRAC ≠ 0. -/
  | unalignedFlush
  /-- IO 0x01: a read of SRC failed. -/
  | srcFault
  /-- IO 0x02: a completed byte would land at index SNK_CAP. -/
  | snkFull
  /-- IO 0x03: a write of SNK failed. -/
  | snkFault
  /-- ILLEGAL 0x01: OP is not in the opcode table. -/
  | badOp
  /-- ILLEGAL 0x02: bits 31:14 of the command word are not 0. -/
  | rsvSet
  /-- ILLEGAL 0x03: CNT ≠ 0 in a command that does not use it. -/
  | cntUnused
  /-- BAD_PARAM 0x01: CNT > 32. -/
  | cntRange
  /-- BAD_PARAM 0x02: BR.IGN with ARG0 > 7. -/
  | ignRange
  /-- BAD_PARAM 0x03: BW.RAW with ARG0 > 255. -/
  | rawRange
  /-- BAD_PARAM 0x04: LZ.COMP with ARG0 outside 1 to HB_MAX. -/
  | hbRange
  /-- BAD_PARAM 0x05: LZ.COMP with ARG1 outside 1 to MB_MAX. -/
  | mbRange
  /-- BAD_PARAM 0x06: SF.COMP with ARG0 outside 1 to WL_MAX. -/
  | wlRange
  /-- BAD_PARAM 0x07: SRC_LEN > SRC_MAX. -/
  | srcRange
  /-- UNSUPPORTED 0x01: header hb outside 1 to HB_MAX. -/
  | hdrHb
  /-- UNSUPPORTED 0x02: header mb outside 1 to MB_MAX. -/
  | hdrMb
  /-- UNSUPPORTED 0x03: header WL outside 1 to WL_MAX. -/
  | hdrWl
  deriving DecidableEq, Repr

/-- Reader state (10_state R54) with the refill buffer (R59). -/
structure Reader where
  /-- `rd_len`, in bytes. -/
  len : Nat
  /-- `rd_pos`, in bits. -/
  pos : Nat
  /-- `rd_ign`. -/
  ign : BitVec 3
  /-- the refill buffer's bytes, lowest index first. -/
  refill : List Byte
  /-- the SRC index of the refill buffer's first byte. -/
  refillAt : Nat
  /-- (index, byte before the write) for each host write below `rd_len` since the reader was initialised (70 R391). -/
  stale : List Host.Cell
  deriving DecidableEq, Repr

/-- Writer state (10_state R55) with the staging buffer (R59). -/
structure Writer where
  /-- `wfrac`, the bits of the incomplete byte. -/
  frac : Bits
  /-- `snk_pos`. -/
  pos : Nat
  /-- `snk_len`. -/
  len : Nat
  /-- `wr_total`. -/
  total : Word
  /-- `cmark`. -/
  mark : Nat
  /-- the staging buffer: completed bytes with their SNK indices, in index order. -/
  staging : List Host.Cell
  /-- the SNK indices stored since the last flush point (20_memory R80, 70_reset R380, R392), as spans (first index, count),
  the newest first (log 12). -/
  fresh : List (Nat × Nat)
  deriving DecidableEq, Repr

/-- Error state (10_state R56). -/
structure ErrState where
  /-- `err`. -/
  err : Bool
  /-- `errcode`. -/
  code : ErrCode
  /-- `errinfo`: SUB in bits 7:0, OP in bits 15:8 (R47). -/
  info : BitVec 16
  deriving DecidableEq, Repr

/-- What the host, or the platform, does next (70_reset R384, R380). Widths are in bits. -/
inductive HostAction where
  /-- a write of the register window. -/
  | regWrite (offset width : Nat) (v : Word)
  /-- a read of the register window. -/
  | regRead (offset width : Nat)
  /-- a write of one SRC byte. -/
  | srcWrite (a : Nat) (v : Byte)
  /-- a read of one SNK byte. -/
  | snkRead (a : Nat)
  /-- a write of one SNK byte. -/
  | snkWrite (a : Nat) (v : Byte)
  /-- the platform's hardware reset, between commands (R380). -/
  | reset
  /-- the host writes `w` to CMD and the hardware reset ends that command at point `t` of its run (R380, 93 I23). -/
  | resetDuring (w : Word) (t : Nat)
  deriving DecidableEq, Repr

/-- Why a step stops the model with a fault: a host access at an address the spec says does not exist. Raised by the
host's accesses (Machine/HostPort.lean), never by a command. All safe (log 14). -/
inductive Fault where
  /-- a register access at or beyond offset 64 of the register window (10_state R31). Safe. -/
  | outsideRegWindow
  /-- a host write of SRC at or beyond SRC_MAX (20_memory R78). Safe. -/
  | outsideSrc
  /-- a host access of SNK at or beyond SNK_CAP (20_memory R78). Safe. -/
  | outsideSnk
  deriving DecidableEq, Repr

/-- Why a step has no meaning in the model. -/
inductive Refusal where
  /-- a command whose meaning is not written yet: raised by exec's refused arms only (none is left). Safe. -/
  | notModelled (mnemonic : String)
  /-- the host writes an SNK byte below `snk_len` that the writer has stored since its last flush point: it breaks a duty of
  70_reset R384, to which "the spec gives no meaning". Raised by the host's SNK write (Machine/HostPort.lean). Safe (log 13). -/
  | hostDuty
  deriving DecidableEq, Repr

/-- The whole state (10_state R30), the launch parameters that go with it (log 2), and three fields of the model's own:
`draw`, `host`, `busData` (INVENTORY.md, State). -/
structure State where
  /-- the launch parameters (00_scope R10); no step changes them. -/
  par : Params
  /-- ARG0 (10_state R37). -/
  arg0 : Word
  /-- ARG1 (10_state R37). -/
  arg1 : Word
  /-- ARG2 (10_state R37). -/
  arg2 : Word
  /-- SRC_LEN (10_state R48). -/
  srcLen : Word
  /-- RESULT (10_state R46). -/
  result : Word
  /-- `rcnt` (10_state R45). -/
  rcnt : BitVec 6
  /-- the reader (10_state R54). -/
  rd : Reader
  /-- the writer (10_state R55). -/
  wr : Writer
  /-- the error state (10_state R56). -/
  er : ErrState
  /-- SRC: the written bytes, indices strictly rising (20_memory R79). -/
  src : List Host.Cell
  /-- SNK: the written bytes, indices strictly rising (20_memory R80). -/
  snk : List Host.Cell
  /-- (from, draw): the unlisted SNK bytes at indices ≥ from hold the free values of that draw; newest first (log 5). -/
  snkAny : List (Nat × Nat)
  /-- the engine memories (10_state R57). -/
  eng : Engine
  /-- MODEL'S OWN: how many free values have been drawn (log 21). -/
  draw : Nat
  /-- MODEL'S OWN: the host's next actions, the first to come first (log 1). -/
  host : List HostAction
  /-- MODEL'S OWN: what the core gave back at the host's last read (log 16). -/
  busData : Word
  deriving DecidableEq, Repr

/-- The machine right after a hardware reset at power-on (10_state R64, 70_reset R380): every value is the spec's but the
launch parameters (log 2), the empty engine memories (log 3) and the three fields of the model's own (logs 1, 16, 21). -/
def State.reset : State where
  par := Params.reference
  arg0 := 0#32
  arg1 := 0#32
  arg2 := 0#32
  srcLen := 0#32
  result := 0#32
  rcnt := 0#6
  rd := { len := 0, pos := 0, ign := 0#3, refill := [], refillAt := 0, stale := [] }
  wr := { frac := [], pos := 0, len := 0, total := 0#32, mark := 0, staging := [], fresh := [] }
  er := { err := false, code := .none, info := 0#16 }
  src := []
  snk := []
  snkAny := []
  eng := Engine.empty
  draw := 0
  host := []
  busData := 0#32

end Sys2Proof.Machine
end

