-- ==== Sys2Proof/Machine/Flags.lean ====
section
/-! DEFINITION. Every status and flag computation: the numbers of the error codes and subcauses (60_exceptions R340, R341),
the logical stream length and RD_EOF (10_state R54, R41), STATUS, ERRINFO and PARAMS as words (R38, R47, R53), and the
value of each register at a read (R31, R32). -/

namespace Sys2Proof.Machine

/-- The number of an error code (60_exceptions R340). -/
def ErrCode.num : ErrCode → BitVec 4
  | .none => 0#4
  | .malformed => 1#4
  | .protocol => 2#4
  | .io => 3#4
  | .illegal => 4#4
  | .badParam => 5#4
  | .unsupported => 6#4

/-- The error code of a cause (60_exceptions R341). -/
def Cause.code : Cause → ErrCode
  | .truncGamma | .gammaOverflow | .truncHeader | .truncRecord | .badReference | .truncTree | .treeTooLarge
  | .noChild | .truncCode | .padUnderflow | .badPad | .padExceeds | .outMisaligned => .malformed
  | .unalignedFlush => .protocol
  | .srcFault | .snkFull | .snkFault => .io
  | .badOp | .rsvSet | .cntUnused => .illegal
  | .cntRange | .ignRange | .rawRange | .hbRange | .mbRange | .wlRange | .srcRange => .badParam
  | .hdrHb | .hdrMb | .hdrWl => .unsupported

/-- SUB, the subcause number of a cause (60_exceptions R341). -/
def Cause.sub : Cause → BitVec 8
  | .truncGamma => 0x01#8
  | .gammaOverflow => 0x02#8
  | .truncHeader => 0x03#8
  | .truncRecord => 0x04#8
  | .badReference => 0x05#8
  | .truncTree => 0x06#8
  | .treeTooLarge => 0x07#8
  | .noChild => 0x08#8
  | .truncCode => 0x09#8
  | .padUnderflow => 0x0A#8
  | .badPad => 0x0B#8
  | .padExceeds => 0x0C#8
  | .outMisaligned => 0x0D#8
  | .unalignedFlush => 0x01#8
  | .srcFault => 0x01#8
  | .snkFull => 0x02#8
  | .snkFault => 0x03#8
  | .badOp => 0x01#8
  | .rsvSet => 0x02#8
  | .cntUnused => 0x03#8
  | .cntRange => 0x01#8
  | .ignRange => 0x02#8
  | .rawRange => 0x03#8
  | .hbRange => 0x04#8
  | .mbRange => 0x05#8
  | .wlRange => 0x06#8
  | .srcRange => 0x07#8
  | .hdrHb => 0x01#8
  | .hdrMb => 0x02#8
  | .hdrWl => 0x03#8

/-- ILLEGAL, BAD_PARAM and PROTOCOL leave all other state exactly as before the command; MALFORMED, UNSUPPORTED and IO do
not (60_exceptions R346). -/
def ErrCode.precise : ErrCode → Bool
  | .illegal | .badParam | .protocol => true
  | .none | .malformed | .io | .unsupported => false

/-- `errinfo` after error entry: SUB in bits 7:0, OP in bits 15:8 (60_exceptions R345, 10_state R47). -/
def errInfo (c : Cause) (op : BitVec 8) : BitVec 16 := op ++ c.sub

/-- `Lg = max(0, 8 * rd_len - rd_ign)`, the logical stream length (10_state R54); Nat subtraction is that maximum. -/
def Reader.logicalLen (r : Reader) : Nat := 8 * r.len - r.ign.toNat

/-- `RdAvail()`, the number of logical bits not yet delivered (40_bitstream R141). -/
def Reader.avail (r : Reader) : Nat := r.logicalLen - r.pos

/-- STATUS.RD_EOF (10_state R41). -/
def Reader.eof (r : Reader) : Bool := decide (r.logicalLen ≤ r.pos)

/-- STATUS (10_state R38): reserved bits 31:19, RCNT 18:13, ERRCODE 12:9, WR_FRAC 8:6, RD_IGN 5:3, RD_EOF 2, ERR 1,
BUSY 0, which reads 0 (R39). -/
def State.statusWord (s : State) : Word :=
  0#13 ++ s.rcnt ++ s.er.code.num ++ BitVec.ofNat 3 s.wr.frac.length ++ s.rd.ign
    ++ BitVec.ofBool s.rd.eof ++ BitVec.ofBool s.er.err ++ 0#1

/-- ERRINFO as a register: bits 31:16 read 0 (10_state R47). -/
def State.errInfoWord (s : State) : Word := s.er.info.setWidth 32

/-- PARAMS (10_state R53). -/
def paramsWord (p : Params) : Word :=
  BitVec.ofNat 32 p.hbMax ||| (BitVec.ofNat 32 p.mbMax <<< 8) ||| (BitVec.ofNat 32 p.wlMax <<< 16)

/-- ID (10_state R35). -/
def idWord : Word := 0x49544331#32

/-- The value a read of the register at a byte offset returns (10_state R31, R32): CMD and every reserved offset read 0. -/
def State.readReg (s : State) (offset : Nat) : Word :=
  match offset with
  | 0x00 => idWord
  | 0x08 => s.arg0
  | 0x0C => s.arg1
  | 0x10 => s.arg2
  | 0x14 => s.statusWord
  | 0x18 => s.result
  | 0x1C => s.errInfoWord
  | 0x20 => s.srcLen
  | 0x24 => BitVec.ofNat 32 s.rd.pos
  | 0x28 => s.wr.total
  | 0x2C => BitVec.ofNat 32 s.wr.pos
  | 0x30 => BitVec.ofNat 32 s.wr.len
  | 0x34 => paramsWord s.par
  | _ => 0#32

end Sys2Proof.Machine
end

