-- ==== Sys2Proof/Machine/Ops.lean ====
section
/-! DEFINITION. The named operations: memory windows, the parts of State, error entry and what an error leaves
(60_exceptions R345, R346), resets (10_state R64, R65; 70_reset R380), and the command monad in which every command's
pseudocode is written. -/

namespace Sys2Proof.Machine

/-! ## Memory windows: lists of (index, byte), indices strictly rising; an unlisted index has no value (log 4) -/

/-- The byte a list of cells has at an index, if any. -/
def Memory.get? : List Host.Cell → Nat → Option Byte
  | [], _ => none
  | (b, v) :: rest, a => if b = a then some v else if a < b then none else Memory.get? rest a

/-- Write one byte (20_memory R76), keeping the indices strictly rising. -/
def Memory.set : List Host.Cell → Nat → Byte → List Host.Cell
  | [], a, v => [(a, v)]
  | (b, w) :: rest, a, v =>
    if a < b then (a, v) :: (b, w) :: rest
    else if a = b then (a, v) :: rest
    else (b, w) :: Memory.set rest a v

/-- The cells below an index. -/
def Memory.below (m : List Host.Cell) (c : Nat) : List Host.Cell := m.filter fun cell => decide (cell.1 < c)

/-- Give the `n` indices from `a` on the values `f` gives them. -/
def Memory.setRange (m : List Host.Cell) (f : Nat → Byte) (a : Nat) : Nat → List Host.Cell
  | 0 => m
  | n + 1 => Memory.setRange (Memory.set m a (f a)) f (a + 1) n

/-- Give the indices of some spans, (first index, count), the values `f` gives them. -/
def Memory.setSpans (m : List Host.Cell) (f : Nat → Byte) : List (Nat × Nat) → List Host.Cell
  | [] => m
  | span :: rest => Memory.setSpans (Memory.setRange m f span.1 span.2) f rest

/-- The canonical form: indices strictly rising and below the window's size. -/
def Memory.wf (size : Nat) : List Host.Cell → Bool
  | [] => true
  | [(a, _)] => decide (a < size)
  | (a, _) :: (b, v) :: rest => decide (a < b) && Memory.wf size ((b, v) :: rest)

/-- The byte SRC holds at an index (20_memory R77): a written byte, or the power-on free value (R85). -/
def State.srcByte (s : State) (a : Nat) : Byte := (Memory.get? s.src a).getD (Config.srcPowerOn a)

/-- What an unlisted SNK index reads as: the newest draw that covers it, or the power-on free value (log 4, log 5). -/
def snkUnlisted : List (Nat × Nat) → Nat → Byte
  | [], a => Config.snkPowerOn a
  | (c, n) :: rest, a => if c ≤ a then Config.snkFree n a else snkUnlisted rest a

/-- The byte SNK holds at an index, the staging buffer left out (20_memory R80). -/
def State.snkByte (s : State) (a : Nat) : Byte := (Memory.get? s.snk a).getD (snkUnlisted s.snkAny a)

/-- Whether some span of indices, (first index, count), holds index `a`. -/
def covers (spans : List (Nat × Nat)) (a : Nat) : Bool := spans.any fun f => decide (f.1 ≤ a) && decide (a < f.1 + f.2)

/-- Note index `a` as stored: the newest span grows where it ends at `a`, else a new span starts. -/
def noteFresh : List (Nat × Nat) → Nat → List (Nat × Nat)
  | [], a => [(a, 1)]
  | (lo, n) :: rest, a => if lo + n = a then (lo, n + 1) :: rest else (a, 1) :: (lo, n) :: rest

/-- The writer has stored SNK byte `a` since its last flush point (20_memory R80, 70_reset R380, R392; log 12). -/
def State.unflushed (s : State) (a : Nat) : Bool := covers s.wr.fresh a

/-- The draws after every SNK byte at or above `c` was made the value of draw `n`: an older draw that covered nothing
below `c` is forgotten. -/
def snkDrawFrom (old : List (Nat × Nat)) (c n : Nat) : List (Nat × Nat) :=
  (c, n) :: old.filter fun d => decide (d.1 < c)

/-- `srcFault(a)` (20_memory R84). -/
def srcFaultAt (p : Params) (a : Nat) : Bool := p.srcFaults.contains a

/-- `snkFault(a)` (20_memory R84). -/
def snkFaultAt (p : Params) (a : Nat) : Bool := p.snkFaults.contains a

/-! ## The parts of State -/

/-- Replace the reader. -/
def State.setRd (s : State) (r : Reader) : State := { s with rd := r }
/-- Replace the writer. -/
def State.setWr (s : State) (w : Writer) : State := { s with wr := w }
/-- Replace the error state. -/
def State.setEr (s : State) (e : ErrState) : State := { s with er := e }
/-- Write RESULT. -/
def State.setResult (s : State) (v : Word) : State := { s with result := v }
/-- Write `rcnt`. -/
def State.setRcnt (s : State) (n : BitVec 6) : State := { s with rcnt := n }
/-- Replace the engine memories. -/
def State.setEng (s : State) (e : Engine) : State := { s with eng := e }
/-- Replace the LZSS engine memories. -/
def State.setLz (s : State) (m : LzMem) : State := { s with eng := { s.eng with lz := m } }
/-- Replace the Shannon-Fano engine memories. -/
def State.setSf (s : State) (m : SfMem) : State := { s with eng := { s.eng with sf := m } }
/-- Replace the SRC cells. -/
def State.setSrc (s : State) (m : List Host.Cell) : State := { s with src := m }
/-- Replace the SNK cells. -/
def State.setSnk (s : State) (m : List Host.Cell) : State := { s with snk := m }
/-- Count free values as drawn. -/
def State.drew (s : State) (n : Nat) : State := { s with draw := s.draw + n }
/-- What the core gives back at a host read. -/
def State.setBus (s : State) (v : Word) : State := { s with busData := v }
/-- Replace the host's next actions. -/
def State.setHost (s : State) (h : List HostAction) : State := { s with host := h }

/-! ## Error entry (60_exceptions R345) -/

/-- `ErrorEntry(C, s, op)`: `err`, `errcode` and `errinfo`, and nothing else. -/
def errorEntry (c : Cause) (op : BitVec 8) (s : State) : State :=
  s.setEr { err := true, code := c.code, info := errInfo c op }

/-- The return from an error (60_exceptions R350, 44_system R331): the error state cleared, nothing restored. -/
def clearError (s : State) : State := s.setEr { err := false, code := .none, info := 0#16 }

/-! ## Resets -/

/-- SNK after the staging buffer was discarded: each byte stored since the last flush point is any value (44_system R332,
70_reset R380; log 18). -/
def discardStaged (s : State) : List Host.Cell := Memory.setSpans s.snk (Config.snkFree s.draw) s.wr.fresh

/-- The hardware reset (70_reset R380): the state of 10_state R64, the windows not written, the staged bytes lost. The
launch parameters, the host's actions and the counter of draws are no state of the core. DESIGN CHOICE (log 28): every other
byte of SRC and SNK keeps its value, as R380 and 93 I23 say, where 93 I13 has the contents after a reset any value. -/
def hardReset (s : State) : State :=
  { State.reset with
    par := s.par, src := s.src, snk := discardStaged s, snkAny := s.snkAny
    draw := s.draw + 1, host := s.host, busData := s.busData }

/-- The soft reset (44_system R332, 10_state R65): as the hardware reset, but ARG0, ARG1, ARG2 and SRC_LEN are kept
(70_reset R382). DESIGN CHOICE (log 28): an SNK byte not stored since the last flush point is kept above `cmark` too. -/
def softReset (s : State) : State :=
  { hardReset s with arg0 := s.arg0, arg1 := s.arg1, arg2 := s.arg2, srcLen := s.srcLen }

/-! ## The command monad

A command's pseudocode runs over a `Run`: the state, the earlier points of this run, and the two facts R346 needs. `raise`
ends it with a cause. -/

/-- A command's run so far. -/
structure Run where
  /-- the state now. -/
  st : State
  /-- the states at the earlier points of this run, newest first. -/
  trail : List State
  /-- `c0`: the smallest value `cmark` took during the command, 0 once it calls WrInit or Seek0 (60_exceptions R346). -/
  floor : Nat
  /-- the command has created the engine memories (10_state R57). -/
  engine : Bool
  deriving DecidableEq, Repr

/-- A piece of pseudocode: it ends with a value, or with a cause of error; the run so far is kept either way. -/
abbrev Cmd := EStateM Cause Run

/-- The run at a command's start. -/
def Run.start (s : State) : Run := { st := s, trail := [], floor := s.wr.mark, engine := false }

/-- `raise C(s)` (00_scope R21). -/
def raise {α : Type} (c : Cause) : Cmd α := fun r => .error c r

/-- `if not ok: raise C(s)`. -/
def require (ok : Bool) (c : Cause) : Cmd Unit := if ok then pure () else raise c

/-- The state now. -/
def look : Cmd State := fun r => .ok r.st r

/-- Assignments of the pseudocode: one point of the run to the next. -/
def advance (f : State → State) : Cmd Unit :=
  fun r => .ok () { r with st := f r.st, trail := r.st :: r.trail }

/-- `cmark` takes the value `m` (60_exceptions R346, the definition of `c0`). -/
def noteMark (m : Nat) : Cmd Unit := fun r => .ok () { r with floor := min r.floor m }

/-- An engine command creates its memories, empty (10_state R57). -/
def enterEngine : Cmd Unit :=
  fun r => .ok () { r with st := r.st.setEng Engine.empty, trail := r.st :: r.trail, engine := true }

/-- An engine command ends: the contents of its memories are unspecified from now on (10_state R57; log 3). -/
def leaveEngine : Cmd Unit :=
  fun r => .ok () { r with st := (r.st.setEng (Config.freeEngine r.st.draw)).drew 1, trail := r.st :: r.trail }

/-! ## What an error leaves (60_exceptions R346) -/

/-- The points of a run, oldest first. -/
def Run.points (r : Run) : List State := (r.st :: r.trail).reverse

/-- The point that draw `n` picks. -/
def Run.pick (r : Run) (n : Nat) : State := r.points.getD (Config.freePoint n % r.points.length) r.st

/-- The state a MALFORMED, UNSUPPORTED or IO error leaves, before error entry (60_exceptions R346, 93 I7, I8; log 6): each
piece of reader and writer state, and each hidden buffer, at a value it had at some point of the run, each on its own; the
SNK bytes at or above `c0` any value, those below as before the command. The bytes stored since the last flush point are
those stored at the raise, and with them whatever the staging buffer is left with. `s` is the state at the command's start. -/
def Run.afterError (r : Run) (s : State) : State :=
  let n := r.st.draw
  { s with
    rd :=
      { len := (r.pick n).rd.len
        pos := (r.pick (n + 1)).rd.pos
        ign := (r.pick (n + 2)).rd.ign
        refill := (r.pick (n + 3)).rd.refill
        refillAt := (r.pick (n + 3)).rd.refillAt
        stale := (r.pick (n + 3)).rd.stale }
    wr :=
      { frac := (r.pick (n + 4)).wr.frac
        pos := (r.pick (n + 5)).wr.pos
        len := (r.pick (n + 6)).wr.len
        total := (r.pick (n + 7)).wr.total
        mark := (r.pick (n + 8)).wr.mark
        staging := (r.pick (n + 9)).wr.staging
        fresh := ((r.pick (n + 9)).wr.staging.map fun c => (c.1, 1)) ++ r.st.wr.fresh }
    snk := Memory.below s.snk r.floor
    snkAny := snkDrawFrom s.snkAny r.floor (n + 10)
    eng := if r.engine then Config.freeEngine (n + 11) else s.eng
    draw := n + 12 }

/-- One command, from its start to the end of its step (30_encoding R110): what its pseudocode leaves, or error entry with
the command word's OP. -/
def runCmd (op : BitVec 8) (body : Cmd Unit) (s : State) : Host.Outcome State Fault Refusal :=
  match body (Run.start s) with
  | .ok _ r => .next r.st
  | .error c r =>
    if c.code.precise then .next (errorEntry c op s)
    else .next (errorEntry c op (r.afterError s))

end Sys2Proof.Machine
end

