-- ==== Sys2Proof/Machine/Operands.lean ====
section
/-! DEFINITION. Every operand form of 30_encoding R101, R102: CNT, the argument registers, SRC_LEN, and the range each
command compares them with (R102's table; 00_scope R10, R12). An argument register is compared as its full 32-bit value. -/

namespace Sys2Proof.Machine

/-- CNT of BR.READ and BW.WRITE: at most 32 (40_bitstream R152, R156). -/
def cntInRange (cnt : Nat) : Bool := decide (cnt ≤ 32)

/-- BR.IGN's operand: ARG0, 0 to 7 (30_encoding R102; 40_bitstream R151). -/
def State.ignArg (s : State) : Nat := s.arg0.toNat

/-- BW.WRITE's operand: the bits `ARG0[cnt-1:0]`, bit `cnt - 1` first, bits above ignored (30_encoding R102). -/
def State.writeArg (s : State) (cnt : Nat) : Bits := nb s.arg0.toNat cnt

/-- BW.RAW's operand: ARG0, 0 to 255 (30_encoding R102; 40_bitstream R160). -/
def State.rawArg (s : State) : Nat := s.arg0.toNat

/-- EG.ENC's operand: ARG0, any value (30_encoding R102). -/
def State.gammaArg (s : State) : Nat := s.arg0.toNat

/-- LZ.COMP's `hb`: ARG0 (30_encoding R102). -/
def State.hbArg (s : State) : Nat := s.arg0.toNat

/-- LZ.COMP's `mb`: ARG1 (30_encoding R102). -/
def State.mbArg (s : State) : Nat := s.arg1.toNat

/-- LZ.COMP's `depth`: ARG2, any value (30_encoding R102; 42_lzss R221). -/
def State.depthArg (s : State) : Nat := s.arg2.toNat

/-- SF.COMP's `WL`: ARG0 (30_encoding R102). -/
def State.wlArg (s : State) : Nat := s.arg0.toNat

/-- 1 ≤ hb ≤ HB_MAX (42_lzss R221). -/
def hbInRange (p : Params) (hb : Nat) : Bool := decide (1 ≤ hb) && decide (hb ≤ p.hbMax)

/-- 1 ≤ mb ≤ MB_MAX (42_lzss R221). -/
def mbInRange (p : Params) (mb : Nat) : Bool := decide (1 ≤ mb) && decide (mb ≤ p.mbMax)

/-- 1 ≤ WL ≤ WL_MAX (43_shannon_fano R270). -/
def wlInRange (p : Params) (wl : Nat) : Bool := decide (1 ≤ wl) && decide (wl ≤ p.wlMax)

/-- SRC_LEN ≤ SRC_MAX (10_state R48). -/
def State.srcLenInRange (s : State) : Bool := decide (s.srcLen.toNat ≤ s.par.srcMax)

end Sys2Proof.Machine
end

