-- ==== Sys2Proof/Machine/Stream.lean ====
section
/-! DEFINITION. The reader and writer primitives of 40_bitstream R140 to R149 and R153, with the two hidden buffers and the
points at which an I/O fault is raised (60_exceptions R343). Every family uses them unchanged (00_scope R22). -/

namespace Sys2Proof.Machine

/-! ## Reader -/

/-- `RdInit()` (R140). -/
def rdInit : Cmd Unit := do
  let s ← look
  require s.srcLenInRange .srcRange
  advance fun s => s.setRd
    { len := s.srcLen.toNat, pos := 0, ign := 0#3, refill := [], refillAt := 0, stale := [] }

/-- `RdRewind()` (43_shannon_fano R286). -/
def rdRewind : Cmd Unit :=
  advance fun s => s.setRd { s.rd with pos := 0, refill := [], refillAt := 0 }

/-- The byte the refill buffer holds for SRC index `a`, if it does. -/
def Reader.buffered (r : Reader) (a : Nat) : Option Byte :=
  if r.refillAt ≤ a then r.refill[a - r.refillAt]? else none

/-- `q`, the next byte not yet fetched (R153). -/
def Reader.nextFetch (r : Reader) : Nat := r.refillAt + r.refill.length

/-- The reader with its refill buffer emptied, the next byte to fetch the same (R153, "into the empty buffer"). -/
def Reader.emptied (r : Reader) : Reader := { r with refill := [], refillAt := r.nextFetch }

/-- The first byte of the block a refill for byte `a` fetches: `q` (R153). DESIGN CHOICE (log 10): where `a` is not in the
block at `q`, which only a reader left by an error can show, the block starts at `a`; unsafe there. -/
def State.blockStart (s : State) (a : Nat) : Nat :=
  let q := s.rd.nextFetch
  if q ≤ a ∧ a < q + s.par.bufBytes then q else a

/-- The SRC indices of the block that starts at `q`: `q` to `min(q + BUF_BYTES, rd_len) - 1` (R153). -/
def State.blockIndices (s : State) (q : Nat) : List Nat :=
  (List.range (min s.par.bufBytes (s.rd.len - q))).map (q + ·)

/-- The refill (R153): with byte `a` not in the refill buffer, the buffer is emptied and the block of `a` is fetched into it;
a fault at any byte of the block raises IO(0x01) (60_exceptions R343). DESIGN CHOICE (log 29): the points of a faulting refill,
of which R346 picks one for the refill buffer, are the old block and the emptied buffer, with no byte of the faulting block and
the next byte to fetch where it was; unsafe. -/
def fetchByte (a : Nat) : Cmd Unit := do
  let s ← look
  if (s.rd.buffered a).isSome then pure ()
  else
    advance fun s => s.setRd s.rd.emptied
    let block := s.blockIndices (s.blockStart a)
    require (!block.any (srcFaultAt s.par)) .srcFault
    advance fun s => s.setRd { s.rd with refill := block.map s.srcByte, refillAt := s.blockStart a }

/-- Every byte SRC index `a` may stand for: the one fetched, the one SRC holds, and those the host overwrote under this
reader (70_reset R391). With no such write they are all the same byte. -/
def State.candidates (s : State) (a : Nat) : List Byte :=
  (s.rd.buffered a).toList ++ [s.srcByte a] ++ (s.rd.stale.filter fun c => c.1 == a).map (·.2)

/-- Deliver the logical bit at index `j` (R142): bit `7 - (j mod 8)` of byte `j div 8`; where the host overwrote the byte
under the reader and the candidates differ in this bit, any value (70_reset R391, 93 I12; log 11). -/
def deliverBit (j : Nat) : Cmd Bool := do
  fetchByte (j / 8)
  let s ← look
  let b := byteBit (s.srcByte (j / 8)) (j % 8)
  if (s.candidates (j / 8)).all fun c => byteBit c (j % 8) == b then pure b
  else
    advance fun s => s.drew 1
    pure (Config.freeBit s.draw)

/-- The loop of `RdBits`: the `n` bits from index `j` on. -/
def deliverBits : Nat → Nat → Cmd Bits
  | 0, _ => pure []
  | n + 1, j => do
    let b ← deliverBit j
    let rest ← deliverBits n (j + 1)
    pure (b :: rest)

/-- `RdBits(n)`, for `n ≤ RdAvail()` (R142). -/
def rdBits (n : Nat) : Cmd Bits := do
  let s ← look
  let bits ← deliverBits n s.rd.pos
  advance fun s => s.setRd { s.rd with pos := s.rd.pos + n }
  pure bits

/-- `if RdAvail() < n: raise c`. -/
def requireAvail (n : Nat) (c : Cause) : Cmd Unit := do
  let s ← look
  require (decide (n ≤ s.rd.avail)) c

/-! ## Writer -/

/-- Put a completed byte into the staging buffer, in index order, after a byte of the same index (60_exceptions R343 "in
index order"; log 26). A writer that no error has touched appends at the end. -/
def stage : List Host.Cell → Nat → Byte → List Host.Cell
  | [], a, v => [(a, v)]
  | (b, w) :: rest, a, v => if a < b then (a, v) :: (b, w) :: rest else (b, w) :: stage rest a v

/-- Write the staged bytes into SNK in index order, stopping at the first failing one (60_exceptions R343). -/
def drainBytes : List Host.Cell → Cmd Unit
  | [] => pure ()
  | (a, v) :: rest => do
    let s ← look
    require (!snkFaultAt s.par a) .snkFault
    advance fun s => (s.setSnk (Memory.set s.snk a v)).setWr { s.wr with staging := rest }
    drainBytes rest

/-- Drain the staging buffer into SNK. -/
def drain : Cmd Unit := do
  let s ← look
  drainBytes s.wr.staging

/-- The staging buffer "is drained ... whenever it is full" (10_state R59). -/
def drainIfFull : Cmd Unit := do
  let s ← look
  if s.par.wbufBytes ≤ s.wr.staging.length then drain else pure ()

/-- `CompleteByte(v)` (R144): the byte takes the next SNK index; the staging buffer is drained by the byte that fills it
(60_exceptions R343), before `snk_pos` moves, as R144's pseudocode orders it for WBUF_BYTES = 1 (log 9). A buffer that is
full already, which only an error leaves so, is drained first. From the moment it is staged the byte counts as stored since
the last flush point (log 12). -/
def completeByte (v : Byte) : Cmd Unit := do
  let s ← look
  require (decide (s.wr.pos < s.par.snkCap)) .snkFull
  drainIfFull
  advance fun s => s.setWr
    { s.wr with staging := stage s.wr.staging s.wr.pos v, fresh := noteFresh s.wr.fresh s.wr.pos }
  drainIfFull
  advance fun s => s.setWr { s.wr with pos := s.wr.pos + 1, len := max s.wr.len (s.wr.pos + 1) }

/-- One bit of `WrBits` (R143). The eighth bit completes the byte at once: `wfrac` never holds eight bits (10_state R55;
log 7). -/
def wrBit (b : Bool) : Cmd Unit := do
  let s ← look
  if s.wr.frac.length < 7 then
    advance fun s => s.setWr { s.wr with frac := s.wr.frac ++ [b], total := s.wr.total + 1#32 }
  else
    advance fun s => s.setWr { s.wr with total := s.wr.total + 1#32 }
    completeByte (byteOf (s.wr.frac ++ [b]))
    advance fun s => s.setWr { s.wr with frac := [] }

/-- `WrBits(s)` (R143). -/
def wrBits : Bits → Cmd Unit
  | [] => pure ()
  | b :: rest => do
    wrBit b
    wrBits rest

/-- `WrInit()` (R145); `c0` is 0 from its call on (log 8). -/
def wrInit : Cmd Unit := do
  noteMark 0
  drain
  advance fun s => s.setWr { s.wr with frac := [], pos := 0, len := 0, total := 0#32, mark := 0, fresh := [] }

/-- `FlushPoint()` (R146). -/
def flushPoint : Cmd Unit := do
  let s ← look
  require s.wr.frac.isEmpty .unalignedFlush
  drain
  advance fun s => s.setWr { s.wr with mark := s.wr.pos, fresh := [] }
  let s ← look
  noteMark s.wr.mark

/-- `Fill()` (R147). -/
def fill : Cmd Nat := do
  let s ← look
  let p := (8 - s.wr.frac.length) % 8
  wrBits (List.replicate p false)
  pure p

/-- `Seek0()` (R148); `c0` is 0 from its call on (log 8). -/
def seek0 : Cmd Unit := do
  noteMark 0
  flushPoint
  advance fun s => s.setWr { s.wr with pos := 0, mark := 0 }

/-- `RawByte(v)` (R149). -/
def rawByte (v : Byte) : Cmd Unit := do
  flushPoint
  completeByte v
  flushPoint

end Sys2Proof.Machine
end

