-- ==== Sys2Proof/Machine/BitStream.lean ====
section
/-! DEFINITION. The reader and writer commands of 40_bitstream (R150 to R160). -/

namespace Sys2Proof.Machine

/-- BR.INIT's pseudocode (R150). -/
def brInitBody : Cmd Unit := rdInit

/-- BR.INIT (R150). -/
def execBrInit (s : State) : Host.Outcome State Fault Refusal := runCmd 0x10#8 brInitBody s

/-- BR.IGN's pseudocode (R151). -/
def brIgnBody : Cmd Unit := do
  let s ← look
  let n := s.ignArg
  require (decide (n ≤ 7)) .ignRange
  advance fun s => s.setRd { s.rd with ign := BitVec.ofNat 3 n }

/-- BR.IGN (R151). -/
def execBrIgn (s : State) : Host.Outcome State Fault Refusal := runCmd 0x11#8 brIgnBody s

/-- BR.READ's pseudocode (R152). -/
def brReadBody (cnt : Nat) : Cmd Unit := do
  require (cntInRange cnt) .cntRange
  let s ← look
  let r := min cnt s.rd.avail
  let bits ← rdBits r
  advance fun s => (s.setResult (BitVec.ofNat 32 (val bits))).setRcnt (BitVec.ofNat 6 r)

/-- BR.READ (R152). -/
def execBrRead (cnt : Nat) (s : State) : Host.Outcome State Fault Refusal := runCmd 0x12#8 (brReadBody cnt) s

/-- BW.INIT's pseudocode (R155). -/
def bwInitBody : Cmd Unit := wrInit

/-- BW.INIT (R155). -/
def execBwInit (s : State) : Host.Outcome State Fault Refusal := runCmd 0x20#8 bwInitBody s

/-- BW.WRITE's pseudocode (R156). -/
def bwWriteBody (cnt : Nat) : Cmd Unit := do
  require (cntInRange cnt) .cntRange
  let s ← look
  wrBits (s.writeArg cnt)

/-- BW.WRITE (R156). -/
def execBwWrite (cnt : Nat) (s : State) : Host.Outcome State Fault Refusal := runCmd 0x21#8 (bwWriteBody cnt) s

/-- BW.FILL's pseudocode (R157). -/
def bwFillBody : Cmd Unit := do
  let p ← fill
  advance fun s => s.setResult (BitVec.ofNat 32 p)

/-- BW.FILL (R157). -/
def execBwFill (s : State) : Host.Outcome State Fault Refusal := runCmd 0x22#8 bwFillBody s

/-- BW.FLUSH's pseudocode (R158). -/
def bwFlushBody : Cmd Unit := flushPoint

/-- BW.FLUSH (R158). -/
def execBwFlush (s : State) : Host.Outcome State Fault Refusal := runCmd 0x23#8 bwFlushBody s

/-- BW.SEEK0's pseudocode (R159). -/
def bwSeek0Body : Cmd Unit := seek0

/-- BW.SEEK0 (R159). -/
def execBwSeek0 (s : State) : Host.Outcome State Fault Refusal := runCmd 0x24#8 bwSeek0Body s

/-- BW.RAW's pseudocode (R160). -/
def bwRawBody : Cmd Unit := do
  let s ← look
  let b := s.rawArg
  require (decide (b ≤ 255)) .rawRange
  rawByte (BitVec.ofNat 8 b)

/-- BW.RAW (R160). -/
def execBwRaw (s : State) : Host.Outcome State Fault Refusal := runCmd 0x25#8 bwRawBody s

end Sys2Proof.Machine
end

