-- ==== Sys2Proof/Machine/EliasGamma.lean ====
section
/-! DEFINITION. The Elias-gamma codec of 41_elias_gamma (R200 to R204). -/

namespace Sys2Proof.Machine

/-- `EG(n)`, the Elias-gamma code (R200): k zero bits and the k + 1 bits of m = n + 1, k = floor_log2(m). -/
def egCode (n : Nat) : Bits :=
  List.replicate (floorLog2 (n + 1)) false ++ nb (n + 1) (floorLog2 (n + 1) + 1)

/-- `WrEG(n)` (R201). -/
def wrEG (n : Nat) : Cmd Unit := wrBits (egCode n)

/-- The zero run of `RdEG` (R202): from `k` zeros already read to the first 1 bit, the answer being their number. `left`
is `33 - k`: at 33 zeros the value would exceed 2^32 - 1. -/
def rdZeroRun : Nat → Nat → Cmd Nat
  | 0, _ => raise .gammaOverflow
  | left + 1, k => do
    requireAvail 1 .truncGamma
    let b ← rdBits 1
    if b = [true] then pure k else rdZeroRun left (k + 1)

/-- `RdEG()` (R202). -/
def rdEG : Cmd Nat := do
  let k ← rdZeroRun 33 0
  requireAvail k .truncGamma
  let rest ← rdBits k
  let m := 2 ^ k + val rest
  require (decide (m ≤ 2 ^ 32)) .gammaOverflow
  pure (m - 1)

/-- EG.ENC's pseudocode (R203). -/
def egEncBody : Cmd Unit := do
  let s ← look
  wrEG s.gammaArg

/-- EG.ENC (R203). -/
def execEgEnc (s : State) : Host.Outcome State Fault Refusal := runCmd 0x30#8 egEncBody s

/-- EG.DEC's pseudocode (R204). -/
def egDecBody : Cmd Unit := do
  let n ← rdEG
  advance fun s => s.setResult (BitVec.ofNat 32 n)

/-- EG.DEC (R204). -/
def execEgDec (s : State) : Host.Outcome State Fault Refusal := runCmd 0x31#8 egDecBody s

end Sys2Proof.Machine
end

