-- ==== Sys2Proof/Machine/Lzss.lean ====
section
/-! DEFINITION. The LZSS engine of 42_lzss: history window, match finder, encoder and decoder (R220 to R250), and the two
operations both engines share, `FinishHeader` (R240) and `RdPadHeader` (R244). -/

namespace Sys2Proof.Machine

/-- `BEP = ceil_div(hb + mb + 1, 9)` (R222). -/
def breakEven (hb mb : Nat) : Nat := ceilDiv (hb + mb + 1) 9

/-- `HistAppend(t)` (R223): a full reset when the append would exceed `MaxHistoryLength = 2^hb - 1`. -/
def histAppend (hb : Nat) (hist t : List Byte) : List Byte :=
  if hist.length + t.length > 2 ^ hb - 1 then t else hist ++ t

/-- How far a candidate extends (R224): the number of leading bytes of the window's rest that equal the lookahead's; it
ends with either of them. -/
def matchLength : List Byte → List Byte → Nat
  | h :: hs, l :: ls => if h = l then matchLength hs ls + 1 else 0
  | _, _ => 0

/-- The scan of `MatchSearch` (R224) over the window's rest from offset `o` on: `found` candidates seen, the best of them
at `bestOff` with length `bestLen`. -/
def scanMatches (look : List Byte) (depth : Nat) : List Byte → Nat → Nat → Nat → Nat → Nat × Nat
  | [], _, _, bestOff, bestLen => (bestOff, bestLen)
  | h :: hs, o, found, bestOff, bestLen =>
    if look.head? = some h then
      let l := matchLength (h :: hs) look
      let best := if l > bestLen then (o, l) else (bestOff, bestLen)
      if depth ≠ 0 ∧ found + 1 = depth then best
      else scanMatches look depth hs (o + 1) (found + 1) best.1 best.2
    else scanMatches look depth hs (o + 1) found bestOff bestLen

/-- `MatchSearch(H, L, depth)` (R224): offset and length. -/
def matchSearch (hist look : List Byte) (depth : Nat) : Nat × Nat :=
  scanMatches look depth hist 0 0 0 0

/-- An LZSS record (30_encoding R115). -/
inductive LzRecord where
  /-- Literal(b). -/
  | literal (b : Byte)
  /-- Match(off, len). -/
  | copy (off len : Nat)
  deriving DecidableEq, Repr

/-- The bits of a record (R228, 30_encoding R115). -/
def recordBits (hb mb : Nat) : LzRecord → Bits
  | .literal b => true :: bitsOfByte b
  | .copy off len => false :: (nb off hb ++ nb len mb)

/-- The lookahead at a coding position (R226). -/
def lookahead (src : List Byte) (mb pos : Nat) : List Byte :=
  (src.drop pos).take (min (2 ^ mb - 1) (src.length - pos))

/-- The record the encoder chooses at its coding position (R227). -/
def chooseRecord (m : LzMem) : LzRecord :=
  let found := matchSearch m.hist m.look m.depth
  if found.2 ≤ breakEven m.hb m.mb then .literal (m.look.headD 0#8) else .copy found.1 found.2

/-- How many source bytes a record stands for in the encoder (R227). -/
def recordSpan : LzRecord → Nat
  | .literal _ => 1
  | .copy _ len => len

/-- The engine memories with the lookahead loaded (R226, R229). -/
def LzMem.loadLook (m : LzMem) (src : List Byte) : LzMem := { m with look := lookahead src m.mb m.pos }

/-- The engine memories after a record (R227, R229): the bytes it stands for appended to the window, the position moved. -/
def LzMem.afterRecord (m : LzMem) (r : LzRecord) : LzMem :=
  { m with hist := histAppend m.hb m.hist (m.look.take (recordSpan r)), pos := m.pos + recordSpan r }

/-- The loop of `LzEncode` (R229); at most `fuel` records, each of which moves the position by at least 1. -/
def lzEncodeLoop (src : List Byte) : Nat → Cmd Unit
  | 0 => pure ()
  | fuel + 1 => do
    let s ← look
    if s.eng.lz.pos < src.length then
      advance fun s => s.setLz (s.eng.lz.loadLook src)
      let s ← look
      let r := chooseRecord s.eng.lz
      wrBits (recordBits s.eng.lz.hb s.eng.lz.mb r)
      advance fun s => s.setLz (s.eng.lz.afterRecord r)
      lzEncodeLoop src fuel
    else pure ()

/-- `LzEncode(S, hb, mb, depth)` (R229). -/
def lzEncode (src : List Byte) (hb mb depth : Nat) : Cmd Unit := do
  wrBits [false, false, false]
  wrEG hb
  wrEG mb
  advance fun s => s.setLz { hb := hb, mb := mb, depth := depth, hist := [], pos := 0, look := [] }
  lzEncodeLoop src src.length

/-- `FinishHeader()` (R240). -/
def finishHeader : Cmd Unit := do
  let p ← fill
  seek0
  let s ← look
  rawByte ((BitVec.ofNat 8 p <<< 5) ||| (s.snkByte 0 &&& 0x1F#8))

/-- `REG[RESULT] <- snk_len`, the end of every engine command (92 D30). -/
def resultIsLength : Cmd Unit := advance fun s => s.setResult (BitVec.ofNat 32 s.wr.len)

/-- LZ.COMP's pseudocode (R241). -/
def lzCompBody : Cmd Unit := do
  let s ← look
  let hb := s.hbArg
  let mb := s.mbArg
  let depth := s.depthArg
  require (hbInRange s.par hb) .hbRange
  require (mbInRange s.par mb) .mbRange
  rdInit
  enterEngine
  wrInit
  let s ← look
  let bits ← rdBits (8 * s.rd.len)
  lzEncode (bytesOf bits) hb mb depth
  finishHeader
  resultIsLength
  leaveEngine

/-- LZ.COMP (R241). -/
def execLzComp (s : State) : Host.Outcome State Fault Refusal := runCmd 0x40#8 lzCompBody s

/-- `RdPadHeader()` (R244). -/
def rdPadHeader : Cmd Unit := do
  requireAvail 3 .truncHeader
  let bits ← rdBits 3
  advance fun s => s.setRd { s.rd with ign := BitVec.ofNat 3 (val bits) }
  let s ← look
  require (decide (s.rd.pos ≤ s.rd.logicalLen)) .padExceeds

/-- `LzReadHeader()` (R245): both codes are read before either value is checked. -/
def lzReadHeader : Cmd (Nat × Nat) := do
  let hb ← rdEG
  let mb ← rdEG
  let s ← look
  require (hbInRange s.par hb) .hdrHb
  require (mbInRange s.par mb) .hdrMb
  pure (hb, mb)

/-- One record of `LzDecode` (R246). -/
def lzDecodeRecord : Cmd Unit := do
  let tag ← rdBits 1
  let s ← look
  let m := s.eng.lz
  if tag = [true] then
    requireAvail 8 .truncRecord
    let bits ← rdBits 8
    let b := byteOf bits
    wrBits (bitsOfByte b)
    advance fun s => s.setLz { s.eng.lz with hist := histAppend m.hb m.hist [b] }
  else
    requireAvail (m.hb + m.mb) .truncRecord
    let offBits ← rdBits m.hb
    let lenBits ← rdBits m.mb
    let off := val offBits
    let len := val lenBits
    require (decide (off + len ≤ m.hist.length)) .badReference
    let t := (m.hist.drop off).take len
    wrBits (bitsOf t)
    advance fun s => s.setLz { s.eng.lz with hist := histAppend m.hb m.hist t }

/-- The loop of `LzDecode` (R246); at most `fuel` records, each of which reads at least 1 bit. -/
def lzDecodeLoop : Nat → Cmd Unit
  | 0 => pure ()
  | fuel + 1 => do
    let s ← look
    if 0 < s.rd.avail then
      lzDecodeRecord
      lzDecodeLoop fuel
    else pure ()

/-- `LzDecode(hb, mb)` (R246). -/
def lzDecode (hb mb : Nat) : Cmd Unit := do
  advance fun s => s.setLz { hb := hb, mb := mb, depth := 0, hist := [], pos := 0, look := [] }
  let s ← look
  lzDecodeLoop s.rd.avail

/-- LZ.DEC's pseudocode (R250). -/
def lzDecBody : Cmd Unit := do
  rdInit
  enterEngine
  wrInit
  rdPadHeader
  let hm ← lzReadHeader
  lzDecode hm.1 hm.2
  flushPoint
  resultIsLength
  leaveEngine

/-- LZ.DEC (R250). -/
def execLzDec (s : State) : Host.Outcome State Fault Refusal := runCmd 0x41#8 lzDecBody s

end Sys2Proof.Machine
end

