-- ==== Sys2Proof/Machine/ShannonFano.lean ====
section
/-! DEFINITION. The Shannon-Fano engine of 43_shannon_fano: Words, frequency pass, code builder, ParserTree, encoder and
decoder (R270 to R300). -/

namespace Sys2Proof.Machine

/-! ## Frequency table, order and codes -/

/-- Count one occurrence of a Word (R272). -/
def countWord : List (Nat × Nat) → Nat → List (Nat × Nat)
  | [], w => [(w, 1)]
  | (v, n) :: rest, w =>
    if w < v then (w, 1) :: (v, n) :: rest
    else if w = v then (v, n + 1) :: rest
    else (v, n) :: countWord rest w

/-- `freq[w]` (R272): a Word that is not listed counts 0. -/
def freqOf : List (Nat × Nat) → Nat → Nat
  | [], _ => 0
  | (v, n) :: rest, w => if v = w then n else freqOf rest w

/-- R273's order: descending frequency, then ascending Word. -/
def rankedBefore (a b : Nat × Nat) : Bool := decide (a.2 > b.2) || (a.2 == b.2 && decide (a.1 < b.1))

/-- Insert into a list in R273's order. -/
def insertRanked (e : Nat × Nat) : List (Nat × Nat) → List (Nat × Nat)
  | [] => [e]
  | f :: rest => if rankedBefore e f then e :: f :: rest else f :: insertRanked e rest

/-- The counted Words sorted in R273's order. -/
def rankWords (freq : List (Nat × Nat)) : List (Nat × Nat) := freq.foldr insertRanked []

/-- `order` (R273): the distinct Words, sorted. -/
def orderOf (freq : List (Nat × Nat)) : List Nat := (rankWords freq).map (·.1)

/-- The split index of R274: how many Words, from the first on, it takes until twice the running sum reaches the total `t`;
`c` is the sum so far. The Word that reaches it belongs to the left partition. -/
def splitCount (freq : List (Nat × Nat)) (t : Nat) : List Nat → Nat → Nat
  | [], _ => 0
  | w :: rest, c =>
    if t ≤ 2 * (c + freqOf freq w) then 1 else splitCount freq t rest (c + freqOf freq w) + 1

/-- The frequency total of a partition (R274). -/
def totalFreq (freq : List (Nat × Nat)) (ws : List Nat) : Nat := (ws.map (freqOf freq)).sum

/-- `Split(lst, prefix)` (R274): the Codes it assigns. A partition is never split into itself, so `fuel = |lst|` is enough
(log 23). -/
def splitCodes (freq : List (Nat × Nat)) : Nat → List Nat → Bits → List (Nat × Bits)
  | _, [], _ => []
  | _, [w], path => [(w, path)]
  | 0, _ :: _ :: _, _ => []
  | fuel + 1, w :: v :: rest, path =>
    let ws := w :: v :: rest
    let i := splitCount freq (totalFreq freq ws) ws 0
    splitCodes freq fuel (ws.take i) (path ++ [false]) ++ splitCodes freq fuel (ws.drop i) (path ++ [true])

/-- `BuildCodes(order)` (R274, R275): the Code of each distinct Word; "0" for a single one. -/
def buildCodes (freq : List (Nat × Nat)) (order : List Nat) : List (Nat × Bits) :=
  match order with
  | [w] => [(w, [false])]
  | _ => splitCodes freq order.length order []

/-- `code[w]` (10_state R61). -/
def codeOf : List (Nat × Bits) → Nat → Bits
  | [], _ => []
  | (v, c) :: rest, w => if v = w then c else codeOf rest w

/-! ## ParserTree -/

/-- Walk a Code from a node, creating each missing INTERNAL node, and make its end a LEAF holding `w` (R276). -/
def PTree.insert (w : Nat) : Bits → PTree → PTree
  | [], _ => .leaf w
  | b :: rest, .node c0 c1 =>
    if b then .node c0 (PTree.insert w rest c1) else .node (PTree.insert w rest c0) c1
  | b :: rest, .none =>
    if b then .node .none (PTree.insert w rest .none) else .node (PTree.insert w rest .none) .none
  | b :: rest, .leaf _ =>
    if b then .node .none (PTree.insert w rest .none) else .node (PTree.insert w rest .none) .none

/-- `TreeFromCodes(code)` (R276): from a root with no children, each Word of `order` in turn. -/
def treeFromCodes (code : List (Nat × Bits)) (order : List Nat) : PTree :=
  order.foldl (fun t w => PTree.insert w (codeOf code w) t) (.node .none .none)

/-- `SerNode(n)` (R277). A missing child writes nothing; a tree of two or more Words has none. -/
def serNode (wl : Nat) : PTree → Bits
  | .none => []
  | .leaf w => true :: nb w wl
  | .node c0 c1 => false :: (serNode wl c0 ++ serNode wl c1)

/-- The tree header `SerTree()` writes (R277). -/
def serTree (wl : Nat) (order : List Nat) (tree : PTree) : Bits :=
  match order with
  | [] => true :: List.replicate wl false
  | [w] => true :: nb w wl
  | _ => serNode wl tree

/-- `Normalize()` (R279). -/
def normalize : PTree → PTree
  | .leaf w => .node (.leaf w) .none
  | .none => .node .none .none
  | .node c0 c1 => .node c0 c1

/-! ## Encoder -/

/-- `nW`, the number of Words of the input (R270). -/
def wordCount (len wl : Nat) : Nat := ceilDiv (8 * len) wl

/-- `P`, the word pad count (R270, R287). -/
def wordPad (len wl : Nat) : Nat := wordCount len wl * wl - 8 * len

/-- `ReadWord()` (R271). -/
def readWord (wl : Nat) : Cmd Nat := do
  let s ← look
  let r := min wl s.rd.avail
  let bits ← rdBits r
  pure (val (bits ++ List.replicate (wl - r) false))

/-- `CountPass()` (R272), for the `n` Words still to count. -/
def countPass (wl : Nat) : Nat → Cmd Unit
  | 0 => pure ()
  | n + 1 => do
    let w ← readWord wl
    advance fun s => s.setSf { s.eng.sf with freq := countWord s.eng.sf.freq w }
    countPass wl n

/-- `CodePass()` (R280), for the `n` Words still to code. -/
def codePass (wl : Nat) : Nat → Cmd Unit
  | 0 => pure ()
  | n + 1 => do
    let w ← readWord wl
    let s ← look
    wrBits (codeOf s.eng.sf.code w)
    codePass wl n

/-- `order`, the Codes and the ParserTree from the frequency table (R273 to R276): with no Word there is neither. -/
def SfMem.build (m : SfMem) : SfMem :=
  let order := orderOf m.freq
  if order = [] then { m with order := [] }
  else
    let code := buildCodes m.freq order
    { m with order := order, code := code, tree := treeFromCodes code order }

/-- `SfEncode(WL)` (R287). -/
def sfEncode (wl : Nat) : Cmd Unit := do
  let s ← look
  let nW := wordCount s.rd.len wl
  let p := wordPad s.rd.len wl
  advance fun s => s.setSf { wl := wl, p := p, freq := [], order := [], code := [], tree := .none, node := .none }
  countPass wl nW
  advance fun s => s.setSf s.eng.sf.build
  wrBits [false, false, false]
  wrEG p
  wrEG wl
  let s ← look
  wrBits (serTree wl s.eng.sf.order s.eng.sf.tree)
  rdRewind
  codePass wl nW

/-- SF.COMP's pseudocode (R291). -/
def sfCompBody : Cmd Unit := do
  let s ← look
  let wl := s.wlArg
  require (wlInRange s.par wl) .wlRange
  rdInit
  enterEngine
  wrInit
  sfEncode wl
  finishHeader
  resultIsLength
  leaveEngine

/-- SF.COMP (R291). -/
def execSfComp (s : State) : Host.Outcome State Fault Refusal := runCmd 0x50#8 sfCompBody s

/-! ## Decoder -/

/-- `SfReadHeader()` (R295). -/
def sfReadHeader : Cmd (Nat × Nat) := do
  let p ← rdEG
  let wl ← rdEG
  let s ← look
  require (wlInRange s.par wl) .hdrWl
  require (decide (p < wl)) .badPad
  pure (p, wl)

/-- `ParseNode()` (R278). `nl` is (nodes, leaves) counted so far, returned with the subtree. The recursion is at most
2^(WL+1) - 1 deep (R278), so with `fuel = 2^(WL+1)` the case 0 is never reached (log 23). -/
def parseNode (wl : Nat) : Nat → Nat × Nat → Cmd (PTree × Nat × Nat)
  | 0, _ => raise .treeTooLarge
  | fuel + 1, nl => do
    requireAvail 1 .truncTree
    let b ← rdBits 1
    let nodes := nl.1 + 1
    require (decide (nodes ≤ 2 ^ (wl + 1) - 1)) .treeTooLarge
    if b = [true] then
      let leaves := nl.2 + 1
      require (decide (leaves ≤ 2 ^ wl)) .treeTooLarge
      requireAvail wl .truncTree
      let bits ← rdBits wl
      pure (.leaf (val bits), nodes, leaves)
    else
      let left ← parseNode wl fuel (nodes, nl.2)
      let right ← parseNode wl fuel left.2
      pure (.node left.1 right.1, right.2)

/-- `ParseTree()` (R278). -/
def parseTree (wl : Nat) : Cmd Unit := do
  let parsed ← parseNode wl (2 ^ (wl + 1)) (0, 0)
  advance fun s => s.setSf { s.eng.sf with tree := normalize parsed.1 }

/-- One code walk of `DecodeWalk` (R296), from the node it has reached: the Word of the LEAF it ends at. -/
def walkCode : PTree → Cmd Nat
  | .none => raise .noChild
  | .leaf w => pure w
  | .node c0 c1 => do
    advance fun s => s.setSf { s.eng.sf with node := .node c0 c1 }
    requireAvail 1 .truncCode
    let b ← rdBits 1
    if b = [true] then walkCode c1 else walkCode c0

/-- Write a held-back Word, if there is one (R296). -/
def emitPending (wl : Nat) : Option Nat → Cmd Unit
  | none => pure ()
  | some w => wrBits (nb w wl)

/-- The loop of `DecodeWalk` (R296), `pend` being the Word held back; at most `fuel` walks, each of which reads at least 1
bit. -/
def decodeWalkLoop (wl : Nat) : Nat → Option Nat → Cmd (Option Nat)
  | 0, pend => pure pend
  | fuel + 1, pend => do
    let s ← look
    if 0 < s.rd.avail then
      let w ← walkCode s.eng.sf.tree
      emitPending wl pend
      decodeWalkLoop wl fuel (some w)
    else pure pend

/-- `DecodeWalk()` (R296). -/
def decodeWalk (wl : Nat) : Cmd (Option Nat) := do
  let s ← look
  decodeWalkLoop wl s.rd.avail none

/-- `StripPad(pend)` (R297). -/
def stripPad (p wl : Nat) (pend : Option Nat) : Cmd Unit := do
  match pend with
  | none => require (decide (p = 0)) .padUnderflow
  | some w => wrBits ((nb w wl).take (wl - p))
  let s ← look
  require s.wr.frac.isEmpty .outMisaligned

/-- SF.DEC's pseudocode (R300). -/
def sfDecBody : Cmd Unit := do
  rdInit
  enterEngine
  wrInit
  rdPadHeader
  let pw ← sfReadHeader
  advance fun s => s.setSf { s.eng.sf with p := pw.1, wl := pw.2 }
  parseTree pw.2
  let pend ← decodeWalk pw.2
  stripPad pw.1 pw.2 pend
  flushPoint
  resultIsLength
  leaveEngine

/-- SF.DEC (R300). -/
def execSfDec (s : State) : Host.Outcome State Fault Refusal := runCmd 0x51#8 sfDecBody s

end Sys2Proof.Machine
end

