-- ==== Sys2Proof/Machine/System.lean ====
section
/-! DEFINITION. The system commands of 44_system (R330 to R332). -/

namespace Sys2Proof.Machine

/-- NOP's pseudocode: none (R330). -/
def nopBody : Cmd Unit := pure ()

/-- NOP (R330). -/
def execNop (s : State) : Host.Outcome State Fault Refusal := runCmd 0x00#8 nopBody s

/-- CLR's pseudocode (R331). -/
def clrBody : Cmd Unit := advance clearError

/-- CLR (R331), the return from an error (60_exceptions R350). -/
def execClr (s : State) : Host.Outcome State Fault Refusal := runCmd 0x01#8 clrBody s

/-- SRST's pseudocode (R332). -/
def srstBody : Cmd Unit := advance softReset

/-- SRST (R332). -/
def execSrst (s : State) : Host.Outcome State Fault Refusal := runCmd 0x02#8 srstBody s

end Sys2Proof.Machine
end

