-- ==== Sys2Proof/Machine/Dispatch.lean ====
section
/-! DEFINITION. exec: one arm for each command of the opcode table (30_encoding R105). -/

namespace Sys2Proof.Machine

def exec (i : Instr) (s : State) : Host.Outcome State Fault Refusal :=
  match i with
  | .nop => Sys2Proof.Machine.execNop s
  | .clr => Sys2Proof.Machine.execClr s
  | .srst => Sys2Proof.Machine.execSrst s
  | .brInit => Sys2Proof.Machine.execBrInit s
  | .brIgn => Sys2Proof.Machine.execBrIgn s
  | .brRead cnt => Sys2Proof.Machine.execBrRead cnt s
  | .bwInit => Sys2Proof.Machine.execBwInit s
  | .bwWrite cnt => Sys2Proof.Machine.execBwWrite cnt s
  | .bwFill => Sys2Proof.Machine.execBwFill s
  | .bwFlush => Sys2Proof.Machine.execBwFlush s
  | .bwSeek0 => Sys2Proof.Machine.execBwSeek0 s
  | .bwRaw => Sys2Proof.Machine.execBwRaw s
  | .egEnc => Sys2Proof.Machine.execEgEnc s
  | .egDec => Sys2Proof.Machine.execEgDec s
  | .lzComp => Sys2Proof.Machine.execLzComp s
  | .lzDec => Sys2Proof.Machine.execLzDec s
  | .sfComp => Sys2Proof.Machine.execSfComp s
  | .sfDec => Sys2Proof.Machine.execSfDec s

end Sys2Proof.Machine
end

