-- ==== Sys2Proof/Machine/HostPort.lean ====
section
/-! DEFINITION. What the host and the platform can do to the core (70_reset R384): the issue of a command word (30_encoding
R110, 60_exceptions R347), the register window (10_state R31, R32), the SRC and SNK windows (20_memory R79, R80; 70_reset
R391, R392), and the hardware reset (70_reset R380). -/

namespace Sys2Proof.Machine

/-- The cause a decode error raises (30_encoding R106 to R108). -/
def illegalCause : DecodeError → Cause
  | .badOp => .badOp
  | .rsvSet => .rsvSet
  | .cntUnused => .cntUnused

/-- NOP, CLR and SRST: the OP values that are decoded while `err = 1` (60_exceptions R347). -/
def isSystemOp (op : BitVec 8) : Bool := op == 0x00#8 || op == 0x01#8 || op == 0x02#8

/-- A command word is ignored: `err = 1` and its OP is not NOP, CLR or SRST (60_exceptions R347). -/
def isIgnored (w : Word) (s : State) : Bool := s.er.err && !isSystemOp (opField w)

/-- A host write of the word `w` to CMD (30_encoding R110). -/
def issue (w : Word) (s : State) : Host.Outcome State Fault Refusal :=
  if isIgnored w s then .next s
  else
    match decode w with
    | .error e => .next (errorEntry (illegalCause e) (opField w) s)
    | .ok i => exec i s

/-- The pseudocode of each command, the one its meaning runs. -/
def bodyOf : Instr → Cmd Unit
  | .nop => nopBody
  | .clr => clrBody
  | .srst => srstBody
  | .brInit => brInitBody
  | .brIgn => brIgnBody
  | .brRead cnt => brReadBody cnt
  | .bwInit => bwInitBody
  | .bwWrite cnt => bwWriteBody cnt
  | .bwFill => bwFillBody
  | .bwFlush => bwFlushBody
  | .bwSeek0 => bwSeek0Body
  | .bwRaw => bwRawBody
  | .egEnc => egEncBody
  | .egDec => egDecBody
  | .lzComp => lzCompBody
  | .lzDec => lzDecBody
  | .sfComp => sfCompBody
  | .sfDec => sfDecBody

/-- The run of a piece of pseudocode from a state, whether it ends or raises. -/
def runOf (body : Cmd Unit) (s : State) : Run :=
  match body (Run.start s) with
  | .ok _ r => r
  | .error _ r => r

/-- The state at point `t` of the run of the command word `w`: the last point where the run is shorter, `s` where the word
starts no command. -/
def stateDuring (w : Word) (t : Nat) (s : State) : State :=
  if isIgnored w s then s
  else
    match decode w with
    | .error _ => s
    | .ok i => (runOf (bodyOf i) s).points.getD t (runOf (bodyOf i) s).st

/-- A write of a whole aligned register (10_state R31, R32): CMD issues a command; RO registers and reserved offsets ignore
it. -/
def writeReg (offset : Nat) (v : Word) (s : State) : Host.Outcome State Fault Refusal :=
  match offset with
  | 0x04 => issue v s
  | 0x08 => .next { s with arg0 := v }
  | 0x0C => .next { s with arg1 := v }
  | 0x10 => .next { s with arg2 := v }
  | 0x20 => .next { s with srcLen := v }
  | _ => .next s

/-- An access is within the contract: 32 bits wide at a multiple of 4 (10_state R32). -/
def regAligned (offset width : Nat) : Bool := decide (width = 32) && decide (offset % 4 = 0)

/-- A host write of SRC (20_memory R79, R87). A byte of the current reader that it overwrites, one below `rd_len` or in the
refill buffer, is remembered (70_reset R391, log 11). -/
def hostWriteSrc (a : Nat) (v : Byte) (s : State) : State :=
  let kept := if a < s.rd.len ∨ (s.rd.buffered a).isSome then s.setRd { s.rd with stale := (a, s.srcByte a) :: s.rd.stale } else s
  kept.setSrc (Memory.set s.src a v)

/-- What a host read of SNK returns: any value for a byte stored since the last flush point, else the byte SNK holds
(20_memory R80, 93 I10, I11; log 12). -/
def hostReadSnk (a : Nat) (s : State) : State :=
  if s.unflushed a then (s.setBus ((Config.freeByte s.draw).setWidth 32)).drew 1
  else s.setBus ((s.snkByte a).setWidth 32)

/-- One action of the host or the platform (70_reset R384, R380). -/
def perform (act : HostAction) (s : State) : Host.Outcome State Fault Refusal :=
  match act with
  | .regWrite offset width v =>
    if 64 ≤ offset then .fault .outsideRegWindow
    else if regAligned offset width then writeReg offset v s
    else .next s
  | .regRead offset width =>
    if 64 ≤ offset then .fault .outsideRegWindow
    else if regAligned offset width then .next (s.setBus (s.readReg offset))
    else .next ((s.setBus (Config.freeWord s.draw)).drew 1)
  | .srcWrite a v => if s.par.srcMax ≤ a then .fault .outsideSrc else .next (hostWriteSrc a v s)
  | .snkRead a => if s.par.snkCap ≤ a then .fault .outsideSnk else .next (hostReadSnk a s)
  | .snkWrite a v =>
    if s.par.snkCap ≤ a then .fault .outsideSnk
    else if s.unflushed a && decide (a < s.wr.len) then .refused .hostDuty
    else .next (s.setSnk (Memory.set s.snk a v))
  | .reset => .next (hardReset s)
  | .resetDuring w t => .next (hardReset (stateDuring w t s))

end Sys2Proof.Machine
end

