-- ==== Sys2Proof/Machine/Step.lean ====
section
/-! DEFINITION. One step of the machine: the host's next action (00_scope R24, 20_memory R86). The core fetches nothing
(10_state R33): its commands are the words the host writes to CMD, and with no action queued it is idle and keeps all its
state (60_exceptions R360). -/

namespace Sys2Proof.Machine

/-- One step: the host's next action, taken from the queue; idle when there is none (log 1). -/
def step (s : State) : Host.Outcome State Fault Refusal :=
  match s.host with
  | [] => .next s
  | act :: rest => perform act (s.setHost rest)

/-- The state in which the host's next action is a write to CMD of the word whose bits are `w` (every bit above `nbits` 0):
the place step takes its next command word from (log 1). -/
def State.withFetchWord (s : State) (nbits w : Nat) : State :=
  s.setHost (.regWrite 0x04 32 (BitVec.ofNat 32 (w % 2 ^ nbits)) :: s.host)

end Sys2Proof.Machine
end

