-- ==== Sys2Proof/WellFormed.lean ====
section
/-! DEFINITION. Which terms stand for something of the hardware: a command whose CNT fits its 6-bit field (30_encoding
R100, R101), and launch parameters within the constraints of 00_scope R10 (93 I1 to I4). -/

namespace Sys2Proof

/-- CNT is 0 to 63 (30_encoding R101). A CNT above 32 is well formed: the command refuses it, not the decoder (R105). -/
def Instr.wf : Instr → Bool
  | .brRead cnt => decide (cnt < 64)
  | .bwWrite cnt => decide (cnt < 64)
  | .nop | .clr | .srst | .brInit | .brIgn | .bwInit | .bwFill | .bwFlush | .bwSeek0 | .bwRaw
  | .egEnc | .egDec | .lzComp | .lzDec | .sfComp | .sfDec => true

/-- The constraints of 00_scope R10 on the launch parameters. -/
def Params.wf (p : Params) : Bool :=
  decide (1 ≤ p.hbMax ∧ p.hbMax ≤ 24) && decide (1 ≤ p.mbMax ∧ p.mbMax ≤ 24) &&
  decide (1 ≤ p.wlMax ∧ p.wlMax ≤ 24) && decide (1 ≤ p.srcMax ∧ p.srcMax ≤ 2 ^ 28) &&
  decide (1 ≤ p.snkCap ∧ p.snkCap ≤ 2 ^ 28) && decide (1 ≤ p.bufBytes) && decide (1 ≤ p.wbufBytes)

end Sys2Proof
end

