-- ==== Sys2Proof/Safety.lean ====
section
/-! DEFINITION. The terms claims are stated in: what the host can observe (00_scope R25, 70_reset R385), the byte the writer
last stored at an index (20_memory R80), the logical stream (10_state R54), when an access can fail (20_memory R84), the two
file formats (30_encoding R115, R116), and the invariant of the machine. -/

namespace Sys2Proof.Machine

/-! ## The sink -/

/-- The byte the writer last stored at index `a`, staged or already in SNK: the byte `SNK[a]` holds once a flush point has
passed (20_memory R80, R88). -/
def State.storedByte (s : State) (a : Nat) : Byte :=
  s.wr.staging.foldl (fun v c => if c.1 = a then c.2 else v) (s.snkByte a)

/-- The writer is at a flush point (70_reset R385). -/
def State.atFlushPoint (s : State) : Prop :=
  s.wr.mark = s.wr.pos ∧ s.wr.frac = [] ∧ s.wr.staging = [] ∧ s.wr.fresh = []

/-- The bytes stored since the last flush point are those at `cmark` to `snk_pos - 1` (70_reset R392, "index `cmark` and
above"). Only a MALFORMED, UNSUPPORTED or IO error can leave it otherwise (60_exceptions R346). -/
def State.freshFromMark (s : State) : Prop :=
  s.wr.mark ≤ s.wr.pos ∧ ∀ a, s.unflushed a = true ↔ s.wr.mark ≤ a ∧ a < s.wr.pos

/-- The output, `SNK[0 .. SNK_LEN)` (70_reset R385). -/
def State.output (s : State) : List Byte := (List.range s.wr.len).map s.snkByte

/-- No write of a staged byte fails (60_exceptions R343). -/
def State.stagedSound (s : State) : Prop := ∀ c ∈ s.wr.staging, snkFaultAt s.par c.1 = false

/-- The writer can store `k` more bytes: the sink has room for them, and neither they nor the staged bytes fail
(40_bitstream R144, 60_exceptions R343). -/
def State.canStore (s : State) (k : Nat) : Prop :=
  s.stagedSound ∧ s.wr.pos + k ≤ s.par.snkCap ∧
    ∀ a, s.wr.pos ≤ a → a < s.wr.pos + k → snkFaultAt s.par a = false

/-- A new output of `k` bytes can be stored: the sink has room for it, and neither it nor the staged bytes fail
(40_bitstream R144, R145, 60_exceptions R343). -/
def State.canStoreFile (s : State) (k : Nat) : Prop :=
  s.stagedSound ∧ k ≤ s.par.snkCap ∧ ∀ a, a < k → snkFaultAt s.par a = false

/-- `t` is `s` after `WrBits(bits)` (40_bitstream R143, R144): every eighth bit has completed a byte, the completed bytes are
stored from `snk_pos` on, not at a flush point yet (20_memory R80), the rest is the incomplete byte, and no other index and no
other state is touched. -/
def Appended (s t : State) (bits : Bits) : Prop :=
  let all := s.wr.frac ++ bits
  let k := all.length / 8
  t = { s with wr := t.wr, snk := t.snk } ∧
  t.wr.frac = all.drop (8 * k) ∧
  t.wr.pos = s.wr.pos + k ∧
  t.wr.len = (if k = 0 then s.wr.len else max s.wr.len (s.wr.pos + k)) ∧
  t.wr.total = s.wr.total + BitVec.ofNat 32 bits.length ∧
  t.wr.mark = s.wr.mark ∧
  (∀ a, t.unflushed a = true ↔ s.unflushed a = true ∨ (s.wr.pos ≤ a ∧ a < s.wr.pos + k)) ∧
  ∀ a, t.storedByte a =
    if s.wr.pos ≤ a ∧ a < s.wr.pos + k then (bytesOf all).getD (a - s.wr.pos) 0#8 else s.storedByte a

/-- `t` is `s` after a flush point, its writer now `w` (40_bitstream R146): SNK holds every byte the writer stored, and no
other state is touched. -/
def FlushedTo (s t : State) (w : Writer) : Prop :=
  t = { s with wr := { w with staging := [], fresh := [] }, snk := t.snk } ∧ ∀ a, t.snkByte a = s.storedByte a

/-! ## Resets and errors -/

/-- What a hardware reset in the state `u` leaves (70_reset R380, 10_state R64): every register and every piece of reader,
writer and error state at its reset value; the launch parameters, the host's actions and SRC as they were; the only SNK bytes
that may change are those stored since the last flush point (log 28). -/
def AfterReset (u t : State) : Prop :=
  t.arg0 = 0#32 ∧ t.arg1 = 0#32 ∧ t.arg2 = 0#32 ∧ t.srcLen = 0#32 ∧ t.result = 0#32 ∧ t.rcnt = 0#6 ∧
  t.readReg 0x14 = 0x00000004#32 ∧
  t.rd = { len := 0, pos := 0, ign := 0#3, refill := [], refillAt := 0, stale := [] } ∧
  t.wr = { frac := [], pos := 0, len := 0, total := 0#32, mark := 0, staging := [], fresh := [] } ∧
  t.er = { err := false, code := .none, info := 0#16 } ∧
  t.par = u.par ∧ t.host = u.host ∧
  (∀ a, t.srcByte a = u.srcByte a) ∧
  ∀ a, u.unflushed a = false → t.snkByte a = u.snkByte a

/-- The command `i` issued in `s` ends in error entry with this code and this ERRINFO (60_exceptions R345). -/
def Raises (i : Instr) (s : State) (code : ErrCode) (info : BitVec 16) : Prop :=
  ∃ t, exec i s = .next t ∧ t.er = { err := true, code := code, info := info }

/-! ## The source -/

/-- `SRC[0 .. n)`. -/
def State.source (s : State) (n : Nat) : List Byte := (List.range n).map s.srcByte

/-- The bit at index `j` of the source (20_memory R70). -/
def State.srcBit (s : State) (j : Nat) : Bool := byteBit (s.srcByte (j / 8)) (j % 8)

/-- The logical stream (10_state R54). -/
def State.logicalStream (s : State) : Bits := (bitsOf (s.source s.rd.len)).take s.rd.logicalLen

/-- The bits the reader has not yet delivered (40_bitstream R141). -/
def State.unread (s : State) : Bits := s.logicalStream.drop s.rd.pos

/-- No read of the first `n` bytes of SRC fails (20_memory R84); a fault beyond them is never raised (60_exceptions R343). -/
def State.sourceSound (s : State) (n : Nat) : Prop := ∀ a, a < n → srcFaultAt s.par a = false

/-- SRC byte `a` stands for one value only: the refill buffer, if it holds the byte, holds the value SRC holds, and the host
has written no other value under this reader (70_reset R391). -/
def State.steadyAt (s : State) (a : Nat) : Prop := ∀ v ∈ s.candidates a, v = s.srcByte a

/-- The bytes of the next `n` bits of the source each stand for one value: the host has kept its duty of 70_reset R384. -/
def State.steady (s : State) (n : Nat) : Prop :=
  ∀ j, s.rd.pos ≤ j → j < s.rd.pos + n → s.steadyAt (j / 8)

/-- `t` is `s` with the source bits up to `pos` delivered (40_bitstream R142): no other reader state moves but the refill
buffer. -/
def DeliveredTo (s t : State) (pos : Nat) : Prop :=
  t.rd = { s.rd with pos := pos, refill := t.rd.refill, refillAt := t.rd.refillAt }

/-! ## The file formats -/

/-- N, the number of zero bits that complete the last byte of `n` bits (30_encoding R115). -/
def fillCount (n : Nat) : Nat := (8 - n % 8) % 8

/-- The bits of a file with the body `body`: the pad field, the body, N zero bits (30_encoding R115, R116). -/
def fileBits (body : Bits) : Bits :=
  nb (fillCount (3 + body.length)) 3 ++ body ++ List.replicate (fillCount (3 + body.length)) false

/-- The records the encoder writes from the window `hist` and the coding position `pos` on, at most `fuel` of them
(42_lzss R226, R227, R229). -/
def lzRecordsFrom (hb mb depth : Nat) (src : List Byte) : Nat → List Byte → Nat → List LzRecord
  | 0, _, _ => []
  | fuel + 1, hist, pos =>
    if pos < src.length then
      let m : LzMem := { hb := hb, mb := mb, depth := depth, hist := hist, pos := pos, look := lookahead src mb pos }
      let r := chooseRecord m
      r :: lzRecordsFrom hb mb depth src fuel (m.afterRecord r).hist (m.afterRecord r).pos
    else []

/-- The records of a source (42_lzss R229). -/
def lzRecords (hb mb depth : Nat) (src : List Byte) : List LzRecord :=
  lzRecordsFrom hb mb depth src src.length [] 0

/-- `t` is a beginning of the Elias-gamma code of some value, and not all of it (41_elias_gamma R202). -/
def gammaCut (t : Bits) : Prop := ∃ v, v < 2 ^ 32 ∧ t.isPrefixOf (egCode v) = true ∧ t ≠ egCode v

/-- `t` begins with 33 zeros or with the code of a value above 2^32 - 1 (41_elias_gamma R202). -/
def gammaTooLarge (t : Bits) : Prop :=
  (List.replicate 33 false).isPrefixOf t = true ∨
    ∃ v, 2 ^ 32 ≤ v ∧ v < 2 ^ 33 - 1 ∧ (egCode v).isPrefixOf t = true

/-- The LZSS file's bits between the pad field and the final fill (30_encoding R115). -/
def lzBody (hb mb : Nat) (records : List LzRecord) : Bits :=
  egCode hb ++ egCode mb ++ records.flatMap (recordBits hb mb)

/-- The fields of a record fit its widths (30_encoding R115). -/
def LzRecord.fits (hb mb : Nat) : LzRecord → Prop
  | .literal _ => True
  | .copy off len => off < 2 ^ hb ∧ len < 2 ^ mb

/-- What a decoder outputs for a record, given its window; none for a reference outside the window (42_lzss R246). -/
def recordOutput (hist : List Byte) : LzRecord → Option (List Byte)
  | .literal b => some [b]
  | .copy off len => if off + len ≤ hist.length then some ((hist.drop off).take len) else none

/-- What a decoder outputs for a list of records, from the window `hist` on (42_lzss R246). -/
def lzReplay (hb : Nat) : List Byte → List LzRecord → Option (List Byte)
  | _, [] => some []
  | hist, r :: rest =>
    match recordOutput hist r with
    | none => none
    | some t => (lzReplay hb (histAppend hb hist t) rest).map (t ++ ·)

/-- The first `n` Words of a bit stream, the last completed with zero bits (43_shannon_fano R270). -/
def wordsOf (wl : Nat) : Nat → Bits → List Nat
  | 0, _ => []
  | n + 1, s =>
    val (s.take wl ++ List.replicate (wl - (s.take wl).length) false) :: wordsOf wl n (s.drop wl)

/-- The Words of a source (43_shannon_fano R270). -/
def sfWords (wl : Nat) (src : List Byte) : List Nat := wordsOf wl (wordCount src.length wl) (bitsOf src)

/-- The frequency table of a list of Words (43_shannon_fano R272). -/
def freqTable (words : List Nat) : List (Nat × Nat) := words.foldl countWord []

/-- The order of the distinct Words of a list (43_shannon_fano R273). -/
def sfOrder (words : List Nat) : List Nat := orderOf (freqTable words)

/-- The Codes of the distinct Words of a list (43_shannon_fano R274, R275). -/
def sfCodes (words : List Nat) : List (Nat × Bits) := buildCodes (freqTable words) (sfOrder words)

/-- The Shannon-Fano file's bits between the pad field and the final fill (30_encoding R116). -/
def sfBody (wl : Nat) (src : List Byte) : Bits :=
  let words := sfWords wl src
  egCode (wordPad src.length wl) ++ egCode wl
    ++ serTree wl (sfOrder words) (treeFromCodes (sfCodes words) (sfOrder words))
    ++ words.flatMap (codeOf (sfCodes words))

/-- A tree the grammar of 30_encoding R116 can spell: two children for every INTERNAL node, every Word of `wl` bits. -/
def PTree.full (wl : Nat) : PTree → Prop
  | .none => False
  | .leaf w => w < 2 ^ wl
  | .node c0 c1 => c0.full wl ∧ c1.full wl

/-- How many leaves a tree has (43_shannon_fano R278). -/
def PTree.leafCount : PTree → Nat
  | .none => 0
  | .leaf _ => 1
  | .node c0 c1 => c0.leafCount + c1.leafCount

/-- `t` is a beginning of a tree header within the limits of 43_shannon_fano R278, and not all of it: a beginning of the
header of a tree of at most `2^wl` leaves, or zeros for at most `2^(wl+1) - 1` INTERNAL nodes. -/
def treeCut (wl : Nat) (t : Bits) : Prop :=
  (∃ tree : PTree, tree.full wl ∧ tree.leafCount ≤ 2 ^ wl ∧ t.isPrefixOf (serNode wl tree) = true ∧ t ≠ serNode wl tree) ∨
    ∃ k, k < 2 ^ (wl + 1) ∧ t = List.replicate k false

/-- `t` begins with the header of a tree of more than `2^wl` leaves, or with zeros for more than `2^(wl+1) - 1` nodes
(43_shannon_fano R278). -/
def treeTooLarge (wl : Nat) (t : Bits) : Prop :=
  (∃ tree : PTree, tree.full wl ∧ 2 ^ wl < tree.leafCount ∧ (serNode wl tree).isPrefixOf t = true) ∨
    (List.replicate (2 ^ (wl + 1)) false).isPrefixOf t = true

/-- The Word of the LEAF that a Code walks to (43_shannon_fano R296). -/
def PTree.wordAt : PTree → Bits → Option Nat
  | .leaf w, [] => Option.some w
  | .node c0 c1, b :: rest => if b then c1.wordAt rest else c0.wordAt rest
  | _, _ => Option.none

/-- The bits of a list of Words with the last `p` dropped (43_shannon_fano R296, R297). -/
def strippedBits (wl p : Nat) (words : List Nat) : Bits :=
  (words.flatMap fun w => nb w wl).take (wl * words.length - p)

/-! ## The ends of the engine commands -/

/-- The bytes of the LZSS file of a source (30_encoding R115, 42_lzss R241). -/
def lzFile (hb mb depth : Nat) (src : List Byte) : List Byte :=
  bytesOf (fileBits (lzBody hb mb (lzRecords hb mb depth src)))

/-- The bytes of the Shannon-Fano file of a source (30_encoding R116, 43_shannon_fano R291). -/
def sfFile (wl : Nat) (src : List Byte) : List Byte := bytesOf (fileBits (sfBody wl src))

/-- SRC as the host has announced it: `SRC[0 .. SRC_LEN)` (10_state R48). -/
def State.input (s : State) : List Byte := s.source s.srcLen.toNat

/-- A whole source can be read: SRC_LEN is in range and no byte below it fails (10_state R48, 20_memory R84). -/
def State.canRead (s : State) : Prop := s.srcLenInRange = true ∧ s.sourceSound s.srcLen.toNat

/-- What every engine command that completes leaves (42_lzss R241, R250; 43_shannon_fano R291, R300): RESULT is the output
length, the writer is at a flush point, the reader is at the end of the stream, SNK at and above SNK_LEN holds what it held
or was to hold, and only reader, writer, SNK, RESULT and engine memories have moved. -/
def EngineEnd (s t : State) : Prop :=
  t = { s with rd := t.rd, wr := t.wr, snk := t.snk, result := t.result, eng := t.eng, draw := t.draw } ∧
  t.result = BitVec.ofNat 32 t.wr.len ∧
  t.wr.total = BitVec.ofNat 32 (8 * t.wr.len) ∧
  t.atFlushPoint ∧
  t.rd.len = s.srcLen.toNat ∧ t.rd.eof = true ∧
  ∀ a, t.wr.len ≤ a → t.snkByte a = s.storedByte a

/-- The end of a compress command (42_lzss R241, 43_shannon_fano R291). -/
def CompressEnd (s t : State) (file : List Byte) : Prop :=
  EngineEnd s t ∧ t.output = file ∧ t.wr.pos = 1 ∧ t.rd.pos = 8 * s.srcLen.toNat ∧ t.rd.ign = 0#3

/-- The end of a decode command over a file with pad count `n` (42_lzss R250, 43_shannon_fano R300). -/
def DecodeEnd (s t : State) (n : Nat) (out : List Byte) : Prop :=
  EngineEnd s t ∧ t.output = out ∧ t.wr.pos = t.wr.len ∧ t.rd.pos = 8 * s.srcLen.toNat - n ∧
    t.rd.ign = BitVec.ofNat 3 n

/-- `u` holds as its source the output of `s` (42_lzss R256, 43_shannon_fano R305). -/
def State.holdsOutputOf (u s : State) : Prop :=
  u.srcLen = s.result ∧ ∀ a, a < s.wr.len → u.srcByte a = s.snkByte a

/-! ## The invariant -/

/-- What every state of the machine meets: the bounds of 10_state R44 to R56 and R59, launch parameters within 00_scope R10,
windows in canonical form, staged bytes in index order. -/
structure State.Inv (s : State) : Prop where
  /-- 00_scope R10. -/
  params : s.par.wf = true
  /-- `rd_len` is 0 to SRC_MAX (10_state R54). -/
  rdLen : s.rd.len ≤ s.par.srcMax
  /-- `rd_pos` never exceeds 8 * SRC_MAX (10_state R49). -/
  rdPos : s.rd.pos ≤ 8 * s.par.srcMax
  /-- at most BUF_BYTES bytes are buffered (10_state R59). -/
  refill : s.rd.refill.length ≤ s.par.bufBytes
  /-- `|wfrac| < 8` (10_state R55). -/
  frac : s.wr.frac.length < 8
  /-- `snk_pos` is at most SNK_CAP (10_state R51). -/
  pos : s.wr.pos ≤ s.par.snkCap
  /-- `snk_len` is at most SNK_CAP (10_state R52). -/
  len : s.wr.len ≤ s.par.snkCap
  /-- `cmark` is a value `snk_pos` had (10_state R55). -/
  mark : s.wr.mark ≤ s.par.snkCap
  /-- at most WBUF_BYTES bytes are staged (10_state R59). -/
  staged : s.wr.staging.length ≤ s.par.wbufBytes
  /-- staged bytes have indices of the window (20_memory R83). -/
  stagedIn : ∀ c ∈ s.wr.staging, c.1 < s.par.snkCap
  /-- staged bytes stand in index order (60_exceptions R343). -/
  stagedOrder : s.wr.staging.Pairwise fun c d => c.1 ≤ d.1
  /-- the bytes stored since the last flush point have indices of the window (20_memory R83). -/
  freshIn : ∀ f ∈ s.wr.fresh, f.1 + f.2 ≤ s.par.snkCap
  /-- every staged byte was stored since the last flush point (10_state R59: the buffer is drained at every flush point). -/
  stagedFresh : ∀ c ∈ s.wr.staging, covers s.wr.fresh c.1 = true
  /-- RCNT is 0 to 32 (10_state R45). -/
  rcnt : s.rcnt.toNat ≤ 32
  /-- `err = 0` means no code and no detail (10_state R40, R44, R47). -/
  calm : s.er.err = false → s.er.code = .none ∧ s.er.info = 0#16
  /-- `err = 1` means a code of 1 to 6 (60_exceptions R340). -/
  alarmed : s.er.err = true → s.er.code ≠ .none
  /-- SRC is in canonical form. -/
  src : Memory.wf s.par.srcMax s.src = true
  /-- SNK is in canonical form. -/
  snk : Memory.wf s.par.snkCap s.snk = true
  /-- the draws of SNK stand newest first, each covering more than the next newer one. -/
  draws : s.snkAny.Pairwise fun c d => d.1 < c.1

/-- The reader's hidden state is coherent (10_state R59, 70_reset R391): each buffered byte is the byte SRC holds, or a byte
the host overwrote under this reader. -/
def State.readerCoherent (s : State) : Prop :=
  ∀ i, ∀ v, s.rd.refill[i]? = some v →
    v = s.srcByte (s.rd.refillAt + i) ∨ (s.rd.refillAt + i, v) ∈ s.rd.stale

/-- `|wfrac| = wr_total mod 8` (40_bitstream R162). -/
def State.packed (s : State) : Prop := s.wr.frac.length = s.wr.total.toNat % 8

end Sys2Proof.Machine
end

