-- ==== Sys2Proof/Certificates/Slice0/Obligations.lean ====
section
/-! DEFINITION. The statements for the provers, from the numbered rules of spec/. Each is about every state and operand
that meets its hypotheses; none is about a program. Free values (Config) occur in none of them by value. -/

section

open Sys2Proof Sys2Proof.Machine

/-! ## Encoding (30_encoding) -/

/-- The command words of the table of 30_encoding R105, each written out from it. -/
def Obligations.DecodesSpecWords : Prop :=
  decode 0x00000000#32 = .ok .nop ∧ decode 0x00000001#32 = .ok .clr ∧ decode 0x00000002#32 = .ok .srst ∧
  decode 0x00000010#32 = .ok .brInit ∧ decode 0x00000011#32 = .ok .brIgn ∧
  decode 0x00000012#32 = .ok (.brRead 0) ∧ decode 0x00002012#32 = .ok (.brRead 32) ∧
  decode 0x00003F12#32 = .ok (.brRead 63) ∧
  decode 0x00000020#32 = .ok .bwInit ∧ decode 0x00000821#32 = .ok (.bwWrite 8) ∧
  decode 0x00000022#32 = .ok .bwFill ∧ decode 0x00000023#32 = .ok .bwFlush ∧
  decode 0x00000024#32 = .ok .bwSeek0 ∧ decode 0x00000025#32 = .ok .bwRaw ∧
  decode 0x00000030#32 = .ok .egEnc ∧ decode 0x00000031#32 = .ok .egDec ∧
  decode 0x00000040#32 = .ok .lzComp ∧ decode 0x00000041#32 = .ok .lzDec ∧
  decode 0x00000050#32 = .ok .sfComp ∧ decode 0x00000051#32 = .ok .sfDec

/-- Every well-formed command decodes from its own word (30_encoding R100, R101, R105). -/
def Obligations.DecodeEncodeAgree : Prop :=
  ∀ i : Instr, i.wf = true → decode (encode i) = .ok i

/-- A word that decodes is the one word of its command: no bit of a command word is dropped (30_encoding R100, R105). -/
def Obligations.EncodeDecodeAgree : Prop :=
  ∀ (w : Word) (i : Instr), decode w = .ok i → i.wf = true ∧ encode i = w

/-- Which words are illegal, and in which order the three checks are made (30_encoding R106 to R108, R110). -/
def Obligations.IllegalWordsInOrder : Prop :=
  ∀ w : Word,
    let known := opField w ∈ [0x00#8, 0x01#8, 0x02#8, 0x10#8, 0x11#8, 0x12#8, 0x20#8, 0x21#8, 0x22#8, 0x23#8, 0x24#8,
      0x25#8, 0x30#8, 0x31#8, 0x40#8, 0x41#8, 0x50#8, 0x51#8]
    (decode w = .error .badOp ↔ ¬ known) ∧
    (decode w = .error .rsvSet ↔ known ∧ w.extractLsb' 14 18 ≠ 0#18) ∧
    (decode w = .error .cntUnused ↔
      known ∧ w.extractLsb' 14 18 = 0#18 ∧ w.extractLsb' 8 6 ≠ 0#6 ∧ opField w ≠ 0x12#8 ∧ opField w ≠ 0x21#8)

/-! ## The step: issue of a command word, and the host's accesses -/

/-- A step in which the host writes a legal word to CMD, one not ignored (60_exceptions R347), is its command's meaning at
that state; `withFetchWord` places such a write (30_encoding R110, 10_state R36). -/
def Obligations.StepRunsDecodedCommand : Prop :=
  (∀ (s : State) (rest : List HostAction) (w : Word) (i : Instr),
    s.host = .regWrite 0x04 32 w :: rest → decode w = .ok i →
    (s.er.err = false ∨ opField w = 0x00#8 ∨ opField w = 0x01#8 ∨ opField w = 0x02#8) →
    step s = exec i (s.setHost rest)) ∧
  (∀ (s : State) (w : Word) (i : Instr), decode w = .ok i → s.er.err = false →
    step (s.withFetchWord 32 w.toNat) = exec i s)

/-- An illegal word that is not ignored is error entry and nothing else: ILLEGAL with SUB 1, 2 or 3 and the word's OP
(30_encoding R106 to R108; 60_exceptions R345, R346). -/
def Obligations.IllegalWordEntersError : Prop :=
  ∀ (s : State) (rest : List HostAction) (w : Word) (e : DecodeError),
    s.host = .regWrite 0x04 32 w :: rest → decode w = .error e →
    (s.er.err = false ∨ opField w = 0x00#8 ∨ opField w = 0x01#8 ∨ opField w = 0x02#8) →
    step s = .next { s with
      host := rest
      er := { err := true, code := .illegal,
              info := opField w ++ (match e with | .badOp => 0x01#8 | .rsvSet => 0x02#8 | .cntUnused => 0x03#8) } }

/-- While `err = 1` a word whose OP is not that of NOP, CLR or SRST changes nothing (60_exceptions R347). -/
def Obligations.IgnoredWhileErr : Prop :=
  ∀ (s : State) (rest : List HostAction) (w : Word),
    s.host = .regWrite 0x04 32 w :: rest → s.er.err = true →
    opField w ≠ 0x00#8 → opField w ≠ 0x01#8 → opField w ≠ 0x02#8 →
    step s = .next { s with host := rest }

/-- What the host reads of an error after error entry (60_exceptions R340, R341, R345; 10_state R38, R47): for each cause the
code's number and the SUB of its row, written out from the two tables; ERR and the OP; nothing but the error state has changed.
Every cause of the model has a row. -/
def Obligations.ErrorEntryIsVisible : Prop :=
  let rows : List (Cause × BitVec 4 × BitVec 8) := [
    (.truncGamma, 1#4, 0x01#8), (.gammaOverflow, 1#4, 0x02#8), (.truncHeader, 1#4, 0x03#8), (.truncRecord, 1#4, 0x04#8),
    (.badReference, 1#4, 0x05#8), (.truncTree, 1#4, 0x06#8), (.treeTooLarge, 1#4, 0x07#8), (.noChild, 1#4, 0x08#8),
    (.truncCode, 1#4, 0x09#8), (.padUnderflow, 1#4, 0x0A#8), (.badPad, 1#4, 0x0B#8), (.padExceeds, 1#4, 0x0C#8),
    (.outMisaligned, 1#4, 0x0D#8), (.unalignedFlush, 2#4, 0x01#8), (.srcFault, 3#4, 0x01#8), (.snkFull, 3#4, 0x02#8),
    (.snkFault, 3#4, 0x03#8), (.badOp, 4#4, 0x01#8), (.rsvSet, 4#4, 0x02#8), (.cntUnused, 4#4, 0x03#8),
    (.cntRange, 5#4, 0x01#8), (.ignRange, 5#4, 0x02#8), (.rawRange, 5#4, 0x03#8), (.hbRange, 5#4, 0x04#8),
    (.mbRange, 5#4, 0x05#8), (.wlRange, 5#4, 0x06#8), (.srcRange, 5#4, 0x07#8), (.hdrHb, 6#4, 0x01#8),
    (.hdrMb, 6#4, 0x02#8), (.hdrWl, 6#4, 0x03#8)]
  (∀ c : Cause, ∃ row ∈ rows, row.1 = c) ∧
  ∀ row ∈ rows, ∀ (op : BitVec 8) (s : State),
    let t := errorEntry row.1 op s
    t = { s with er := t.er } ∧
    (t.readReg 0x14).extractLsb' 1 1 = 1#1 ∧
    (t.readReg 0x14).extractLsb' 9 4 = row.2.1 ∧
    t.readReg 0x1C = (row.2.2.setWidth 32 ||| (op.setWidth 32 <<< 8))

/-- Every register's value after reset (10_state R64, R31). -/
def Obligations.ResetRegisterValues : Prop :=
  let s := State.reset
  s.readReg 0x00 = 0x49544331#32 ∧ s.readReg 0x04 = 0#32 ∧ s.readReg 0x08 = 0#32 ∧ s.readReg 0x0C = 0#32 ∧
  s.readReg 0x10 = 0#32 ∧ s.readReg 0x14 = 0x00000004#32 ∧ s.readReg 0x18 = 0#32 ∧ s.readReg 0x1C = 0#32 ∧
  s.readReg 0x20 = 0#32 ∧ s.readReg 0x24 = 0#32 ∧ s.readReg 0x28 = 0#32 ∧ s.readReg 0x2C = 0#32 ∧
  s.readReg 0x30 = 0#32 ∧ s.readReg 0x38 = 0#32 ∧ s.readReg 0x3C = 0#32 ∧
  s.rd.len = 0 ∧ s.wr.frac = [] ∧ s.wr.mark = 0 ∧ s.rd.refill = [] ∧ s.wr.staging = []

/-- Register accesses (10_state R31, R32). Aligned and 32 bits wide: a read returns the register and has no side effect; a write
sets ARG0, ARG1, ARG2 or SRC_LEN and has no effect at a read-only register or a reserved offset. Of another width or
alignment: a write has no effect; a read returns a value that nothing constrains and leaves the core as it was. -/
def Obligations.RegisterAccess : Prop :=
  (∀ (s : State) (rest : List HostAction) (k : Nat), k < 16 → s.host = .regRead (4 * k) 32 :: rest →
    step s = .next { s with host := rest, busData := s.readReg (4 * k) }) ∧
  (∀ s : State, s.readReg 0x04 = 0#32 ∧ s.readReg 0x38 = 0#32 ∧ s.readReg 0x3C = 0#32 ∧
    s.readReg 0x00 = 0x49544331#32 ∧ s.readReg 0x08 = s.arg0 ∧ s.readReg 0x0C = s.arg1 ∧ s.readReg 0x10 = s.arg2 ∧
    s.readReg 0x18 = s.result ∧ s.readReg 0x20 = s.srcLen ∧ s.readReg 0x24 = BitVec.ofNat 32 s.rd.pos ∧
    s.readReg 0x28 = s.wr.total ∧ s.readReg 0x2C = BitVec.ofNat 32 s.wr.pos ∧
    s.readReg 0x30 = BitVec.ofNat 32 s.wr.len) ∧
  (∀ (s : State) (rest : List HostAction) (k : Nat) (v : Word), k < 16 → k ≠ 1 →
    s.host = .regWrite (4 * k) 32 v :: rest →
    step s = .next (
      if k = 2 then { s with host := rest, arg0 := v }
      else if k = 3 then { s with host := rest, arg1 := v }
      else if k = 4 then { s with host := rest, arg2 := v }
      else if k = 8 then { s with host := rest, srcLen := v }
      else { s with host := rest })) ∧
  (∀ (s : State) (rest : List HostAction) (offset width : Nat) (v : Word), offset < 64 →
    (width ≠ 32 ∨ offset % 4 ≠ 0) → s.host = .regWrite offset width v :: rest →
    step s = .next { s with host := rest }) ∧
  (∀ (s : State) (rest : List HostAction) (offset width : Nat), offset < 64 →
    (width ≠ 32 ∨ offset % 4 ≠ 0) → s.host = .regRead offset width :: rest →
    ∃ t, step s = .next t ∧ t = { s with host := rest, busData := t.busData, draw := t.draw })

/-- The fields of STATUS (10_state R38, R39, R41), ERRCODE by its numbers (60_exceptions R340). -/
def Obligations.StatusFields : Prop :=
  ∀ s : State, s.wr.frac.length < 8 →
    let v := s.readReg 0x14
    v.extractLsb' 0 1 = 0#1 ∧
    v.extractLsb' 1 1 = BitVec.ofBool s.er.err ∧
    (v.extractLsb' 2 1 = 1#1 ↔ 8 * s.rd.len - s.rd.ign.toNat ≤ s.rd.pos) ∧
    v.extractLsb' 3 3 = s.rd.ign ∧
    (v.extractLsb' 6 3).toNat = s.wr.frac.length ∧
    v.extractLsb' 9 4 = (match s.er.code with
      | .none => 0#4 | .malformed => 1#4 | .protocol => 2#4 | .io => 3#4 | .illegal => 4#4 | .badParam => 5#4
      | .unsupported => 6#4) ∧
    v.extractLsb' 13 6 = s.rcnt ∧
    v.extractLsb' 19 13 = 0#13

/-- PARAMS (10_state R53), for launch parameters within 00_scope R10. -/
def Obligations.ParamsFields : Prop :=
  ∀ s : State, s.par.wf = true →
    let v := s.readReg 0x34
    (v.extractLsb' 0 8).toNat = s.par.hbMax ∧ (v.extractLsb' 8 8).toNat = s.par.mbMax ∧
    (v.extractLsb' 16 8).toNat = s.par.wlMax ∧ v.extractLsb' 24 8 = 0#8

/-- The hardware reset (70_reset R380, 10_state R64), between commands and during one. Between commands it leaves `AfterReset` of
the state it came in. During the command of a word `w`, at point `k` of its run, it leaves `AfterReset` of the state at that
point (93 I23; that the action names the point is the model's choice, log 17), SRC as the host left it, and, but for an engine
command, every SNK byte below `cmark`; where `w` starts no command, it is a reset between commands. That a reset keeps the
bytes of SRC and the flushed bytes of SNK is R380 and 93 I23 against 93 I13: the model's choice, log 28. -/
def Obligations.HardwareReset : Prop :=
  (∀ (s : State) (rest : List HostAction), s.host = .reset :: rest →
    ∃ t, step s = .next t ∧ AfterReset (s.setHost rest) t) ∧
  ∀ (s : State) (rest : List HostAction) (w : Word) (k : Nat), s.host = .resetDuring w k :: rest →
    ∃ t, step s = .next t ∧ AfterReset (stateDuring w k (s.setHost rest)) t ∧
      t.par = s.par ∧ t.host = rest ∧ (∀ a, t.srcByte a = s.srcByte a) ∧
      ((s.er.err = true ∧ opField w ≠ 0x00#8 ∧ opField w ≠ 0x01#8 ∧ opField w ≠ 0x02#8) ∨ (∃ e, decode w = .error e) →
        AfterReset (s.setHost rest) t) ∧
      (s.Inv → s.freshFromMark → (∀ i, decode w = .ok i → i ∉ [Instr.lzComp, .lzDec, .sfComp, .sfDec]) →
        ∀ a, a < s.wr.mark → t.snkByte a = s.snkByte a)

/-- The host's accesses of the windows (20_memory R78 to R80; 70_reset R384, R392). A write of SRC writes its byte and no other.
A read of SNK at a flush point gives the byte the writer last stored; a byte not stored since the last flush point reads
as SNK holds it at any time (log 12); no read changes the core. A write of SNK writes its byte and no other; a byte below
SNK_LEN stored since the last flush point it may not write (R384), which the model refuses by name (hostDuty: the model's
choice, log 13). An index outside a window is no address, a model fault (the model's choice, log 14). -/
def Obligations.HostWindowAccess : Prop :=
  (∀ (s : State) (rest : List HostAction) (a : Nat) (v : Byte), s.host = .srcWrite a v :: rest →
    (a < s.par.srcMax →
      ∃ t, step s = .next t ∧ t.srcByte a = v ∧ (∀ b, b ≠ a → t.srcByte b = s.srcByte b) ∧
        t = { s with host := rest, src := t.src, rd := t.rd } ∧
        t.rd = { s.rd with stale := t.rd.stale } ∧
        (s.rd.len ≤ a → s.rd.buffered a = none → t.rd = s.rd)) ∧
    (s.par.srcMax ≤ a → step s = .fault .outsideSrc)) ∧
  (∀ (s : State) (rest : List HostAction) (a : Nat), s.host = .snkRead a :: rest →
    (s.par.snkCap ≤ a → step s = .fault .outsideSnk) ∧
    (a < s.par.snkCap →
      (s.atFlushPoint → step s = .next { s with host := rest, busData := (s.storedByte a).setWidth 32 }) ∧
      (s.unflushed a = false →
        step s = .next { s with host := rest, busData := (s.snkByte a).setWidth 32 }) ∧
      ∃ t, step s = .next t ∧ t = { s with host := rest, busData := t.busData, draw := t.draw })) ∧
  (∀ (s : State) (rest : List HostAction) (a : Nat) (v : Byte), s.host = .snkWrite a v :: rest →
    (s.par.snkCap ≤ a → step s = .fault .outsideSnk) ∧
    (a < s.par.snkCap → s.unflushed a = true → a < s.wr.len → step s = .refused .hostDuty) ∧
    (a < s.par.snkCap → (s.unflushed a = false ∨ s.wr.len ≤ a) →
      ∃ t, step s = .next t ∧ t.snkByte a = v ∧ (∀ b, b ≠ a → t.snkByte b = s.snkByte b) ∧
        t = { s with host := rest, snk := t.snk }))

/-- Every command terminates, its outcome being a next state (70_reset R400, 60_exceptions R344); and no command, whether it
completes or raises, changes ARG0, ARG1, ARG2, SRC_LEN, SRC, the launch parameters or the host's own state (10_state R37,
R48; 60_exceptions R346; 20_memory R79). -/
def Obligations.CommandsAnswerAndKeepHostState : Prop :=
  ∀ (i : Instr) (s : State), ∃ t, exec i s = .next t ∧
    t.arg0 = s.arg0 ∧ t.arg1 = s.arg1 ∧ t.arg2 = s.arg2 ∧ t.srcLen = s.srcLen ∧
    t.src = s.src ∧ t.par = s.par ∧ t.host = s.host ∧ t.busData = s.busData

/-! ## Errors (60_exceptions R346) -/

/-- An ILLEGAL, BAD_PARAM or PROTOCOL error changes the error state only (R346), and ERRINFO names the command (R345). -/
def Obligations.PreciseErrorsChangeNothingElse : Prop :=
  ∀ (i : Instr) (s t : State), s.er.err = false → exec i s = .next t → t.er.err = true →
    (t.er.code = .illegal ∨ t.er.code = .badParam ∨ t.er.code = .protocol) →
    t = { s with er := t.er } ∧ t.er.info.extractLsb' 8 8 = opcode i

/-- What a MALFORMED, UNSUPPORTED or IO error must keep (R346): SRC, the argument registers, SRC_LEN, RESULT and RCNT (R345),
and every SNK byte below `c0`; and ERRINFO names the command (R345). -/
def Obligations.ImpreciseErrorsKeep : Prop :=
  ∀ (i : Instr) (s t : State), s.Inv → s.er.err = false → exec i s = .next t → t.er.err = true →
    (t.er.code = .malformed ∨ t.er.code = .unsupported ∨ t.er.code = .io) →
    t.arg0 = s.arg0 ∧ t.arg1 = s.arg1 ∧ t.arg2 = s.arg2 ∧ t.srcLen = s.srcLen ∧ t.src = s.src ∧
    t.result = s.result ∧ t.rcnt = s.rcnt ∧
    t.er.info.extractLsb' 8 8 = opcode i ∧
    (i ∉ [Instr.bwInit, .bwSeek0, .lzComp, .lzDec, .sfComp, .sfDec] → s.wr.mark ≤ s.wr.pos →
      ∀ a, a < s.wr.mark → t.snkByte a = s.snkByte a)

/-! ## Frames of the commands that complete -/

/-- BR.INIT, BR.IGN, BR.READ and EG.DEC move the reader only; BR.READ alone writes RCNT; BR.INIT and BR.IGN keep RESULT
(10_state R45, R46; 40_bitstream R150 to R152; 41_elias_gamma R204). All of SRC and SNK is unchanged. -/
def Obligations.ReaderCommandsFrame : Prop :=
  ∀ (i : Instr) (s t : State), s.er.err = false → exec i s = .next t → t.er.err = false →
    ((i = .brInit ∨ i = .brIgn) → t = { s with rd := t.rd }) ∧
    (i = .egDec → t = { s with rd := t.rd, result := t.result, draw := t.draw }) ∧
    (∀ cnt, i = .brRead cnt → t = { s with rd := t.rd, result := t.result, rcnt := t.rcnt, draw := t.draw }) ∧
    ((i = .brIgn ∨ i = .egDec ∨ ∃ cnt, i = .brRead cnt) → t.rd.len = s.rd.len ∧ t.rd.stale = s.rd.stale)

/-- The writer commands and EG.ENC move the writer and SNK only, BW.FILL RESULT as well (10_state R46; 40_bitstream R155 to
R160; 41_elias_gamma R203). The bytes stored stand at `snk_pos` before to `snk_pos` after: every other index keeps the byte
last stored there, and SNK itself changes elsewhere only where a staged byte is drained. -/
def Obligations.WriterCommandsFrame : Prop :=
  ∀ (i : Instr) (s t : State), s.Inv → s.er.err = false → exec i s = .next t → t.er.err = false →
    (i ∈ [Instr.bwInit, .bwFill, .bwFlush, .bwSeek0, .bwRaw, .egEnc] ∨ ∃ cnt, i = .bwWrite cnt) →
    t = { s with wr := t.wr, snk := t.snk, result := t.result } ∧
    (i ≠ .bwFill → t.result = s.result) ∧
    ∀ a, (a < s.wr.pos ∨ t.wr.pos ≤ a) →
      t.storedByte a = s.storedByte a ∧ ((∀ c ∈ s.wr.staging, c.1 ≠ a) → t.snkByte a = s.snkByte a)

/-- The engine commands move reader, writer, SNK, RESULT and the engine memories only (42_lzss R241, R250; 43_shannon_fano
R291, R300); the bytes stored are `SNK[0 .. SNK_LEN)`, and every index from SNK_LEN on holds the byte last stored there. -/
def Obligations.EngineCommandsFrame : Prop :=
  ∀ (i : Instr) (s t : State), s.Inv → s.er.err = false → exec i s = .next t → t.er.err = false →
    i ∈ [Instr.lzComp, .lzDec, .sfComp, .sfDec] →
    t = { s with rd := t.rd, wr := t.wr, snk := t.snk, result := t.result, eng := t.eng, draw := t.draw } ∧
    ∀ a, t.wr.len ≤ a → t.snkByte a = s.storedByte a

/-! ## System commands (44_system) -/

/-- NOP changes nothing (R330), CLR the error state only (R331, 60_exceptions R350), in every state. SRST (R332, 10_state R65):
every register at its reset value but ARG0, ARG1, ARG2 and SRC_LEN, which keep theirs; the buffers emptied; SRC kept; SNK
kept but for the bytes stored since the last flush point (above `cmark` the model's choice, log 28). -/
def Obligations.SystemCommands : Prop :=
  ∀ s : State, exec .nop s = .next s ∧
    exec .clr s = .next { s with er := { err := false, code := .none, info := 0#16 } } ∧
    ∃ t, exec .srst s = .next t ∧
      t.arg0 = s.arg0 ∧ t.arg1 = s.arg1 ∧ t.arg2 = s.arg2 ∧ t.srcLen = s.srcLen ∧
      t.readReg 0x14 = 0x00000004#32 ∧ t.result = 0#32 ∧ t.readReg 0x1C = 0#32 ∧
      t.rd = { len := 0, pos := 0, ign := 0#3, refill := [], refillAt := 0, stale := [] } ∧
      t.wr = { frac := [], pos := 0, len := 0, total := 0#32, mark := 0, staging := [], fresh := [] } ∧
      (∀ a, t.srcByte a = s.srcByte a) ∧ t.par = s.par ∧
      ∀ a, s.unflushed a = false → t.snkByte a = s.snkByte a

/-! ## Reader commands (40_bitstream) -/

/-- BR.INIT with SRC_LEN in range (R150, R140) replaces the reader; BR.IGN with ARG0 at most 7 (R151) changes `rd_ign` only, and
with it the length of the logical stream. -/
def Obligations.BrInitAndBrIgn : Prop :=
  (∀ s : State, s.srcLen.toNat ≤ s.par.srcMax →
    exec .brInit s = .next { s with
      rd := { len := s.srcLen.toNat, pos := 0, ign := 0#3, refill := [], refillAt := 0, stale := [] } }) ∧
  (∀ s : State, s.arg0.toNat ≤ 7 →
    ∃ t, exec .brIgn s = .next t ∧ t = { s with rd := { s.rd with ign := t.rd.ign } } ∧
      t.rd.ign.toNat = s.arg0.toNat ∧ t.rd.logicalLen = 8 * s.rd.len - s.arg0.toNat)

/-- BR.READ (R152, R141, R142) over bytes whose reads do not fail and that the host has not disturbed: RESULT is the next
`min(cnt, RdAvail())` logical bits, first bit most significant, RCNT their number; at the end of the stream both are 0. -/
def Obligations.BrReadReturnsBits : Prop :=
  ∀ (s : State) (cnt : Nat), cnt ≤ 32 → s.sourceSound s.rd.len → s.steady (min cnt s.rd.avail) →
    ∃ t, exec (.brRead cnt) s = .next t ∧
      t.result = BitVec.ofNat 32 (val (s.unread.take cnt)) ∧
      t.rcnt = BitVec.ofNat 6 (min cnt s.rd.avail) ∧
      DeliveredTo s t (s.rd.pos + min cnt s.rd.avail) ∧
      t = { s with rd := t.rd, result := t.result, rcnt := t.rcnt }

/-- BR.READ over bytes the host has overwritten under the reader (70_reset R391): it completes all the same, with RCNT and
RD_POS as ever; only the values of the bits are free. -/
def Obligations.BrReadUnderHazardCompletes : Prop :=
  ∀ (s : State) (cnt : Nat), cnt ≤ 32 → s.sourceSound s.rd.len →
    ∃ t, exec (.brRead cnt) s = .next t ∧
      t.result.toNat < 2 ^ min cnt s.rd.avail ∧
      t.rcnt = BitVec.ofNat 6 (min cnt s.rd.avail) ∧
      DeliveredTo s t (s.rd.pos + min cnt s.rd.avail) ∧
      t = { s with rd := t.rd, result := t.result, rcnt := t.rcnt, draw := t.draw }

/-- Reading `a` bits and then `b` bits delivers what reading `a + b` bits at once does, and writing `a` bits and then `b` bits
writes what writing `a + b` bits at once does, at any bit position (20_memory R72). -/
def Obligations.StreamsConcatenate : Prop :=
  (∀ (s t1 t2 t3 : State) (a b : Nat), a + b ≤ 32 → a + b ≤ s.rd.avail → s.steady (a + b) →
    s.sourceSound s.rd.len → exec (.brRead a) s = .next t1 → exec (.brRead b) t1 = .next t2 →
    exec (.brRead (a + b)) s = .next t3 →
    t3.result.toNat = t1.result.toNat * 2 ^ b + t2.result.toNat ∧ t3.rd.pos = t2.rd.pos) ∧
  (∀ (s t1 t2 t3 : State) (a b : Nat) (v : Word), s.Inv → a + b ≤ 32 →
    s.canStore ((s.wr.frac.length + a + b) / 8) →
    exec (.bwWrite a) { s with arg0 := v >>> b } = .next t1 → exec (.bwWrite b) { t1 with arg0 := v } = .next t2 →
    exec (.bwWrite (a + b)) { s with arg0 := v } = .next t3 →
    t2.wr.frac = t3.wr.frac ∧ t2.wr.pos = t3.wr.pos ∧ t2.wr.len = t3.wr.len ∧ t2.wr.total = t3.wr.total ∧
    ∀ x, t2.storedByte x = t3.storedByte x)

/-- A source fault (60_exceptions R343, 40_bitstream R153): a bit of a byte not in the refill buffer is needed, and some byte
of its block fails. BR.READ and EG.DEC raise IO(0x01). The block is the one at the next byte not yet fetched (R153) where the
byte is in it; where it is not, which only a reader left by an error shows, that the block starts at the byte itself is the
model's choice (log 10). -/
def Obligations.SourceFaultRaised : Prop :=
  ∀ s : State, 0 < s.rd.avail → s.rd.buffered (s.rd.pos / 8) = none →
    (∃ a ∈ s.blockIndices (s.blockStart (s.rd.pos / 8)), srcFaultAt s.par a = true) →
    (∀ cnt, 0 < cnt → cnt ≤ 32 →
      ∃ t, exec (.brRead cnt) s = .next t ∧ t.er = { err := true, code := .io, info := 0x1201#16 }) ∧
    ∃ t, exec .egDec s = .next t ∧ t.er = { err := true, code := .io, info := 0x3101#16 }

/-! ## Writer commands (40_bitstream) -/

/-- BW.INIT (R155, R145): the staged bytes reach SNK, the incomplete byte is dropped, a new output starts at index 0. -/
def Obligations.BwInitStartsOutput : Prop :=
  ∀ s : State, s.stagedSound →
    ∃ t, exec .bwInit s = .next t ∧
      FlushedTo s t { frac := [], pos := 0, len := 0, total := 0#32, mark := 0, staging := [], fresh := [] }

/-- BW.WRITE (R156, R143, R144): the `cnt` low bits of ARG0, bit `cnt - 1` first, are appended. -/
def Obligations.BwWriteAppends : Prop :=
  ∀ (s : State) (cnt : Nat), s.Inv → cnt ≤ 32 → s.canStore ((s.wr.frac.length + cnt) / 8) →
    ∃ t, exec (.bwWrite cnt) s = .next t ∧ Appended s t (nb s.arg0.toNat cnt)

/-- BW.FILL (R157, R147): zero bits up to the byte boundary, RESULT their number; nothing when already aligned. -/
def Obligations.BwFillCompletesByte : Prop :=
  ∀ s : State, s.Inv → s.canStore (if s.wr.frac = [] then 0 else 1) →
    ∃ t u, exec .bwFill s = .next t ∧
      t = u.setResult (BitVec.ofNat 32 ((8 - s.wr.frac.length) % 8)) ∧
      Appended s u (List.replicate ((8 - s.wr.frac.length) % 8) false) ∧ t.wr.frac = []

/-- BW.FLUSH (R158, R146) and BW.SEEK0 (R159, R148) of an aligned writer, no staged byte failing: every byte stored is in SNK;
BW.SEEK0 sends the next byte to index 0; SNK_LEN, WR_TOTAL and everything else are kept. -/
def Obligations.BwFlushAndSeek : Prop :=
  ∀ s : State, s.wr.frac = [] → s.stagedSound →
    (∃ t, exec .bwFlush s = .next t ∧ FlushedTo s t { s.wr with mark := s.wr.pos } ∧ t.atFlushPoint) ∧
    ∃ t, exec .bwSeek0 s = .next t ∧ FlushedTo s t { s.wr with pos := 0, mark := 0 } ∧ t.atFlushPoint

/-- BW.RAW of an aligned writer (R160, R149): one byte at SNK_POS, visible at once, not counted in WR_TOTAL. -/
def Obligations.BwRawStoresByte : Prop :=
  ∀ s : State, s.wr.frac = [] → s.arg0.toNat ≤ 255 → s.canStore 1 →
    ∃ t, exec .bwRaw s = .next t ∧
      t = { s with wr := t.wr, snk := t.snk } ∧
      t.wr = { s.wr with
        staging := [], pos := s.wr.pos + 1, mark := s.wr.pos + 1, len := max s.wr.len (s.wr.pos + 1), fresh := [] } ∧
      ∀ a, t.snkByte a = if a = s.wr.pos then s.arg0.setWidth 8 else s.storedByte a

/-- A flush point with an incomplete byte (R146, 20_memory R74, 60_exceptions R346): PROTOCOL(0x01), nothing else changes. -/
def Obligations.UnalignedFlushIsProtocolError : Prop :=
  ∀ s : State, s.wr.frac ≠ [] →
    exec .bwFlush s = .next { s with er := { err := true, code := .protocol, info := 0x2301#16 } } ∧
    exec .bwSeek0 s = .next { s with er := { err := true, code := .protocol, info := 0x2401#16 } } ∧
    (s.arg0.toNat ≤ 255 →
      exec .bwRaw s = .next { s with er := { err := true, code := .protocol, info := 0x2501#16 } })

/-- Operands out of range (40_bitstream R150 to R160, 42_lzss R241, 43_shannon_fano R291; 60_exceptions R346): BAD_PARAM with
the command's SUB, in the order the operands are checked, and nothing else changes. -/
def Obligations.BadOperandsRefused : Prop :=
  ∀ s : State,
    let bad := fun (info : BitVec 16) =>
      (Host.Outcome.next { s with er := { err := true, code := .badParam, info := info } } :
        Host.Outcome State Fault Refusal)
    (∀ cnt, 32 < cnt → exec (.brRead cnt) s = bad 0x1201#16 ∧ exec (.bwWrite cnt) s = bad 0x2101#16) ∧
    (7 < s.arg0.toNat → exec .brIgn s = bad 0x1102#16) ∧
    (255 < s.arg0.toNat → exec .bwRaw s = bad 0x2503#16) ∧
    (s.par.srcMax < s.srcLen.toNat →
      exec .brInit s = bad 0x1007#16 ∧ exec .lzDec s = bad 0x4107#16 ∧ exec .sfDec s = bad 0x5107#16) ∧
    (s.arg0.toNat < 1 ∨ s.par.hbMax < s.arg0.toNat → exec .lzComp s = bad 0x4004#16) ∧
    (1 ≤ s.arg0.toNat → s.arg0.toNat ≤ s.par.hbMax →
      (s.arg1.toNat < 1 ∨ s.par.mbMax < s.arg1.toNat → exec .lzComp s = bad 0x4005#16) ∧
      (1 ≤ s.arg1.toNat → s.arg1.toNat ≤ s.par.mbMax → s.par.srcMax < s.srcLen.toNat →
        exec .lzComp s = bad 0x4007#16)) ∧
    (s.arg0.toNat < 1 ∨ s.par.wlMax < s.arg0.toNat → exec .sfComp s = bad 0x5006#16) ∧
    (1 ≤ s.arg0.toNat → s.arg0.toNat ≤ s.par.wlMax → s.par.srcMax < s.srcLen.toNat →
      exec .sfComp s = bad 0x5007#16)

/-- Sink errors (40_bitstream R144, 20_memory R83, 60_exceptions R343). A completed byte that would land at SNK_CAP is IO(0x02),
whatever the buffers hold. A failing byte is IO(0x03) in the command that drains it: a flush point, BW.INIT, or the
completed byte that fills the staging buffer; a byte that only joins the buffer raises nothing yet. -/
def Obligations.SinkErrors : Prop :=
  ∀ s : State, s.Inv →
    (s.par.snkCap ≤ s.wr.pos →
      (∀ cnt, cnt ≤ 32 → 8 ≤ s.wr.frac.length + cnt →
        ∃ t, exec (.bwWrite cnt) s = .next t ∧ t.er = { err := true, code := .io, info := 0x2102#16 }) ∧
      (s.wr.frac ≠ [] →
        ∃ t, exec .bwFill s = .next t ∧ t.er = { err := true, code := .io, info := 0x2202#16 }) ∧
      (s.wr.frac = [] → s.stagedSound → s.arg0.toNat ≤ 255 →
        ∃ t, exec .bwRaw s = .next t ∧ t.er = { err := true, code := .io, info := 0x2502#16 })) ∧
    ((∃ c ∈ s.wr.staging, snkFaultAt s.par c.1 = true) →
      (∃ t, exec .bwInit s = .next t ∧ t.er = { err := true, code := .io, info := 0x2003#16 }) ∧
      (s.wr.frac = [] →
        (∃ t, exec .bwFlush s = .next t ∧ t.er = { err := true, code := .io, info := 0x2303#16 }) ∧
        ∃ t, exec .bwSeek0 s = .next t ∧ t.er = { err := true, code := .io, info := 0x2403#16 })) ∧
    (∀ cnt, cnt ≤ 32 → s.stagedSound → s.wr.pos < s.par.snkCap → snkFaultAt s.par s.wr.pos = true →
      8 ≤ s.wr.frac.length + cnt → s.wr.frac.length + cnt < 16 →
      (s.wr.staging.length + 1 < s.par.wbufBytes → ∃ t, exec (.bwWrite cnt) s = .next t ∧ t.er = s.er) ∧
      (s.wr.staging.length + 1 = s.par.wbufBytes →
        ∃ t, exec (.bwWrite cnt) s = .next t ∧ t.er = { err := true, code := .io, info := 0x2103#16 }))

/-- `|wfrac| = wr_total mod 8` (40_bitstream R162), and that the bytes stored since the last flush point are those at `cmark` to
`snk_pos - 1` (70_reset R392), are kept by every command that completes or changes the error state only (an IO, MALFORMED or
UNSUPPORTED error may break them, 60_exceptions R346); so BW.FILL returns `(8 - WR_TOTAL mod 8) mod 8`, and a flush point
after BW.FILL never raises PROTOCOL. -/
def Obligations.WriterStaysPacked : Prop :=
  (∀ (i : Instr) (s t : State), s.Inv → s.packed → exec i s = .next t →
    (t.er.err = true → t.er.code = .illegal ∨ t.er.code = .badParam ∨ t.er.code = .protocol) → t.packed) ∧
  (∀ (i : Instr) (s t : State), s.Inv → s.freshFromMark → exec i s = .next t →
    (t.er.err = true → t.er.code = .illegal ∨ t.er.code = .badParam ∨ t.er.code = .protocol) → t.freshFromMark) ∧
  (∀ s t : State, s.Inv → s.packed → s.er.err = false → exec .bwFill s = .next t → t.er.err = false →
    t.result.toNat = (8 - s.wr.total.toNat % 8) % 8 ∧
    (∃ u, exec .bwFlush t = .next u ∧ u.er.code ≠ .protocol) ∧
    (∃ u, exec .bwSeek0 t = .next u ∧ u.er.code ≠ .protocol) ∧
    ∃ u, exec .bwRaw t = .next u ∧ u.er.code ≠ .protocol)

/-- Pad truncation realises the pad count (R163): what a session of BW.INIT, any writes, BW.FILL and BW.FLUSH stores is read
back, under the ignore count that BW.FILL returned, as exactly the bits written. -/
def Obligations.PadCountLaw : Prop :=
  ∀ (writes : List (Nat × Word)) (s a b c d u : State),
    (∀ x ∈ writes, x.1 ≤ 32) → s.canStoreFile (((writes.map (·.1)).sum + 7) / 8) →
    exec .bwInit s = .next a →
    writes.foldl (fun (o : Host.Outcome State Fault Refusal) x =>
      match o with
      | .next st => exec (.bwWrite x.1) { st with arg0 := x.2 }
      | other => other) (.next a) = .next b →
    exec .bwFill b = .next c → exec .bwFlush c = .next d →
    u.rd.len = d.wr.len → u.rd.pos = 0 → u.rd.ign.toNat = c.result.toNat →
    (∀ x, x < d.wr.len → u.srcByte x = d.snkByte x) →
    d.er = s.er ∧ u.unread = writes.flatMap fun x => nb x.2.toNat x.1

/-! ## Elias-gamma (41_elias_gamma) -/

/-- The code (R200, R206): `2k + 1` bits, `k` zeros and then a 1; prefix-free; the three examples. -/
def Obligations.GammaCodeLaws : Prop :=
  (∀ n : Nat, (egCode n).length = 2 * Nat.log2 (n + 1) + 1 ∧
    (egCode n).take (Nat.log2 (n + 1) + 1) = List.replicate (Nat.log2 (n + 1)) false ++ [true] ∧
    val (egCode n) = n + 1) ∧
  (∀ n m : Nat, (egCode n).isPrefixOf (egCode m) = true → n = m) ∧
  (∀ n : Nat, n < 2 ^ 32 → (egCode n).length ≤ 65) ∧
  egCode 0 = [true] ∧ egCode 4 = [false, false, true, false, true] ∧
  egCode 99 = [false, false, false, false, false, false, true, true, false, false, true, false, false]

/-- EG.ENC (R203, R201): the code of ARG0 is appended; no value is refused. -/
def Obligations.EgEncAppendsCode : Prop :=
  ∀ s : State, s.Inv → s.canStore ((s.wr.frac.length + (egCode s.arg0.toNat).length) / 8) →
    ∃ t, exec .egEnc s = .next t ∧ Appended s t (egCode s.arg0.toNat)

/-- EG.DEC reads a code back, from any bit position and whatever bits follow it (R204, R202, R205). -/
def Obligations.EgDecReadsCode : Prop :=
  ∀ (s : State) (n : Nat) (rest : Bits), n < 2 ^ 32 → s.unread = egCode n ++ rest →
    s.sourceSound s.rd.len → s.steady (egCode n).length →
    ∃ t, exec .egDec s = .next t ∧
      t.result.toNat = n ∧ DeliveredTo s t (s.rd.pos + (egCode n).length) ∧
      t = { s with rd := t.rd, result := t.result }

/-- EG.DEC of a stream that ends inside a code is MALFORMED(0x01); of a value above 2^32 - 1, MALFORMED(0x02) (R202, R204). -/
def Obligations.EgDecMalformed : Prop :=
  ∀ s : State, s.sourceSound s.rd.len → s.steady s.rd.avail →
    ((∃ n, n < 2 ^ 32 ∧ s.unread.isPrefixOf (egCode n) = true ∧ s.unread ≠ egCode n) →
      ∃ t, exec .egDec s = .next t ∧ t.er = { err := true, code := .malformed, info := 0x3101#16 }) ∧
    ((List.replicate 33 false).isPrefixOf s.unread = true ∨
      (∃ n, 2 ^ 32 ≤ n ∧ n < 2 ^ 33 - 1 ∧ (egCode n).isPrefixOf s.unread = true) →
      ∃ t, exec .egDec s = .next t ∧ t.er = { err := true, code := .malformed, info := 0x3102#16 })

/-! ## LZSS (42_lzss) -/

/-- MatchSearch (R225): a length of 0 means that the first byte does not occur in the window; otherwise the match lies in the
window and equals the lookahead's beginning. It is the longest, at the earliest offset, among all candidates (depth 0) or
among the first `depth` candidates (depth ≥ 1; so depth 1 gives the first candidate). -/
def Obligations.MatchSearchLaws : Prop :=
  ∀ (hist : List Byte) (l : Byte) (look : List Byte) (depth : Nat),
    let m := matchSearch hist (l :: look) depth
    (m.2 = 0 ↔ l ∉ hist) ∧ (m.2 = 0 → m.1 = 0) ∧
    m.1 + m.2 ≤ hist.length ∧ m.2 ≤ (l :: look).length ∧
    (hist.drop m.1).take m.2 = (l :: look).take m.2 ∧
    (∀ o, (depth = 0 ∨ (hist.take o).count l < depth) →
      matchLength (hist.drop o) (l :: look) ≤ m.2 ∧
      (0 < m.2 → matchLength (hist.drop o) (l :: look) = m.2 → m.1 ≤ o)) ∧
    (depth ≠ 0 → 0 < m.2 → (hist.take m.1).count l < depth)

/-- HistAppend (R223): the window never exceeds `2^hb - 1` bytes; it is kept when the append fits, exactly filled included,
and else starts anew with the appended bytes. -/
def Obligations.HistAppendLaws : Prop :=
  ∀ (hb : Nat) (hist t : List Byte),
    (hist.length + t.length ≤ 2 ^ hb - 1 → histAppend hb hist t = hist ++ t) ∧
    (2 ^ hb - 1 < hist.length + t.length → histAppend hb hist t = t) ∧
    (t.length ≤ 2 ^ hb - 1 → (histAppend hb hist t).length ≤ 2 ^ hb - 1)

/-- The encoder's records, replayed by a decoder, give the source back: the decoder's window equals the encoder's after every
record, and no reference reaches before the last reset (R255, R256, R258). -/
def Obligations.LzRecordsReplayToSource : Prop :=
  ∀ (hb mb depth : Nat) (src : List Byte), 1 ≤ hb → 1 ≤ mb →
    lzReplay hb [] (lzRecords hb mb depth src) = some src

/-- The encoder's match records (R222, R226, R227, R257): each is longer than the break-even point, so at least 2 bytes, and
its fields fit their widths. -/
def Obligations.LzMatchesPayOff : Prop :=
  ∀ (hb mb depth : Nat) (src : List Byte) (off len : Nat), 1 ≤ hb → 1 ≤ mb →
    LzRecord.copy off len ∈ lzRecords hb mb depth src →
    ceilDiv (hb + mb + 1) 9 < len ∧ 2 ≤ len ∧ off < 2 ^ hb ∧ len < 2 ^ mb ∧ off + len ≤ 2 ^ hb - 1

/-- LZ.COMP (R241, R229, R240) of a source that can be read into a sink that can hold the file: SNK holds the LZSS file of
30_encoding R115. -/
def Obligations.LzCompWritesFile : Prop :=
  ∀ s : State, 1 ≤ s.arg0.toNat → s.arg0.toNat ≤ s.par.hbMax → 1 ≤ s.arg1.toNat → s.arg1.toNat ≤ s.par.mbMax →
    s.canRead → s.canStoreFile (lzFile s.arg0.toNat s.arg1.toNat s.arg2.toNat s.input).length →
    ∃ t, exec .lzComp s = .next t ∧
      CompressEnd s t (lzFile s.arg0.toNat s.arg1.toNat s.arg2.toNat s.input)

/-- LZ.DEC (R250, R244 to R247) of any file of the grammar of 30_encoding R115 whose references lie inside the window, pad
bits of any value: SNK holds what the records stand for. -/
def Obligations.LzDecReplaysFile : Prop :=
  ∀ (s : State) (hb mb n : Nat) (records : List LzRecord) (pad : Bits) (out : List Byte), s.par.wf = true →
    1 ≤ hb → hb ≤ s.par.hbMax → 1 ≤ mb → mb ≤ s.par.mbMax → n < 8 → pad.length = n →
    (∀ r ∈ records, r.fits hb mb) → lzReplay hb [] records = some out →
    bitsOf s.input = nb n 3 ++ lzBody hb mb records ++ pad → s.canRead → s.canStoreFile out.length →
    ∃ t, exec .lzDec s = .next t ∧ DecodeEnd s t n out

/-- Files LZ.DEC refuses at their header (R244, R245; 41_elias_gamma R202): an empty source; a pad count that hides its own
field; `hb` or `mb` cut short or above 2^32 - 1; `hb` or `mb` out of this implementation's range. -/
def Obligations.LzDecHeaderErrors : Prop :=
  ∀ s : State, s.par.wf = true → s.canRead → s.stagedSound →
    (s.srcLen = 0#32 → Raises .lzDec s .malformed 0x4103#16) ∧
    (∀ n rest, bitsOf s.input = nb n 3 ++ rest → n < 8 → rest.length < n → Raises .lzDec s .malformed 0x410C#16) ∧
    (∀ n t pad, bitsOf s.input = nb n 3 ++ t ++ pad → n < 8 → pad.length = n →
      (gammaCut t → Raises .lzDec s .malformed 0x4101#16) ∧
      (gammaTooLarge t → Raises .lzDec s .malformed 0x4102#16)) ∧
    (∀ n hb t pad, bitsOf s.input = nb n 3 ++ egCode hb ++ t ++ pad → n < 8 → pad.length = n → hb < 2 ^ 32 →
      (gammaCut t → Raises .lzDec s .malformed 0x4101#16) ∧
      (gammaTooLarge t → Raises .lzDec s .malformed 0x4102#16)) ∧
    (∀ n hb mb rest, bitsOf s.input = nb n 3 ++ egCode hb ++ egCode mb ++ rest → n < 8 → n ≤ rest.length →
      hb < 2 ^ 32 → mb < 2 ^ 32 →
      (hb < 1 ∨ s.par.hbMax < hb → Raises .lzDec s .unsupported 0x4101#16) ∧
      (1 ≤ hb → hb ≤ s.par.hbMax → (mb < 1 ∨ s.par.mbMax < mb) → Raises .lzDec s .unsupported 0x4102#16))

/-- LZ.DEC of a file that goes wrong after some good records (R246): it ends inside a record, or a reference reaches outside
the window. -/
def Obligations.LzDecStreamErrors : Prop :=
  ∀ (s : State) (hb mb n : Nat) (records : List LzRecord) (out : List Byte) (tail pad : Bits), s.par.wf = true →
    1 ≤ hb → hb ≤ s.par.hbMax → 1 ≤ mb → mb ≤ s.par.mbMax → n < 8 → pad.length = n →
    (∀ r ∈ records, r.fits hb mb) → lzReplay hb [] records = some out →
    bitsOf s.input = nb n 3 ++ lzBody hb mb records ++ tail ++ pad → s.canRead → s.canStoreFile out.length →
    (∀ r : LzRecord, tail.isPrefixOf (recordBits hb mb r) = true → tail ≠ [] → tail ≠ recordBits hb mb r →
      ∃ t, exec .lzDec s = .next t ∧ t.er = { err := true, code := .malformed, info := 0x4104#16 }) ∧
    (∀ (off len : Nat) (rest : Bits), off < 2 ^ hb → len < 2 ^ mb →
      tail = recordBits hb mb (.copy off len) ++ rest → lzReplay hb [] (records ++ [.copy off len]) = none →
      ∃ t, exec .lzDec s = .next t ∧ t.er = { err := true, code := .malformed, info := 0x4105#16 })

/-- The LZSS round trip (R256): the file LZ.COMP writes, loaded into SRC, is decoded by LZ.DEC to the source. -/
def Obligations.LzRoundTrip : Prop :=
  ∀ s t u : State, s.par.wf = true → u.par.wf = true →
    1 ≤ s.arg0.toNat → s.arg0.toNat ≤ s.par.hbMax → 1 ≤ s.arg1.toNat → s.arg1.toNat ≤ s.par.mbMax →
    s.canRead → s.canStoreFile (lzFile s.arg0.toNat s.arg1.toNat s.arg2.toNat s.input).length →
    exec .lzComp s = .next t → u.holdsOutputOf t → s.arg0.toNat ≤ u.par.hbMax → s.arg1.toNat ≤ u.par.mbMax →
    u.canRead → u.canStoreFile s.srcLen.toNat →
    ∃ v, exec .lzDec u = .next v ∧ v.output = s.input ∧ v.er = u.er

/-! ## Shannon-Fano (43_shannon_fano) -/

/-- The word pad and the order (R270, R273): `P < WL` completes the last Word; the distinct Words stand in descending
frequency, equal ones ascending, each once. -/
def Obligations.WordPadAndOrder : Prop :=
  (∀ len wl : Nat, 1 ≤ wl →
    wordPad len wl < wl ∧ wordCount len wl * wl = 8 * len + wordPad len wl ∧
    wordPad len wl = (wl - 8 * len % wl) % wl) ∧
  (∀ words : List Nat,
    (∀ w, freqOf (freqTable words) w = words.count w) ∧
    (∀ w, w ∈ sfOrder words ↔ w ∈ words) ∧
    (sfOrder words).Pairwise fun u v =>
      words.count v < words.count u ∨ (words.count v = words.count u ∧ u < v))

/-- The Codes (R274, R275): one for each distinct Word; with two or more Words every Code is non-empty and the Codes are
prefix-free; a single Word has the Code "0". -/
def Obligations.CodesArePrefixFree : Prop :=
  ∀ words : List Nat,
    ((sfCodes words).map (·.1)).Perm (sfOrder words) ∧
    (∀ w, sfOrder words = [w] → codeOf (sfCodes words) w = [false]) ∧
    (2 ≤ (sfOrder words).length →
      (∀ w ∈ words, codeOf (sfCodes words) w ≠ []) ∧
      ∀ u ∈ words, ∀ v ∈ words, (codeOf (sfCodes words) u).isPrefixOf (codeOf (sfCodes words) v) = true → u = v)

/-- The ParserTree (R276, R278, R279): the tree header of a run, parsed and normalised, is the encoder's tree; each Code walks
to its own Word; with two or more Words the tree is full. -/
def Obligations.TreeWalksCodes : Prop :=
  ∀ words : List Nat,
    let tree := treeFromCodes (sfCodes words) (sfOrder words)
    (∀ w ∈ words, tree.wordAt (codeOf (sfCodes words) w) = some w) ∧
    (∀ wl, 2 ≤ (sfOrder words).length → (∀ w ∈ words, w < 2 ^ wl) →
      tree.full wl ∧ tree.leafCount = (sfOrder words).length ∧ Machine.normalize tree = tree) ∧
    (∀ w, sfOrder words = [w] → tree = Machine.normalize (.leaf w))

/-- A source of one distinct Word (R306): the tree header is the lone leaf and the code stream one "0" for each Word. -/
def Obligations.SingleWordBody : Prop :=
  ∀ (wl : Nat) (src : List Byte) (w : Nat), 1 ≤ wl → src ≠ [] → (∀ v ∈ sfWords wl src, v = w) →
    sfBody wl src = egCode (wordPad src.length wl) ++ egCode wl ++ (true :: nb w wl)
      ++ List.replicate (wordCount src.length wl) false

/-- SF.COMP (R291, R287) of a source that can be read into a sink that can hold the file: SNK holds the Shannon-Fano file of
30_encoding R116. -/
def Obligations.SfCompWritesFile : Prop :=
  ∀ s : State, 1 ≤ s.arg0.toNat → s.arg0.toNat ≤ s.par.wlMax → s.canRead →
    s.canStoreFile (sfFile s.arg0.toNat s.input).length →
    ∃ t, exec .sfComp s = .next t ∧ CompressEnd s t (sfFile s.arg0.toNat s.input)

/-- SF.DEC (R300, R295 to R297) of any file of the grammar of 30_encoding R116, pad bits of any value: SNK holds the decoded
bits with the word pad stripped. -/
def Obligations.SfDecDecodesFile : Prop :=
  ∀ (s : State) (n p wl : Nat) (tree : PTree) (codes : List Bits) (words : List Nat) (pad : Bits), s.par.wf = true →
    1 ≤ wl → wl ≤ s.par.wlMax → p < wl → n < 8 → pad.length = n → tree.full wl → tree.leafCount ≤ 2 ^ wl →
    codes.map (Machine.normalize tree).wordAt = words.map some →
    bitsOf s.input = nb n 3 ++ egCode p ++ egCode wl ++ serNode wl tree ++ codes.flatten ++ pad →
    (words = [] → p = 0) → (wl * words.length - p) % 8 = 0 → s.canRead →
    s.canStoreFile ((wl * words.length - p) / 8) →
    ∃ t, exec .sfDec s = .next t ∧ DecodeEnd s t n (bytesOf (strippedBits wl p words))

/-- Files SF.DEC refuses. At the header (42_lzss R244, 41_elias_gamma R202, R295): an empty source; a pad count that hides its
own field; P or WL cut short or above 2^32 - 1; WL out of this implementation's range; a word pad of a whole Word. In the tree
header (R278): it ends inside, or has too many nodes or leaves. In the codes (R296): a walk from a lone LEAF's node by a 1 bit;
the stream ends inside a Code. At the end (R297): a word pad with no Word; decoded bits that are no whole bytes. -/
def Obligations.SfDecErrors : Prop :=
  ∀ s : State, s.par.wf = true → s.canRead → s.stagedSound →
    (s.srcLen = 0#32 → Raises .sfDec s .malformed 0x5103#16) ∧
    (∀ n rest, bitsOf s.input = nb n 3 ++ rest → n < 8 → rest.length < n → Raises .sfDec s .malformed 0x510C#16) ∧
    (∀ n t pad, bitsOf s.input = nb n 3 ++ t ++ pad → n < 8 → pad.length = n →
      (gammaCut t → Raises .sfDec s .malformed 0x5101#16) ∧
      (gammaTooLarge t → Raises .sfDec s .malformed 0x5102#16)) ∧
    (∀ n p t pad, bitsOf s.input = nb n 3 ++ egCode p ++ t ++ pad → n < 8 → pad.length = n → p < 2 ^ 32 →
      (gammaCut t → Raises .sfDec s .malformed 0x5101#16) ∧
      (gammaTooLarge t → Raises .sfDec s .malformed 0x5102#16)) ∧
    (∀ n p wl rest, bitsOf s.input = nb n 3 ++ egCode p ++ egCode wl ++ rest → n < 8 → n ≤ rest.length →
      p < 2 ^ 32 → wl < 2 ^ 32 →
      (wl < 1 ∨ s.par.wlMax < wl → Raises .sfDec s .unsupported 0x5103#16) ∧
      (1 ≤ wl → wl ≤ s.par.wlMax → wl ≤ p → Raises .sfDec s .malformed 0x510B#16)) ∧
    (∀ (n p wl : Nat) (body pad : Bits), bitsOf s.input = nb n 3 ++ egCode p ++ egCode wl ++ body ++ pad → n < 8 →
      pad.length = n → 1 ≤ wl → wl ≤ s.par.wlMax → p < wl →
      (treeCut wl body → Raises .sfDec s .malformed 0x5106#16) ∧
      (treeTooLarge wl body → Raises .sfDec s .malformed 0x5107#16) ∧
      (∀ (k w : Nat) (rest : Bits), body = serNode wl (.leaf w) ++ List.replicate k false ++ [true] ++ rest → w < 2 ^ wl →
        s.canStoreFile (wl * k / 8) → Raises .sfDec s .malformed 0x5108#16) ∧
      (∀ tree : PTree, tree.full wl → tree.leafCount ≤ 2 ^ wl →
        (0 < p → body = serNode wl tree → Raises .sfDec s .malformed 0x510A#16) ∧
        ∀ (codes : List Bits) (words : List Nat), codes.map (Machine.normalize tree).wordAt = words.map some →
          (∀ tail more : Bits, body = serNode wl tree ++ codes.flatten ++ tail → tail ≠ [] → more ≠ [] →
            ((Machine.normalize tree).wordAt (tail ++ more)).isSome = true → s.canStoreFile (wl * words.length / 8) →
            Raises .sfDec s .malformed 0x5109#16) ∧
          (body = serNode wl tree ++ codes.flatten → (wl * words.length - p) % 8 ≠ 0 →
            s.canStoreFile ((wl * words.length - p) / 8) → Raises .sfDec s .malformed 0x510D#16)))

/-- The Shannon-Fano round trip (R305): the file SF.COMP writes, loaded into SRC, is decoded by SF.DEC to the source. -/
def Obligations.SfRoundTrip : Prop :=
  ∀ s t u : State, s.par.wf = true → u.par.wf = true →
    1 ≤ s.arg0.toNat → s.arg0.toNat ≤ s.par.wlMax → s.canRead →
    s.canStoreFile (sfFile s.arg0.toNat s.input).length →
    exec .sfComp s = .next t → u.holdsOutputOf t → s.arg0.toNat ≤ u.par.wlMax →
    u.canRead → u.canStoreFile s.srcLen.toNat →
    ∃ v, exec .sfDec u = .next v ∧ v.output = s.input ∧ v.er = u.er

/-! ## Invariants -/

/-- The invariant holds at reset (10_state R64). -/
def Obligations.ResetMeetsInvariant : Prop := State.reset.Inv

/-- Every step keeps the invariant: the bounds of 10_state R44 to R56 and R59, the launch parameters, the windows' canonical
form. -/
def Obligations.StepKeepsInvariant : Prop :=
  ∀ s t : State, s.Inv → step s = .next t → t.Inv

/-- Every step keeps the reader coherent: a buffered byte is the byte SRC holds, or one the host overwrote under this reader
(10_state R59, 70_reset R391). -/
def Obligations.StepKeepsReaderCoherent : Prop :=
  ∀ s t : State, s.readerCoherent → step s = .next t → t.readerCoherent

end
end

