-- ==== Sys2Proof/Laws/Bits.lean ====
section
/-! SUPPORT. The laws of `nb`, `val`, `bitsOf` and `bytesOf` (00_scope R16, R17): lengths, the two inverses, and where a
stream's bit stands in its byte (20_memory R70). -/

namespace Sys2Proof.Machine

@[simp] theorem nb_length (v w : Nat) : (nb v w).length = w := by
  induction w with
  | zero => rfl
  | succ w ih => simp [nb, ih]

theorem val_foldl (s : Bits) (acc : Nat) :
    s.foldl (fun acc b => 2 * acc + b.toNat) acc = acc * 2 ^ s.length + val s := by
  induction s generalizing acc with
  | nil => simp [val]
  | cons b s ih =>
    have h : val (b :: s) = b.toNat * 2 ^ s.length + val s := by
      rw [val, List.foldl_cons, ih]
      simp
    rw [List.foldl_cons, ih, h, List.length_cons, pow_succ]
    ring

@[simp] theorem val_nil : val [] = 0 := rfl

theorem val_cons (b : Bool) (s : Bits) : val (b :: s) = b.toNat * 2 ^ s.length + val s := by
  rw [val, List.foldl_cons, val_foldl]
  simp

theorem val_append (s t : Bits) : val (s ++ t) = val s * 2 ^ t.length + val t := by
  rw [val, List.foldl_append, val_foldl]
  rfl

theorem val_lt (s : Bits) : val s < 2 ^ s.length := by
  induction s with
  | nil => simp
  | cons b s ih =>
    rw [val_cons, List.length_cons, pow_succ]
    cases b <;> simp <;> omega

/-- `val` undoes `nb` (00_scope R16), the bits above the width being dropped. -/
theorem val_nb (v w : Nat) : val (nb v w) = v % 2 ^ w := by
  induction w with
  | zero => simp [nb, Nat.mod_one]
  | succ w ih =>
    rw [nb, val_cons, ih, nb_length, Nat.mod_pow_succ, Nat.testBit_eq_decide_div_mod_eq]
    have h : v / 2 ^ w % 2 < 2 := Nat.mod_lt _ (by omega)
    by_cases h1 : v / 2 ^ w % 2 = 1
    · simp [h1, Nat.add_comm]
    · have h0 : v / 2 ^ w % 2 = 0 := by omega
      simp [h0]

theorem nb_mod (v w : Nat) : nb (v % 2 ^ w) w = nb v w := by
  suffices ∀ u, u ≤ w → nb (v % 2 ^ w) u = nb v u from this w le_rfl
  intro u
  induction u with
  | zero => intro _; rfl
  | succ u ih =>
    intro hu
    rw [nb, nb, ih (by omega), Nat.testBit_mod_two_pow]
    have : u < w := by omega
    simp [this]

/-- `nb` undoes `val` (00_scope R16). -/
theorem nb_val (s : Bits) : nb (val s) s.length = s := by
  induction s with
  | nil => rfl
  | cons b s ih =>
    have hlt := val_lt s
    rw [List.length_cons, nb]
    congr 1
    · rw [val_cons, Nat.testBit_eq_decide_div_mod_eq]
      have hp : 0 < 2 ^ s.length := Nat.two_pow_pos _
      rw [Nat.add_comm, Nat.add_mul_div_right _ _ hp, Nat.div_eq_of_lt hlt]
      cases b <;> simp
    · rw [← nb_mod, val_cons, Nat.add_comm, Nat.add_mul_mod_self_right, nb_mod, ih]

theorem nb_append (v a b : Nat) : nb v (a + b) = nb (v / 2 ^ b) a ++ nb v b := by
  induction a with
  | zero => simp [nb]
  | succ a ih =>
    rw [Nat.succ_add, nb, nb, ih, Nat.testBit_div_two_pow, List.cons_append, Nat.add_comm a b]

theorem nb_take (v w n : Nat) (h : n ≤ w) : (nb v w).take n = nb (v / 2 ^ (w - n)) n := by
  obtain ⟨k, rfl⟩ := Nat.exists_eq_add_of_le h
  rw [nb_append, Nat.add_sub_cancel_left]
  exact List.take_left' (nb_length _ _)

theorem nb_getElem (v : Nat) : ∀ (w i : Nat) (h : i < (nb v w).length), (nb v w)[i] = v.testBit (w - 1 - i)
  | 0, i, h => by simp at h
  | w + 1, 0, h => by simp [nb]
  | w + 1, i + 1, h => by
    have hi : i < w := by simpa using h
    simp only [nb, List.getElem_cons_succ]
    rw [nb_getElem v w i]
    congr 1
    omega

@[simp] theorem bitsOfByte_length (b : Byte) : (bitsOfByte b).length = 8 := nb_length _ _

/-- Bit `i` of a byte's bits is bit `7 - i` of the byte (20_memory R70). -/
theorem bitsOfByte_getElem (b : Byte) (i : Nat) (h : i < (bitsOfByte b).length) :
    (bitsOfByte b)[i] = byteBit b i := by
  have hi : i < 8 := by simpa using h
  simp only [bitsOfByte, nb_getElem, byteBit]
  rfl

@[simp] theorem bitsOf_nil : bitsOf [] = [] := rfl

@[simp] theorem bitsOf_cons (b : Byte) (bs : List Byte) : bitsOf (b :: bs) = bitsOfByte b ++ bitsOf bs := rfl

theorem bitsOf_append (xs ys : List Byte) : bitsOf (xs ++ ys) = bitsOf xs ++ bitsOf ys := by
  simp [bitsOf]

@[simp] theorem bitsOf_length (bs : List Byte) : (bitsOf bs).length = 8 * bs.length := by
  induction bs with
  | nil => rfl
  | cons b bs ih => simp [ih]; omega

/-- Bit `j` of a stream is bit `7 - (j mod 8)` of byte `j div 8` (20_memory R70). -/
theorem bitsOf_getElem (bs : List Byte) (j : Nat) (h : j < (bitsOf bs).length) :
    (bitsOf bs)[j] = byteBit (bs[j / 8]'(by simp at h; omega)) (j % 8) := by
  induction bs generalizing j with
  | nil => simp at h
  | cons b bs ih =>
    simp only [bitsOf_cons]
    by_cases hj : j < 8
    · rw [List.getElem_append_left (by simpa using hj), bitsOfByte_getElem]
      have h1 : j / 8 = 0 := by omega
      have h2 : j % 8 = j := by omega
      simp [h1, h2]
    · rw [List.getElem_append_right (by simpa using hj)]
      simp only [bitsOfByte_length]
      rw [ih]
      have h1 : j / 8 = (j - 8) / 8 + 1 := by omega
      have h2 : j % 8 = (j - 8) % 8 := by omega
      simp [h1, h2]

/-- Eight bits and their byte stand for each other (00_scope R17). -/
theorem bitsOfByte_byteOf (s : Bits) (h : s.length = 8) : bitsOfByte (byteOf s) = s := by
  have h1 : (byteOf s).toNat = val s := by
    rw [byteOf, BitVec.toNat_ofNat, Nat.mod_eq_of_lt (h ▸ val_lt s)]
  rw [bitsOfByte, h1, ← h, nb_val]

theorem byteOf_bitsOfByte (b : Byte) : byteOf (bitsOfByte b) = b := by
  apply BitVec.eq_of_toNat_eq
  rw [byteOf, BitVec.toNat_ofNat, bitsOfByte, val_nb, Nat.mod_mod, Nat.mod_eq_of_lt b.isLt]

theorem bytesOf_cons8 (s rest : Bits) (h : s.length = 8) : bytesOf (s ++ rest) = byteOf s :: bytesOf rest := by
  match s, h with
  | [b0, b1, b2, b3, b4, b5, b6, b7], _ => rfl

theorem bytesOf_short (s : Bits) (h : s.length < 8) : bytesOf s = [] := by
  match s, h with
  | [], _ | [_], _ | [_, _], _ | [_, _, _], _ | [_, _, _, _], _ | [_, _, _, _, _], _ | [_, _, _, _, _, _], _
  | [_, _, _, _, _, _, _], _ => rfl

/-- `bytesOf` undoes `bitsOf` (00_scope R17). -/
theorem bytesOf_bitsOf (bs : List Byte) : bytesOf (bitsOf bs) = bs := by
  induction bs with
  | nil => rfl
  | cons b bs ih => rw [bitsOf_cons, bytesOf_cons8 _ _ (bitsOfByte_length b), ih, byteOf_bitsOfByte]

/-- `bitsOf` undoes `bytesOf` on whole bytes (00_scope R17). -/
theorem bitsOf_bytesOf (n : Nat) : ∀ s : Bits, s.length = 8 * n → bitsOf (bytesOf s) = s := by
  induction n with
  | zero => intro s h; rw [List.length_eq_zero_iff.1 (show s.length = 0 by omega)]; rfl
  | succ n ih =>
    intro s h
    rw [← List.take_append_drop 8 s]
    have h8 : (s.take 8).length = 8 := by rw [List.length_take]; omega
    rw [bytesOf_cons8 _ _ h8, bitsOf_cons, bitsOfByte_byteOf _ h8, ih _ (by rw [List.length_drop]; omega)]

theorem bytesOf_length (n : Nat) : ∀ s : Bits, s.length / 8 = n → (bytesOf s).length = n := by
  induction n with
  | zero => intro s h; rw [bytesOf_short s (by omega)]; rfl
  | succ n ih =>
    intro s h
    rw [← List.take_append_drop 8 s, bytesOf_cons8 _ _ (by rw [List.length_take]; omega), List.length_cons,
      ih _ (by rw [List.length_drop]; omega)]

end Sys2Proof.Machine
end

