-- ==== Sys2Proof/Laws/State.lean ====
section
/-! SUPPORT. One lemma for each field of State and each named update of Machine/Ops.lean: what the field holds after the
update. Later proofs use these and unfold no record update. -/

namespace Sys2Proof.Machine

variable (s : State)

/-! ## setRd -/

@[simp] theorem State.setRd_par (r : Reader) : (s.setRd r).par = s.par := rfl
@[simp] theorem State.setRd_arg0 (r : Reader) : (s.setRd r).arg0 = s.arg0 := rfl
@[simp] theorem State.setRd_arg1 (r : Reader) : (s.setRd r).arg1 = s.arg1 := rfl
@[simp] theorem State.setRd_arg2 (r : Reader) : (s.setRd r).arg2 = s.arg2 := rfl
@[simp] theorem State.setRd_srcLen (r : Reader) : (s.setRd r).srcLen = s.srcLen := rfl
@[simp] theorem State.setRd_result (r : Reader) : (s.setRd r).result = s.result := rfl
@[simp] theorem State.setRd_rcnt (r : Reader) : (s.setRd r).rcnt = s.rcnt := rfl
@[simp] theorem State.setRd_rd (r : Reader) : (s.setRd r).rd = r := rfl
@[simp] theorem State.setRd_wr (r : Reader) : (s.setRd r).wr = s.wr := rfl
@[simp] theorem State.setRd_er (r : Reader) : (s.setRd r).er = s.er := rfl
@[simp] theorem State.setRd_src (r : Reader) : (s.setRd r).src = s.src := rfl
@[simp] theorem State.setRd_snk (r : Reader) : (s.setRd r).snk = s.snk := rfl
@[simp] theorem State.setRd_snkAny (r : Reader) : (s.setRd r).snkAny = s.snkAny := rfl
@[simp] theorem State.setRd_eng (r : Reader) : (s.setRd r).eng = s.eng := rfl
@[simp] theorem State.setRd_draw (r : Reader) : (s.setRd r).draw = s.draw := rfl
@[simp] theorem State.setRd_host (r : Reader) : (s.setRd r).host = s.host := rfl
@[simp] theorem State.setRd_busData (r : Reader) : (s.setRd r).busData = s.busData := rfl

/-! ## setWr -/

@[simp] theorem State.setWr_par (w : Writer) : (s.setWr w).par = s.par := rfl
@[simp] theorem State.setWr_arg0 (w : Writer) : (s.setWr w).arg0 = s.arg0 := rfl
@[simp] theorem State.setWr_arg1 (w : Writer) : (s.setWr w).arg1 = s.arg1 := rfl
@[simp] theorem State.setWr_arg2 (w : Writer) : (s.setWr w).arg2 = s.arg2 := rfl
@[simp] theorem State.setWr_srcLen (w : Writer) : (s.setWr w).srcLen = s.srcLen := rfl
@[simp] theorem State.setWr_result (w : Writer) : (s.setWr w).result = s.result := rfl
@[simp] theorem State.setWr_rcnt (w : Writer) : (s.setWr w).rcnt = s.rcnt := rfl
@[simp] theorem State.setWr_rd (w : Writer) : (s.setWr w).rd = s.rd := rfl
@[simp] theorem State.setWr_wr (w : Writer) : (s.setWr w).wr = w := rfl
@[simp] theorem State.setWr_er (w : Writer) : (s.setWr w).er = s.er := rfl
@[simp] theorem State.setWr_src (w : Writer) : (s.setWr w).src = s.src := rfl
@[simp] theorem State.setWr_snk (w : Writer) : (s.setWr w).snk = s.snk := rfl
@[simp] theorem State.setWr_snkAny (w : Writer) : (s.setWr w).snkAny = s.snkAny := rfl
@[simp] theorem State.setWr_eng (w : Writer) : (s.setWr w).eng = s.eng := rfl
@[simp] theorem State.setWr_draw (w : Writer) : (s.setWr w).draw = s.draw := rfl
@[simp] theorem State.setWr_host (w : Writer) : (s.setWr w).host = s.host := rfl
@[simp] theorem State.setWr_busData (w : Writer) : (s.setWr w).busData = s.busData := rfl

/-! ## setEr -/

@[simp] theorem State.setEr_par (e : ErrState) : (s.setEr e).par = s.par := rfl
@[simp] theorem State.setEr_arg0 (e : ErrState) : (s.setEr e).arg0 = s.arg0 := rfl
@[simp] theorem State.setEr_arg1 (e : ErrState) : (s.setEr e).arg1 = s.arg1 := rfl
@[simp] theorem State.setEr_arg2 (e : ErrState) : (s.setEr e).arg2 = s.arg2 := rfl
@[simp] theorem State.setEr_srcLen (e : ErrState) : (s.setEr e).srcLen = s.srcLen := rfl
@[simp] theorem State.setEr_result (e : ErrState) : (s.setEr e).result = s.result := rfl
@[simp] theorem State.setEr_rcnt (e : ErrState) : (s.setEr e).rcnt = s.rcnt := rfl
@[simp] theorem State.setEr_rd (e : ErrState) : (s.setEr e).rd = s.rd := rfl
@[simp] theorem State.setEr_wr (e : ErrState) : (s.setEr e).wr = s.wr := rfl
@[simp] theorem State.setEr_er (e : ErrState) : (s.setEr e).er = e := rfl
@[simp] theorem State.setEr_src (e : ErrState) : (s.setEr e).src = s.src := rfl
@[simp] theorem State.setEr_snk (e : ErrState) : (s.setEr e).snk = s.snk := rfl
@[simp] theorem State.setEr_snkAny (e : ErrState) : (s.setEr e).snkAny = s.snkAny := rfl
@[simp] theorem State.setEr_eng (e : ErrState) : (s.setEr e).eng = s.eng := rfl
@[simp] theorem State.setEr_draw (e : ErrState) : (s.setEr e).draw = s.draw := rfl
@[simp] theorem State.setEr_host (e : ErrState) : (s.setEr e).host = s.host := rfl
@[simp] theorem State.setEr_busData (e : ErrState) : (s.setEr e).busData = s.busData := rfl

/-! ## setResult -/

@[simp] theorem State.setResult_par (v : Word) : (s.setResult v).par = s.par := rfl
@[simp] theorem State.setResult_arg0 (v : Word) : (s.setResult v).arg0 = s.arg0 := rfl
@[simp] theorem State.setResult_arg1 (v : Word) : (s.setResult v).arg1 = s.arg1 := rfl
@[simp] theorem State.setResult_arg2 (v : Word) : (s.setResult v).arg2 = s.arg2 := rfl
@[simp] theorem State.setResult_srcLen (v : Word) : (s.setResult v).srcLen = s.srcLen := rfl
@[simp] theorem State.setResult_result (v : Word) : (s.setResult v).result = v := rfl
@[simp] theorem State.setResult_rcnt (v : Word) : (s.setResult v).rcnt = s.rcnt := rfl
@[simp] theorem State.setResult_rd (v : Word) : (s.setResult v).rd = s.rd := rfl
@[simp] theorem State.setResult_wr (v : Word) : (s.setResult v).wr = s.wr := rfl
@[simp] theorem State.setResult_er (v : Word) : (s.setResult v).er = s.er := rfl
@[simp] theorem State.setResult_src (v : Word) : (s.setResult v).src = s.src := rfl
@[simp] theorem State.setResult_snk (v : Word) : (s.setResult v).snk = s.snk := rfl
@[simp] theorem State.setResult_snkAny (v : Word) : (s.setResult v).snkAny = s.snkAny := rfl
@[simp] theorem State.setResult_eng (v : Word) : (s.setResult v).eng = s.eng := rfl
@[simp] theorem State.setResult_draw (v : Word) : (s.setResult v).draw = s.draw := rfl
@[simp] theorem State.setResult_host (v : Word) : (s.setResult v).host = s.host := rfl
@[simp] theorem State.setResult_busData (v : Word) : (s.setResult v).busData = s.busData := rfl

/-! ## setRcnt -/

@[simp] theorem State.setRcnt_par (n : BitVec 6) : (s.setRcnt n).par = s.par := rfl
@[simp] theorem State.setRcnt_arg0 (n : BitVec 6) : (s.setRcnt n).arg0 = s.arg0 := rfl
@[simp] theorem State.setRcnt_arg1 (n : BitVec 6) : (s.setRcnt n).arg1 = s.arg1 := rfl
@[simp] theorem State.setRcnt_arg2 (n : BitVec 6) : (s.setRcnt n).arg2 = s.arg2 := rfl
@[simp] theorem State.setRcnt_srcLen (n : BitVec 6) : (s.setRcnt n).srcLen = s.srcLen := rfl
@[simp] theorem State.setRcnt_result (n : BitVec 6) : (s.setRcnt n).result = s.result := rfl
@[simp] theorem State.setRcnt_rcnt (n : BitVec 6) : (s.setRcnt n).rcnt = n := rfl
@[simp] theorem State.setRcnt_rd (n : BitVec 6) : (s.setRcnt n).rd = s.rd := rfl
@[simp] theorem State.setRcnt_wr (n : BitVec 6) : (s.setRcnt n).wr = s.wr := rfl
@[simp] theorem State.setRcnt_er (n : BitVec 6) : (s.setRcnt n).er = s.er := rfl
@[simp] theorem State.setRcnt_src (n : BitVec 6) : (s.setRcnt n).src = s.src := rfl
@[simp] theorem State.setRcnt_snk (n : BitVec 6) : (s.setRcnt n).snk = s.snk := rfl
@[simp] theorem State.setRcnt_snkAny (n : BitVec 6) : (s.setRcnt n).snkAny = s.snkAny := rfl
@[simp] theorem State.setRcnt_eng (n : BitVec 6) : (s.setRcnt n).eng = s.eng := rfl
@[simp] theorem State.setRcnt_draw (n : BitVec 6) : (s.setRcnt n).draw = s.draw := rfl
@[simp] theorem State.setRcnt_host (n : BitVec 6) : (s.setRcnt n).host = s.host := rfl
@[simp] theorem State.setRcnt_busData (n : BitVec 6) : (s.setRcnt n).busData = s.busData := rfl

/-! ## setEng -/

@[simp] theorem State.setEng_par (e : Engine) : (s.setEng e).par = s.par := rfl
@[simp] theorem State.setEng_arg0 (e : Engine) : (s.setEng e).arg0 = s.arg0 := rfl
@[simp] theorem State.setEng_arg1 (e : Engine) : (s.setEng e).arg1 = s.arg1 := rfl
@[simp] theorem State.setEng_arg2 (e : Engine) : (s.setEng e).arg2 = s.arg2 := rfl
@[simp] theorem State.setEng_srcLen (e : Engine) : (s.setEng e).srcLen = s.srcLen := rfl
@[simp] theorem State.setEng_result (e : Engine) : (s.setEng e).result = s.result := rfl
@[simp] theorem State.setEng_rcnt (e : Engine) : (s.setEng e).rcnt = s.rcnt := rfl
@[simp] theorem State.setEng_rd (e : Engine) : (s.setEng e).rd = s.rd := rfl
@[simp] theorem State.setEng_wr (e : Engine) : (s.setEng e).wr = s.wr := rfl
@[simp] theorem State.setEng_er (e : Engine) : (s.setEng e).er = s.er := rfl
@[simp] theorem State.setEng_src (e : Engine) : (s.setEng e).src = s.src := rfl
@[simp] theorem State.setEng_snk (e : Engine) : (s.setEng e).snk = s.snk := rfl
@[simp] theorem State.setEng_snkAny (e : Engine) : (s.setEng e).snkAny = s.snkAny := rfl
@[simp] theorem State.setEng_eng (e : Engine) : (s.setEng e).eng = e := rfl
@[simp] theorem State.setEng_draw (e : Engine) : (s.setEng e).draw = s.draw := rfl
@[simp] theorem State.setEng_host (e : Engine) : (s.setEng e).host = s.host := rfl
@[simp] theorem State.setEng_busData (e : Engine) : (s.setEng e).busData = s.busData := rfl

/-! ## setLz -/

@[simp] theorem State.setLz_par (m : LzMem) : (s.setLz m).par = s.par := rfl
@[simp] theorem State.setLz_arg0 (m : LzMem) : (s.setLz m).arg0 = s.arg0 := rfl
@[simp] theorem State.setLz_arg1 (m : LzMem) : (s.setLz m).arg1 = s.arg1 := rfl
@[simp] theorem State.setLz_arg2 (m : LzMem) : (s.setLz m).arg2 = s.arg2 := rfl
@[simp] theorem State.setLz_srcLen (m : LzMem) : (s.setLz m).srcLen = s.srcLen := rfl
@[simp] theorem State.setLz_result (m : LzMem) : (s.setLz m).result = s.result := rfl
@[simp] theorem State.setLz_rcnt (m : LzMem) : (s.setLz m).rcnt = s.rcnt := rfl
@[simp] theorem State.setLz_rd (m : LzMem) : (s.setLz m).rd = s.rd := rfl
@[simp] theorem State.setLz_wr (m : LzMem) : (s.setLz m).wr = s.wr := rfl
@[simp] theorem State.setLz_er (m : LzMem) : (s.setLz m).er = s.er := rfl
@[simp] theorem State.setLz_src (m : LzMem) : (s.setLz m).src = s.src := rfl
@[simp] theorem State.setLz_snk (m : LzMem) : (s.setLz m).snk = s.snk := rfl
@[simp] theorem State.setLz_snkAny (m : LzMem) : (s.setLz m).snkAny = s.snkAny := rfl
@[simp] theorem State.setLz_eng (m : LzMem) : (s.setLz m).eng = { s.eng with lz := m } := rfl
@[simp] theorem State.setLz_draw (m : LzMem) : (s.setLz m).draw = s.draw := rfl
@[simp] theorem State.setLz_host (m : LzMem) : (s.setLz m).host = s.host := rfl
@[simp] theorem State.setLz_busData (m : LzMem) : (s.setLz m).busData = s.busData := rfl

/-! ## setSf -/

@[simp] theorem State.setSf_par (m : SfMem) : (s.setSf m).par = s.par := rfl
@[simp] theorem State.setSf_arg0 (m : SfMem) : (s.setSf m).arg0 = s.arg0 := rfl
@[simp] theorem State.setSf_arg1 (m : SfMem) : (s.setSf m).arg1 = s.arg1 := rfl
@[simp] theorem State.setSf_arg2 (m : SfMem) : (s.setSf m).arg2 = s.arg2 := rfl
@[simp] theorem State.setSf_srcLen (m : SfMem) : (s.setSf m).srcLen = s.srcLen := rfl
@[simp] theorem State.setSf_result (m : SfMem) : (s.setSf m).result = s.result := rfl
@[simp] theorem State.setSf_rcnt (m : SfMem) : (s.setSf m).rcnt = s.rcnt := rfl
@[simp] theorem State.setSf_rd (m : SfMem) : (s.setSf m).rd = s.rd := rfl
@[simp] theorem State.setSf_wr (m : SfMem) : (s.setSf m).wr = s.wr := rfl
@[simp] theorem State.setSf_er (m : SfMem) : (s.setSf m).er = s.er := rfl
@[simp] theorem State.setSf_src (m : SfMem) : (s.setSf m).src = s.src := rfl
@[simp] theorem State.setSf_snk (m : SfMem) : (s.setSf m).snk = s.snk := rfl
@[simp] theorem State.setSf_snkAny (m : SfMem) : (s.setSf m).snkAny = s.snkAny := rfl
@[simp] theorem State.setSf_eng (m : SfMem) : (s.setSf m).eng = { s.eng with sf := m } := rfl
@[simp] theorem State.setSf_draw (m : SfMem) : (s.setSf m).draw = s.draw := rfl
@[simp] theorem State.setSf_host (m : SfMem) : (s.setSf m).host = s.host := rfl
@[simp] theorem State.setSf_busData (m : SfMem) : (s.setSf m).busData = s.busData := rfl

/-! ## setSrc -/

@[simp] theorem State.setSrc_par (m : List Host.Cell) : (s.setSrc m).par = s.par := rfl
@[simp] theorem State.setSrc_arg0 (m : List Host.Cell) : (s.setSrc m).arg0 = s.arg0 := rfl
@[simp] theorem State.setSrc_arg1 (m : List Host.Cell) : (s.setSrc m).arg1 = s.arg1 := rfl
@[simp] theorem State.setSrc_arg2 (m : List Host.Cell) : (s.setSrc m).arg2 = s.arg2 := rfl
@[simp] theorem State.setSrc_srcLen (m : List Host.Cell) : (s.setSrc m).srcLen = s.srcLen := rfl
@[simp] theorem State.setSrc_result (m : List Host.Cell) : (s.setSrc m).result = s.result := rfl
@[simp] theorem State.setSrc_rcnt (m : List Host.Cell) : (s.setSrc m).rcnt = s.rcnt := rfl
@[simp] theorem State.setSrc_rd (m : List Host.Cell) : (s.setSrc m).rd = s.rd := rfl
@[simp] theorem State.setSrc_wr (m : List Host.Cell) : (s.setSrc m).wr = s.wr := rfl
@[simp] theorem State.setSrc_er (m : List Host.Cell) : (s.setSrc m).er = s.er := rfl
@[simp] theorem State.setSrc_src (m : List Host.Cell) : (s.setSrc m).src = m := rfl
@[simp] theorem State.setSrc_snk (m : List Host.Cell) : (s.setSrc m).snk = s.snk := rfl
@[simp] theorem State.setSrc_snkAny (m : List Host.Cell) : (s.setSrc m).snkAny = s.snkAny := rfl
@[simp] theorem State.setSrc_eng (m : List Host.Cell) : (s.setSrc m).eng = s.eng := rfl
@[simp] theorem State.setSrc_draw (m : List Host.Cell) : (s.setSrc m).draw = s.draw := rfl
@[simp] theorem State.setSrc_host (m : List Host.Cell) : (s.setSrc m).host = s.host := rfl
@[simp] theorem State.setSrc_busData (m : List Host.Cell) : (s.setSrc m).busData = s.busData := rfl

/-! ## setSnk -/

@[simp] theorem State.setSnk_par (m : List Host.Cell) : (s.setSnk m).par = s.par := rfl
@[simp] theorem State.setSnk_arg0 (m : List Host.Cell) : (s.setSnk m).arg0 = s.arg0 := rfl
@[simp] theorem State.setSnk_arg1 (m : List Host.Cell) : (s.setSnk m).arg1 = s.arg1 := rfl
@[simp] theorem State.setSnk_arg2 (m : List Host.Cell) : (s.setSnk m).arg2 = s.arg2 := rfl
@[simp] theorem State.setSnk_srcLen (m : List Host.Cell) : (s.setSnk m).srcLen = s.srcLen := rfl
@[simp] theorem State.setSnk_result (m : List Host.Cell) : (s.setSnk m).result = s.result := rfl
@[simp] theorem State.setSnk_rcnt (m : List Host.Cell) : (s.setSnk m).rcnt = s.rcnt := rfl
@[simp] theorem State.setSnk_rd (m : List Host.Cell) : (s.setSnk m).rd = s.rd := rfl
@[simp] theorem State.setSnk_wr (m : List Host.Cell) : (s.setSnk m).wr = s.wr := rfl
@[simp] theorem State.setSnk_er (m : List Host.Cell) : (s.setSnk m).er = s.er := rfl
@[simp] theorem State.setSnk_src (m : List Host.Cell) : (s.setSnk m).src = s.src := rfl
@[simp] theorem State.setSnk_snk (m : List Host.Cell) : (s.setSnk m).snk = m := rfl
@[simp] theorem State.setSnk_snkAny (m : List Host.Cell) : (s.setSnk m).snkAny = s.snkAny := rfl
@[simp] theorem State.setSnk_eng (m : List Host.Cell) : (s.setSnk m).eng = s.eng := rfl
@[simp] theorem State.setSnk_draw (m : List Host.Cell) : (s.setSnk m).draw = s.draw := rfl
@[simp] theorem State.setSnk_host (m : List Host.Cell) : (s.setSnk m).host = s.host := rfl
@[simp] theorem State.setSnk_busData (m : List Host.Cell) : (s.setSnk m).busData = s.busData := rfl

/-! ## drew -/

@[simp] theorem State.drew_par (n : Nat) : (s.drew n).par = s.par := rfl
@[simp] theorem State.drew_arg0 (n : Nat) : (s.drew n).arg0 = s.arg0 := rfl
@[simp] theorem State.drew_arg1 (n : Nat) : (s.drew n).arg1 = s.arg1 := rfl
@[simp] theorem State.drew_arg2 (n : Nat) : (s.drew n).arg2 = s.arg2 := rfl
@[simp] theorem State.drew_srcLen (n : Nat) : (s.drew n).srcLen = s.srcLen := rfl
@[simp] theorem State.drew_result (n : Nat) : (s.drew n).result = s.result := rfl
@[simp] theorem State.drew_rcnt (n : Nat) : (s.drew n).rcnt = s.rcnt := rfl
@[simp] theorem State.drew_rd (n : Nat) : (s.drew n).rd = s.rd := rfl
@[simp] theorem State.drew_wr (n : Nat) : (s.drew n).wr = s.wr := rfl
@[simp] theorem State.drew_er (n : Nat) : (s.drew n).er = s.er := rfl
@[simp] theorem State.drew_src (n : Nat) : (s.drew n).src = s.src := rfl
@[simp] theorem State.drew_snk (n : Nat) : (s.drew n).snk = s.snk := rfl
@[simp] theorem State.drew_snkAny (n : Nat) : (s.drew n).snkAny = s.snkAny := rfl
@[simp] theorem State.drew_eng (n : Nat) : (s.drew n).eng = s.eng := rfl
@[simp] theorem State.drew_draw (n : Nat) : (s.drew n).draw = s.draw + n := rfl
@[simp] theorem State.drew_host (n : Nat) : (s.drew n).host = s.host := rfl
@[simp] theorem State.drew_busData (n : Nat) : (s.drew n).busData = s.busData := rfl

/-! ## setBus -/

@[simp] theorem State.setBus_par (v : Word) : (s.setBus v).par = s.par := rfl
@[simp] theorem State.setBus_arg0 (v : Word) : (s.setBus v).arg0 = s.arg0 := rfl
@[simp] theorem State.setBus_arg1 (v : Word) : (s.setBus v).arg1 = s.arg1 := rfl
@[simp] theorem State.setBus_arg2 (v : Word) : (s.setBus v).arg2 = s.arg2 := rfl
@[simp] theorem State.setBus_srcLen (v : Word) : (s.setBus v).srcLen = s.srcLen := rfl
@[simp] theorem State.setBus_result (v : Word) : (s.setBus v).result = s.result := rfl
@[simp] theorem State.setBus_rcnt (v : Word) : (s.setBus v).rcnt = s.rcnt := rfl
@[simp] theorem State.setBus_rd (v : Word) : (s.setBus v).rd = s.rd := rfl
@[simp] theorem State.setBus_wr (v : Word) : (s.setBus v).wr = s.wr := rfl
@[simp] theorem State.setBus_er (v : Word) : (s.setBus v).er = s.er := rfl
@[simp] theorem State.setBus_src (v : Word) : (s.setBus v).src = s.src := rfl
@[simp] theorem State.setBus_snk (v : Word) : (s.setBus v).snk = s.snk := rfl
@[simp] theorem State.setBus_snkAny (v : Word) : (s.setBus v).snkAny = s.snkAny := rfl
@[simp] theorem State.setBus_eng (v : Word) : (s.setBus v).eng = s.eng := rfl
@[simp] theorem State.setBus_draw (v : Word) : (s.setBus v).draw = s.draw := rfl
@[simp] theorem State.setBus_host (v : Word) : (s.setBus v).host = s.host := rfl
@[simp] theorem State.setBus_busData (v : Word) : (s.setBus v).busData = v := rfl

/-! ## setHost -/

@[simp] theorem State.setHost_par (h : List HostAction) : (s.setHost h).par = s.par := rfl
@[simp] theorem State.setHost_arg0 (h : List HostAction) : (s.setHost h).arg0 = s.arg0 := rfl
@[simp] theorem State.setHost_arg1 (h : List HostAction) : (s.setHost h).arg1 = s.arg1 := rfl
@[simp] theorem State.setHost_arg2 (h : List HostAction) : (s.setHost h).arg2 = s.arg2 := rfl
@[simp] theorem State.setHost_srcLen (h : List HostAction) : (s.setHost h).srcLen = s.srcLen := rfl
@[simp] theorem State.setHost_result (h : List HostAction) : (s.setHost h).result = s.result := rfl
@[simp] theorem State.setHost_rcnt (h : List HostAction) : (s.setHost h).rcnt = s.rcnt := rfl
@[simp] theorem State.setHost_rd (h : List HostAction) : (s.setHost h).rd = s.rd := rfl
@[simp] theorem State.setHost_wr (h : List HostAction) : (s.setHost h).wr = s.wr := rfl
@[simp] theorem State.setHost_er (h : List HostAction) : (s.setHost h).er = s.er := rfl
@[simp] theorem State.setHost_src (h : List HostAction) : (s.setHost h).src = s.src := rfl
@[simp] theorem State.setHost_snk (h : List HostAction) : (s.setHost h).snk = s.snk := rfl
@[simp] theorem State.setHost_snkAny (h : List HostAction) : (s.setHost h).snkAny = s.snkAny := rfl
@[simp] theorem State.setHost_eng (h : List HostAction) : (s.setHost h).eng = s.eng := rfl
@[simp] theorem State.setHost_draw (h : List HostAction) : (s.setHost h).draw = s.draw := rfl
@[simp] theorem State.setHost_host (h : List HostAction) : (s.setHost h).host = h := rfl
@[simp] theorem State.setHost_busData (h : List HostAction) : (s.setHost h).busData = s.busData := rfl

end Sys2Proof.Machine
end

