-- ==== Sys2Proof/Laws/Cmd.lean ====
section
/-! SUPPORT. The laws of the command monad: what each primitive piece of pseudocode answers, and two ways to reason about
pseudocode without unfolding it. `Cmd.Keeps` says of a piece that every point of its run meets an invariant, whether it
ends or raises. `Cmd.Completes` says that it ends, and how. -/

namespace Sys2Proof.Machine

variable {α β : Type}

/-! ## What each primitive answers -/

theorem Cmd.bind_apply (x : Cmd α) (f : α → Cmd β) (r : Run) :
    (x >>= f) r = match x r with | .ok a r' => f a r' | .error c r' => .error c r' := by
  show EStateM.bind x f r = _
  unfold EStateM.bind
  cases x r <;> rfl

@[simp] theorem Cmd.pure_apply (a : α) (r : Run) : (pure a : Cmd α) r = .ok a r := rfl

@[simp] theorem raise_apply (c : Cause) (r : Run) : (raise c : Cmd α) r = .error c r := rfl

@[simp] theorem look_apply (r : Run) : look r = .ok r.st r := rfl

@[simp] theorem advance_apply (f : State → State) (r : Run) :
    advance f r = .ok () { r with st := f r.st, trail := r.st :: r.trail } := rfl

@[simp] theorem noteMark_apply (m : Nat) (r : Run) :
    noteMark m r = .ok () { r with floor := min r.floor m } := rfl

theorem require_apply (ok : Bool) (c : Cause) (r : Run) :
    require ok c r = if ok then .ok () r else .error c r := by
  cases ok <;> rfl

/-! ## Invariants of a run -/

/-- Every point of a run meets `I`. -/
def Run.All (I : State → Prop) (r : Run) : Prop := I r.st ∧ ∀ s ∈ r.trail, I s

/-- From a run all of whose points meet `I`, now at a state that meets `pre`: every point stays in `I`, whether the piece
ends or raises; where it ends, `post` holds of its answer and its last state. -/
def Cmd.Keeps (I pre : State → Prop) (x : Cmd α) (post : α → State → Prop) : Prop :=
  ∀ r : Run, r.All I → pre r.st →
    match x r with
    | .ok a r' => r'.All I ∧ post a r'.st
    | .error _ r' => r'.All I

variable {I pre : State → Prop}

theorem Cmd.Keeps.bind {x : Cmd α} {f : α → Cmd β} {mid : α → State → Prop} {post : β → State → Prop}
    (hx : Cmd.Keeps I pre x mid) (hf : ∀ a, Cmd.Keeps I (mid a) (f a) post) : Cmd.Keeps I pre (x >>= f) post := by
  intro r hr hp
  have h := hx r hr hp
  rw [Cmd.bind_apply]
  cases hxr : x r with
  | ok a r' => rw [hxr] at h; exact hf a r' h.1 h.2
  | error c r' => rw [hxr] at h; exact h

theorem Cmd.Keeps.weaken {x : Cmd α} {pre' : State → Prop} {post post' : α → State → Prop}
    (hx : Cmd.Keeps I pre x post) (hpre : ∀ s, pre' s → pre s) (hpost : ∀ a s, I s → post a s → post' a s) :
    Cmd.Keeps I pre' x post' := by
  intro r hr hp
  have h := hx r hr (hpre _ hp)
  cases hxr : x r with
  | ok a r' => rw [hxr] at h; exact ⟨h.1, hpost a _ h.1.1 h.2⟩
  | error c r' => rw [hxr] at h; exact h

theorem Cmd.Keeps.pure (a : α) : Cmd.Keeps I pre (pure a : Cmd α) (fun b s => b = a ∧ pre s) :=
  fun _ hr hp => ⟨hr, rfl, hp⟩

theorem Cmd.Keeps.raise (c : Cause) {post : α → State → Prop} : Cmd.Keeps I pre (raise c : Cmd α) post :=
  fun _ hr _ => hr

theorem Cmd.Keeps.require (ok : Bool) (c : Cause) :
    Cmd.Keeps I pre (require ok c) (fun _ s => ok = true ∧ pre s) := by
  intro r hr hp
  rw [require_apply]
  cases ok
  · exact hr
  · exact ⟨hr, rfl, hp⟩

theorem Cmd.Keeps.look : Cmd.Keeps I pre look (fun a s => a = s ∧ pre s) :=
  fun _ hr hp => ⟨hr, rfl, hp⟩

theorem Cmd.Keeps.advance {f : State → State} (h : ∀ s, I s → pre s → I (f s)) :
    Cmd.Keeps I pre (advance f) (fun _ t => ∃ s, t = f s ∧ I s ∧ pre s) := by
  intro r hr hp
  refine ⟨⟨h _ hr.1 hp, fun s hs => ?_⟩, r.st, rfl, hr.1, hp⟩
  rcases List.mem_cons.1 hs with rfl | hs
  · exact hr.1
  · exact hr.2 s hs

theorem Cmd.Keeps.noteMark (m : Nat) : Cmd.Keeps I pre (noteMark m) (fun _ s => pre s) :=
  fun _ hr hp => ⟨hr, hp⟩

theorem Cmd.Keeps.enterEngine (h : ∀ s, I s → pre s → I (s.setEng Engine.empty)) :
    Cmd.Keeps I pre enterEngine (fun _ t => ∃ s, t = s.setEng Engine.empty ∧ I s ∧ pre s) := by
  intro r hr hp
  refine ⟨⟨h _ hr.1 hp, fun s hs => ?_⟩, r.st, rfl, hr.1, hp⟩
  rcases List.mem_cons.1 hs with rfl | hs
  · exact hr.1
  · exact hr.2 s hs

theorem Cmd.Keeps.leaveEngine (h : ∀ s e, I s → pre s → I ((s.setEng e).drew 1)) :
    Cmd.Keeps I pre leaveEngine (fun _ t => ∃ s e, t = (s.setEng e).drew 1 ∧ I s ∧ pre s) := by
  intro r hr hp
  refine ⟨⟨h _ _ hr.1 hp, fun s hs => ?_⟩, r.st, _, rfl, hr.1, hp⟩
  rcases List.mem_cons.1 hs with rfl | hs
  · exact hr.1
  · exact hr.2 s hs

/-! ## Completion -/

/-- From every run at a state that meets `pre`, the piece ends, and `post` holds of its answer and its last state. -/
def Cmd.Completes (pre : State → Prop) (x : Cmd α) (post : α → State → Prop) : Prop :=
  ∀ r : Run, pre r.st → ∃ a r', x r = .ok a r' ∧ post a r'.st

theorem Cmd.Completes.bind {x : Cmd α} {f : α → Cmd β} {mid : α → State → Prop} {post : β → State → Prop}
    (hx : Cmd.Completes pre x mid) (hf : ∀ a, Cmd.Completes (mid a) (f a) post) :
    Cmd.Completes pre (x >>= f) post := by
  intro r hp
  obtain ⟨a, r', hr, hm⟩ := hx r hp
  obtain ⟨b, r'', hr', hp'⟩ := hf a r' hm
  exact ⟨b, r'', by rw [Cmd.bind_apply, hr]; exact hr', hp'⟩

theorem Cmd.Completes.weaken {x : Cmd α} {pre' : State → Prop} {post post' : α → State → Prop}
    (hx : Cmd.Completes pre x post) (hpre : ∀ s, pre' s → pre s) (hpost : ∀ a s, post a s → post' a s) :
    Cmd.Completes pre' x post' := by
  intro r hp
  obtain ⟨a, r', hr, h⟩ := hx r (hpre _ hp)
  exact ⟨a, r', hr, hpost a _ h⟩

theorem Cmd.Completes.pure {post : α → State → Prop} {a : α} (h : ∀ s, pre s → post a s) :
    Cmd.Completes pre (pure a : Cmd α) post :=
  fun r hp => ⟨a, r, rfl, h _ hp⟩

theorem Cmd.Completes.look : Cmd.Completes pre look (fun a s => a = s ∧ pre s) :=
  fun r hp => ⟨r.st, r, rfl, rfl, hp⟩

theorem Cmd.Completes.advance (f : State → State) :
    Cmd.Completes pre (advance f) (fun _ t => ∃ s, t = f s ∧ pre s) :=
  fun r hp => ⟨(), _, rfl, r.st, rfl, hp⟩

theorem Cmd.Completes.noteMark (m : Nat) : Cmd.Completes pre (noteMark m) (fun _ s => pre s) :=
  fun r hp => ⟨(), { r with floor := min r.floor m }, rfl, hp⟩

theorem Cmd.Completes.require {ok : Bool} {c : Cause} (h : ok = true) :
    Cmd.Completes pre (require ok c) (fun _ s => pre s) :=
  fun r hp => ⟨(), r, by rw [require_apply, if_pos h], hp⟩

/-- The step of a completion proof that reads the state: the state is known from here on. -/
theorem Cmd.Completes.look_bind {f : State → Cmd β} {post : β → State → Prop}
    (h : ∀ s, pre s → Cmd.Completes (fun t => t = s) (f s) post) : Cmd.Completes pre (Bind.bind Machine.look f) post := by
  intro r hp
  exact h r.st hp r rfl

/-- The step of a completion proof that assigns. -/
theorem Cmd.Completes.advance_bind {s : State} {g : State → State} {f : Unit → Cmd β} {post : β → State → Prop}
    (h : Cmd.Completes (fun t => t = g s) (f ()) post) :
    Cmd.Completes (fun t => t = s) (Bind.bind (Machine.advance g) f) post := by
  intro r hp
  rw [Cmd.bind_apply, advance_apply]
  exact h _ (by simp [hp])

/-- The step of a completion proof that makes a check which holds. -/
theorem Cmd.Completes.require_bind {ok : Bool} {c : Cause} {f : Unit → Cmd β} {post : β → State → Prop}
    (hok : ok = true) (h : Cmd.Completes pre (f ()) post) :
    Cmd.Completes pre (Bind.bind (Machine.require ok c) f) post := by
  intro r hp
  rw [Cmd.bind_apply, require_apply, if_pos hok]
  exact h r hp

/-- The step of a completion proof that notes a value of `cmark`. -/
theorem Cmd.Completes.noteMark_bind {m : Nat} {f : Unit → Cmd β} {post : β → State → Prop}
    (h : Cmd.Completes pre (f ()) post) : Cmd.Completes pre (Bind.bind (Machine.noteMark m) f) post := by
  intro r hp
  exact h _ hp

/-! ## A whole command -/

/-- A command always takes a next state: its pseudocode's last state, or error entry. -/
theorem runCmd_cases (op : BitVec 8) (body : Cmd Unit) (s : State) :
    (∃ r, body (Run.start s) = .ok () r ∧ runCmd op body s = .next r.st) ∨
    (∃ c r, body (Run.start s) = .error c r ∧ c.code.precise = true ∧
      runCmd op body s = .next (errorEntry c op s)) ∨
    (∃ c r, body (Run.start s) = .error c r ∧ c.code.precise = false ∧
      runCmd op body s = .next (errorEntry c op (r.afterError s))) := by
  unfold runCmd
  cases h : body (Run.start s) with
  | ok u r => exact .inl ⟨r, rfl, rfl⟩
  | error c r =>
    cases hc : c.code.precise
    · exact .inr (.inr ⟨c, r, rfl, hc, by simp [hc]⟩)
    · exact .inr (.inl ⟨c, r, rfl, hc, by simp [hc]⟩)

/-- A command whose pseudocode completes takes the state it leaves. -/
theorem runCmd_of_completes {op : BitVec 8} {body : Cmd Unit} {s : State} {post : Unit → State → Prop}
    (h : Cmd.Completes (fun t => t = s) body post) : ∃ t, runCmd op body s = .next t ∧ post () t := by
  obtain ⟨⟨⟩, r, hr, hp⟩ := h (Run.start s) rfl
  exact ⟨r.st, by simp [runCmd, hr], hp⟩

/-- A command whose pseudocode raises a cause of ILLEGAL, BAD_PARAM or PROTOCOL changes the error state only
(60_exceptions R346). -/
theorem runCmd_of_precise {op : BitVec 8} {body : Cmd Unit} {s : State} {c : Cause} {r : Run}
    (h : body (Run.start s) = .error c r) (hc : c.code.precise = true) :
    runCmd op body s = .next (errorEntry c op s) := by
  simp [runCmd, h, hc]

/-- Each point an error may leave a piece of state at is a point of the run. -/
theorem Run.pick_mem (r : Run) (n : Nat) : r.pick n ∈ r.st :: r.trail := by
  have hlen : 0 < r.points.length := by simp [Run.points]
  have hlt := Nat.mod_lt (Config.freePoint n) hlen
  have : r.pick n ∈ r.points := by
    rw [Run.pick, List.getD_eq_getElem _ _ hlt]
    exact List.getElem_mem hlt
  simpa [Run.points, or_comm] using this

theorem Run.pick_of_all {r : Run} (h : r.All I) (n : Nat) : I (r.pick n) := by
  rcases List.mem_cons.1 (r.pick_mem n) with h1 | h1
  · rw [h1]; exact h.1
  · exact h.2 _ h1

/-- What error entry leaves (60_exceptions R345), field by field of the error state. -/
@[simp] theorem errorEntry_er (c : Cause) (op : BitVec 8) (s : State) :
    (errorEntry c op s).er = { err := true, code := c.code, info := errInfo c op } := rfl

end Sys2Proof.Machine
end

