-- ==== Sys2Proof/Laws/Exec.lean ====
section
/-! SUPPORT. exec as one run of a command's pseudocode, and step as one action of the host. -/

namespace Sys2Proof.Machine

/-- The meaning of a command is its pseudocode, run as a command. -/
theorem exec_eq_runCmd (i : Instr) (s : State) : exec i s = runCmd (opcode i) (bodyOf i) s := by
  cases i <;> rfl

/-- The state of an outcome; reset's for an outcome with none. -/
def nextOf : Host.Outcome State Fault Refusal → State
  | .next t => t
  | .fault _ => State.reset
  | .refused _ => State.reset

theorem runCmd_next (op : BitVec 8) (body : Cmd Unit) (s : State) :
    runCmd op body s = .next (nextOf (runCmd op body s)) := by
  rcases runCmd_cases op body s with ⟨r, -, h⟩ | ⟨c, r, -, -, h⟩ | ⟨c, r, -, -, h⟩ <;> rw [h] <;> rfl

/-- A command's outcome, named by the state it answers. -/
theorem exec_next (i : Instr) (s : State) : exec i s = .next (nextOf (exec i s)) := by
  rw [exec_eq_runCmd]; exact runCmd_next _ _ _

/-- How a command ends, by the run of its pseudocode. -/
theorem exec_cases {i : Instr} {s t : State} (h : exec i s = .next t) :
    (∃ r, bodyOf i (Run.start s) = .ok () r ∧ t = r.st) ∨
    (∃ c r, bodyOf i (Run.start s) = .error c r ∧ c.code.precise = true ∧ t = errorEntry c (opcode i) s) ∨
    (∃ c r, bodyOf i (Run.start s) = .error c r ∧ c.code.precise = false ∧
      t = errorEntry c (opcode i) (r.afterError s)) := by
  rw [exec_eq_runCmd] at h
  rcases runCmd_cases (opcode i) (bodyOf i) s with ⟨r, hr, h'⟩ | ⟨c, r, hr, hc, h'⟩ | ⟨c, r, hr, hc, h'⟩ <;>
    rw [h'] at h <;> injection h with h
  · exact .inl ⟨r, hr, h.symm⟩
  · exact .inr (.inl ⟨c, r, hr, hc, h.symm⟩)
  · exact .inr (.inr ⟨c, r, hr, hc, h.symm⟩)

/-- A command whose pseudocode completes. -/
theorem exec_of_completes {i : Instr} {s : State} {post : Unit → State → Prop}
    (h : Cmd.Completes (fun t => t = s) (bodyOf i) post) : ∃ t, exec i s = .next t ∧ post () t := by
  rw [exec_eq_runCmd]; exact runCmd_of_completes h

/-- A step performs the host's next action. -/
theorem step_of_host {s : State} {act : HostAction} {rest : List HostAction} (h : s.host = act :: rest) :
    step s = perform act (s.setHost rest) := by
  rw [step, h]

/-- A step with no action is idle (60_exceptions R360). -/
theorem step_idle {s : State} (h : s.host = []) : step s = .next s := by
  rw [step, h]

end Sys2Proof.Machine
end

