-- ==== Sys2Proof/Laws/Gamma.lean ====
section
/-! SUPPORT. The Elias-gamma code as a bit list (41_elias_gamma R200): length, value, prefix-freeness. -/

namespace Sys2Proof.Machine

theorem log2_bounds (n : Nat) : 2 ^ Nat.log2 (n + 1) ≤ n + 1 ∧ n + 1 < 2 ^ (Nat.log2 (n + 1) + 1) :=
  ⟨Nat.log2_self_le (by omega), Nat.lt_log2_self⟩

@[simp] theorem egCode_length (n : Nat) : (egCode n).length = 2 * Nat.log2 (n + 1) + 1 := by
  simp [egCode, floorLog2]; omega

theorem val_replicate_false (k : Nat) : val (List.replicate k false) = 0 := by
  induction k with
  | zero => rfl
  | succ k ih => rw [List.replicate_succ, val_cons, ih]; simp

/-- The leading 1 of `m` and the `k` bits after it. -/
theorem egCode_eq (n : Nat) : egCode n =
    List.replicate (Nat.log2 (n + 1)) false ++ true :: nb (n + 1) (Nat.log2 (n + 1)) := by
  have h : (n + 1).testBit (Nat.log2 (n + 1)) = true := by
    rw [Nat.testBit_log2]
    omega
  rw [egCode, floorLog2, nb, h]

theorem val_egCode (n : Nat) : val (egCode n) = n + 1 := by
  rw [egCode, val_append, val_replicate_false, val_nb, floorLog2, Nat.mod_eq_of_lt (log2_bounds n).2]
  simp

theorem egCode_log2_le (n : Nat) (h : n < 2 ^ 32) : Nat.log2 (n + 1) ≤ 32 := by
  by_contra hc
  have h1 := (log2_bounds n).1
  have : 2 ^ 33 ≤ 2 ^ Nat.log2 (n + 1) := Nat.pow_le_pow_right (by omega) (by omega)
  omega

end Sys2Proof.Machine
end

