-- ==== Sys2Proof/Laws/Reader.lean ====
section
/-! SUPPORT. The reader primitives (40_bitstream R140 to R142, R153): what they leave unchanged at every point of their run,
and what they deliver from a clean reader over a sound source. -/

namespace Sys2Proof.Machine

/-! ## Frame: only the reader and the counter of draws move -/

/-- `t` is `s` but for the reader and the counter of draws. -/
def OnlyReader (s t : State) : Prop := ∃ r d, t = { s with rd := r, draw := d }

theorem OnlyReader.refl (s : State) : OnlyReader s s := ⟨s.rd, s.draw, rfl⟩

theorem OnlyReader.setRd {s t : State} (h : OnlyReader s t) (r : Reader) : OnlyReader s (t.setRd r) := by
  obtain ⟨r', d, rfl⟩ := h
  exact ⟨r, d, rfl⟩

theorem OnlyReader.drew {s t : State} (h : OnlyReader s t) (n : Nat) : OnlyReader s (t.drew n) := by
  obtain ⟨r', d, rfl⟩ := h
  exact ⟨r', d + n, rfl⟩

theorem OnlyReader.trans {s t u : State} (h : OnlyReader s t) (h' : OnlyReader t u) : OnlyReader s u := by
  obtain ⟨r, d, rfl⟩ := h
  obtain ⟨r', d', rfl⟩ := h'
  exact ⟨r', d', rfl⟩

/-- A piece of pseudocode that moves the reader only, for whatever invariant survives that. -/
abbrev KeepsFrame {α : Type} (I : State → Prop) (x : Cmd α) : Prop :=
  Cmd.Keeps I (fun _ => True) x (fun _ _ => True)

variable {I : State → Prop}

theorem fetchByte_keeps (h : ∀ s r, I s → I (s.setRd r)) (a : Nat) : KeepsFrame I (fetchByte a) := by
  refine Cmd.Keeps.look.bind fun s => ?_
  split
  · exact (Cmd.Keeps.pure ()).weaken (fun _ _ => trivial) (fun _ _ _ _ => trivial)
  · have hset (f : State → Reader) : KeepsFrame I (advance fun s => s.setRd (f s)) :=
      (Cmd.Keeps.advance (pre := fun _ => True) fun t ht _ => h t _ ht).weaken (fun _ _ => trivial) fun _ _ _ _ => trivial
    refine ((hset _).weaken (fun _ _ => trivial) fun _ _ _ h => h).bind fun _ => ?_
    exact ((Cmd.Keeps.require _ _).weaken (fun _ _ => trivial) (fun _ _ _ _ => trivial)).bind fun _ => hset _

theorem deliverBit_keeps (h : ∀ s r, I s → I (s.setRd r)) (hd : ∀ s n, I s → I (s.drew n)) (j : Nat) :
    KeepsFrame I (deliverBit j) := by
  refine (fetchByte_keeps h (j / 8)).bind fun _ => ?_
  refine Cmd.Keeps.look.bind fun s => ?_
  dsimp only
  split
  · exact (Cmd.Keeps.pure _).weaken (fun _ _ => trivial) (fun _ _ _ _ => trivial)
  · refine ((Cmd.Keeps.advance (pre := fun _ => True) fun t ht _ => hd t 1 ht).weaken (fun _ _ => trivial)
      (fun _ _ _ _ => trivial)).bind (mid := fun _ _ => True) fun _ => ?_
    exact (Cmd.Keeps.pure _).weaken (fun _ _ => trivial) (fun _ _ _ _ => trivial)

theorem deliverBits_keeps (h : ∀ s r, I s → I (s.setRd r)) (hd : ∀ s n, I s → I (s.drew n)) (n : Nat) :
    ∀ j, KeepsFrame I (deliverBits n j) := by
  induction n with
  | zero => exact fun _ => (Cmd.Keeps.pure _).weaken (fun _ _ => trivial) (fun _ _ _ _ => trivial)
  | succ n ih =>
    intro j
    refine (deliverBit_keeps h hd j).bind fun b => (ih (j + 1)).bind fun rest => ?_
    exact (Cmd.Keeps.pure _).weaken (fun _ _ => trivial) (fun _ _ _ _ => trivial)

theorem rdBits_keeps (h : ∀ s r, I s → I (s.setRd r)) (hd : ∀ s n, I s → I (s.drew n)) (n : Nat) :
    KeepsFrame I (rdBits n) := by
  refine Cmd.Keeps.look.bind fun s => ?_
  refine ((deliverBits_keeps h hd n s.rd.pos).weaken (fun _ _ => trivial) fun _ _ _ h => h).bind fun bits => ?_
  refine ((Cmd.Keeps.advance (pre := fun _ => True) fun t ht _ => h t _ ht).weaken (fun _ _ => trivial)
    (fun _ _ _ _ => trivial)).bind (mid := fun _ _ => True) fun _ => ?_
  exact (Cmd.Keeps.pure _).weaken (fun _ _ => trivial) (fun _ _ _ _ => trivial)

/-- Every point of a read, whether it ends or faults, is the state at its start but for the reader and the draws. -/
theorem rdBits_onlyReader (s : State) (n : Nat) : KeepsFrame (OnlyReader s) (rdBits n) :=
  rdBits_keeps (fun _ r h => h.setRd r) (fun _ n h => h.drew n) n

theorem requireAvail_keeps (n : Nat) (c : Cause) : KeepsFrame I (requireAvail n c) := by
  refine Cmd.Keeps.look.bind fun s => ?_
  exact (Cmd.Keeps.require _ _).weaken (fun _ _ => trivial) (fun _ _ _ _ => trivial)

theorem rdInit_keeps (h : ∀ s r, I s → I (s.setRd r)) : KeepsFrame I rdInit := by
  refine Cmd.Keeps.look.bind fun s => ?_
  refine ((Cmd.Keeps.require _ _).weaken (fun _ _ => trivial) (fun _ _ _ _ => trivial)).bind fun _ => ?_
  exact (Cmd.Keeps.advance (pre := fun _ => True) fun t ht _ => h t _ ht).weaken (fun _ _ => trivial)
    (fun _ _ _ _ => trivial)

/-! ## Completion: what a reader delivers from a source whose reads do not fail -/

/-- `t` is `s` but for the reader's refill buffer, and every byte that stood for one value in `s` does so in `t`. -/
def OnlyRefill (s t : State) : Prop :=
  (∃ rf at', t = s.setRd { s.rd with refill := rf, refillAt := at' }) ∧ ∀ a, s.steadyAt a → t.steadyAt a

theorem OnlyRefill.refl (s : State) : OnlyRefill s s := ⟨⟨s.rd.refill, s.rd.refillAt, rfl⟩, fun _ h => h⟩

theorem OnlyRefill.trans {s t u : State} (h : OnlyRefill s t) (h' : OnlyRefill t u) : OnlyRefill s u := by
  obtain ⟨⟨_, _, rfl⟩, hs⟩ := h
  obtain ⟨⟨rf, a, rfl⟩, hs'⟩ := h'
  exact ⟨⟨rf, a, rfl⟩, fun a h => hs' a (hs a h)⟩

theorem OnlyRefill.srcByte {s t : State} (h : OnlyRefill s t) (a : Nat) : t.srcByte a = s.srcByte a := by
  obtain ⟨⟨_, _, rfl⟩, -⟩ := h
  rfl

/-- Emptying the refill buffer leaves the next byte to fetch, and with it the block of every byte, as it was (R153). -/
@[simp] theorem Reader.nextFetch_emptied (r : Reader) : r.emptied.nextFetch = r.nextFetch := rfl

@[simp] theorem State.blockStart_emptied (s : State) (a : Nat) : (s.setRd s.rd.emptied).blockStart a = s.blockStart a := rfl

/-- The emptied buffer holds no byte. -/
@[simp] theorem Reader.buffered_emptied (r : Reader) (a : Nat) : r.emptied.buffered a = none := by
  simp [Reader.buffered, Reader.emptied]

/-- A refill holds what SRC holds (R153). -/
theorem refilled_byte {s : State} {q a : Nat} {v : Byte} {r : Reader}
    (hv : ({ r with refill := (s.blockIndices q).map s.srcByte, refillAt := q } : Reader).buffered a = some v) :
    v = s.srcByte a := by
  simp only [Reader.buffered] at hv
  split at hv
  · rename_i hle
    simp only [List.getElem?_map, State.blockIndices, Option.map_eq_some_iff] at hv
    obtain ⟨b, ⟨k, hk, rfl⟩, rfl⟩ := hv
    have hki : k = a - q := by
      obtain ⟨_, hk⟩ := List.getElem?_eq_some_iff.1 hk
      simpa using hk.symm
    subst hki
    rw [Nat.add_sub_cancel' hle]
  · cases hv

/-- A refill completes where no byte of the reader's source fails. -/
theorem fetchByte_completes (s : State) (hs : s.sourceSound s.rd.len) (a : Nat) :
    Cmd.Completes (fun t => t = s) (fetchByte a) (fun _ t => OnlyRefill s t) := by
  refine Cmd.Completes.look_bind fun t ht => ?_
  subst ht
  split
  · exact Cmd.Completes.pure fun u hu => by subst hu; exact .refl _
  · refine Cmd.Completes.advance_bind (Cmd.Completes.require_bind ?_ ?_)
    · have hf : (t.blockIndices (t.blockStart a)).any (srcFaultAt t.par) = false := by
        rw [List.any_eq_false]
        intro b hb
        simp only [State.blockIndices, List.mem_map, List.mem_range] at hb
        obtain ⟨k, hk, rfl⟩ := hb
        rw [hs _ (by omega)]
        simp
      simp [hf]
    · refine (Cmd.Completes.advance _).weaken (fun _ h => h) ?_
      rintro _ _ ⟨u, rfl, rfl⟩
      refine ⟨⟨_, _, rfl⟩, fun b hb v hv => ?_⟩
      simp only [State.candidates, List.mem_append, Option.mem_toList, List.mem_singleton] at hv
      rcases hv with (hv | hv) | hv
      · exact refilled_byte hv
      · exact hv
      · exact hb v (by simp only [State.candidates, List.mem_append]; exact .inr hv)

/-- A byte that stands for one value delivers its bit (R142). -/
theorem deliverBit_completes (s : State) (hs : s.sourceSound s.rd.len) (j : Nat) (hc : s.steadyAt (j / 8)) :
    Cmd.Completes (fun t => t = s) (deliverBit j) (fun b t => b = s.srcBit j ∧ OnlyRefill s t) := by
  refine (fetchByte_completes s hs (j / 8)).bind fun _ => ?_
  refine Cmd.Completes.look_bind fun t ht => ?_
  dsimp only
  rw [if_pos]
  · refine Cmd.Completes.pure fun u hu => ?_
    subst hu
    exact ⟨by rw [ht.srcByte]; rfl, ht⟩
  · rw [List.all_eq_true]
    intro c hcm
    rw [ht.2 _ hc c hcm]
    simp

theorem OnlyRefill.sound {s t : State} (h : OnlyRefill s t) (hs : s.sourceSound s.rd.len) :
    t.sourceSound t.rd.len := by
  obtain ⟨⟨_, _, rfl⟩, -⟩ := h
  exact hs

theorem deliverBits_completes (n : Nat) : ∀ (s : State) (j : Nat), s.sourceSound s.rd.len →
    (∀ i, j ≤ i → i < j + n → s.steadyAt (i / 8)) →
    Cmd.Completes (fun t => t = s) (deliverBits n j)
      (fun bits t => bits = (List.range n).map (fun k => s.srcBit (j + k)) ∧ OnlyRefill s t) := by
  induction n with
  | zero => exact fun s j hs hc => Cmd.Completes.pure fun t ht => by subst ht; exact ⟨rfl, .refl _⟩
  | succ n ih =>
    intro s j hs hc r hr
    obtain ⟨b, r1, h1, hb, hr1⟩ := deliverBit_completes s hs j (hc j le_rfl (by omega)) r hr
    obtain ⟨bits, r2, h2, hbits, hr2⟩ := ih r1.st (j + 1) (hr1.sound hs)
      (fun i h1 h2 => hr1.2 _ (hc i (by omega) (by omega))) r1 rfl
    refine ⟨b :: bits, r2, ?_, ?_, hr1.trans hr2⟩
    · rw [deliverBits, Cmd.bind_apply, h1]
      simp only [Cmd.bind_apply, h2, Cmd.pure_apply]
    · rw [hb, hbits, List.range_succ_eq_map, List.map_cons, List.map_map]
      congr 1
      refine List.map_congr_left fun k _ => ?_
      simp only [Function.comp, State.srcBit, hr1.srcByte, Nat.succ_eq_add_one]
      rw [show j + 1 + k = j + (k + 1) by omega]

/-- `RdBits(n)` (R142): the `n` source bits from `rd_pos` on; `rd_pos` moves by `n` and nothing else changes but the refill
buffer. -/
theorem rdBits_completes (s : State) (hs : s.sourceSound s.rd.len) (n : Nat) (hc : s.steady n) :
    Cmd.Completes (fun t => t = s) (rdBits n)
      (fun bits t => bits = (List.range n).map (fun k => s.srcBit (s.rd.pos + k)) ∧
        OnlyRefill (s.setRd { s.rd with pos := s.rd.pos + n }) t) := by
  refine Cmd.Completes.look_bind fun t ht => ?_
  subst ht
  refine (deliverBits_completes n t t.rd.pos hs hc).bind fun bits r hr => ?_
  obtain ⟨hbits, ⟨rf, a, hst⟩, hcl⟩ := hr
  refine ⟨bits, _, rfl, hbits, ⟨rf, a, ?_⟩, fun a ha => ?_⟩
  · show r.st.setRd _ = _
    rw [hst]
    rfl
  · exact hcl a ha

/-- The source's bits as a stream: bit `j` of `bitsOf(SRC[0 .. n))` (20_memory R70). -/
theorem bitsOf_source (s : State) (n : Nat) :
    bitsOf (s.source n) = (List.range (8 * n)).map s.srcBit := by
  apply List.ext_getElem
  · simp [State.source]
  · intro j h1 h2
    rw [bitsOf_getElem]
    simp [State.source, State.srcBit]

/-- What a read of `n ≤ RdAvail()` bits delivers is what the logical stream holds next (R141, R142). -/
theorem unread_take (s : State) (n : Nat) (h : n ≤ s.rd.avail) :
    s.unread.take n = (List.range n).map (fun k => s.srcBit (s.rd.pos + k)) := by
  have hl : s.rd.logicalLen ≤ 8 * s.rd.len := by rw [Reader.logicalLen]; omega
  rw [Reader.avail] at h
  apply List.ext_getElem
  · simp [State.unread, State.logicalStream, State.source]
    omega
  · intro k h1 h2
    have hk : k < n := by simpa using h2
    rw [List.getElem_take]
    simp only [State.unread, List.getElem_drop, State.logicalStream, List.getElem_take, bitsOf_source,
      List.getElem_map, List.getElem_range]

@[simp] theorem unread_length (s : State) : s.unread.length = s.rd.avail := by
  simp [State.unread, State.logicalStream, State.source, Reader.avail, Reader.logicalLen]

/-- `t` is `s` after `n` bits were delivered: `rd_pos` and the refill buffer have moved, and every byte that stood for one
value does. -/
def Delivered (s t : State) (n : Nat) : Prop := OnlyRefill (s.setRd { s.rd with pos := s.rd.pos + n }) t

theorem Delivered.sound {s t : State} {n : Nat} (h : Delivered s t n) (hs : s.sourceSound s.rd.len) :
    t.sourceSound t.rd.len := OnlyRefill.sound h hs

theorem Delivered.unread {s t : State} {n : Nat} (h : Delivered s t n) : t.unread = s.unread.drop n := by
  obtain ⟨⟨rf, a, rfl⟩, -⟩ := h
  show List.drop (s.rd.pos + n) _ = _
  rw [State.unread, List.drop_drop]
  rfl

/-- `RdBits(n)` for `n` bits that are left: the next `n` bits of the logical stream (R142). -/
theorem rdBits_unread (s : State) (hs : s.sourceSound s.rd.len) (n : Nat) (hn : n ≤ s.rd.avail) (hc : s.steady n) :
    Cmd.Completes (fun t => t = s) (rdBits n) (fun bits t => bits = s.unread.take n ∧ Delivered s t n) :=
  (rdBits_completes s hs n hc).weaken (fun _ h => h) fun _ _ h =>
    ⟨h.1.trans (unread_take s n hn).symm, h.2⟩

/-- A reader with an empty refill buffer that the host has not disturbed: every byte stands for the value SRC holds. -/
theorem steadyAt_of_fresh {s : State} (h1 : s.rd.refill = []) (h2 : s.rd.stale = []) (a : Nat) : s.steadyAt a := by
  intro v hv
  simpa [State.candidates, Reader.buffered, h1, h2] using hv

theorem steady_of_fresh {s : State} (h1 : s.rd.refill = []) (h2 : s.rd.stale = []) (n : Nat) : s.steady n :=
  fun j _ _ => steadyAt_of_fresh h1 h2 (j / 8)

end Sys2Proof.Machine
end

