-- ==== Sys2Proof/Laws/Memory.lean ====
section
/-! SUPPORT. The laws of the memory windows: a read after a write, the canonical form, and which bytes a write, a range
write and the cut at an index leave. -/

namespace Sys2Proof.Machine

/-- Indices strictly rising from above `lo`, the canonical form with a lower bound in place of the window's size. -/
def Memory.RisingFrom (lo : Nat) : List Host.Cell → Prop
  | [] => True
  | (a, _) :: rest => lo ≤ a ∧ Memory.RisingFrom (a + 1) rest

theorem Memory.RisingFrom.mono {lo lo' : Nat} {m : List Host.Cell} (h : RisingFrom lo m) (hl : lo' ≤ lo) :
    RisingFrom lo' m := by
  cases m with
  | nil => trivial
  | cons c rest => exact ⟨hl.trans h.1, h.2⟩

/-- The canonical form: strictly rising, every index below the size. -/
theorem Memory.wf_iff (size : Nat) (m : List Host.Cell) :
    Memory.wf size m = true ↔ RisingFrom 0 m ∧ ∀ c ∈ m, c.1 < size := by
  suffices ∀ lo, (∀ c ∈ m.head?, lo ≤ c.1) →
      (Memory.wf size m = true ↔ RisingFrom lo m ∧ ∀ c ∈ m, c.1 < size) from this 0 (by simp)
  induction m with
  | nil => intro lo _; simp [Memory.wf, RisingFrom]
  | cons c rest ih =>
    obtain ⟨a, v⟩ := c
    intro lo hlo
    have hlo' : lo ≤ a := hlo (a, v) (by simp)
    cases rest with
    | nil => simp [Memory.wf, RisingFrom, hlo']
    | cons d rest =>
      obtain ⟨b, w⟩ := d
      rw [Memory.wf, Bool.and_eq_true, decide_eq_true_eq]
      constructor
      · rintro ⟨hab, hrest⟩
        obtain ⟨hr, hs⟩ := (ih (a + 1) (by simp; omega)).1 hrest
        have := hs (b, w) (by simp)
        exact ⟨⟨hlo', hr⟩, by simpa using ⟨by omega, by simpa using hs⟩⟩
      · rintro ⟨⟨-, hr⟩, hs⟩
        have hb : a + 1 ≤ b := hr.1
        exact ⟨by omega, (ih (a + 1) (by simp; omega)).2 ⟨hr, fun c hc => hs c (List.mem_cons_of_mem _ hc)⟩⟩

theorem Memory.get?_of_risingFrom {lo : Nat} {m : List Host.Cell} (h : RisingFrom lo m) {a : Nat} (ha : a < lo) :
    Memory.get? m a = none := by
  cases m with
  | nil => rfl
  | cons c rest =>
    obtain ⟨b, v⟩ := c
    have hb : lo ≤ b := h.1
    have h1 : ¬ b = a := by omega
    have h2 : a < b := by omega
    simp [Memory.get?, h1, h2]

/-- A read after a write: the written byte at its index, every other index as before. -/
theorem Memory.get?_set (m : List Host.Cell) (a b : Nat) (v : Byte) :
    Memory.get? (Memory.set m a v) b = if b = a then some v else Memory.get? m b := by
  induction m with
  | nil =>
    by_cases hb : b = a
    · simp [Memory.set, Memory.get?, hb]
    · have : ¬ a = b := fun h => hb h.symm
      simp [Memory.set, Memory.get?, hb, this]
  | cons c rest ih =>
    obtain ⟨k, w⟩ := c
    rw [Memory.set]
    split
    · rename_i hak
      by_cases hb : b = a
      · simp [Memory.get?, hb]
      · have h1 : ¬ a = b := fun h => hb h.symm
        by_cases hba : b < a
        · have h2 : ¬ k = b := by omega
          have h3 : b < k := by omega
          simp [Memory.get?, hb, h1, hba, h2, h3]
        · simp [Memory.get?, hb, h1, hba]
    · split
      · rename_i hak hk
        subst hk
        by_cases hb : b = a
        · simp [Memory.get?, hb]
        · have h1 : ¬ a = b := fun h => hb h.symm
          simp [Memory.get?, hb, h1]
      · rename_i hak hk
        rw [Memory.get?, ih, Memory.get?]
        by_cases hkb : k = b
        · have : ¬ b = a := by omega
          simp [hkb, this]
        · by_cases hbk : b < k
          · have : ¬ b = a := by omega
            simp [hkb, hbk, this]
          · simp [hkb, hbk]

theorem Memory.set_risingFrom {lo : Nat} {m : List Host.Cell} (h : RisingFrom lo m) {a : Nat} (ha : lo ≤ a) (v : Byte) :
    RisingFrom lo (Memory.set m a v) := by
  induction m generalizing lo with
  | nil => exact ⟨ha, trivial⟩
  | cons c rest ih =>
    obtain ⟨k, w⟩ := c
    rw [Memory.set]
    split
    · exact ⟨ha, by omega, h.2⟩
    · split
      · rename_i _ hk
        exact ⟨ha, hk ▸ h.2⟩
      · exact ⟨h.1, ih h.2 (by omega)⟩

theorem Memory.mem_set {m : List Host.Cell} {a : Nat} {v : Byte} {c : Host.Cell} (h : c ∈ Memory.set m a v) :
    c = (a, v) ∨ c ∈ m := by
  induction m with
  | nil => simpa [Memory.set] using h
  | cons d rest ih =>
    obtain ⟨k, w⟩ := d
    rw [Memory.set] at h
    split at h
    · simpa using h
    · split at h
      · rcases List.mem_cons.1 h with h | h
        · exact .inl h
        · exact .inr (List.mem_cons_of_mem _ h)
      · rcases List.mem_cons.1 h with h | h
        · exact .inr (by simp [h])
        · exact (ih h).imp id (List.mem_cons_of_mem _)

/-- A write inside the window keeps the canonical form. -/
theorem Memory.set_wf {size : Nat} {m : List Host.Cell} (h : Memory.wf size m = true) {a : Nat} (ha : a < size)
    (v : Byte) : Memory.wf size (Memory.set m a v) = true := by
  rw [Memory.wf_iff] at h ⊢
  refine ⟨Memory.set_risingFrom h.1 (Nat.zero_le a) v, fun c hc => ?_⟩
  rcases Memory.mem_set hc with rfl | hc
  · exact ha
  · exact h.2 c hc

/-- A range write: the bytes of the range, every other index as before. -/
theorem Memory.get?_setRange (f : Nat → Byte) (n : Nat) : ∀ (m : List Host.Cell) (a b : Nat),
    Memory.get? (Memory.setRange m f a n) b = if a ≤ b ∧ b < a + n then some (f b) else Memory.get? m b := by
  induction n with
  | zero =>
    intro m a b
    have : ¬ (a ≤ b ∧ b < a + 0) := by omega
    simp [Memory.setRange]
  | succ n ih =>
    intro m a b
    rw [Memory.setRange, ih, Memory.get?_set]
    by_cases h1 : a + 1 ≤ b ∧ b < a + 1 + n
    · have : a ≤ b ∧ b < a + (n + 1) := by omega
      simp [h1, this]
    · by_cases hb : b = a
      · subst hb; simp
      · have : ¬ (a ≤ b ∧ b < a + (n + 1)) := by omega
        rw [if_neg h1, if_neg hb, if_neg this]

theorem Memory.setRange_wf {size : Nat} (f : Nat → Byte) (n : Nat) : ∀ {m : List Host.Cell} {a : Nat},
    Memory.wf size m = true → a + n ≤ size → Memory.wf size (Memory.setRange m f a n) = true := by
  induction n with
  | zero => intro m a h _; exact h
  | succ n ih =>
    intro m a h ha
    exact ih (Memory.set_wf h (by omega) _) (by omega)

/-! ## Spans of indices -/

@[simp] theorem covers_nil (a : Nat) : covers [] a = false := rfl

@[simp] theorem covers_cons (f : Nat × Nat) (rest : List (Nat × Nat)) (a : Nat) :
    covers (f :: rest) a = (decide (f.1 ≤ a) && decide (a < f.1 + f.2) || covers rest a) := rfl

theorem covers_append (fs gs : List (Nat × Nat)) (a : Nat) : covers (fs ++ gs) a = (covers fs a || covers gs a) :=
  List.any_append

/-- Noting an index covers it and nothing else more. -/
theorem covers_noteFresh (fs : List (Nat × Nat)) (a b : Nat) :
    covers (noteFresh fs a) b = (covers fs b || decide (b = a)) := by
  rw [Bool.eq_iff_iff]
  cases fs with
  | nil =>
    simp only [noteFresh, covers_cons, covers_nil, Bool.or_eq_true, Bool.and_eq_true, decide_eq_true_eq, Bool.false_eq_true,
      or_false, false_or]
    omega
  | cons f rest =>
    obtain ⟨lo, n⟩ := f
    rw [noteFresh]
    split <;> simp only [covers_cons, Bool.or_eq_true, Bool.and_eq_true, decide_eq_true_eq]
    · rename_i ha
      rw [show lo ≤ b ∧ b < lo + (n + 1) ↔ (lo ≤ b ∧ b < lo + n) ∨ b = a by omega]
      exact or_right_comm
    · rw [show a ≤ b ∧ b < a + 1 ↔ b = a by omega]
      exact or_comm

/-- A span of the noted spans ends below the window's size where the noted index and the old spans do. -/
theorem noteFresh_bound {size : Nat} {fs : List (Nat × Nat)} {a : Nat} (h : ∀ f ∈ fs, f.1 + f.2 ≤ size) (ha : a < size) :
    ∀ f ∈ noteFresh fs a, f.1 + f.2 ≤ size := by
  cases fs with
  | nil => simpa [noteFresh] using ha
  | cons f rest =>
    obtain ⟨lo, n⟩ := f
    rw [List.forall_mem_cons] at h
    rw [noteFresh]
    split
    · exact List.forall_mem_cons.2 ⟨by simp only; omega, h.2⟩
    · exact List.forall_mem_cons.2 ⟨by simp only; omega, List.forall_mem_cons.2 h⟩

/-- A write of spans: the indices they cover, every other index as before. -/
theorem Memory.get?_setSpans (f : Nat → Byte) (fs : List (Nat × Nat)) : ∀ (m : List Host.Cell) (b : Nat),
    Memory.get? (Memory.setSpans m f fs) b = if covers fs b then some (f b) else Memory.get? m b := by
  induction fs with
  | nil => exact fun _ _ => rfl
  | cons span rest ih =>
    intro m b
    rw [Memory.setSpans, ih, Memory.get?_setRange]
    by_cases hb : span.1 ≤ b ∧ b < span.1 + span.2 <;> simp [hb]

theorem Memory.setSpans_wf {size : Nat} (f : Nat → Byte) (fs : List (Nat × Nat)) : ∀ {m : List Host.Cell},
    Memory.wf size m = true → (∀ span ∈ fs, span.1 + span.2 ≤ size) → Memory.wf size (Memory.setSpans m f fs) = true := by
  induction fs with
  | nil => exact fun h _ => h
  | cons span rest ih =>
    intro m h hs
    rw [List.forall_mem_cons] at hs
    exact ih (Memory.setRange_wf f _ h hs.1) hs.2

/-- SNK after a hardware reset: the bytes stored since the last flush point are free, every other byte is kept (70_reset R380). -/
theorem hardReset_snkByte (s : State) (a : Nat) :
    (hardReset s).snkByte a = if s.unflushed a then Config.snkFree s.draw a else s.snkByte a := by
  show (Memory.get? (discardStaged s) a).getD (snkUnlisted s.snkAny a) = _
  rw [discardStaged, Memory.get?_setSpans, State.unflushed]
  split <;> rfl

theorem Memory.get?_below {lo : Nat} {m : List Host.Cell} (h : RisingFrom lo m) (c a : Nat) :
    Memory.get? (Memory.below m c) a = if a < c then Memory.get? m a else none := by
  induction m generalizing lo with
  | nil => simp [Memory.below, Memory.get?]
  | cons d rest ih =>
    obtain ⟨k, v⟩ := d
    have ih := ih h.2
    rw [Memory.below] at ih
    rw [Memory.below, List.filter_cons]
    by_cases hk : k < c
    · simp only [hk, decide_true, if_true]
      rw [Memory.get?, ih, Memory.get?]
      by_cases hac : a < c
      · simp [hac]
      · have h1 : ¬ k = a := by omega
        simp [hac, h1]
    · simp only [hk, decide_false]
      simp only [Bool.false_eq_true, if_false]
      rw [ih]
      by_cases hac : a < c
      · have h1 : ¬ k = a := by omega
        have h2 : a < k := by omega
        simp [Memory.get?, hac, h1, h2, Memory.get?_of_risingFrom h.2 (show a < k + 1 by omega)]
      · simp [hac]

/-- The cut at an index keeps the canonical form. -/
theorem Memory.below_wf {size : Nat} {m : List Host.Cell} (h : Memory.wf size m = true) (c : Nat) :
    Memory.wf size (Memory.below m c) = true := by
  rw [Memory.wf_iff] at h ⊢
  have key : ∀ (m : List Host.Cell) (lo : Nat), RisingFrom lo m → RisingFrom lo (Memory.below m c) := by
    intro m
    induction m with
    | nil => intro lo _; trivial
    | cons d rest ih =>
      obtain ⟨k, v⟩ := d
      intro lo hr
      rw [Memory.below, List.filter_cons]
      split
      · exact ⟨hr.1, ih _ hr.2⟩
      · exact (ih _ hr.2).mono (by have := hr.1; omega)
  exact ⟨key m 0 h.1, fun c hc => h.2 c (List.mem_filter.1 hc).1⟩

/-- Which draw an unlisted SNK byte reads from after every byte at or above `c` was drawn anew. -/
theorem snkUnlisted_drawFrom (old : List (Nat × Nat)) (c n a : Nat) :
    snkUnlisted (snkDrawFrom old c n) a = if c ≤ a then Config.snkFree n a else snkUnlisted old a := by
  rw [snkDrawFrom, snkUnlisted]
  split
  · rfl
  · rename_i hca
    induction old with
    | nil => rfl
    | cons d rest ih =>
      obtain ⟨k, i⟩ := d
      by_cases hk : k < c
      · rw [List.filter_cons_of_pos (by simpa using hk), snkUnlisted, snkUnlisted]
        split
        · rfl
        · exact ih
      · rw [List.filter_cons_of_neg (by simpa using hk), snkUnlisted, if_neg (by omega)]
        exact ih

end Sys2Proof.Machine
end

