-- ==== Sys2Proof/Laws/Writer.lean ====
section
/-! SUPPORT. The writer primitives (40_bitstream R143 to R149): what they leave unchanged at every point of their run, and
what they store where the sink has room and no write of it fails. -/

namespace Sys2Proof.Machine

/-! ## Frame: only the writer and SNK move -/

/-- `t` is `s` but for the writer and the SNK cells. -/
def OnlyWriter (s t : State) : Prop := ∃ w m, t = { s with wr := w, snk := m }

theorem OnlyWriter.refl (s : State) : OnlyWriter s s := ⟨s.wr, s.snk, rfl⟩

theorem OnlyWriter.setWr {s t : State} (h : OnlyWriter s t) (w : Writer) : OnlyWriter s (t.setWr w) := by
  obtain ⟨w', m, rfl⟩ := h
  exact ⟨w, m, rfl⟩

theorem OnlyWriter.setSnk {s t : State} (h : OnlyWriter s t) (m : List Host.Cell) : OnlyWriter s (t.setSnk m) := by
  obtain ⟨w', m', rfl⟩ := h
  exact ⟨w', m, rfl⟩

theorem OnlyWriter.trans {s t u : State} (h : OnlyWriter s t) (h' : OnlyWriter t u) : OnlyWriter s u := by
  obtain ⟨w, m, rfl⟩ := h
  obtain ⟨w', m', rfl⟩ := h'
  exact ⟨w', m', rfl⟩

/-! ## The bytes stored -/

/-- What a list of staged bytes makes of the byte `v` at index `a`. -/
def overlay (a : Nat) (v : Byte) (cells : List Host.Cell) : Byte :=
  cells.foldl (fun v c => if c.1 = a then c.2 else v) v

theorem storedByte_eq (s : State) (a : Nat) : s.storedByte a = overlay a (s.snkByte a) s.wr.staging := rfl

theorem overlay_of_above {a p : Nat} {v : Byte} {cells : List Host.Cell} (h : ∀ c ∈ cells, p < c.1) (hp : a ≤ p) :
    overlay a v cells = v := by
  induction cells generalizing v with
  | nil => rfl
  | cons c rest ih =>
    have hc := h c (by simp)
    rw [overlay, List.foldl_cons, if_neg (by omega)]
    exact ih fun d hd => h d (List.mem_cons_of_mem _ hd)

/-- Staging a byte in index order: it is the last byte stored at its index, and no other index is touched. -/
theorem overlay_stage {cells : List Host.Cell} (h : cells.Pairwise fun c d => c.1 ≤ d.1) (p : Nat) (w : Byte) (a : Nat)
    (v : Byte) : overlay a v (stage cells p w) = if a = p then w else overlay a v cells := by
  induction cells generalizing v with
  | nil =>
    by_cases ha : a = p
    · simp [overlay, stage, ha]
    · have : ¬ p = a := fun h => ha h.symm
      simp [overlay, stage, ha, this]
  | cons c rest ih =>
    obtain ⟨b, u⟩ := c
    rw [List.pairwise_cons] at h
    rw [stage]
    split
    · rename_i hpb
      rw [overlay, List.foldl_cons]
      by_cases ha : a = p
      · subst ha
        rw [if_pos rfl, if_pos rfl]
        refine overlay_of_above (p := a) (fun d hd => ?_) le_rfl
        rcases List.mem_cons.1 hd with rfl | hd
        · exact hpb
        · exact lt_of_lt_of_le hpb (h.1 d hd)
      · have : ¬ p = a := fun h => ha h.symm
        rw [if_neg this, if_neg ha]
        rfl
    · rw [overlay, List.foldl_cons]
      exact ih h.2 _

theorem stage_mem {cells : List Host.Cell} {p : Nat} {w : Byte} {c : Host.Cell} (h : c ∈ stage cells p w) :
    c = (p, w) ∨ c ∈ cells := by
  induction cells with
  | nil => simpa [stage] using h
  | cons d rest ih =>
    obtain ⟨b, u⟩ := d
    rw [stage] at h
    split at h
    · simpa using h
    · rcases List.mem_cons.1 h with h | h
      · exact .inr (by simp [h])
      · exact (ih h).imp id (List.mem_cons_of_mem _)

theorem stage_sorted {cells : List Host.Cell} (h : cells.Pairwise fun c d => c.1 ≤ d.1) (p : Nat) (w : Byte) :
    (stage cells p w).Pairwise fun c d => c.1 ≤ d.1 := by
  induction cells with
  | nil => simp [stage]
  | cons c rest ih =>
    obtain ⟨b, u⟩ := c
    have hc := List.pairwise_cons.1 h
    rw [stage]
    split
    · rename_i hpb
      refine List.pairwise_cons.2 ⟨fun d hd => ?_, h⟩
      rcases List.mem_cons.1 hd with rfl | hd
      · exact hpb.le
      · exact hpb.le.trans (hc.1 d hd)
    · rename_i hpb
      refine List.pairwise_cons.2 ⟨fun d hd => ?_, ih hc.2⟩
      rcases stage_mem hd with rfl | hd
      · exact Nat.le_of_not_lt hpb
      · exact hc.1 d hd

theorem stage_length (cells : List Host.Cell) (p : Nat) (w : Byte) : (stage cells p w).length = cells.length + 1 := by
  induction cells with
  | nil => rfl
  | cons c rest ih =>
    obtain ⟨b, u⟩ := c
    rw [stage]
    split <;> simp [ih]

theorem snkByte_setSnk_set (s : State) (a : Nat) (v : Byte) (b : Nat) :
    (s.setSnk (Memory.set s.snk a v)).snkByte b = if b = a then v else s.snkByte b := by
  simp only [State.snkByte, State.setSnk_snk, State.setSnk_snkAny, Memory.get?_set]
  split <;> rfl

/-! ## Draining -/

/-- `t` is `s` with its staging buffer drained into SNK: every index holds the byte last stored there. -/
def Drained (s t : State) : Prop :=
  ∃ m, t = (s.setSnk m).setWr { s.wr with staging := [] } ∧ ∀ a, t.snkByte a = s.storedByte a

theorem drainBytes_completes (cells : List Host.Cell) : ∀ s : State, s.stagedSound → s.wr.staging = cells →
    Cmd.Completes (fun t => t = s) (drainBytes cells) (fun _ t => Drained s t) := by
  induction cells with
  | nil =>
    refine fun s hs hc => Cmd.Completes.pure fun t ht => ?_
    subst ht
    refine ⟨t.snk, ?_, fun a => ?_⟩
    · rw [← hc]; rfl
    · rw [storedByte_eq, hc]; rfl
  | cons c rest ih =>
    obtain ⟨k, v⟩ := c
    intro s hs hc
    refine Cmd.Completes.look_bind fun t ht => ?_
    subst ht
    refine Cmd.Completes.require_bind ?_ ?_
    · have := hs (k, v) (by rw [hc]; simp)
      simp [this]
    · refine Cmd.Completes.advance_bind ?_
      refine (ih ((t.setSnk (Memory.set t.snk k v)).setWr { t.wr with staging := rest })
        (fun d hd => hs d (by rw [hc]; exact List.mem_cons_of_mem _ hd)) rfl).weaken
        (fun _ h => h) ?_
      rintro _ u ⟨m, rfl, hu⟩
      refine ⟨m, rfl, fun a => ?_⟩
      rw [hu a, storedByte_eq, storedByte_eq, hc]
      show overlay a ((t.setSnk (Memory.set t.snk k v)).snkByte a) rest = _
      rw [snkByte_setSnk_set, overlay, overlay, List.foldl_cons]
      by_cases ha : a = k
      · subst ha; simp
      · have : ¬ k = a := fun h => ha h.symm
        simp [ha, this]

/-- Draining completes where no staged byte fails (R343): SNK holds every byte the writer stored. -/
theorem drain_completes (s : State) (hs : s.stagedSound) :
    Cmd.Completes (fun t => t = s) drain (fun _ t => Drained s t) := by
  refine Cmd.Completes.look_bind fun t ht => ?_
  subst ht
  exact drainBytes_completes _ t hs rfl

theorem Drained.storedByte {s t : State} (h : Drained s t) (a : Nat) : t.storedByte a = s.storedByte a := by
  obtain ⟨m, rfl, hb⟩ := h
  rw [storedByte_eq]
  exact hb a

/-! ## Writing -/

/-- `t` is `s` after the writer has completed the bytes `bytes` and appended `n` bits, `frac` being the bits of the byte
still incomplete (R143, R144): the bytes stand from `snk_pos` on, stored since the last flush point, every other index holds
what it held. -/
def Wrote (s t : State) (bytes : List Byte) (frac : Bits) (n : Nat) : Prop :=
  ∃ m staging fresh, t = (s.setSnk m).setWr
      { frac := frac
        pos := s.wr.pos + bytes.length
        len := if bytes = [] then s.wr.len else max s.wr.len (s.wr.pos + bytes.length)
        total := s.wr.total + BitVec.ofNat 32 n
        mark := s.wr.mark
        staging := staging
        fresh := fresh } ∧
    staging.Pairwise (fun c d => c.1 ≤ d.1) ∧
    (∀ c ∈ staging, snkFaultAt s.par c.1 = false) ∧
    (∀ a, covers fresh a = (covers s.wr.fresh a || (decide (s.wr.pos ≤ a) && decide (a < s.wr.pos + bytes.length)))) ∧
    ∀ a, t.storedByte a =
      if s.wr.pos ≤ a ∧ a < s.wr.pos + bytes.length then bytes.getD (a - s.wr.pos) 0#8 else s.storedByte a

/-- The writer's staged bytes stand in index order. -/
def State.stagedSorted (s : State) : Prop := s.wr.staging.Pairwise fun c d => c.1 ≤ d.1

theorem drainIfFull_completes (s : State) (hs : s.stagedSound) (ho : s.stagedSorted) :
    Cmd.Completes (fun t => t = s) drainIfFull (fun _ t =>
      ∃ m staging, t = (s.setSnk m).setWr { s.wr with staging := staging } ∧
        staging.Pairwise (fun c d => c.1 ≤ d.1) ∧ (∀ c ∈ staging, snkFaultAt s.par c.1 = false) ∧
        ∀ a, t.storedByte a = s.storedByte a) := by
  refine Cmd.Completes.look_bind fun t ht => ?_
  subst ht
  split
  · refine (drain_completes t hs).weaken (fun _ h => h) ?_
    rintro _ u hu
    have hb := hu.storedByte
    obtain ⟨m, rfl, -⟩ := hu
    exact ⟨m, [], rfl, List.Pairwise.nil, by simp, hb⟩
  · refine Cmd.Completes.pure fun u hu => ?_
    subst hu
    exact ⟨u.snk, u.wr.staging, rfl, ho, hs, fun _ => rfl⟩

/-- `CompleteByte(v)` (R144) where one more byte can be stored: it is stored at `snk_pos`. -/
theorem completeByte_completes (s : State) (ho : s.stagedSorted) (hst : s.canStore 1) (v : Byte) :
    Cmd.Completes (fun t => t = s) (completeByte v) (fun _ t => Wrote s t [v] s.wr.frac 0) := by
  refine Cmd.Completes.look_bind fun t ht => ?_
  subst ht
  obtain ⟨hs, hcap, hok⟩ := hst
  refine Cmd.Completes.require_bind (by simpa using hcap) ?_
  intro r hr
  obtain ⟨_, r1, h1, m1, st1, hst1, ho1, hf1, hb1⟩ := drainIfFull_completes t hs ho r hr
  obtain ⟨_, r2, h2, m2, st2, hst2, ho2, hf2, hb2⟩ := drainIfFull_completes
    (r1.st.setWr
      { r1.st.wr with staging := stage r1.st.wr.staging r1.st.wr.pos v, fresh := noteFresh r1.st.wr.fresh r1.st.wr.pos })
    (by
      rw [hst1]
      intro c hc
      rcases stage_mem hc with rfl | hc
      · exact hok _ le_rfl (Nat.lt_succ_self _)
      · exact hf1 c hc) (by rw [hst1]; exact stage_sorted ho1 _ _)
    { r1 with
      st := r1.st.setWr
        { r1.st.wr with staging := stage r1.st.wr.staging r1.st.wr.pos v, fresh := noteFresh r1.st.wr.fresh r1.st.wr.pos }
      trail := r1.st :: r1.trail } rfl
  refine ⟨(), { r2 with
      st := r2.st.setWr { r2.st.wr with pos := r2.st.wr.pos + 1, len := max r2.st.wr.len (r2.st.wr.pos + 1) }
      trail := r2.st :: r2.trail }, ?_, ?_⟩
  · simp only [Cmd.bind_apply, h1, advance_apply, h2]
  · refine ⟨m2, st2, noteFresh t.wr.fresh t.wr.pos, ?_, ho2, by rw [hst1] at hf2; exact hf2, fun a => ?_, fun a => ?_⟩
    · show r2.st.setWr _ = _
      rw [hst2, hst1]
      simp only [State.setWr, State.setSnk, List.length_singleton, if_neg (List.cons_ne_nil v []), BitVec.add_zero]
    · rw [covers_noteFresh, List.length_singleton, Bool.eq_iff_iff]
      simp only [Bool.or_eq_true, Bool.and_eq_true, decide_eq_true_eq]
      exact or_congr_right (by omega)
    · have hb2a := hb2 a
      have hsb : ∀ w : Writer, w.staging = r2.st.wr.staging → (r2.st.setWr w).storedByte a = r2.st.storedByte a := by
        intro w hw
        simp only [storedByte_eq, State.setWr_wr, hw]
        rfl
      refine (hsb _ rfl).trans (hb2a.trans ?_)
      rw [storedByte_eq]
      have hso : r1.st.wr.staging.Pairwise (fun c d => c.1 ≤ d.1) := by rw [hst1]; exact ho1
      simp only [State.setWr_wr]
      rw [overlay_stage hso]
      have hp1 : r1.st.wr.pos = t.wr.pos := by rw [hst1]; rfl
      rw [hp1]
      have h1a := hb1 a
      rw [storedByte_eq] at h1a
      by_cases ha : a = t.wr.pos
      · subst ha
        simp
      · have hn : ¬ (t.wr.pos ≤ a ∧ a < t.wr.pos + [v].length) := by
          rw [List.length_singleton]; omega
        rw [if_neg ha, if_neg hn]
        exact h1a

theorem Wrote.stagedSound {s t : State} {bytes : List Byte} {frac : Bits} {n : Nat} (h : Wrote s t bytes frac n) :
    t.stagedSound := by
  obtain ⟨m, st, fr, rfl, -, hf, -⟩ := h
  exact hf

/-- What is left to store after a stretch of writing. -/
theorem Wrote.canStore {s t : State} {bytes : List Byte} {frac : Bits} {n k k' : Nat} (h : Wrote s t bytes frac n)
    (hs : s.canStore k) (hk : bytes.length + k' ≤ k) : t.canStore k' := by
  refine ⟨h.stagedSound, ?_⟩
  obtain ⟨m, st, fr, rfl, -⟩ := h
  obtain ⟨-, hcap, hok⟩ := hs
  simp only [State.setWr_wr, State.setWr_par, State.setSnk_par]
  exact ⟨by omega, fun a h1 h2 => hok a (by omega) (by omega)⟩

theorem State.canStore.mono {s : State} {k k' : Nat} (h : s.canStore k) (hk : k' ≤ k) : s.canStore k' :=
  ⟨h.1, by have := h.2.1; omega, fun a h1 h2 => h.2.2 a h1 (by omega)⟩

theorem Wrote.sorted {s t : State} {bytes : List Byte} {frac : Bits} {n : Nat} (h : Wrote s t bytes frac n) :
    t.stagedSorted := by
  obtain ⟨m, st, fr, rfl, ho, -⟩ := h
  exact ho

/-- Two stretches of writing are one. -/
theorem Wrote.trans {s t u : State} {b1 b2 : List Byte} {f1 f2 : Bits} {n1 n2 : Nat} (h1 : Wrote s t b1 f1 n1)
    (h2 : Wrote t u b2 f2 n2) : Wrote s u (b1 ++ b2) f2 (n1 + n2) := by
  obtain ⟨m1, st1, fr1, rfl, ho1, -, hc1, hb1⟩ := h1
  obtain ⟨m2, st2, fr2, rfl, ho2, hf2, hc2, hb2⟩ := h2
  refine ⟨m2, st2, fr2, ?_, ho2, hf2, fun a => ?_, fun a => ?_⟩
  · simp only [State.setWr, State.setSnk, List.length_append]
    congr 2
    · omega
    · cases b1 with
      | nil => simp
      | cons c b1 =>
        cases b2 with
        | nil => simp
        | cons d b2 => simp; omega
    · rw [BitVec.add_assoc, ← BitVec.ofNat_add]
  · have hc2a := hc2 a
    change covers fr2 a = (covers fr1 a ||
      (decide (s.wr.pos + b1.length ≤ a) && decide (a < s.wr.pos + b1.length + b2.length))) at hc2a
    rw [hc2a, hc1 a, List.length_append, Bool.eq_iff_iff]
    simp only [Bool.or_eq_true, Bool.and_eq_true, decide_eq_true_eq, or_assoc]
    exact or_congr_right (by omega)
  · have h2a := hb2 a
    have h1a := hb1 a
    generalize State.storedByte _ a = x2 at h2a ⊢
    generalize State.storedByte _ a = x1 at h2a h1a
    change x2 = if s.wr.pos + b1.length ≤ a ∧ a < s.wr.pos + b1.length + b2.length
      then b2.getD (a - (s.wr.pos + b1.length)) 0#8 else x1 at h2a
    rw [h2a, List.length_append]
    by_cases ha2 : s.wr.pos + b1.length ≤ a ∧ a < s.wr.pos + b1.length + b2.length
    · rw [if_pos ha2, if_pos (by omega), List.getD_append_right _ _ _ _ (by omega)]
      congr 1
      omega
    · rw [if_neg ha2, h1a]
      by_cases ha1 : s.wr.pos ≤ a ∧ a < s.wr.pos + b1.length
      · rw [if_pos ha1, if_pos (by omega), List.getD_append _ _ _ _ (by omega)]
      · rw [if_neg ha1, if_neg (by omega)]

/-- Nothing written. -/
theorem Wrote.refl (s : State) (h : s.stagedSorted) (hs : s.stagedSound) : Wrote s s [] s.wr.frac 0 := by
  refine ⟨s.snk, s.wr.staging, s.wr.fresh, ?_, h, hs, fun a => ?_, fun a => ?_⟩
  · simp [State.setWr, State.setSnk]
  · rw [Bool.eq_iff_iff]
    simp
  · rw [if_neg (by simp)]

/-- One bit (R143). -/
theorem wrBit_completes (s : State) (ho : s.stagedSorted) (hf : s.wr.frac.length < 8) (b : Bool)
    (hcap : s.canStore ((s.wr.frac.length + 1) / 8)) :
    Cmd.Completes (fun t => t = s) (wrBit b) (fun _ t =>
      Wrote s t (bytesOf (s.wr.frac ++ [b])) (if s.wr.frac.length < 7 then s.wr.frac ++ [b] else []) 1) := by
  refine Cmd.Completes.look_bind fun t ht => ?_
  subst ht
  split
  · rename_i hlt
    refine (Cmd.Completes.advance _).weaken (fun _ h => h) ?_
    rintro _ _ ⟨u, rfl, rfl⟩
    rw [bytesOf_short _ (by simp; omega)]
    refine ⟨u.snk, u.wr.staging, u.wr.fresh, ?_, ho, hcap.1, fun a => ?_, fun a => ?_⟩
    · simp [State.setWr, State.setSnk]
    · rw [Bool.eq_iff_iff]
      simp
    · rw [if_neg (by simp)]
      rfl
  · rename_i hlt
    have h7 : t.wr.frac.length = 7 := by omega
    have h8 : (t.wr.frac ++ [b]).length = 8 := by simp [h7]
    refine Cmd.Completes.advance_bind ?_
    have key := completeByte_completes (t.setWr { t.wr with total := t.wr.total + 1#32 }) ho (hcap.mono (by omega))
      (byteOf (t.wr.frac ++ [b]))
    refine key.bind fun _ => ?_
    refine (Cmd.Completes.advance _).weaken (fun _ h => h) ?_
    rintro _ _ ⟨u, rfl, m, st, fr, rfl, ho', hf', hc', hb'⟩
    have hby : bytesOf (t.wr.frac ++ [b]) = [byteOf (t.wr.frac ++ [b])] := by
      have := bytesOf_cons8 _ [] h8
      rwa [List.append_nil, bytesOf_short [] (by simp)] at this
    rw [hby]
    refine ⟨m, st, fr, ?_, ho', hf', hc', fun a => ?_⟩
    · simp [State.setWr, State.setSnk]
    · exact hb' a

theorem bytesOf_append_bit (f : Bits) (hf : f.length < 8) (b : Bool) (rest : Bits) :
    bytesOf (f ++ b :: rest) =
      bytesOf (f ++ [b]) ++ bytesOf ((if f.length < 7 then f ++ [b] else []) ++ rest) := by
  by_cases h : f.length < 7
  · rw [if_pos h, bytesOf_short (f ++ [b]) (by simp; omega)]
    simp
  · have h8 : (f ++ [b]).length = 8 := by simp; omega
    have e : f ++ b :: rest = (f ++ [b]) ++ rest := by simp
    have e2 : bytesOf (f ++ [b]) = [byteOf (f ++ [b])] := by
      have := bytesOf_cons8 _ [] h8
      rwa [List.append_nil, bytesOf_short [] (by simp)] at this
    rw [if_neg h, e, bytesOf_cons8 _ _ h8, e2]
    rfl

/-- The bits of a bit list that do not fill a byte. -/
def tailBits (s : Bits) : Bits := s.drop (8 * (s.length / 8))

theorem tailBits_append_bit (f : Bits) (hf : f.length < 8) (b : Bool) (rest : Bits) :
    tailBits (f ++ b :: rest) = tailBits ((if f.length < 7 then f ++ [b] else []) ++ rest) := by
  by_cases h : f.length < 7
  · rw [if_pos h]; simp
  · have h8 : (f ++ [b]).length = 8 := by simp; omega
    have e : f ++ b :: rest = (f ++ [b]) ++ rest := by simp
    rw [if_neg h, e, tailBits, tailBits, List.nil_append, List.length_append, h8,
      show 8 * ((8 + rest.length) / 8) = 8 + 8 * (rest.length / 8) by omega, ← List.drop_drop,
      List.drop_left' h8]

theorem tailBits_of_short {s : Bits} (h : s.length < 8) : tailBits s = s := by
  rw [tailBits, show s.length / 8 = 0 by omega]; simp

@[simp] theorem tailBits_length (s : Bits) : (tailBits s).length = s.length % 8 := by
  rw [tailBits, List.length_drop]; omega

/-- `WrBits(s)` (R143) where the bytes it completes can be stored: the completed bytes are stored from `snk_pos` on, the rest stays in
`wfrac`, `wr_total` counts the bits. -/
theorem wrBits_completes (bits : Bits) : ∀ s : State, s.stagedSorted → s.wr.frac.length < 8 →
    s.canStore ((s.wr.frac.length + bits.length) / 8) →
    Cmd.Completes (fun t => t = s) (wrBits bits) (fun _ t =>
      Wrote s t (bytesOf (s.wr.frac ++ bits)) (tailBits (s.wr.frac ++ bits)) bits.length) := by
  induction bits with
  | nil =>
    intro s ho hf hcap
    refine Cmd.Completes.pure fun t ht => ?_
    subst ht
    rw [List.append_nil, bytesOf_short _ hf, tailBits_of_short hf]
    exact Wrote.refl t ho hcap.1
  | cons b rest ih =>
    intro s ho hf hcap r hr
    have hcap' : s.canStore ((s.wr.frac.length + rest.length + 1) / 8) := by
      simpa [Nat.add_assoc] using hcap
    obtain ⟨_, r1, h1, w1⟩ := wrBit_completes s ho hf b (hcap'.mono (by omega)) r hr
    have hlen1 : (if s.wr.frac.length < 7 then s.wr.frac ++ [b] else []).length = (s.wr.frac.length + 1) % 8 := by
      split
      · simp; omega
      · simp; omega
    have hst : r1.st.wr.frac = (if s.wr.frac.length < 7 then s.wr.frac ++ [b] else []) := by
      obtain ⟨m, st, fr, h, -, -⟩ := w1
      rw [h]
      rfl
    obtain ⟨_, r2, h2, w2⟩ := ih r1.st w1.sorted (by rw [hst, hlen1]; omega)
      (w1.canStore hcap' (by
        rw [hst, hlen1, bytesOf_length _ _ rfl]
        simp only [List.length_append, List.length_singleton]
        omega)) r1 rfl
    refine ⟨(), r2, ?_, ?_⟩
    · rw [wrBits, Cmd.bind_apply, h1]
      exact h2
    · have := w1.trans w2
      rw [hst, ← bytesOf_append_bit _ hf, ← tailBits_append_bit _ hf, Nat.add_comm 1] at this
      exact this

/-- `FlushPoint()` (R146) of an aligned writer, no staged byte failing: SNK holds every byte stored, `cmark` is `snk_pos`. -/
theorem flushPoint_completes (s : State) (hs : s.stagedSound) (hf : s.wr.frac = []) :
    Cmd.Completes (fun t => t = s) flushPoint (fun _ t =>
      ∃ m, t = (s.setSnk m).setWr { s.wr with staging := [], mark := s.wr.pos, fresh := [] } ∧
        ∀ a, t.snkByte a = s.storedByte a) := by
  refine Cmd.Completes.look_bind fun t ht => ?_
  subst ht
  refine Cmd.Completes.require_bind (by simp [hf]) ?_
  refine (drain_completes t hs).bind fun _ => ?_
  refine ((Cmd.Completes.advance _).weaken (fun _ h => h) ?_).bind
    (mid := fun _ u => ∃ m, u = (t.setSnk m).setWr { t.wr with staging := [], mark := t.wr.pos, fresh := [] } ∧
        ∀ a, u.snkByte a = t.storedByte a) fun _ => ?_
  · rintro _ _ ⟨u, rfl, m, rfl, hb⟩
    exact ⟨m, rfl, hb⟩
  · refine Cmd.Completes.look_bind fun u hu => ?_
    refine (Cmd.Completes.noteMark _).weaken (fun _ h => h) ?_
    rintro _ _ rfl
    exact hu

/-- `Seek0()` (R148) of an aligned writer, no staged byte failing. -/
theorem seek0_completes (s : State) (hs : s.stagedSound) (hf : s.wr.frac = []) :
    Cmd.Completes (fun t => t = s) seek0 (fun _ t =>
      ∃ m, t = (s.setSnk m).setWr { s.wr with staging := [], pos := 0, mark := 0, fresh := [] } ∧
        ∀ a, t.snkByte a = s.storedByte a) := by
  refine Cmd.Completes.noteMark_bind ?_
  refine (flushPoint_completes s hs hf).bind fun _ => ?_
  refine (Cmd.Completes.advance _).weaken (fun _ h => h) ?_
  rintro _ _ ⟨u, rfl, m, rfl, hb⟩
  exact ⟨m, rfl, hb⟩

/-- `WrInit()` (R145), no staged byte failing. -/
theorem wrInit_completes (s : State) (hs : s.stagedSound) :
    Cmd.Completes (fun t => t = s) wrInit (fun _ t =>
      ∃ m, t = (s.setSnk m).setWr
          { frac := [], pos := 0, len := 0, total := 0#32, mark := 0, staging := [], fresh := [] } ∧
        ∀ a, t.snkByte a = s.storedByte a) := by
  refine Cmd.Completes.noteMark_bind ?_
  refine (drain_completes s hs).bind fun _ => ?_
  refine (Cmd.Completes.advance _).weaken (fun _ h => h) ?_
  rintro _ _ ⟨u, rfl, m, rfl, hb⟩
  exact ⟨m, rfl, hb⟩

/-- `RawByte(v)` (R149) of an aligned writer where one more byte can be stored. -/
theorem rawByte_completes (s : State) (hf : s.wr.frac = []) (hs : s.canStore 1) (v : Byte) :
    Cmd.Completes (fun t => t = s) (rawByte v) (fun _ t =>
      ∃ m, t = (s.setSnk m).setWr
          { s.wr with
            staging := [], pos := s.wr.pos + 1, mark := s.wr.pos + 1, len := max s.wr.len (s.wr.pos + 1), fresh := [] } ∧
        ∀ a, t.snkByte a = if a = s.wr.pos then v else s.storedByte a) := by
  intro r hr
  obtain ⟨_, r1, h1, m1, hst1, hb1⟩ := flushPoint_completes s hs.1 hf r hr
  obtain ⟨_, r2, h2, w2⟩ := completeByte_completes r1.st (by rw [hst1]; exact List.Pairwise.nil)
    (by rw [hst1]; exact ⟨by intro c hc; simp at hc, hs.2⟩) v r1 rfl
  have hss2 := w2.stagedSound
  obtain ⟨m2, st2, fr2, hst2, -, -, -, hb2⟩ := w2
  obtain ⟨_, r3, h3, m3, hst3, hb3⟩ := flushPoint_completes r2.st hss2
    (by rw [hst2, hst1]; exact hf) r2 rfl
  refine ⟨(), r3, ?_, m3, ?_, fun a => ?_⟩
  · rw [rawByte, Cmd.bind_apply, h1]
    simp only [Cmd.bind_apply, h2]
    exact h3
  · rw [hst3, hst2, hst1]
    simp [State.setWr, State.setSnk]
  · rw [hb3 a, hb2 a]
    have hp : r1.st.wr.pos = s.wr.pos := by rw [hst1]; rfl
    have hb : r1.st.storedByte a = s.storedByte a := by
      rw [storedByte_eq, hb1 a, hst1]; rfl
    rw [hp, hb]
    by_cases ha : a = s.wr.pos
    · subst ha; simp
    · rw [if_neg (by simp; omega), if_neg ha]

/-- `Fill()` (R147) where the byte it completes can be stored: the incomplete byte is completed with zeros. -/
theorem fill_completes (s : State) (ho : s.stagedSorted) (hf : s.wr.frac.length < 8)
    (hcap : s.canStore (if s.wr.frac = [] then 0 else 1)) :
    Cmd.Completes (fun t => t = s) fill (fun p t =>
      p = (8 - s.wr.frac.length) % 8 ∧
      Wrote s t (bytesOf (s.wr.frac ++ List.replicate p false)) [] p) := by
  refine Cmd.Completes.look_bind fun t ht => ?_
  subst ht
  dsimp only
  have hzero : (t.wr.frac.length + (8 - t.wr.frac.length) % 8) % 8 = 0 := by omega
  refine (wrBits_completes _ t ho hf (hcap.mono ?_)).bind fun _ => ?_
  · rw [List.length_replicate]
    by_cases hz : t.wr.frac = []
    · simp [hz]
    · rw [if_neg hz]
      omega
  · refine Cmd.Completes.pure fun u hu => ⟨rfl, ?_⟩
    rw [List.length_replicate] at hu
    have : tailBits (t.wr.frac ++ List.replicate ((8 - t.wr.frac.length) % 8) false) = [] := by
      apply List.length_eq_zero_iff.1
      simp [hzero]
    rwa [this] at hu

end Sys2Proof.Machine
end

