-- ==== Sys2Proof/Laws/Header.lean ====
section
/-! SUPPORT. A running engine command seen as three things: the bits it has left to read, the bits it has written, its
engine memories. In these terms each reader and writer primitive has a one-line law; with them, the pad field (42_lzss R244)
and the end of a compressed file (R240). -/

namespace Sys2Proof.Machine

variable {α β : Type}

/-! ## The bits written -/

/-- The writer of `t` holds the output bits `bits`, over the old sink contents `base` (40_bitstream R143 to R145). -/
def Holding (t : State) (base : Nat → Byte) (bits : Bits) : Prop :=
  t.wr.frac = tailBits bits ∧ t.wr.pos = bits.length / 8 ∧ t.wr.len = bits.length / 8 ∧
  t.wr.total = BitVec.ofNat 32 bits.length ∧ t.wr.mark = 0 ∧ t.stagedSorted ∧ t.stagedSound ∧
  ∀ a, t.storedByte a = if a < bits.length / 8 then (bytesOf bits).getD a 0#8 else base a

/-- The first `k` indices of the sink exist and do not fail. -/
def Room (p : Params) (k : Nat) : Prop := k ≤ p.snkCap ∧ ∀ a, a < k → snkFaultAt p a = false

theorem Room.mono {p : Params} {k k' : Nat} (h : Room p k) (hk : k' ≤ k) : Room p k' :=
  ⟨by have := h.1; omega, fun a ha => h.2 a (by omega)⟩

/-- A bit list cut at its last whole byte. -/
theorem take_append_tailBits (s : Bits) : s.take (8 * (s.length / 8)) ++ tailBits s = s := List.take_append_drop _ _

theorem bytesOf_append_whole (n : Nat) : ∀ (s rest : Bits), s.length = 8 * n →
    bytesOf (s ++ rest) = bytesOf s ++ bytesOf rest := by
  induction n with
  | zero =>
    intro s rest h
    have : s = [] := List.length_eq_zero_iff.1 (by omega)
    subst this
    rw [bytesOf_short [] (by simp)]
    rfl
  | succ n ih =>
    intro s rest h
    have hs : s = s.take 8 ++ s.drop 8 := (List.take_append_drop 8 s).symm
    have h8 : (s.take 8).length = 8 := by simp; omega
    rw [hs, List.append_assoc, bytesOf_cons8 _ _ h8, ih _ _ (by simp; omega), bytesOf_cons8 _ _ h8]
    rfl

theorem bytesOf_append (s t : Bits) :
    bytesOf (s ++ t) = bytesOf (s.take (8 * (s.length / 8))) ++ bytesOf (tailBits s ++ t) := by
  conv_lhs => rw [← take_append_tailBits s, List.append_assoc]
  exact bytesOf_append_whole (s.length / 8) _ _ (by simp; omega)

theorem bytesOf_take_whole (s : Bits) : bytesOf (s.take (8 * (s.length / 8))) = bytesOf s := by
  have := bytesOf_append s []
  rw [List.append_nil, List.append_nil, bytesOf_short (tailBits s) (by rw [tailBits_length]; omega),
    List.append_nil] at this
  exact this.symm

theorem tailBits_append (s t : Bits) : tailBits (tailBits s ++ t) = tailBits (s ++ t) := by
  show List.drop (8 * ((tailBits s ++ t).length / 8)) (tailBits s ++ t) = List.drop (8 * ((s ++ t).length / 8)) (s ++ t)
  rw [List.length_append, List.length_append, tailBits_length,
    show 8 * ((s.length + t.length) / 8) = 8 * (s.length / 8) + 8 * ((s.length % 8 + t.length) / 8) by omega,
    ← List.drop_drop, List.drop_append_of_le_length (l₁ := s) (by omega)]
  rfl

theorem stagedSorted_canStore {t : State} {base : Nat → Byte} {bits : Bits} (h : Holding t base bits) {k : Nat}
    (hr : Room t.par (bits.length / 8 + k)) : t.canStore k := by
  obtain ⟨-, hp, -, -, -, -, hs, -⟩ := h
  exact ⟨hs, by rw [hp]; exact hr.1, fun a h1 h2 => hr.2 a (by omega)⟩

/-- Writing appends to the output bits (R143). -/
theorem Holding.wrote {t u : State} {base : Nat → Byte} {bits more : Bits} (h : Holding t base bits)
    (hw : Wrote t u (bytesOf (t.wr.frac ++ more)) (tailBits (t.wr.frac ++ more)) more.length) :
    Holding u base (bits ++ more) ∧ OnlyWriter t u := by
  obtain ⟨hf, hp, hl, ht, hm, ho, hs, hb⟩ := h
  have hsound := hw.stagedSound
  have hsort := hw.sorted
  obtain ⟨m, st, fr, hu, -, -, -, hb2⟩ := hw
  have hk : (bytesOf (t.wr.frac ++ more)).length = (bits.length % 8 + more.length) / 8 := by
    rw [bytesOf_length _ _ rfl, List.length_append, hf, tailBits_length]
  have hby : bytesOf (bits ++ more) = bytesOf bits ++ bytesOf (t.wr.frac ++ more) := by
    rw [bytesOf_append, bytesOf_take_whole, hf]
  have hlb : (bytesOf bits).length = bits.length / 8 := bytesOf_length _ _ rfl
  refine ⟨⟨?_, ?_, ?_, ?_, ?_, hsort, hsound, fun a => ?_⟩, ?_⟩
  · rw [hu]
    show tailBits (t.wr.frac ++ more) = _
    rw [hf, tailBits_append]
  · rw [hu]
    show t.wr.pos + _ = _
    rw [hp, hk, List.length_append]
    omega
  · rw [hu]
    show (if _ then _ else _) = _
    rw [List.length_append]
    split
    · rename_i h0
      have := congrArg List.length h0
      rw [hk] at this
      simp only [List.length_nil] at this
      omega
    · rw [hl, hp, hk, Nat.max_eq_right (by omega)]
      omega
  · rw [hu]
    show t.wr.total + _ = _
    rw [ht, List.length_append, ← BitVec.ofNat_add]
  · rw [hu]
    exact hm
  · rw [hb2 a, hb a, hp, hk, hby, List.length_append]
    by_cases h1 : a < bits.length / 8
    · rw [if_neg (by omega), if_pos h1, if_pos (by omega), List.getD_append _ _ _ _ (by omega)]
    · by_cases h2 : a < bits.length / 8 + (bits.length % 8 + more.length) / 8
      · rw [if_pos ⟨by omega, h2⟩, if_pos (by omega), List.getD_append_right _ _ _ _ (by omega), hlb]
      · rw [if_neg (by omega), if_neg h1, if_neg (by omega)]
  · rw [hu]
    exact ⟨_, _, rfl⟩

/-! ## A running engine command -/

/-- `t` is a point of an engine command that started at `s`: it has `left` still to read, under the ignore count `ign`, it
has written `out`, and its engine memories are `e`. -/
structure At (s : State) (ign : BitVec 3) (left out : Bits) (e : Engine) (t : State) : Prop where
  /-- nothing else has moved. -/
  frame : t = { s with rd := t.rd, wr := t.wr, snk := t.snk, eng := e }
  /-- the reader is over the announced source. -/
  len : t.rd.len = s.srcLen.toNat
  /-- its ignore count. -/
  isIgn : t.rd.ign = ign
  /-- no source byte fails. -/
  sound : t.sourceSound t.rd.len
  /-- every source byte stands for one value. -/
  steady : ∀ a, t.steadyAt a
  /-- the bits left. -/
  isLeft : t.unread = left
  /-- the position. -/
  pos : t.rd.pos + left.length = t.rd.logicalLen
  /-- the bits written. -/
  isOut : Holding t s.storedByte out

variable {s : State} {ign : BitVec 3} {left out rest more : Bits} {e e' : Engine}

theorem At.par {t : State} (h : At s ign left out e t) : t.par = s.par := by rw [h.frame]

theorem At.eng {t : State} (h : At s ign left out e t) : t.eng = e := by rw [h.frame]

theorem At.avail {t : State} (h : At s ign left out e t) : t.rd.avail = left.length := by
  rw [← unread_length, h.isLeft]

theorem OnlyWriter.at {t u : State} (h : At s ign left out e t) (hu : OnlyWriter t u) {out' : Bits}
    (ho : Holding u s.storedByte out') : At s ign left out' e u := by
  obtain ⟨w, m, rfl⟩ := hu
  refine ⟨?_, h.len, h.isIgn, h.sound, h.steady, h.isLeft, h.pos, ho⟩
  conv_lhs => rw [h.frame]

theorem Delivered.at {t u : State} {bs : Bits} (h : At s ign (bs ++ rest) out e t) (hu : Delivered t u bs.length) :
    At s ign rest out e u := by
  have hl := hu.unread
  have hs := hu.sound h.sound
  obtain ⟨⟨rf, a, hu'⟩, hst⟩ := hu
  refine ⟨?_, ?_, ?_, hs, fun b => hst b (h.steady b), ?_, ?_, ?_⟩
  · rw [hu']
    conv_lhs => rw [h.frame]
    rfl
  · rw [hu']; exact h.len
  · rw [hu']; exact h.isIgn
  · rw [hl, h.isLeft, List.drop_left]
  · have := h.pos
    rw [List.length_append] at this
    rw [hu']
    show t.rd.pos + bs.length + rest.length = t.rd.logicalLen
    omega
  · have := h.isOut
    rw [hu']
    exact this

/-- `RdBits` in a running engine command. -/
theorem At.rdBits (bs : Bits) : Cmd.Completes (At s ign (bs ++ rest) out e) (rdBits bs.length)
    (fun b t => b = bs ∧ At s ign rest out e t) := by
  intro r hr
  obtain ⟨b, r', h1, hb, hd⟩ := rdBits_unread r.st hr.sound bs.length (by rw [hr.avail]; simp)
    (fun j _ _ => hr.steady _) r rfl
  refine ⟨b, r', h1, ?_, hd.at hr⟩
  rw [hb, hr.isLeft, List.take_left]

/-- A check of the bits left, in a running engine command. -/
theorem At.requireAvail {n : Nat} {c : Cause} (hn : n ≤ left.length) :
    Cmd.Completes (At s ign left out e) (requireAvail n c) (fun _ t => At s ign left out e t) := by
  intro r h
  refine ⟨(), r, ?_, h⟩
  rw [Machine.requireAvail, Cmd.bind_apply, look_apply]
  exact (require_apply _ _ _).trans (if_pos (by rw [h.avail]; simpa using hn))

/-- `WrBits` in a running engine command with room. -/
theorem At.wrBits (hr : Room s.par ((out.length + more.length) / 8)) :
    Cmd.Completes (At s ign left out e) (wrBits more) (fun _ t => At s ign left (out ++ more) e t) := by
  intro r h
  have hf : r.st.wr.frac.length = out.length % 8 := by rw [h.isOut.1, tailBits_length]
  obtain ⟨_, r', h1, hw⟩ := wrBits_completes more r.st h.isOut.2.2.2.2.2.1 (by omega)
    (stagedSorted_canStore h.isOut (by rw [h.par, hf]; exact hr.mono (by omega))) r rfl
  obtain ⟨ho, hw⟩ := h.isOut.wrote hw
  exact ⟨(), r', h1, hw.at h ho⟩

/-- An assignment to the engine memories. -/
theorem At.setEng {f : State → State} (hf : ∀ t : State, At s ign left out e t → f t = t.setEng e') :
    Cmd.Completes (At s ign left out e) (advance f) (fun _ t => At s ign left out e' t) := by
  intro r h
  refine ⟨(), _, rfl, ?_⟩
  show At s ign left out e' (f r.st)
  rw [hf r.st h]
  refine ⟨?_, h.len, h.isIgn, h.sound, h.steady, h.isLeft, h.pos, h.isOut⟩
  have := h.frame
  rw [State.setEng]
  conv_lhs => rw [this]

/-- A read of the state. -/
theorem At.look_bind {f : State → Cmd β} {post : β → State → Prop}
    (h : ∀ t, At s ign left out e t → Cmd.Completes (At s ign left out e) (f t) post) :
    Cmd.Completes (At s ign left out e) (Bind.bind look f) post := by
  intro r hr
  exact h r.st hr r hr

theorem Cmd.Completes.bind' {pre : State → Prop} {x : Cmd α} {f : α → Cmd β} {mid : State → Prop} {a : α}
    {post : β → State → Prop} (hx : Cmd.Completes pre x (fun b t => b = a ∧ mid t))
    (hf : Cmd.Completes mid (f a) post) : Cmd.Completes pre (x >>= f) post :=
  hx.bind fun b r h => by obtain ⟨rfl, h⟩ := h; exact hf r h

/-! ## Elias-gamma in a running engine command -/

theorem At.rdZeroRun (tail : Bits) : ∀ (z left' k : Nat), z < left' →
    Cmd.Completes (At s ign (List.replicate z false ++ true :: tail) out e) (rdZeroRun left' k)
      (fun n t => n = k + z ∧ At s ign tail out e t) := by
  intro z
  induction z with
  | zero =>
    intro left' k h
    obtain ⟨m, rfl⟩ : ∃ m, left' = m + 1 := ⟨left' - 1, by omega⟩
    rw [Machine.rdZeroRun]
    refine (At.requireAvail (by simp)).bind fun _ => ?_
    refine Cmd.Completes.bind' (At.rdBits (rest := tail) [true]) ?_
    rw [if_pos rfl]
    exact Cmd.Completes.pure fun t ht => ⟨by omega, ht⟩
  | succ z ih =>
    intro left' k h
    obtain ⟨m, rfl⟩ : ∃ m, left' = m + 1 := ⟨left' - 1, by omega⟩
    rw [Machine.rdZeroRun]
    refine (At.requireAvail (by simp; omega)).bind fun _ => ?_
    refine Cmd.Completes.bind' (At.rdBits (rest := List.replicate z false ++ true :: tail) [false]) ?_
    rw [if_neg (by simp)]
    exact (ih m (k + 1) (by omega)).weaken (fun _ h => h) fun n t h => ⟨by omega, h.2⟩

/-- `RdEG` reads a code back (41_elias_gamma R202, R205). -/
theorem At.rdEG (n : Nat) (hn : n < 2 ^ 32) :
    Cmd.Completes (At s ign (egCode n ++ rest) out e) rdEG (fun v t => v = n ∧ At s ign rest out e t) := by
  have hk := egCode_log2_le n hn
  rw [Machine.rdEG, egCode_eq, List.append_assoc, List.cons_append]
  refine Cmd.Completes.bind' (At.rdZeroRun _ _ 33 0 (by omega)) ?_
  rw [Nat.zero_add]
  refine (At.requireAvail (by simp)).bind fun _ => ?_
  have h := At.rdBits (s := s) (ign := ign) (rest := rest) (out := out) (e := e) (nb (n + 1) (Nat.log2 (n + 1)))
  rw [nb_length] at h
  refine Cmd.Completes.bind' h ?_
  have hb := log2_bounds n
  have hv : 2 ^ Nat.log2 (n + 1) + val (nb (n + 1) (Nat.log2 (n + 1))) = n + 1 := by
    rw [val_nb, Nat.mod_eq_sub_mod hb.1, Nat.mod_eq_of_lt (by rw [pow_succ] at hb; omega)]
    omega
  dsimp only
  rw [hv]
  refine Cmd.Completes.require_bind (by simp; omega) ?_
  exact Cmd.Completes.pure fun t ht => ⟨rfl, ht⟩

/-! ## The start of an engine command -/

/-- `RdInit`, the creation of the engine memories, `WrInit`: the whole source left to read, nothing written. -/
theorem engine_start {f : Unit → Cmd β} {post : β → State → Prop} (hr : s.canRead) (hs : s.stagedSound)
    (h : Cmd.Completes (At s 0#3 (bitsOf s.input) [] Engine.empty) (f ()) post) :
    Cmd.Completes (fun t => t = s)
      (rdInit >>= fun _ => enterEngine >>= fun _ => wrInit >>= f) post := by
  intro r hst
  subst hst
  let t1 := (r.st.setRd
    { len := r.st.srcLen.toNat, pos := 0, ign := 0#3, refill := [], refillAt := 0, stale := [] }).setEng Engine.empty
  obtain ⟨_, r2, h2, m, hst2, hb2⟩ := wrInit_completes t1 hs
    { r with st := t1, trail := (r.st.setRd
        { len := r.st.srcLen.toNat, pos := 0, ign := 0#3, refill := [], refillAt := 0, stale := [] }) :: r.st :: r.trail,
             engine := true } rfl
  have hpos : At r.st 0#3 (bitsOf r.st.input) [] Engine.empty r2.st := by
    rw [hst2]
    refine ⟨rfl, rfl, rfl, hr.2, steadyAt_of_fresh rfl rfl, ?_, ?_, ?_⟩
    · show List.drop 0 (List.take (8 * r.st.srcLen.toNat - 0) (bitsOf (r.st.source r.st.srcLen.toNat))) = _
      rw [List.drop_zero, List.take_of_length_le (by simp [State.source])]
      rfl
    · simp [State.input, State.source, Reader.logicalLen, t1]
    · refine ⟨rfl, rfl, rfl, rfl, rfl, List.Pairwise.nil, by intro c hc; simp at hc, fun a => ?_⟩
      rw [if_neg (by simp), storedByte_eq]
      show State.snkByte _ a = _
      rw [← hst2, hb2 a]
      rfl
  obtain ⟨b, r3, h3, hp⟩ := h r2 hpos
  refine ⟨b, r3, ?_, hp⟩
  have h1 : rdInit r = .ok () { r with
      st := r.st.setRd
        { len := r.st.srcLen.toNat, pos := 0, ign := 0#3, refill := [], refillAt := 0, stale := [] }
      trail := r.st :: r.trail } := by
    rw [rdInit, Cmd.bind_apply, look_apply]
    simp only [Cmd.bind_apply, require_apply, if_pos hr.1]
    rfl
  rw [Cmd.bind_apply, h1]
  show (enterEngine >>= fun _ => wrInit >>= f) _ = _
  rw [Cmd.bind_apply]
  show (wrInit >>= f) _ = _
  rw [Cmd.bind_apply, h2]
  exact h3

/-! ## The end of an engine command -/

/-- A writer at a flush point at index `p`, with `n` bytes of output. -/
def closedWriter (n p : Nat) : Writer :=
  { frac := [], pos := p, len := n, total := BitVec.ofNat 32 (8 * n), mark := p, staging := [], fresh := [] }

/-- `t` is at a flush point of an engine command that started at `s`: the sink holds `file`, the writer stands at `p`. -/
structure Closed (s : State) (ign : BitVec 3) (left : Bits) (e : Engine) (file : List Byte) (p : Nat) (t : State) :
    Prop where
  /-- nothing else has moved. -/
  frame : t = { s with rd := t.rd, wr := closedWriter file.length p, snk := t.snk, eng := e }
  /-- the reader is over the announced source. -/
  len : t.rd.len = s.srcLen.toNat
  /-- its ignore count. -/
  isIgn : t.rd.ign = ign
  /-- the position. -/
  pos : t.rd.pos + left.length = t.rd.logicalLen
  /-- the sink. -/
  bytes : ∀ a, t.snkByte a = if a < file.length then file.getD a 0#8 else s.storedByte a

/-- `FlushPoint()` of a running engine command that has written whole bytes. -/
theorem At.flushPoint (h8 : out.length % 8 = 0) :
    Cmd.Completes (At s ign left out e) flushPoint (fun _ t => Closed s ign left e (bytesOf out) (out.length / 8) t) := by
  intro r h
  have hf : r.st.wr.frac = [] := by
    rw [h.isOut.1]
    exact List.length_eq_zero_iff.1 (by rw [tailBits_length, h8])
  obtain ⟨_, r', h1, m, hst, hb⟩ := flushPoint_completes r.st h.isOut.2.2.2.2.2.2.1 hf r rfl
  refine ⟨(), r', h1, ?_⟩
  have hl : (bytesOf out).length = out.length / 8 := bytesOf_length _ _ rfl
  refine ⟨?_, ?_, ?_, ?_, fun a => ?_⟩
  · rw [hst]
    conv_lhs => rw [h.frame]
    simp only [State.setWr, State.setSnk, closedWriter, hl]
    obtain ⟨-, hp, hln, ht, -⟩ := h.isOut
    rw [hf, hp, hln, ht, show 8 * (out.length / 8) = out.length by omega]
  · rw [hst]; exact h.len
  · rw [hst]; exact h.isIgn
  · rw [hst]; exact h.pos
  · rw [hb a, h.isOut.2.2.2.2.2.2.2 a, hl]

/-- The first byte of a file: the pad count put over the three zero bits of the placeholder (R240). -/
theorem patched_byte (p : Nat) (hp : p < 8) (b3 b4 b5 b6 b7 : Bool) :
    (BitVec.ofNat 8 p <<< 5) ||| (byteOf [false, false, false, b3, b4, b5, b6, b7] &&& 0x1F#8) =
      byteOf (nb p 3 ++ [b3, b4, b5, b6, b7]) := by
  have key : ∀ (p : Fin 8) (b3 b4 b5 b6 b7 : Bool),
      (BitVec.ofNat 8 p.val <<< 5) ||| (byteOf [false, false, false, b3, b4, b5, b6, b7] &&& 0x1F#8) =
        byteOf (nb p.val 3 ++ [b3, b4, b5, b6, b7]) := by decide
  exact key ⟨p, hp⟩ b3 b4 b5 b6 b7

/-- The pad field patched into a file of at least one byte. -/
theorem patched_file (p : Nat) (hp : p < 8) (body : Bits) (hb : 5 ≤ body.length) :
    ∃ b0 rest, bytesOf ([false, false, false] ++ body) = b0 :: rest ∧
      bytesOf (nb p 3 ++ body) = ((BitVec.ofNat 8 p <<< 5) ||| (b0 &&& 0x1F#8)) :: rest := by
  obtain ⟨b3, b4, b5, b6, b7, more, rfl⟩ : ∃ b3 b4 b5 b6 b7 more, body = b3 :: b4 :: b5 :: b6 :: b7 :: more := by
    match body, hb with
    | b3 :: b4 :: b5 :: b6 :: b7 :: more, _ => exact ⟨b3, b4, b5, b6, b7, more, rfl⟩
  refine ⟨byteOf [false, false, false, b3, b4, b5, b6, b7], bytesOf more, rfl, ?_⟩
  rw [patched_byte p hp, ← bytesOf_cons8 _ _ (by simp)]
  simp

/-- `FinishHeader()` (R240): the output written after a placeholder becomes the file of its body. -/
theorem At.finishHeader (body : Bits) (hb : 5 ≤ body.length)
    (hr : Room s.par (bytesOf (fileBits body)).length) :
    Cmd.Completes (At s ign left ([false, false, false] ++ body) e) finishHeader
      (fun _ t => Closed s ign left e (bytesOf (fileBits body)) 1 t) := by
  have hfl : (fileBits body).length = 3 + body.length + fillCount (3 + body.length) := by
    simp [fileBits, Nat.add_assoc]
  have hr' := hr
  rw [bytesOf_length _ _ rfl, hfl] at hr'
  intro r h
  have hfr : r.st.wr.frac.length = (3 + body.length) % 8 := by
    rw [h.isOut.1, tailBits_length, List.length_append]
    rfl
  have hp : (8 - r.st.wr.frac.length) % 8 = fillCount (3 + body.length) := by rw [hfr]; rfl
  generalize hpc : fillCount (3 + body.length) = p at *
  have hp8 : p < 8 := by rw [← hpc, fillCount]; omega
  have hmod : (3 + body.length + p) % 8 = 0 := by rw [← hpc, fillCount]; omega
  -- fill
  obtain ⟨_, r1, h1, hA1⟩ := At.wrBits (more := List.replicate p false) (s := s)
    (by rw [List.length_append, List.length_replicate]; exact hr') r h
  have hfill : fill r = .ok p r1 := by
    rw [fill, Cmd.bind_apply, look_apply]
    simp only [hp, Cmd.bind_apply, h1]
    rfl
  have hlen : ([false, false, false] ++ body ++ List.replicate p false).length = 3 + body.length + p := by
    simp only [List.length_append, List.length_replicate, List.length_cons, List.length_nil]
  -- seek0
  have hf1 : r1.st.wr.frac = [] := by
    rw [hA1.isOut.1]
    exact List.length_eq_zero_iff.1 (by rw [tailBits_length, hlen, hmod])
  obtain ⟨_, r2, h2, m2, hst2, hb2⟩ := seek0_completes r1.st hA1.isOut.2.2.2.2.2.2.1 hf1 r1 rfl
  -- rawByte
  have hroom : Room s.par 1 := hr'.mono (by omega)
  have hs2 : r2.st.canStore 1 := by
    rw [hst2]
    refine ⟨by intro c hc; simp at hc, ?_, fun a _ h2 => ?_⟩
    · simpa [hA1.par] using hroom.1
    · have := hroom.2 a (by simpa using h2)
      simpa [hA1.par] using this
  obtain ⟨_, r3, h3, m3, hst3, hb3⟩ := rawByte_completes r2.st (by rw [hst2]; exact hf1) hs2
    ((BitVec.ofNat 8 p <<< 5) ||| (r2.st.snkByte 0 &&& 0x1F#8)) r2 rfl
  obtain ⟨b0, rest, hold, hnew⟩ := patched_file p hp8 (body ++ List.replicate p false)
    (by rw [List.length_append]; omega)
  have hfile : bytesOf (fileBits body) = ((BitVec.ofNat 8 p <<< 5) ||| (b0 &&& 0x1F#8)) :: rest := by
    rw [← hnew, fileBits, hpc, List.append_assoc]
  have hout : bytesOf ([false, false, false] ++ body ++ List.replicate p false) = b0 :: rest := by
    rw [← hold, List.append_assoc]
  have hn : rest.length + 1 = (3 + body.length + p) / 8 := by
    have := congrArg List.length hout
    rw [bytesOf_length _ _ rfl, hlen] at this
    rw [this]
    rfl
  have hstored : ∀ a, r2.st.snkByte a = if a < rest.length + 1 then (b0 :: rest).getD a 0#8 else s.storedByte a := by
    intro a
    rw [hb2 a, hA1.isOut.2.2.2.2.2.2.2 a, hlen, hout, hn]
  refine ⟨(), r3, ?_, ?_⟩
  · rw [Machine.finishHeader, Cmd.bind_apply, hfill]
    simp only [Cmd.bind_apply, h2, look_apply]
    exact h3
  · obtain ⟨-, hpos1, hlen1, htot1, -⟩ := hA1.isOut
    rw [hfile]
    refine ⟨?_, ?_, ?_, ?_, fun a => ?_⟩
    · rw [hst3, hst2]
      conv_lhs => rw [hA1.frame]
      simp only [State.setWr, State.setSnk, closedWriter, hf1, hlen1, htot1, hlen, List.length_cons]
      rw [← hn, show 3 + body.length + p = 8 * (rest.length + 1) by omega]
      simp
    · rw [hst3, hst2]; exact hA1.len
    · rw [hst3, hst2]; exact hA1.isIgn
    · rw [hst3, hst2]; exact hA1.pos
    · rw [hb3 a]
      have hp2 : r2.st.wr.pos = 0 := by rw [hst2]; rfl
      have hst : r2.st.storedByte a = r2.st.snkByte a := by
        rw [storedByte_eq, hst2]; rfl
      rw [hp2, hst, hstored 0, hstored a, List.length_cons]
      cases a with
      | zero => simp
      | succ a => simp

theorem frame_of_end {s u : State} {w : Writer} {e e' : Engine} (v : Word) (n : Nat)
    (h : u = { s with rd := u.rd, wr := w, snk := u.snk, eng := e }) :
    ((u.setResult v).setEng e').drew n =
      { s with rd := u.rd, wr := w, snk := u.snk, result := v, eng := e', draw := s.draw + n } := by
  rw [h]
  rfl

/-- RESULT, and the end of an engine command whose reader is at the end of its stream. -/
theorem Closed.finish {file : List Byte} {p : Nat} :
    Cmd.Completes (Closed s ign [] e file p) (resultIsLength >>= fun _ => leaveEngine)
      (fun _ t => EngineEnd s t ∧ t.output = file ∧ t.wr.pos = p ∧ t.wr.len = file.length ∧
        t.rd.pos = t.rd.logicalLen ∧ t.rd.ign = ign ∧ t.er = s.er) := by
  intro r h
  refine ⟨(), _, rfl, ?_⟩
  have hw : r.st.wr = closedWriter file.length p := by rw [h.frame]
  have hpos := h.pos
  rw [List.length_nil, Nat.add_zero] at hpos
  refine ⟨⟨?_, ?_, ?_, ?_, ?_, ?_, fun a ha => ?_⟩, ?_, ?_, ?_, ?_, ?_, ?_⟩
  · refine (frame_of_end _ 1 h.frame).trans ?_
    rw [← hw, show s.draw = r.st.draw by rw [h.frame]]
    rfl
  · rfl
  · show r.st.wr.total = BitVec.ofNat 32 (8 * r.st.wr.len)
    rw [hw]
    rfl
  · show r.st.wr.mark = r.st.wr.pos ∧ r.st.wr.frac = [] ∧ r.st.wr.staging = [] ∧ r.st.wr.fresh = []
    rw [hw]
    exact ⟨rfl, rfl, rfl, rfl⟩
  · exact h.len
  · show decide (r.st.rd.logicalLen ≤ r.st.rd.pos) = true
    simp [hpos]
  · show r.st.snkByte a = _
    have hle : file.length ≤ a := by
      have hle : r.st.wr.len ≤ a := ha
      rw [hw] at hle
      exact hle
    rw [h.bytes a, if_neg (by omega)]
  · show (List.range r.st.wr.len).map r.st.snkByte = file
    rw [hw]
    show (List.range file.length).map r.st.snkByte = file
    apply List.ext_getElem
    · simp
    · intro i h1 h2
      simp only [List.getElem_map, List.getElem_range, h.bytes i, if_pos h2]
      rw [List.getD_eq_getElem _ _ h2]
  · show r.st.wr.pos = p
    rw [hw]
    rfl
  · show r.st.wr.len = file.length
    rw [hw]
    rfl
  · exact hpos
  · exact h.isIgn
  · show r.st.er = s.er
    rw [h.frame]

/-! ## The pad field -/

/-- `RdPadHeader()` (R244) over a file whose pad field is `n` and whose pad bits `pad` follow the body. -/
theorem At.rdPadHeader (n : Nat) (hn : n < 8) (body pad : Bits) (hp : pad.length = n) :
    Cmd.Completes (At s 0#3 (nb n 3 ++ body ++ pad) out e) rdPadHeader
      (fun _ t => At s (BitVec.ofNat 3 n) body out e t) := by
  refine (At.requireAvail (by simp)).bind fun _ => ?_
  rw [List.append_assoc]
  have h3 := At.rdBits (s := s) (ign := 0#3) (rest := body ++ pad) (out := out) (e := e) (nb n 3)
  rw [nb_length] at h3
  refine Cmd.Completes.bind' h3 ?_
  rw [val_nb, Nat.mod_eq_of_lt (by omega)]
  intro r h
  let t := r.st.setRd { r.st.rd with ign := BitVec.ofNat 3 n }
  have hz : r.st.rd.ign.toNat = 0 := by rw [h.isIgn]; rfl
  have hpos := h.pos
  rw [Reader.logicalLen, hz, List.length_append, hp] at hpos
  have hlog : t.rd.logicalLen = 8 * r.st.rd.len - n := by
    show 8 * r.st.rd.len - (BitVec.ofNat 3 n).toNat = _
    rw [BitVec.toNat_ofNat, Nat.mod_eq_of_lt (by omega)]
  have hA : At s (BitVec.ofNat 3 n) body out e t := by
    refine ⟨?_, h.len, rfl, h.sound, h.steady, ?_, ?_, h.isOut⟩
    · show r.st.setRd _ = _
      conv_lhs => rw [h.frame]
      rfl
    · have hu := h.isLeft
      show List.drop r.st.rd.pos (List.take t.rd.logicalLen (bitsOf (r.st.source r.st.rd.len))) = body
      have hu' : List.drop r.st.rd.pos (List.take (8 * r.st.rd.len) (bitsOf (r.st.source r.st.rd.len))) = body ++ pad := by
        rw [← hu, State.unread, State.logicalStream, Reader.logicalLen, hz, Nat.sub_zero]
      rw [List.take_of_length_le (by simp [State.source])] at hu'
      rw [hlog, List.drop_take, hu', show 8 * r.st.rd.len - n - r.st.rd.pos = body.length by omega, List.take_left]
    · show r.st.rd.pos + body.length = t.rd.logicalLen
      rw [hlog]
      omega
  refine ⟨(), { r with st := t, trail := r.st :: r.trail }, ?_, hA⟩
  rw [Cmd.bind_apply, advance_apply]
  show (look >>= fun s => require (decide (s.rd.pos ≤ s.rd.logicalLen)) .padExceeds) _ = _
  rw [Cmd.bind_apply, look_apply]
  have hle : t.rd.pos ≤ t.rd.logicalLen := by have := hA.pos; omega
  exact (require_apply _ _ _).trans (if_pos (decide_eq_true hle))

end Sys2Proof.Machine
end

