-- ==== Sys2Proof/Laws/Invariant.lean ====
section
/-! SUPPORT. Every point of every command's run meets `State.Inv`, whether the command ends or raises: the primitives first,
then the pseudocode of each command. What an error leaves (60_exceptions R346) is built from such points. -/

namespace Sys2Proof.Machine

variable {α : Type} {p : Params}

/-- The invariant, at given launch parameters. -/
def InvAt (p : Params) (s : State) : Prop := s.Inv ∧ s.par = p

/-! ## What each update must meet -/

theorem State.Inv.setRd {s : State} (h : s.Inv) {r : Reader} (h1 : r.len ≤ s.par.srcMax) (h2 : r.pos ≤ 8 * s.par.srcMax)
    (h3 : r.refill.length ≤ s.par.bufBytes) : (s.setRd r).Inv :=
  { h with rdLen := h1, rdPos := h2, refill := h3 }

/-- The part of the invariant that is about the writer. -/
structure WriterOk (p : Params) (w : Writer) : Prop where
  /-- `|wfrac| < 8`. -/
  frac : w.frac.length < 8
  /-- `snk_pos`. -/
  pos : w.pos ≤ p.snkCap
  /-- `snk_len`. -/
  len : w.len ≤ p.snkCap
  /-- `cmark`. -/
  mark : w.mark ≤ p.snkCap
  /-- the staging buffer's capacity. -/
  staged : w.staging.length ≤ p.wbufBytes
  /-- the staged indices. -/
  stagedIn : ∀ c ∈ w.staging, c.1 < p.snkCap
  /-- their order. -/
  stagedOrder : w.staging.Pairwise fun c d => c.1 ≤ d.1
  /-- the spans stored since the last flush point. -/
  freshIn : ∀ f ∈ w.fresh, f.1 + f.2 ≤ p.snkCap
  /-- the staged bytes are among them. -/
  stagedFresh : ∀ c ∈ w.staging, covers w.fresh c.1 = true

theorem State.Inv.writerOk {s : State} (h : s.Inv) : WriterOk s.par s.wr :=
  ⟨h.frac, h.pos, h.len, h.mark, h.staged, h.stagedIn, h.stagedOrder, h.freshIn, h.stagedFresh⟩

theorem State.Inv.setWr {s : State} (h : s.Inv) {w : Writer} (hw : WriterOk s.par w) : (s.setWr w).Inv :=
  { h with
    frac := hw.frac, pos := hw.pos, len := hw.len, mark := hw.mark, staged := hw.staged, stagedIn := hw.stagedIn
    stagedOrder := hw.stagedOrder, freshIn := hw.freshIn, stagedFresh := hw.stagedFresh }

theorem InvAt.setRd {s : State} (h : InvAt p s) {r : Reader} (h1 : r.len ≤ p.srcMax) (h2 : r.pos ≤ 8 * p.srcMax)
    (h3 : r.refill.length ≤ p.bufBytes) : InvAt p (s.setRd r) := by
  obtain ⟨hi, rfl⟩ := h
  exact ⟨hi.setRd h1 h2 h3, rfl⟩

theorem InvAt.writerOk {s : State} (h : InvAt p s) : WriterOk p s.wr := h.2 ▸ h.1.writerOk

theorem InvAt.setWr {s : State} (h : InvAt p s) {w : Writer} (hw : WriterOk p w) : InvAt p (s.setWr w) := by
  obtain ⟨hi, rfl⟩ := h
  exact ⟨hi.setWr hw, rfl⟩

theorem InvAt.setEng {s : State} (h : InvAt p s) (e : Engine) : InvAt p (s.setEng e) := ⟨{ h.1 with }, h.2⟩
theorem InvAt.setLz {s : State} (h : InvAt p s) (m : LzMem) : InvAt p (s.setLz m) := ⟨{ h.1 with }, h.2⟩
theorem InvAt.setSf {s : State} (h : InvAt p s) (m : SfMem) : InvAt p (s.setSf m) := ⟨{ h.1 with }, h.2⟩
theorem InvAt.setResult {s : State} (h : InvAt p s) (v : Word) : InvAt p (s.setResult v) := ⟨{ h.1 with }, h.2⟩
theorem InvAt.drew {s : State} (h : InvAt p s) (n : Nat) : InvAt p (s.drew n) := ⟨{ h.1 with }, h.2⟩

/-! ## Steps of these proofs -/

theorem Cmd.Keeps.ofState {I pre : State → Prop} {x : Cmd α} {post : α → State → Prop}
    (h : ∀ s, I s → pre s → Cmd.Keeps I (fun t => t = s) x post) : Cmd.Keeps I pre x post :=
  fun r hr hp => h r.st hr.1 hp r hr rfl

theorem Cmd.Keeps.toFrame {I pre : State → Prop} {x : Cmd α} {post : α → State → Prop} (h : Cmd.Keeps I pre x post) :
    Cmd.Keeps I pre x (fun _ _ => True) := h.weaken (fun _ h => h) fun _ _ _ _ => trivial

theorem KeepsFrame.from {I pre : State → Prop} {x : Cmd α} (h : KeepsFrame I x) :
    Cmd.Keeps I pre x (fun _ _ => True) := h.weaken (fun _ _ => trivial) fun _ _ _ h => h

theorem KeepsFrame.advance {I : State → Prop} {f : State → State} (h : ∀ s, I s → I (f s)) :
    KeepsFrame I (Machine.advance f) := (Cmd.Keeps.advance fun s hs _ => h s hs).toFrame

theorem KeepsFrame.require {I : State → Prop} (ok : Bool) (c : Cause) : KeepsFrame I (Machine.require ok c) :=
  (Cmd.Keeps.require ok c).toFrame

theorem KeepsFrame.pure {I : State → Prop} (a : α) : KeepsFrame I (pure a : Cmd α) := (Cmd.Keeps.pure a).toFrame

theorem KeepsFrame.bind {β : Type} {I pre : State → Prop} {x : Cmd α} {f : α → Cmd β} {post : β → State → Prop}
    (hx : KeepsFrame I x) (hf : ∀ a, Cmd.Keeps I (fun _ => True) (f a) post) : Cmd.Keeps I pre (x >>= f) post :=
  (Cmd.Keeps.bind hx hf).weaken (fun _ _ => trivial) fun _ _ _ h => h

theorem Cmd.Keeps.look_bind {β : Type} {I pre : State → Prop} {f : State → Cmd β} {post : β → State → Prop}
    (h : ∀ s, I s → pre s → Cmd.Keeps I (fun t => t = s) (f s) post) : Cmd.Keeps I pre (Machine.look >>= f) post :=
  fun r hr hp => h r.st hr.1 hp r hr rfl

/-! ## Reader -/

theorem Reader.avail_bound {s : State} (h : InvAt p s) {n : Nat} (hn : n ≤ s.rd.avail) : s.rd.pos + n ≤ 8 * p.srcMax := by
  have h1 := h.1.rdPos
  have h2 := h.1.rdLen
  rw [h.2] at h1 h2
  rw [Reader.avail, Reader.logicalLen] at hn
  omega

/-- The reader is that of `s` but for its refill buffer. -/
def SameReader (s t : State) : Prop := ∃ rf at', t.rd = { s.rd with refill := rf, refillAt := at' }

theorem deliverBit_inv (s : State) (j : Nat) :
    Cmd.Keeps (InvAt p) (SameReader s) (deliverBit j) (fun _ t => SameReader s t) := by
  have hfetch : Cmd.Keeps (InvAt p) (SameReader s) (fetchByte (j / 8)) (fun _ t => SameReader s t) := by
    refine Cmd.Keeps.look_bind fun t ht hs => ?_
    split
    · exact (Cmd.Keeps.pure ()).weaken (fun _ h => h) fun _ _ _ h => h.2 ▸ hs
    · have hset (f : State → List Byte) (g : State → Nat) (hf : ∀ u, (f u).length ≤ p.bufBytes) :
          Cmd.Keeps (InvAt p) (SameReader s) (advance fun u => u.setRd { u.rd with refill := f u, refillAt := g u })
            (fun _ u => SameReader s u) := by
        refine (Cmd.Keeps.advance fun u hu _ => hu.setRd (hu.2 ▸ hu.1.rdLen) (hu.2 ▸ hu.1.rdPos) (hf u)).weaken
          (fun _ h => h) ?_
        rintro _ u - ⟨v, rfl, -, rf, a, h⟩
        exact ⟨_, _, by rw [State.setRd_rd, h]⟩
      refine ((hset (fun _ => []) _ fun _ => Nat.zero_le _).weaken (fun u (hu : u = t) => hu ▸ hs) fun _ _ _ h => h).bind fun _ => ?_
      refine (Cmd.Keeps.require _ _).bind fun _ => (hset _ _ fun u => ?_).weaken (fun _ h => h.2) fun _ _ _ h => h
      rw [List.length_map, State.blockIndices, List.length_map, List.length_range, ht.2]
      exact Nat.min_le_left _ _
  refine hfetch.bind fun _ => Cmd.Keeps.look_bind fun t ht hs => ?_
  dsimp only
  split
  · exact (Cmd.Keeps.pure _).weaken (fun _ h => h) fun _ _ _ h => h.2 ▸ hs
  · refine (Cmd.Keeps.advance (pre := fun u => u = t) fun u hu _ => hu.drew 1).bind fun _ => ?_
    refine (Cmd.Keeps.pure _).weaken (fun _ h => h) ?_
    rintro _ u - ⟨-, v, rfl, -, rfl⟩
    exact hs

theorem deliverBits_inv (s : State) (n : Nat) : ∀ j,
    Cmd.Keeps (InvAt p) (SameReader s) (deliverBits n j) (fun _ t => SameReader s t) := by
  induction n with
  | zero => exact fun _ => (Cmd.Keeps.pure _).weaken (fun _ h => h) fun _ _ _ h => h.2
  | succ n ih =>
    intro j
    refine (deliverBit_inv s j).bind fun b => (ih (j + 1)).bind fun rest => ?_
    exact (Cmd.Keeps.pure _).weaken (fun _ h => h) fun _ _ _ h => h.2

/-- A read of available bits; the bits after it stay available. -/
theorem rdBits_inv (n k : Nat) :
    Cmd.Keeps (InvAt p) (fun s => n + k ≤ s.rd.avail) (rdBits n) (fun _ t => k ≤ t.rd.avail) := by
  refine Cmd.Keeps.look_bind fun s hi hs => ?_
  have hb := Reader.avail_bound hi (show n ≤ s.rd.avail by omega)
  refine ((deliverBits_inv s n s.rd.pos).weaken (fun t (ht : t = s) => ⟨s.rd.refill, s.rd.refillAt, by rw [ht]⟩) fun _ _ _ h => h).bind fun bits => ?_
  refine (Cmd.Keeps.advance (pre := SameReader s) fun t ht hst => ?_).bind fun _ => ?_
  · obtain ⟨rf, a, h⟩ := hst
    exact ht.setRd (ht.2 ▸ ht.1.rdLen) (by rw [h]; exact hb) (ht.2 ▸ ht.1.refill)
  · refine (Cmd.Keeps.pure _).weaken (fun _ h => h) ?_
    rintro _ t - ⟨-, u, rfl, -, rf, a, h⟩
    rw [State.setRd_rd, h]
    simp only [Reader.avail, Reader.logicalLen] at hs ⊢
    omega

theorem requireAvail_inv (n : Nat) (c : Cause) :
    Cmd.Keeps (InvAt p) (fun _ => True) (requireAvail n c) (fun _ t => n ≤ t.rd.avail) := by
  refine Cmd.Keeps.look_bind fun s _ _ => ?_
  refine (Cmd.Keeps.require _ _).weaken (fun _ h => h) ?_
  rintro _ t - ⟨h, rfl⟩
  simpa using h

/-- A checked read. -/
theorem requireRead_inv {β : Type} (n : Nat) (c : Cause) {f : Bits → Cmd β} {post : β → State → Prop}
    (hf : ∀ b, Cmd.Keeps (InvAt p) (fun _ => True) (f b) post) :
    Cmd.Keeps (InvAt p) (fun _ => True) (requireAvail n c >>= fun _ => rdBits n >>= f) post := by
  refine (requireAvail_inv n c).bind fun _ => ?_
  refine ((rdBits_inv n 0).weaken (fun _ h => h) fun _ _ _ _ => trivial).bind hf

theorem rdInit_inv : Cmd.Keeps (InvAt p) (fun _ => True) rdInit (fun _ t => t.rd.pos = 0 ∧ t.rd.ign = 0#3) := by
  refine Cmd.Keeps.look_bind fun s _ _ => (Cmd.Keeps.require _ _).bind fun _ => ?_
  refine (Cmd.Keeps.advance (pre := fun t => s.srcLenInRange = true ∧ t = s) fun t ht hst => ?_).weaken (fun _ h => h) ?_
  · obtain ⟨h, rfl⟩ := hst
    rw [State.srcLenInRange, ht.2] at h
    exact ht.setRd (by simpa using h) (Nat.zero_le _) (Nat.zero_le _)
  · rintro _ t - ⟨u, rfl, -⟩
    exact ⟨rfl, rfl⟩

theorem rdRewind_inv : KeepsFrame (InvAt p) rdRewind :=
  KeepsFrame.advance fun _ hs => hs.setRd (hs.2 ▸ hs.1.rdLen) (Nat.zero_le _) (Nat.zero_le _)

/-! ## Writer -/

/-- `t` is at the reader, position and incomplete byte of `s`. -/
def Carried (s t : State) : Prop := t.rd = s.rd ∧ t.wr.pos = s.wr.pos ∧ t.wr.frac = s.wr.frac

theorem drainBytes_inv (s : State) (cells : List Host.Cell) :
    Cmd.Keeps (InvAt p) (fun t => Carried s t ∧ t.wr.staging = cells) (drainBytes cells)
      (fun _ t => Carried s t ∧ t.wr.staging = []) := by
  induction cells with
  | nil => exact (Cmd.Keeps.pure ()).weaken (fun _ h => h) fun _ _ _ h => h.2
  | cons c rest ih =>
    obtain ⟨a, v⟩ := c
    refine Cmd.Keeps.look_bind fun u _ hu => (Cmd.Keeps.require _ _).bind fun _ => ?_
    refine (Cmd.Keeps.advance (pre := fun t => t = u) fun t ht htu => ?_).weaken (fun _ h => h.2) (fun _ _ _ h => h) |>.bind
      fun _ => ih.weaken ?_ fun _ _ _ h => h
    · subst htu
      have hw := ht.writerOk
      have ha := hw.stagedIn (a, v) (by rw [hu.2]; simp)
      have hm : InvAt p (t.setSnk (Memory.set t.snk a v)) :=
        ⟨{ ht.1 with snk := Memory.set_wf ht.1.snk (by rw [ht.2]; exact ha) v }, ht.2⟩
      refine hm.setWr { hw with staged := ?_, stagedIn := ?_, stagedOrder := ?_, stagedFresh := ?_ }
      · have := hw.staged
        rw [hu.2] at this
        simp at this ⊢
        omega
      · exact fun c hc => hw.stagedIn c (by rw [hu.2]; exact List.mem_cons_of_mem _ hc)
      · have := hw.stagedOrder
        rw [hu.2] at this
        exact (List.pairwise_cons.1 this).2
      · exact fun c hc => hw.stagedFresh c (by rw [hu.2]; exact List.mem_cons_of_mem _ hc)
    · rintro t ⟨u', rfl, -, rfl⟩
      exact ⟨hu.1, rfl⟩

theorem drain_inv (s : State) :
    Cmd.Keeps (InvAt p) (Carried s) drain (fun _ t => Carried s t ∧ t.wr.staging = []) :=
  Cmd.Keeps.look_bind fun u _ hu => (drainBytes_inv s u.wr.staging).weaken (fun t ht => by rw [ht]; exact ⟨hu, rfl⟩)
    fun _ _ _ h => h

theorem wbuf_pos (h : ∃ s, InvAt p s) : 1 ≤ p.wbufBytes := by
  obtain ⟨s, hi, rfl⟩ := h
  have := hi.params
  simp [Params.wf] at this
  omega

theorem drainIfFull_inv (s : State) :
    Cmd.Keeps (InvAt p) (Carried s) drainIfFull (fun _ t => Carried s t ∧ t.wr.staging.length < p.wbufBytes) := by
  refine Cmd.Keeps.look_bind fun u hi hu => ?_
  split
  · refine (drain_inv s).weaken (fun t ht => by rw [ht]; exact hu) fun _ t ht h => ⟨h.1, ?_⟩
    rw [h.2]
    exact wbuf_pos ⟨t, ht⟩
  · rename_i hlt
    refine (Cmd.Keeps.pure ()).weaken (fun _ h => h) fun _ t _ h => ?_
    rw [h.2]
    exact ⟨hu, by rw [← hi.2]; omega⟩

theorem completeByte_inv (v : Byte) : KeepsFrame (InvAt p) (completeByte v) := by
  refine Cmd.Keeps.look_bind fun s hi _ => (Cmd.Keeps.require _ _).bind fun _ => Cmd.Keeps.ofState fun s' _ hs' => ?_
  obtain ⟨hpos, hs'⟩ := hs'
  subst hs'
  have hpos : s'.wr.pos < p.snkCap := by rw [hi.2] at hpos; simpa using hpos
  refine ((drainIfFull_inv s').weaken (fun t ht => by rw [ht]; exact ⟨rfl, rfl, rfl⟩) fun _ _ _ h => h).bind fun _ => ?_
  refine (Cmd.Keeps.advance (pre := fun t => Carried s' t ∧ t.wr.staging.length < p.wbufBytes) fun t ht h => ?_).bind
    (mid := fun _ t => ∃ u, t = State.setWr u
        { u.wr with staging := stage u.wr.staging u.wr.pos v, fresh := noteFresh u.wr.fresh u.wr.pos } ∧ InvAt p u ∧
      Carried s' u ∧ u.wr.staging.length < p.wbufBytes) fun _ => ?_
  · have hw := ht.writerOk
    refine ht.setWr
      { hw with
        staged := ?_, stagedIn := ?_, stagedOrder := stage_sorted hw.stagedOrder _ _, freshIn := ?_, stagedFresh := ?_ }
    · rw [stage_length]
      omega
    · intro c hc
      rcases stage_mem hc with rfl | hc
      · show t.wr.pos < _
        rw [h.1.2.1]
        exact hpos
      · exact hw.stagedIn c hc
    · exact noteFresh_bound hw.freshIn (by rw [h.1.2.1]; exact hpos)
    · intro c hc
      show covers (noteFresh _ _) _ = true
      rw [covers_noteFresh]
      rcases stage_mem hc with rfl | hc
      · simp
      · rw [hw.stagedFresh c hc]
        rfl
  · refine ((drainIfFull_inv s').weaken ?_ fun _ _ _ h => h.1).bind fun _ => ?_
    · rintro t ⟨u, rfl, -, hc, -⟩
      exact hc
    refine (Cmd.Keeps.advance (pre := Carried s') fun t ht h => ?_).toFrame
    have hw := ht.writerOk
    have hp : t.wr.pos = s'.wr.pos := h.2.1
    refine ht.setWr { hw with pos := ?_, len := ?_ }
    · show t.wr.pos + 1 ≤ _
      omega
    · show max t.wr.len (t.wr.pos + 1) ≤ _
      have := hw.len
      omega

theorem wrBit_inv (b : Bool) : KeepsFrame (InvAt p) (wrBit b) := by
  refine Cmd.Keeps.look_bind fun s _ _ => ?_
  split
  · rename_i h
    refine (Cmd.Keeps.advance fun t ht hts => ?_).toFrame
    subst hts
    refine ht.setWr { ht.writerOk with frac := ?_ }
    simp
    omega
  · refine KeepsFrame.bind (KeepsFrame.advance fun t ht => ht.setWr { ht.writerOk with }) fun _ => ?_
    refine (completeByte_inv _).bind fun _ => ?_
    exact KeepsFrame.advance fun t ht => ht.setWr { ht.writerOk with frac := by simp }

theorem wrBits_inv (bits : Bits) : KeepsFrame (InvAt p) (wrBits bits) := by
  induction bits with
  | nil => exact KeepsFrame.pure ()
  | cons b rest ih => exact (wrBit_inv b).bind fun _ => ih

theorem drain_frame : KeepsFrame (InvAt p) drain :=
  Cmd.Keeps.ofState fun s _ _ => ((drain_inv s).weaken (fun t ht => by rw [ht]; exact ⟨rfl, rfl, rfl⟩) fun _ _ _ h => h).toFrame

theorem noteMark_inv (m : Nat) : KeepsFrame (InvAt p) (noteMark m) := Cmd.Keeps.noteMark m

/-- `WrInit` keeps the reader as well. -/
theorem wrInit_inv (rd : Reader) : Cmd.Keeps (InvAt p) (fun s => s.rd = rd) wrInit (fun _ t => t.rd = rd) := by
  refine (Cmd.Keeps.noteMark 0).bind fun _ => Cmd.Keeps.ofState fun s _ hs => ?_
  refine ((drain_inv s).weaken (fun t ht => by rw [ht]; exact ⟨rfl, rfl, rfl⟩) fun _ _ _ h => h).bind fun _ => ?_
  refine (Cmd.Keeps.advance (pre := fun t => Carried s t ∧ t.wr.staging = []) fun t ht h => ?_).weaken (fun _ h => h) ?_
  · refine ht.setWr
      { ht.writerOk with
        frac := by simp, pos := Nat.zero_le _, len := Nat.zero_le _, mark := Nat.zero_le _, freshIn := by simp
        stagedFresh := ?_ }
    simp [h.2]
  · rintro _ t - ⟨u, rfl, -, hu⟩
    exact hu.1.1.trans hs

theorem flushPoint_inv : KeepsFrame (InvAt p) flushPoint := by
  refine Cmd.Keeps.look_bind fun s _ _ => (KeepsFrame.require _ _).bind fun _ => Cmd.Keeps.ofState fun s' _ _ => ?_
  refine ((drain_inv s').weaken (fun t ht => by rw [ht]; exact ⟨rfl, rfl, rfl⟩) fun _ _ _ h => h).bind fun _ => ?_
  refine (Cmd.Keeps.advance (pre := fun t => Carried s' t ∧ t.wr.staging = []) fun t ht h => ?_).toFrame.bind fun _ => ?_
  · exact ht.setWr { ht.writerOk with mark := ht.writerOk.pos, freshIn := by simp, stagedFresh := by simp [h.2] }
  exact Cmd.Keeps.look_bind fun _ _ _ => (noteMark_inv _).from

theorem fill_inv : KeepsFrame (InvAt p) fill :=
  Cmd.Keeps.look_bind fun _ _ _ => (wrBits_inv _).bind fun _ => KeepsFrame.pure _

theorem seek0_inv : KeepsFrame (InvAt p) seek0 :=
  (noteMark_inv 0).bind fun _ => flushPoint_inv.bind fun _ =>
    KeepsFrame.advance fun _ ht => ht.setWr { ht.writerOk with pos := Nat.zero_le _, mark := Nat.zero_le _ }

theorem rawByte_inv (v : Byte) : KeepsFrame (InvAt p) (rawByte v) :=
  flushPoint_inv.bind fun _ => (completeByte_inv v).bind fun _ => flushPoint_inv

/-! ## Elias-gamma and the parts both engines share -/

theorem rdZeroRun_inv : ∀ left k : Nat, KeepsFrame (InvAt p) (rdZeroRun left k) := by
  intro left
  induction left with
  | zero => exact fun _ => Cmd.Keeps.raise _
  | succ left ih =>
    intro k
    refine requireRead_inv 1 _ fun b => ?_
    split
    · exact KeepsFrame.pure k
    · exact ih (k + 1)

theorem rdEG_inv : KeepsFrame (InvAt p) rdEG :=
  (rdZeroRun_inv 33 0).bind fun k => requireRead_inv k _ fun _ => (KeepsFrame.require _ _).bind fun _ => KeepsFrame.pure _

theorem finishHeader_inv : KeepsFrame (InvAt p) finishHeader :=
  fill_inv.bind fun _ => seek0_inv.bind fun _ => Cmd.Keeps.look_bind fun _ _ _ => (rawByte_inv _).from

theorem resultIsLength_inv : KeepsFrame (InvAt p) resultIsLength := KeepsFrame.advance fun _ h => h.setResult _

theorem leaveEngine_inv : KeepsFrame (InvAt p) leaveEngine :=
  (Cmd.Keeps.leaveEngine fun _ e h _ => (h.setEng e).drew 1).toFrame

theorem rdPadHeader_inv : KeepsFrame (InvAt p) rdPadHeader :=
  requireRead_inv 3 _ fun _ =>
    KeepsFrame.bind (KeepsFrame.advance fun _ hs => hs.setRd (hs.2 ▸ hs.1.rdLen) (hs.2 ▸ hs.1.rdPos) (hs.2 ▸ hs.1.refill))
      fun _ => Cmd.Keeps.look_bind fun _ _ _ => (KeepsFrame.require _ _).from

/-- The start of an engine command; afterwards the whole source is available. -/
theorem engineStart_inv {β : Type} {f : Unit → Cmd β} {post : β → State → Prop}
    (hf : Cmd.Keeps (InvAt p) (fun t => t.rd.avail = 8 * t.rd.len) (f ()) post) :
    Cmd.Keeps (InvAt p) (fun _ => True) (rdInit >>= fun _ => enterEngine >>= fun _ => wrInit >>= f) post := by
  refine rdInit_inv.bind fun _ => ?_
  refine (Cmd.Keeps.enterEngine (pre := fun t => t.rd.pos = 0 ∧ t.rd.ign = 0#3) fun _ h _ => h.setEng _).bind fun _ => ?_
  refine Cmd.Keeps.ofState fun s _ hs => ?_
  obtain ⟨u, rfl, -, hu⟩ := hs
  refine ((wrInit_inv u.rd).weaken (fun t ht => by rw [ht]; rfl) fun _ _ _ h => h).bind fun _ => ?_
  refine hf.weaken (fun t ht => ?_) fun _ _ _ h => h
  rw [ht, Reader.avail, Reader.logicalLen, hu.1, hu.2]
  rfl

/-! ## Engines -/

theorem lzEncodeLoop_inv (src : List Byte) (fuel : Nat) : KeepsFrame (InvAt p) (lzEncodeLoop src fuel) := by
  induction fuel with
  | zero => exact KeepsFrame.pure ()
  | succ fuel ih =>
    refine Cmd.Keeps.look_bind fun s _ _ => ?_
    split
    · refine KeepsFrame.bind (KeepsFrame.advance fun _ h => h.setLz _) fun _ => Cmd.Keeps.look_bind fun _ _ _ => ?_
      exact (wrBits_inv _).bind fun _ => KeepsFrame.bind (KeepsFrame.advance fun _ h => h.setLz _) fun _ => ih
    · exact (KeepsFrame.pure ()).from

theorem lzCompBody_inv : KeepsFrame (InvAt p) lzCompBody := by
  refine Cmd.Keeps.look_bind fun s _ _ => (KeepsFrame.require _ _).bind fun _ => (KeepsFrame.require _ _).bind fun _ => ?_
  refine engineStart_inv (Cmd.Keeps.look_bind fun t _ ht => ?_)
  refine ((rdBits_inv (8 * t.rd.len) 0).weaken (fun u hu => by rw [hu]; omega) fun _ _ _ _ => trivial).bind fun bits => ?_
  refine KeepsFrame.bind (x := lzEncode _ _ _ _) ?_ fun _ => finishHeader_inv.bind fun _ =>
    resultIsLength_inv.bind fun _ => leaveEngine_inv
  exact (wrBits_inv _).bind fun _ => (wrBits_inv _).bind fun _ => (wrBits_inv _).bind fun _ =>
    KeepsFrame.bind (KeepsFrame.advance fun _ h => h.setLz _) fun _ => lzEncodeLoop_inv _ _

theorem lzDecodeRecord_inv :
    Cmd.Keeps (InvAt p) (fun s => 0 < s.rd.avail) lzDecodeRecord (fun _ _ => True) := by
  refine ((rdBits_inv 1 0).weaken (fun _ h => h) fun _ _ _ _ => trivial).bind fun tag => ?_
  refine Cmd.Keeps.look_bind fun s _ _ => ?_
  dsimp only
  split
  · refine (requireRead_inv 8 _ fun _ => ?_).weaken (fun _ _ => trivial) fun _ _ _ h => h
    exact (wrBits_inv _).bind fun _ => KeepsFrame.advance fun _ h => h.setLz _
  · refine ((requireAvail_inv _ _).weaken (fun _ _ => trivial) fun _ _ _ h => h).bind fun _ => ?_
    refine (rdBits_inv s.eng.lz.hb s.eng.lz.mb).bind fun _ => ?_
    refine ((rdBits_inv s.eng.lz.mb 0).weaken (fun _ h => h) fun _ _ _ _ => trivial).bind fun _ => ?_
    exact (KeepsFrame.require _ _).bind fun _ => (wrBits_inv _).bind fun _ => KeepsFrame.advance fun _ h => h.setLz _

theorem lzDecodeLoop_inv (fuel : Nat) : KeepsFrame (InvAt p) (lzDecodeLoop fuel) := by
  induction fuel with
  | zero => exact KeepsFrame.pure ()
  | succ fuel ih =>
    refine Cmd.Keeps.look_bind fun s _ _ => ?_
    split
    · rename_i h
      exact (lzDecodeRecord_inv.weaken (fun t ht => by rw [ht]; exact h) fun _ _ _ h => h).bind fun _ => ih
    · exact (KeepsFrame.pure ()).from

theorem lzDecBody_inv : KeepsFrame (InvAt p) lzDecBody := by
  refine engineStart_inv (KeepsFrame.from ?_)
  refine rdPadHeader_inv.bind fun _ => KeepsFrame.bind (x := lzReadHeader) ?_ fun hm => ?_
  · exact rdEG_inv.bind fun _ => rdEG_inv.bind fun _ => Cmd.Keeps.look_bind fun _ _ _ =>
      (KeepsFrame.require _ _).bind fun _ => (KeepsFrame.require _ _).bind fun _ => KeepsFrame.pure _
  · refine KeepsFrame.bind (x := lzDecode _ _) ?_ fun _ => flushPoint_inv.bind fun _ =>
      resultIsLength_inv.bind fun _ => leaveEngine_inv
    exact KeepsFrame.bind (KeepsFrame.advance fun _ h => h.setLz _) fun _ =>
      Cmd.Keeps.look_bind fun _ _ _ => (lzDecodeLoop_inv _).from

theorem readWord_inv (wl : Nat) : KeepsFrame (InvAt p) (readWord wl) := by
  refine Cmd.Keeps.look_bind fun s _ _ => ?_
  refine ((rdBits_inv (min wl s.rd.avail) 0).weaken (fun t ht => by rw [ht]; omega) fun _ _ _ _ => trivial).bind fun _ => ?_
  exact KeepsFrame.pure _

theorem countPass_inv (wl n : Nat) : KeepsFrame (InvAt p) (countPass wl n) := by
  induction n with
  | zero => exact KeepsFrame.pure ()
  | succ n ih =>
    exact (readWord_inv wl).bind fun _ => KeepsFrame.bind (KeepsFrame.advance fun _ h => h.setSf _) fun _ => ih

theorem codePass_inv (wl n : Nat) : KeepsFrame (InvAt p) (codePass wl n) := by
  induction n with
  | zero => exact KeepsFrame.pure ()
  | succ n ih =>
    exact (readWord_inv wl).bind fun _ => Cmd.Keeps.look_bind fun _ _ _ => (wrBits_inv _).bind fun _ => ih

theorem sfCompBody_inv : KeepsFrame (InvAt p) sfCompBody := by
  refine Cmd.Keeps.look_bind fun s _ _ => (KeepsFrame.require _ _).bind fun _ => engineStart_inv (KeepsFrame.from ?_)
  refine KeepsFrame.bind (x := sfEncode _) ?_ fun _ => finishHeader_inv.bind fun _ =>
    resultIsLength_inv.bind fun _ => leaveEngine_inv
  refine Cmd.Keeps.look_bind fun t _ _ => KeepsFrame.bind (KeepsFrame.advance fun _ h => h.setSf _) fun _ => ?_
  refine (countPass_inv _ _).bind fun _ => KeepsFrame.bind (KeepsFrame.advance fun _ h => h.setSf _) fun _ => ?_
  refine (wrBits_inv _).bind fun _ => (wrBits_inv _).bind fun _ => (wrBits_inv _).bind fun _ => ?_
  exact Cmd.Keeps.look_bind fun _ _ _ => (wrBits_inv _).bind fun _ => rdRewind_inv.bind fun _ => codePass_inv _ _

theorem parseNode_inv (wl fuel : Nat) : ∀ nl, KeepsFrame (InvAt p) (parseNode wl fuel nl) := by
  induction fuel with
  | zero => exact fun _ => Cmd.Keeps.raise _
  | succ fuel ih =>
    intro nl
    refine requireRead_inv 1 _ fun b => ?_
    dsimp only
    refine (KeepsFrame.require _ _).bind fun _ => ?_
    split
    · exact (KeepsFrame.require _ _).bind fun _ => requireRead_inv wl _ fun _ => KeepsFrame.pure _
    · exact (ih _).bind fun _ => (ih _).bind fun _ => KeepsFrame.pure _

theorem walkCode_inv (tree : PTree) : KeepsFrame (InvAt p) (walkCode tree) := by
  induction tree with
  | none => exact Cmd.Keeps.raise _
  | leaf w => exact KeepsFrame.pure w
  | node c0 c1 ih0 ih1 =>
    refine KeepsFrame.bind (KeepsFrame.advance fun _ h => h.setSf _) fun _ => requireRead_inv 1 _ fun b => ?_
    split
    · exact ih1
    · exact ih0

theorem decodeWalkLoop_inv (wl fuel : Nat) : ∀ pend, KeepsFrame (InvAt p) (decodeWalkLoop wl fuel pend) := by
  induction fuel with
  | zero => exact fun pend => KeepsFrame.pure pend
  | succ fuel ih =>
    intro pend
    refine Cmd.Keeps.look_bind fun s _ _ => ?_
    split
    · refine (walkCode_inv _).bind fun w => KeepsFrame.bind (x := emitPending wl pend) ?_ fun _ => ih (some w)
      cases pend with
      | none => exact KeepsFrame.pure ()
      | some v => exact wrBits_inv _
    · exact (KeepsFrame.pure pend).from

theorem stripPad_inv (P wl : Nat) (pend : Option Nat) : KeepsFrame (InvAt p) (stripPad P wl pend) := by
  cases pend with
  | none => exact (KeepsFrame.require _ _).bind fun _ => Cmd.Keeps.look_bind fun _ _ _ => (KeepsFrame.require _ _).from
  | some w => exact (wrBits_inv _).bind fun _ => Cmd.Keeps.look_bind fun _ _ _ => (KeepsFrame.require _ _).from

theorem sfDecBody_inv : KeepsFrame (InvAt p) sfDecBody := by
  refine engineStart_inv (KeepsFrame.from ?_)
  refine rdPadHeader_inv.bind fun _ => KeepsFrame.bind (x := sfReadHeader) ?_ fun pw => ?_
  · exact rdEG_inv.bind fun _ => rdEG_inv.bind fun _ => Cmd.Keeps.look_bind fun _ _ _ =>
      (KeepsFrame.require _ _).bind fun _ => (KeepsFrame.require _ _).bind fun _ => KeepsFrame.pure _
  · refine KeepsFrame.bind (KeepsFrame.advance fun _ h => h.setSf _) fun _ => KeepsFrame.bind (x := parseTree _) ?_ fun _ =>
      KeepsFrame.bind (x := decodeWalk _) ?_ fun pend => (stripPad_inv _ _ _).bind fun _ => flushPoint_inv.bind fun _ =>
        resultIsLength_inv.bind fun _ => leaveEngine_inv
    · exact (parseNode_inv _ _ _).bind fun _ => KeepsFrame.advance fun _ h => h.setSf _
    · exact Cmd.Keeps.look_bind fun _ _ _ => (decodeWalkLoop_inv _ _ _).from

/-! ## Every command -/

theorem softReset_inv {s : State} (h : InvAt p s) : InvAt p (softReset s) := by
  refine ⟨⟨h.1.params, Nat.zero_le _, Nat.zero_le _, Nat.zero_le _, by simp [softReset, hardReset, State.reset],
    Nat.zero_le _, Nat.zero_le _, Nat.zero_le _, Nat.zero_le _, by simp [softReset, hardReset, State.reset],
    List.Pairwise.nil, by simp [softReset, hardReset, State.reset], by simp [softReset, hardReset, State.reset],
    by simp [softReset, hardReset, State.reset], fun _ => ⟨rfl, rfl⟩, (fun h => nomatch h), h.1.src, ?_,
    h.1.draws⟩, h.2⟩
  exact Memory.setSpans_wf _ _ h.1.snk h.1.freshIn

/-- Every point of a command's run meets the invariant, whether the command ends or raises. -/
theorem bodyOf_inv (i : Instr) : KeepsFrame (InvAt p) (bodyOf i) := by
  cases i with
  | nop => exact KeepsFrame.pure ()
  | clr => exact KeepsFrame.advance fun _ h => ⟨{ h.1 with calm := fun _ => ⟨rfl, rfl⟩, alarmed := fun h => nomatch h }, h.2⟩
  | srst => exact KeepsFrame.advance fun _ h => softReset_inv h
  | brInit => exact rdInit_inv.toFrame
  | brIgn =>
    refine Cmd.Keeps.look_bind fun s _ _ => (KeepsFrame.require _ _).bind fun _ => ?_
    exact KeepsFrame.advance fun t ht => ht.setRd (ht.2 ▸ ht.1.rdLen) (ht.2 ▸ ht.1.rdPos) (ht.2 ▸ ht.1.refill)
  | brRead cnt =>
    refine (Cmd.Keeps.require _ _).bind fun _ => Cmd.Keeps.look_bind fun s _ h => ?_
    have hc : cnt ≤ 32 := by simpa [cntInRange] using h.1
    refine ((rdBits_inv (min cnt s.rd.avail) 0).weaken (fun t ht => by rw [ht]; omega) fun _ _ _ _ => trivial).bind
      fun bits => ?_
    refine KeepsFrame.advance fun t ht => ⟨{ ht.1 with rcnt := ?_ }, ht.2⟩
    show (BitVec.ofNat 6 (min cnt s.rd.avail)).toNat ≤ 32
    rw [BitVec.toNat_ofNat]
    exact (Nat.mod_le _ _).trans (by omega)
  | bwInit => exact Cmd.Keeps.ofState fun s _ _ => ((wrInit_inv s.rd).weaken (fun t ht => by rw [ht]) fun _ _ _ _ => trivial)
  | bwWrite cnt => exact (KeepsFrame.require _ _).bind fun _ => Cmd.Keeps.look_bind fun _ _ _ => (wrBits_inv _).from
  | bwFill => exact fill_inv.bind fun _ => KeepsFrame.advance fun _ h => h.setResult _
  | bwFlush => exact flushPoint_inv
  | bwSeek0 => exact seek0_inv
  | bwRaw => exact Cmd.Keeps.look_bind fun _ _ _ => (KeepsFrame.require _ _).bind fun _ => rawByte_inv _
  | egEnc => exact Cmd.Keeps.look_bind fun _ _ _ => (wrBits_inv _).from
  | egDec => exact rdEG_inv.bind fun _ => KeepsFrame.advance fun _ h => h.setResult _
  | lzComp => exact lzCompBody_inv
  | lzDec => exact lzDecBody_inv
  | sfComp => exact sfCompBody_inv
  | sfDec => exact sfDecBody_inv

end Sys2Proof.Machine
end

