-- ==== Sys2Proof/Laws/Lzss.lean ====
section
/-! SUPPORT. The LZSS engine: what a match is, the encoder's records replayed (42_lzss R225, R227, R255), and the two engine
commands as one run each (R241, R250). -/

namespace Sys2Proof.Machine

/-! ## Match finder -/

theorem matchLength_spec (hs ls : List Byte) :
    matchLength hs ls ≤ hs.length ∧ matchLength hs ls ≤ ls.length ∧
      hs.take (matchLength hs ls) = ls.take (matchLength hs ls) := by
  induction hs generalizing ls with
  | nil => simp [matchLength]
  | cons h hs ih =>
    cases ls with
    | nil => simp [matchLength]
    | cons l ls =>
      rw [matchLength]
      split
      · rename_i heq
        obtain ⟨h1, h2, h3⟩ := ih ls
        subst heq
        refine ⟨by simpa using h1, by simpa using h2, ?_⟩
        rw [List.take_succ_cons, List.take_succ_cons, h3]
      · simp

/-- `len` bytes of the window from `off` on equal the lookahead's first `len` bytes (R225). -/
def IsMatch (hist look : List Byte) (off len : Nat) : Prop :=
  off + len ≤ hist.length ∧ len ≤ look.length ∧ (hist.drop off).take len = look.take len

theorem scanMatches_isMatch (hist look : List Byte) (depth : Nat) : ∀ (hs : List Byte) (o found bo bl : Nat),
    hist.drop o = hs → IsMatch hist look bo bl →
    IsMatch hist look (scanMatches look depth hs o found bo bl).1 (scanMatches look depth hs o found bo bl).2 := by
  intro hs
  induction hs with
  | nil => exact fun _ _ _ _ _ h => h
  | cons h hs ih =>
    intro o found bo bl hd hm
    have hd' : hist.drop (o + 1) = hs := by
      rw [← List.drop_drop, hd]
      rfl
    have hlen : o + (hs.length + 1) = hist.length := by
      have := congrArg List.length hd
      rw [List.length_drop, List.length_cons] at this
      omega
    rw [scanMatches]
    split
    · have hbest : IsMatch hist look
          (if matchLength (h :: hs) look > bl then (o, matchLength (h :: hs) look) else (bo, bl)).1
          (if matchLength (h :: hs) look > bl then (o, matchLength (h :: hs) look) else (bo, bl)).2 := by
        split
        · obtain ⟨h1, h2, h3⟩ := matchLength_spec (h :: hs) look
          rw [List.length_cons] at h1
          refine ⟨by simp only; omega, h2, ?_⟩
          simp only [hd, h3]
        · exact hm
      dsimp only
      split
      · exact hbest
      · exact ih _ _ _ _ hd' hbest
    · exact ih _ _ _ _ hd' hm

theorem matchSearch_isMatch (hist look : List Byte) (depth : Nat) :
    IsMatch hist look (matchSearch hist look depth).1 (matchSearch hist look depth).2 :=
  scanMatches_isMatch hist look depth hist 0 0 0 0 rfl ⟨by simp, by simp, by simp⟩

/-! ## The encoder's records -/

theorem breakEven_pos (hb mb : Nat) : 1 ≤ breakEven hb mb := by
  rw [breakEven, ceilDiv]; omega

/-- What the record chosen at a coding position stands for (R227): the lookahead's first bytes, and for a decoder with the
same window the same bytes. -/
theorem chooseRecord_spec (m : LzMem) (hl : m.look ≠ []) :
    recordOutput m.hist (chooseRecord m) = some (m.look.take (recordSpan (chooseRecord m))) ∧
    1 ≤ recordSpan (chooseRecord m) ∧ recordSpan (chooseRecord m) ≤ m.look.length ∧
    ∀ off len, chooseRecord m = .copy off len → breakEven m.hb m.mb < len ∧ off + len ≤ m.hist.length := by
  obtain ⟨l, ls, hls⟩ := List.exists_cons_of_ne_nil hl
  obtain ⟨h1, h2, h3⟩ := matchSearch_isMatch m.hist m.look m.depth
  have hp := breakEven_pos m.hb m.mb
  rw [chooseRecord]
  split
  · refine ⟨?_, le_rfl, by simp [recordSpan, hls], fun _ _ h => by cases h⟩
    simp [recordOutput, recordSpan, hls]
  · rename_i hgt
    refine ⟨?_, by simp only [recordSpan]; omega, h2, ?_⟩
    · rw [recordOutput, if_pos h1, h3]
      rfl
    · intro off len h
      injection h with ha hb'
      subst ha
      subst hb'
      exact ⟨by omega, h1⟩

theorem lookahead_ne_nil {src : List Byte} {mb pos : Nat} (hm : 1 ≤ mb) (hp : pos < src.length) :
    lookahead src mb pos ≠ [] := by
  have h2 : 2 ≤ 2 ^ mb := by
    calc 2 = 2 ^ 1 := rfl
      _ ≤ 2 ^ mb := Nat.pow_le_pow_right (by omega) hm
  intro h
  have := congrArg List.length h
  rw [lookahead, List.length_take, List.length_drop, List.length_nil] at this
  omega

theorem lookahead_length (src : List Byte) (mb pos : Nat) :
    (lookahead src mb pos).length = min (2 ^ mb - 1) (src.length - pos) := by
  rw [lookahead, List.length_take, List.length_drop]
  omega

theorem lookahead_take {src : List Byte} {mb pos n : Nat} (h : n ≤ (lookahead src mb pos).length) :
    (lookahead src mb pos).take n ++ src.drop (pos + n) = src.drop pos := by
  rw [lookahead_length] at h
  rw [lookahead, List.take_take, Nat.min_eq_left h, ← List.drop_drop, List.take_append_drop]

/-- A decoder that starts with the encoder's window replays the encoder's records to the rest of the source (R255). -/
theorem lzReplay_recordsFrom (hb mb depth : Nat) (src : List Byte) (hm : 1 ≤ mb) : ∀ (fuel : Nat) (hist : List Byte)
    (pos : Nat), src.length ≤ pos + fuel →
    lzReplay hb hist (lzRecordsFrom hb mb depth src fuel hist pos) = some (src.drop pos) := by
  intro fuel
  induction fuel with
  | zero =>
    intro hist pos h
    rw [lzRecordsFrom, lzReplay, List.drop_eq_nil_of_le (by omega)]
  | succ fuel ih =>
    intro hist pos h
    rw [lzRecordsFrom]
    split
    · rename_i hp
      dsimp only
      obtain ⟨h1, h2, h3, -⟩ := chooseRecord_spec
        { hb := hb, mb := mb, depth := depth, hist := hist, pos := pos, look := lookahead src mb pos }
        (lookahead_ne_nil hm hp)
      rw [lzReplay, h1]
      dsimp only
      rw [LzMem.afterRecord]
      dsimp only
      rw [ih _ _ (by omega), Option.map_some, lookahead_take h3]
    · rw [lzReplay, List.drop_eq_nil_of_le (by omega)]

/-- Every match record of the encoder is longer than the break-even point and lies inside a window of `2^hb - 1` bytes. -/
theorem lzRecordsFrom_copy (hb mb depth : Nat) (src : List Byte) (hh : 1 ≤ hb) (hm : 1 ≤ mb) : ∀ (fuel : Nat)
    (hist : List Byte) (pos : Nat), hist.length ≤ 2 ^ hb - 1 → ∀ off len,
    LzRecord.copy off len ∈ lzRecordsFrom hb mb depth src fuel hist pos →
    breakEven hb mb < len ∧ off + len ≤ 2 ^ hb - 1 ∧ len ≤ 2 ^ mb - 1 := by
  have h2 : 2 ≤ 2 ^ hb := by
    calc 2 = 2 ^ 1 := rfl
      _ ≤ 2 ^ hb := Nat.pow_le_pow_right (by omega) hh
  intro fuel
  induction fuel with
  | zero => intro hist pos _ off len h; cases h
  | succ fuel ih =>
    intro hist pos hl off len h
    rw [lzRecordsFrom] at h
    split at h
    · rename_i hp
      dsimp only at h
      obtain ⟨h1, -, h3, h4⟩ := chooseRecord_spec
        { hb := hb, mb := mb, depth := depth, hist := hist, pos := pos, look := lookahead src mb pos }
        (lookahead_ne_nil hm hp)
      simp only at h3 h4
      generalize hr : chooseRecord
        { hb := hb, mb := mb, depth := depth, hist := hist, pos := pos, look := lookahead src mb pos } = r at *
      have hll : (lookahead src mb pos).length ≤ 2 ^ mb - 1 := by rw [lookahead_length]; omega
      have hspan : recordSpan r ≤ 2 ^ hb - 1 := by
        cases r with
        | literal b => simp only [recordSpan]; omega
        | copy off len => have := (h4 off len rfl).2; simp only [recordSpan]; omega
      rcases List.mem_cons.1 h with h | h
      · have h5 := h4 off len h.symm
        refine ⟨h5.1, by have := h5.2; omega, ?_⟩
        have : len = recordSpan r := by rw [← h]; rfl
        omega
      · refine ih _ _ ?_ off len h
        rw [LzMem.afterRecord]
        dsimp only
        rw [histAppend]
        have hlen : ((lookahead src mb pos).take (recordSpan r)).length ≤ 2 ^ hb - 1 := by
          rw [List.length_take]
          omega
        split
        · exact hlen
        · rw [List.length_append]; omega
    · cases h

/-! ## The encoder's run -/

variable {s : State} {ign : BitVec 3} {left out rest : Bits} {e : Engine}

theorem At.lzEncodeLoop (hb mb depth : Nat) (src : List Byte) : ∀ (fuel : Nat) (hist look : List Byte) (pos : Nat)
    (out : Bits) (e : Engine), e.lz = { hb := hb, mb := mb, depth := depth, hist := hist, pos := pos, look := look } →
    Room s.par ((out.length + ((lzRecordsFrom hb mb depth src fuel hist pos).flatMap (recordBits hb mb)).length) / 8) →
    Cmd.Completes (At s ign left out e) (lzEncodeLoop src fuel) (fun _ t => ∃ e',
      At s ign left (out ++ (lzRecordsFrom hb mb depth src fuel hist pos).flatMap (recordBits hb mb)) e' t) := by
  intro fuel
  induction fuel with
  | zero =>
    intro hist look pos out e _ _
    refine Cmd.Completes.pure fun t ht => ⟨e, ?_⟩
    rw [lzRecordsFrom, List.flatMap_nil, List.append_nil]
    exact ht
  | succ fuel ih =>
    intro hist look pos out e he hroom
    rw [Machine.lzEncodeLoop]
    refine At.look_bind fun t ht => ?_
    rw [ht.eng, he]
    rw [lzRecordsFrom] at hroom ⊢
    split
    · rename_i hp
      rw [if_pos hp] at hroom
      dsimp only at hroom ⊢
      let m : LzMem := { hb := hb, mb := mb, depth := depth, hist := hist, pos := pos, look := lookahead src mb pos }
      refine (At.setEng (e' := { e with lz := m }) ?_).bind fun _ => ?_
      · intro u hu
        rw [hu.eng, he, State.setLz, State.setEng, hu.eng]
        rfl
      refine At.look_bind fun u hu => ?_
      rw [hu.eng]
      dsimp only
      rw [List.flatMap_cons, List.length_append] at hroom
      refine (At.wrBits (hroom.mono (Nat.div_le_div_right (Nat.add_le_add_left (Nat.le_add_right _ _) _)))).bind fun _ => ?_
      refine (At.setEng (e' := { e with lz := m.afterRecord (chooseRecord m) }) ?_).bind fun _ => ?_
      · intro v hv
        rw [hv.eng, State.setLz, State.setEng, hv.eng]
      refine (ih _ m.look _ _ { e with lz := m.afterRecord (chooseRecord m) } rfl ?_).weaken (fun _ h => h) ?_
      · rw [List.length_append, Nat.add_assoc]
        exact hroom
      · rintro _ v ⟨e', hv⟩
        refine ⟨e', ?_⟩
        rw [List.flatMap_cons, ← List.append_assoc]
        exact hv
    · refine Cmd.Completes.pure fun u hu => ⟨e, ?_⟩
      rw [List.flatMap_nil, List.append_nil]
      exact hu

/-- LZ.COMP's pseudocode completes, and leaves the LZSS file of its source (R241). -/
theorem lzCompBody_completes (h1 : hbInRange s.par s.hbArg = true) (h2 : mbInRange s.par s.mbArg = true)
    (hr : s.canRead) (hs : s.stagedSound) (hroom : Room s.par (lzFile s.hbArg s.mbArg s.depthArg s.input).length) :
    Cmd.Completes (fun t => t = s) lzCompBody (fun _ t =>
      CompressEnd s t (lzFile s.hbArg s.mbArg s.depthArg s.input) ∧ t.er = s.er) := by
  refine Cmd.Completes.look_bind fun t ht => ?_
  subst ht
  refine Cmd.Completes.require_bind h1 ?_
  refine Cmd.Completes.require_bind h2 ?_
  refine engine_start hr hs ?_
  refine At.look_bind fun u hu => ?_
  have hbits : (bitsOf t.input).length = 8 * u.rd.len := by
    rw [hu.len, bitsOf_length, State.input, State.source]
    simp
  have hread := At.rdBits (s := t) (ign := 0#3) (rest := []) (out := []) (e := Engine.empty) (bitsOf t.input)
  rw [List.append_nil, hbits] at hread
  refine Cmd.Completes.bind' hread ?_
  rw [bytesOf_bitsOf]
  generalize hbody : lzBody t.hbArg t.mbArg (lzRecords t.hbArg t.mbArg t.depthArg t.input) = body
  have hlen : (egCode t.hbArg).length + (egCode t.mbArg).length +
      ((lzRecords t.hbArg t.mbArg t.depthArg t.input).flatMap (recordBits t.hbArg t.mbArg)).length = body.length := by
    rw [← hbody, lzBody]
    simp only [List.length_append]
  have hfile : (bytesOf (fileBits body)).length = (3 + body.length + fillCount (3 + body.length)) / 8 := by
    rw [bytesOf_length _ _ rfl, fileBits]
    simp [Nat.add_assoc]
  rw [lzFile, hbody] at hroom
  have hroom' := hroom
  rw [hfile] at hroom'
  -- the header and the records
  have henc : Cmd.Completes (At t 0#3 [] [] Engine.empty) (lzEncode t.input t.hbArg t.mbArg t.depthArg)
      (fun _ u => ∃ e', At t 0#3 [] ([false, false, false] ++ body) e' u) := by
    refine (At.wrBits (hroom'.mono (Nat.div_le_div_right (by simp; omega)))).bind fun _ => ?_
    refine (At.wrBits (hroom'.mono (Nat.div_le_div_right (by
      simp only [List.length_append, List.length_cons, List.length_nil]; omega)))).bind fun _ => ?_
    refine (At.wrBits (hroom'.mono (Nat.div_le_div_right (by
      simp only [List.length_append, List.length_cons, List.length_nil]; omega)))).bind fun _ => ?_
    refine (At.setEng (e' := { Engine.empty with lz :=
      { hb := t.hbArg, mb := t.mbArg, depth := t.depthArg, hist := [], pos := 0, look := [] } }) ?_).bind fun _ => ?_
    · intro v hv
      rw [State.setLz, State.setEng, hv.eng]
    refine (At.lzEncodeLoop t.hbArg t.mbArg t.depthArg t.input t.input.length [] [] 0 _ _ rfl
      (hroom'.mono (Nat.div_le_div_right ?_))).weaken (fun _ h => h) ?_
    · simp only [List.length_append, List.length_cons, List.length_nil]
      rw [lzRecords] at hlen
      omega
    · rintro _ v ⟨e', hv⟩
      refine ⟨e', ?_⟩
      rw [← hbody, lzBody, lzRecords]
      simpa [List.append_assoc] using hv
  refine henc.bind fun _ r hr' => ?_
  obtain ⟨e', hA⟩ := hr'
  have h5 : 5 ≤ body.length := by
    rw [← hlen, egCode_length, egCode_length]
    have hb1 : 1 ≤ t.hbArg := by simp [hbInRange] at h1; exact h1.1
    have hb2 : 1 ≤ t.mbArg := by simp [mbInRange] at h2; exact h2.1
    have l1 : 1 ≤ Nat.log2 (t.hbArg + 1) := by rw [Nat.le_log2 (by omega)]; omega
    have l2 : 1 ≤ Nat.log2 (t.mbArg + 1) := by rw [Nat.le_log2 (by omega)]; omega
    omega
  have hfin := ((At.finishHeader (s := t) (ign := 0#3) (left := []) (e := e') body h5 hroom).bind
    (f := fun _ => resultIsLength >>= fun _ => leaveEngine) fun _ => Closed.finish) r hA
  obtain ⟨a, r', hrun, hE, ho, hp, hl, hpos, hign, her⟩ := hfin
  refine ⟨a, r', hrun, ?_, her⟩
  rw [lzFile, hbody]
  refine ⟨hE, ho, hp, ?_, hign⟩
  rw [hpos, Reader.logicalLen, hign, hE.2.2.2.2.1]
  simp

/-! ## The decoder's run -/

/-- One record of a file (R246). -/
theorem At.lzDecodeRecord (hb mb : Nat) (hist : List Byte) (r : LzRecord) (o : List Byte) (hfit : r.fits hb mb)
    (ho : recordOutput hist r = some o)
    (he : e.lz = { hb := hb, mb := mb, depth := 0, hist := hist, pos := 0, look := [] })
    (hroom : Room s.par ((out.length + (bitsOf o).length) / 8)) :
    Cmd.Completes (At s ign (recordBits hb mb r ++ rest) out e) lzDecodeRecord (fun _ t =>
      At s ign rest (out ++ bitsOf o)
        { e with lz := { hb := hb, mb := mb, depth := 0, hist := histAppend hb hist o, pos := 0, look := [] } } t) := by
  cases r with
  | literal b =>
    have ho' : o = [b] := by simpa [recordOutput] using ho.symm
    subst ho'
    refine Cmd.Completes.bind' (At.rdBits (rest := bitsOfByte b ++ rest) [true]) ?_
    refine At.look_bind fun t ht => ?_
    rw [ht.eng, he]
    dsimp only
    rw [if_pos rfl]
    refine (At.requireAvail (by simp)).bind fun _ => ?_
    have h8 := At.rdBits (s := s) (ign := ign) (rest := rest) (out := out) (e := e) (bitsOfByte b)
    rw [bitsOfByte_length] at h8
    refine Cmd.Completes.bind' h8 ?_
    rw [byteOf_bitsOfByte]
    have hb1 : bitsOf [b] = bitsOfByte b := by simp
    rw [hb1] at hroom ⊢
    refine (At.wrBits hroom).bind fun _ => ?_
    refine At.setEng fun u hu => ?_
    rw [State.setLz, State.setEng, hu.eng, he]
  | copy off len =>
    rw [recordOutput] at ho
    split at ho
    · rename_i hle
      injection ho with ho
      subst ho
      have hrec : recordBits hb mb (.copy off len) ++ rest = [false] ++ (nb off hb ++ (nb len mb ++ rest)) := by
        simp [recordBits]
      rw [hrec]
      refine Cmd.Completes.bind' (At.rdBits (rest := nb off hb ++ (nb len mb ++ rest)) [false]) ?_
      refine At.look_bind fun t ht => ?_
      rw [ht.eng, he]
      dsimp only
      rw [if_neg (by simp)]
      refine (At.requireAvail (by simp)).bind fun _ => ?_
      have h1 := At.rdBits (s := s) (ign := ign) (rest := nb len mb ++ rest) (out := out) (e := e) (nb off hb)
      rw [nb_length] at h1
      refine Cmd.Completes.bind' h1 ?_
      have h2 := At.rdBits (s := s) (ign := ign) (rest := rest) (out := out) (e := e) (nb len mb)
      rw [nb_length] at h2
      refine Cmd.Completes.bind' h2 ?_
      rw [val_nb, val_nb, Nat.mod_eq_of_lt hfit.1, Nat.mod_eq_of_lt hfit.2]
      refine Cmd.Completes.require_bind (by simpa using hle) ?_
      refine (At.wrBits hroom).bind fun _ => ?_
      refine At.setEng fun u hu => ?_
      rw [State.setLz, State.setEng, hu.eng, he]
    · cases ho

theorem recordBits_length_pos (hb mb : Nat) (r : LzRecord) : 1 ≤ (recordBits hb mb r).length := by
  cases r <;> simp [recordBits]

/-- The records of a file, to its end (R246). -/
theorem At.lzDecodeLoop (hb mb : Nat) : ∀ (records : List LzRecord) (fuel : Nat) (hist o : List Byte) (out : Bits)
    (e : Engine), records.length ≤ fuel → (∀ r ∈ records, r.fits hb mb) → lzReplay hb hist records = some o →
    e.lz = { hb := hb, mb := mb, depth := 0, hist := hist, pos := 0, look := [] } →
    Room s.par ((out.length + (bitsOf o).length) / 8) →
    Cmd.Completes (At s ign (records.flatMap (recordBits hb mb)) out e) (lzDecodeLoop fuel)
      (fun _ t => ∃ e', At s ign [] (out ++ bitsOf o) e' t) := by
  intro records
  induction records with
  | nil =>
    intro fuel hist o out e _ _ ho he hroom
    have ho' : o = [] := by simpa [lzReplay] using ho.symm
    subst ho'
    cases fuel with
    | zero => exact Cmd.Completes.pure fun t ht => ⟨e, by simpa using ht⟩
    | succ fuel =>
      refine At.look_bind fun t ht => ?_
      rw [ht.avail, if_neg (by simp)]
      exact Cmd.Completes.pure fun u hu => ⟨e, by simpa using hu⟩
  | cons r records ih =>
    intro fuel hist o out e hf hfit ho he hroom
    obtain ⟨fuel, rfl⟩ : ∃ k, fuel = k + 1 := ⟨fuel - 1, by simp at hf; omega⟩
    rw [lzReplay] at ho
    cases hro : recordOutput hist r with
    | none => rw [hro] at ho; cases ho
    | some t =>
      rw [hro] at ho
      dsimp only at ho
      obtain ⟨o', ho', rfl⟩ := Option.map_eq_some_iff.1 ho
      rw [bitsOf_append, List.length_append] at hroom
      refine At.look_bind fun u hu => ?_
      have hpos := recordBits_length_pos hb mb r
      rw [hu.avail, if_pos (by simp; omega), List.flatMap_cons]
      refine (At.lzDecodeRecord hb mb hist r t (hfit r (by simp)) hro he
        (hroom.mono (Nat.div_le_div_right (by omega)))).bind fun _ => ?_
      refine (ih fuel _ o' _ _ (by simpa using hf) (fun x hx => hfit x (List.mem_cons_of_mem _ hx)) ho' rfl ?_).weaken
        (fun _ h => h) ?_
      · rw [List.length_append, Nat.add_assoc]; exact hroom
      · rintro _ v ⟨e', hv⟩
        exact ⟨e', by rw [bitsOf_append, ← List.append_assoc]; exact hv⟩

theorem flatMap_length_ge {α : Type} (f : α → Bits) (h : ∀ x, 1 ≤ (f x).length) (l : List α) :
    l.length ≤ (l.flatMap f).length := by
  induction l with
  | nil => simp
  | cons x l ih =>
    have := h x
    rw [List.flatMap_cons, List.length_append, List.length_cons]
    omega

/-- LZ.DEC's pseudocode completes on every file of the grammar, and leaves what its records stand for (R250). -/
theorem lzDecBody_completes (hw : s.par.wf = true) (hb mb n : Nat) (records : List LzRecord) (pad : Bits)
    (o : List Byte) (h1 : hbInRange s.par hb = true) (h2 : mbInRange s.par mb = true) (hn : n < 8) (hp : pad.length = n)
    (hfit : ∀ r ∈ records, r.fits hb mb) (ho : lzReplay hb [] records = some o)
    (hin : bitsOf s.input = nb n 3 ++ lzBody hb mb records ++ pad) (hr : s.canRead) (hs : s.stagedSound)
    (hroom : Room s.par o.length) :
    Cmd.Completes (fun t => t = s) lzDecBody (fun _ t => DecodeEnd s t n o ∧ t.er = s.er) := by
  have hmax : s.par.hbMax ≤ 24 ∧ s.par.mbMax ≤ 24 := by
    simp [Params.wf] at hw
    omega
  have hb1 : hb ≤ s.par.hbMax := by simp [hbInRange] at h1; omega
  have hb2 : mb ≤ s.par.mbMax := by simp [mbInRange] at h2; omega
  refine engine_start hr hs ?_
  rw [hin]
  refine (At.rdPadHeader n hn _ pad hp).bind fun _ => ?_
  rw [lzBody, List.append_assoc]
  have hhead : Cmd.Completes
      (At s (BitVec.ofNat 3 n) (egCode hb ++ (egCode mb ++ records.flatMap (recordBits hb mb))) [] Engine.empty)
      lzReadHeader (fun v t => v = (hb, mb) ∧
        At s (BitVec.ofNat 3 n) (records.flatMap (recordBits hb mb)) [] Engine.empty t) := by
    refine Cmd.Completes.bind' (At.rdEG hb (by omega)) ?_
    refine Cmd.Completes.bind' (At.rdEG mb (by omega)) ?_
    refine At.look_bind fun t ht => ?_
    rw [ht.par]
    refine Cmd.Completes.require_bind h1 ?_
    refine Cmd.Completes.require_bind h2 ?_
    exact Cmd.Completes.pure fun u hu => ⟨rfl, hu⟩
  refine Cmd.Completes.bind' hhead ?_
  have hdec : Cmd.Completes (At s (BitVec.ofNat 3 n) (records.flatMap (recordBits hb mb)) [] Engine.empty)
      (lzDecode hb mb) (fun _ t => ∃ e', At s (BitVec.ofNat 3 n) [] (bitsOf o) e' t) := by
    refine (At.setEng (e' := { Engine.empty with lz :=
      { hb := hb, mb := mb, depth := 0, hist := [], pos := 0, look := [] } }) ?_).bind fun _ => ?_
    · intro v hv
      rw [State.setLz, State.setEng, hv.eng]
    refine At.look_bind fun t ht => ?_
    rw [ht.avail]
    exact (At.lzDecodeLoop hb mb records _ [] o [] _ (flatMap_length_ge _ (recordBits_length_pos hb mb) _) hfit ho rfl
      (by simpa using hroom)).weaken (fun _ h => h) fun _ t h => by simpa using h
  refine hdec.bind fun _ r hr' => ?_
  obtain ⟨e', hA⟩ := hr'
  have hfin := ((At.flushPoint (s := s) (ign := BitVec.ofNat 3 n) (left := []) (e := e') (out := bitsOf o) (by simp)).bind
    (f := fun _ => resultIsLength >>= fun _ => leaveEngine) fun _ => Closed.finish) r hA
  obtain ⟨a, r', hrun, hE, hout, hpos', hl, hpos, hign, her⟩ := hfin
  rw [bytesOf_bitsOf] at hout hl
  have hlen : (bitsOf o).length / 8 = o.length := by simp
  refine ⟨a, r', hrun, ⟨hE, hout, ?_, ?_, hign⟩, her⟩
  · rw [hpos', hl, hlen]
  · rw [hpos, Reader.logicalLen, hign, hE.2.2.2.2.1, BitVec.toNat_ofNat, Nat.mod_eq_of_lt (by omega)]

end Sys2Proof.Machine
end

