-- ==== Sys2Proof/Laws/PerInstr.lean ====
section
/-! SUPPORT. The fields of each command's word (30_encoding R100, R101, R105), one lemma for each constructor of Instr. -/

namespace Sys2Proof.Laws

open Sys2Proof

/-- The word a well-formed command encodes to has its OP, its CNT and RSV = 0, and OP names the command. -/
def EncodeFields.Statement (i : Instr) : Prop :=
  i.wf = true →
    opField (encode i) = opcode i ∧ (cntField (encode i)).toNat = cntOf i ∧ rsvField (encode i) = 0#18 ∧
      instrOfOp (opcode i) (cntOf i) = some i

/-- The fields of a word built from its parts. -/
theorem fields_of_parts (op : BitVec 8) (cnt : BitVec 6) :
    opField ((0#18 ++ cnt) ++ op) = op ∧ cntField ((0#18 ++ cnt) ++ op) = cnt ∧ rsvField ((0#18 ++ cnt) ++ op) = 0#18 := by
  refine ⟨?_, ?_, ?_⟩ <;> apply BitVec.eq_of_getLsbD_eq <;> intro i hi <;>
    simp only [opField, cntField, rsvField, BitVec.getLsbD_extractLsb', BitVec.getLsbD_append, BitVec.getLsbD_zero] <;>
    simp [hi]
  rw [if_neg (by omega)]
  intro h
  omega

theorem EncodeFields.nop : Statement .nop := fun _ => by decide
theorem EncodeFields.clr : Statement .clr := fun _ => by decide
theorem EncodeFields.srst : Statement .srst := fun _ => by decide
theorem EncodeFields.brInit : Statement .brInit := fun _ => by decide
theorem EncodeFields.brIgn : Statement .brIgn := fun _ => by decide
theorem EncodeFields.brRead (cnt : Nat) : Statement (.brRead cnt) := by
  intro h
  have hc : cnt < 64 := by simpa [Instr.wf] using h
  obtain ⟨h1, h2, h3⟩ := fields_of_parts 0x12#8 (BitVec.ofNat 6 cnt)
  refine ⟨h1, ?_, h3, rfl⟩
  show (cntField ((0#18 ++ BitVec.ofNat 6 cnt) ++ 0x12#8)).toNat = cnt
  rw [h2, BitVec.toNat_ofNat]
  omega
theorem EncodeFields.bwInit : Statement .bwInit := fun _ => by decide
theorem EncodeFields.bwWrite (cnt : Nat) : Statement (.bwWrite cnt) := by
  intro h
  have hc : cnt < 64 := by simpa [Instr.wf] using h
  obtain ⟨h1, h2, h3⟩ := fields_of_parts 0x21#8 (BitVec.ofNat 6 cnt)
  refine ⟨h1, ?_, h3, rfl⟩
  show (cntField ((0#18 ++ BitVec.ofNat 6 cnt) ++ 0x21#8)).toNat = cnt
  rw [h2, BitVec.toNat_ofNat]
  omega
theorem EncodeFields.bwFill : Statement .bwFill := fun _ => by decide
theorem EncodeFields.bwFlush : Statement .bwFlush := fun _ => by decide
theorem EncodeFields.bwSeek0 : Statement .bwSeek0 := fun _ => by decide
theorem EncodeFields.bwRaw : Statement .bwRaw := fun _ => by decide
theorem EncodeFields.egEnc : Statement .egEnc := fun _ => by decide
theorem EncodeFields.egDec : Statement .egDec := fun _ => by decide
theorem EncodeFields.lzComp : Statement .lzComp := fun _ => by decide
theorem EncodeFields.lzDec : Statement .lzDec := fun _ => by decide
theorem EncodeFields.sfComp : Statement .sfComp := fun _ => by decide
theorem EncodeFields.sfDec : Statement .sfDec := fun _ => by decide

end Sys2Proof.Laws
end

