-- ==== Sys2Proof/Laws/ShannonFano.lean ====
section
/-! SUPPORT. The Shannon-Fano engine's two commands as one run each (43_shannon_fano R291, R300). -/

namespace Sys2Proof.Machine

variable {s : State} {ign : BitVec 3} {left out rest : Bits} {e : Engine}

/-! ## Words -/

/-- The next Word of a bit list, completed with zeros (R271). -/
def nextWord (wl : Nat) (left : Bits) : Nat :=
  val (left.take wl ++ List.replicate (wl - (left.take wl).length) false)

/-- `ReadWord()` in a running engine command (R271). -/
theorem At.readWord (wl : Nat) : Cmd.Completes (At s ign left out e) (readWord wl)
    (fun w t => w = nextWord wl left ∧ At s ign (left.drop wl) out e t) := by
  refine At.look_bind fun t ht => ?_
  rw [ht.avail]
  have hmin : (left.take wl).length = min wl left.length := List.length_take
  have h := At.rdBits (s := s) (ign := ign) (rest := left.drop wl) (out := out) (e := e) (left.take wl)
  rw [List.take_append_drop, hmin] at h
  refine Cmd.Completes.bind' h ?_
  exact Cmd.Completes.pure fun u hu => ⟨by rw [nextWord, hmin], hu⟩

theorem wordsOf_succ (wl n : Nat) (left : Bits) :
    wordsOf wl (n + 1) left = nextWord wl left :: wordsOf wl n (left.drop wl) := rfl

/-- The frequency pass (R272). -/
theorem At.countPass (wl : Nat) : ∀ (n : Nat) (left : Bits) (e : Engine),
    Cmd.Completes (At s ign left out e) (countPass wl n) (fun _ t => ∃ left',
      At s ign left' out { e with sf := { e.sf with freq := (wordsOf wl n left).foldl countWord e.sf.freq } } t) := by
  intro n
  induction n with
  | zero => exact fun left e => Cmd.Completes.pure fun t ht => ⟨left, ht⟩
  | succ n ih =>
    intro left e
    refine Cmd.Completes.bind' (At.readWord wl) ?_
    refine (At.setEng (e' := { e with sf := { e.sf with freq := countWord e.sf.freq (nextWord wl left) } }) ?_).bind
      fun _ => ?_
    · intro t ht
      rw [State.setSf, State.setEng, ht.eng]
    refine (ih _ _).weaken (fun _ h => h) ?_
    rintro _ t ⟨left', ht⟩
    exact ⟨left', ht⟩

/-- `RdRewind` of an engine command whose ignore count is 0: the whole source is left again (R286). -/
theorem At.rdRewind : Cmd.Completes (At s 0#3 left out e) rdRewind (fun _ t => At s 0#3 (bitsOf s.input) out e t) := by
  intro r h
  refine ⟨(), _, rfl, ?_⟩
  have hign : r.st.rd.ign = 0#3 := h.isIgn
  have hsrc : r.st.source s.srcLen.toNat = s.input := by
    rw [State.input, State.source, State.source]
    refine List.map_congr_left fun a _ => ?_
    rw [State.srcByte, h.frame]
    rfl
  refine ⟨?_, h.len, h.isIgn, h.sound, fun a v hv => ?_, ?_, ?_, h.isOut⟩
  · show r.st.setRd _ = _
    conv_lhs => rw [h.frame]
    rfl
  · refine h.steady a v ?_
    simp only [State.candidates, List.mem_append] at hv ⊢
    rcases hv with (hv | hv) | hv
    · simp [Reader.buffered] at hv
    · exact .inl (.inr hv)
    · exact .inr hv
  · show List.drop 0 (List.take (8 * r.st.rd.len - r.st.rd.ign.toNat) (bitsOf (r.st.source r.st.rd.len))) = _
    rw [hign, h.len, hsrc]
    simp [State.input, State.source]
  · show 0 + (bitsOf s.input).length = 8 * r.st.rd.len - r.st.rd.ign.toNat
    rw [hign, h.len]
    simp [State.input, State.source]

/-- The code pass (R280). -/
theorem At.codePass (wl : Nat) : ∀ (n : Nat) (left out : Bits),
    Room s.par ((out.length + ((wordsOf wl n left).flatMap (codeOf e.sf.code)).length) / 8) →
    Cmd.Completes (At s ign left out e) (codePass wl n) (fun _ t =>
      At s ign (left.drop (wl * n)) (out ++ (wordsOf wl n left).flatMap (codeOf e.sf.code)) e t) := by
  intro n
  induction n with
  | zero =>
    intro left out _
    refine Cmd.Completes.pure fun t ht => ?_
    simpa [wordsOf] using ht
  | succ n ih =>
    intro left out hroom
    rw [wordsOf_succ, List.flatMap_cons, List.length_append] at hroom
    refine Cmd.Completes.bind' (At.readWord wl) ?_
    refine At.look_bind fun t ht => ?_
    rw [ht.eng]
    refine (At.wrBits (hroom.mono (Nat.div_le_div_right (by omega)))).bind fun _ => ?_
    refine (ih _ _ (by rw [List.length_append, Nat.add_assoc]; exact hroom)).weaken (fun _ h => h) fun _ u hu => ?_
    rw [wordsOf_succ, List.flatMap_cons, ← List.append_assoc, Nat.mul_succ, Nat.add_comm (wl * n), ← List.drop_drop]
    exact hu

theorem wordCount_covers (len wl : Nat) (h : 1 ≤ wl) : 8 * len ≤ wl * wordCount len wl := by
  rw [wordCount, ceilDiv]
  have h1 := Nat.div_add_mod (8 * len + wl - 1) wl
  have h2 := Nat.mod_lt (8 * len + wl - 1) (show 0 < wl by omega)
  omega

theorem PTree.insert_ne_none (w : Nat) (bits : Bits) (t : PTree) : PTree.insert w bits t ≠ .none := by
  cases bits with
  | nil => simp [PTree.insert]
  | cons b bits => cases t <;> cases b <;> simp [PTree.insert]

theorem treeFromCodes_ne_none (code : List (Nat × Bits)) (order : List Nat) : treeFromCodes code order ≠ .none := by
  rw [treeFromCodes]
  suffices h : ∀ t : PTree, t ≠ .none → order.foldl (fun t w => PTree.insert w (codeOf code w) t) t ≠ .none from
    h _ (by simp)
  induction order with
  | nil => exact fun t h => h
  | cons w order ih => exact fun t _ => ih _ (PTree.insert_ne_none _ _ _)

theorem serTree_length_pos (wl : Nat) (order : List Nat) (t : PTree) (h : t ≠ .none) :
    1 ≤ (serTree wl order t).length := by
  rw [serTree.eq_def]
  split
  · simp
  · simp
  · cases t with
    | none => exact absurd rfl h
    | leaf w => simp [serNode]
    | node c0 c1 => simp [serNode]

/-- SF.COMP's pseudocode completes, and leaves the Shannon-Fano file of its source (R291). -/
theorem sfCompBody_completes (h1 : wlInRange s.par s.wlArg = true) (hr : s.canRead) (hs : s.stagedSound)
    (hroom : Room s.par (sfFile s.wlArg s.input).length) :
    Cmd.Completes (fun t => t = s) sfCompBody (fun _ t => CompressEnd s t (sfFile s.wlArg s.input) ∧ t.er = s.er) := by
  refine Cmd.Completes.look_bind fun t ht => ?_
  subst ht
  have hwl : 1 ≤ t.wlArg := by simp [wlInRange] at h1; exact h1.1
  refine Cmd.Completes.require_bind h1 ?_
  refine engine_start hr hs ?_
  have hin : t.input.length = t.srcLen.toNat := by simp [State.input, State.source]
  generalize hwords : sfWords t.wlArg t.input = words
  have hwords' : wordsOf t.wlArg (wordCount t.srcLen.toNat t.wlArg) (bitsOf t.input) = words := by
    rw [← hwords, sfWords, hin]
  generalize hbody : sfBody t.wlArg t.input = body
  have hbody' : egCode (wordPad t.srcLen.toNat t.wlArg) ++ egCode t.wlArg
      ++ serTree t.wlArg (sfOrder words) (treeFromCodes (sfCodes words) (sfOrder words))
      ++ words.flatMap (codeOf (sfCodes words)) = body := by
    rw [← hbody, sfBody, hin, hwords]
  have hlen : (egCode (wordPad t.srcLen.toNat t.wlArg)).length + (egCode t.wlArg).length +
      (serTree t.wlArg (sfOrder words) (treeFromCodes (sfCodes words) (sfOrder words))).length +
      (words.flatMap (codeOf (sfCodes words))).length = body.length := by
    rw [← hbody']
    simp only [List.length_append]
  have hfile : (bytesOf (fileBits body)).length = (3 + body.length + fillCount (3 + body.length)) / 8 := by
    rw [bytesOf_length _ _ rfl, fileBits]
    simp [Nat.add_assoc]
  rw [sfFile, hbody] at hroom
  have hroom' := hroom
  rw [hfile] at hroom'
  have henc : Cmd.Completes (At t 0#3 (bitsOf t.input) [] Engine.empty) (sfEncode t.wlArg)
      (fun _ u => ∃ e', At t 0#3 [] ([false, false, false] ++ body) e' u) := by
    refine At.look_bind fun u hu => ?_
    rw [hu.len]
    refine (At.setEng (e' := { Engine.empty with sf :=
      { wl := t.wlArg, p := wordPad t.srcLen.toNat t.wlArg, freq := [], order := [], code := [], tree := .none,
        node := .none } }) ?_).bind fun _ => ?_
    · intro v hv
      rw [State.setSf, State.setEng, hv.eng]
    refine (At.countPass t.wlArg _ _ _).bind fun _ r hrA => ?_
    obtain ⟨left', hA⟩ := hrA
    rw [hwords'] at hA
    -- the codes and the tree
    obtain ⟨e2, hser, hcode, r2, hr2, hA2⟩ : ∃ e2 : Engine,
        serTree t.wlArg e2.sf.order e2.sf.tree =
          serTree t.wlArg (sfOrder words) (treeFromCodes (sfCodes words) (sfOrder words)) ∧
        words.flatMap (codeOf e2.sf.code) = words.flatMap (codeOf (sfCodes words)) ∧
        ∃ r2, (advance fun s => s.setSf s.eng.sf.build) r = .ok () r2 ∧ At t 0#3 left' [] e2 r2.st := by
      refine ⟨{ Engine.empty with sf := r.st.eng.sf.build }, ?_, ?_, _, rfl, ?_⟩
      · rw [hA.eng]
        simp only [SfMem.build]
        change serTree t.wlArg (SfMem.order (if sfOrder words = [] then _ else _))
          (SfMem.tree (if sfOrder words = [] then _ else _)) = _
        split
        · rename_i h0
          rw [h0]
          rfl
        · rfl
      · rw [hA.eng]
        simp only [SfMem.build]
        change words.flatMap (codeOf (SfMem.code (if sfOrder words = [] then _ else _))) = _
        split
        · rename_i h0
          rw [sfCodes, h0]
          rfl
        · rfl
      · obtain ⟨_, r3, h3, hA3⟩ := At.setEng (s := t) (e := _) (e' := { Engine.empty with sf := r.st.eng.sf.build })
          (f := fun s => s.setSf s.eng.sf.build)
          (fun v hv => by rw [State.setSf, State.setEng, hv.eng, hA.eng]) r hA
        injection h3 with _ h3
        rw [h3]
        exact hA3
    have hrest : Cmd.Completes (At t 0#3 left' [] e2)
        (wrBits [false, false, false] >>= fun _ => wrEG (wordPad t.srcLen.toNat t.wlArg) >>= fun _ =>
          wrEG t.wlArg >>= fun _ => look >>= fun s =>
          wrBits (serTree t.wlArg s.eng.sf.order s.eng.sf.tree) >>= fun _ => rdRewind >>= fun _ =>
          codePass t.wlArg (wordCount t.srcLen.toNat t.wlArg))
        (fun _ u => ∃ e', At t 0#3 [] ([false, false, false] ++ body) e' u) := by
      refine (At.wrBits (hroom'.mono (Nat.div_le_div_right (by simp; omega)))).bind fun _ => ?_
      refine (At.wrBits (hroom'.mono (Nat.div_le_div_right (by
        simp only [List.length_append, List.length_cons, List.length_nil]; omega)))).bind fun _ => ?_
      refine (At.wrBits (hroom'.mono (Nat.div_le_div_right (by
        simp only [List.length_append, List.length_cons, List.length_nil]; omega)))).bind fun _ => ?_
      refine At.look_bind fun v hv => ?_
      rw [hv.eng, hser]
      refine (At.wrBits (hroom'.mono (Nat.div_le_div_right (by
        simp only [List.length_append, List.length_cons, List.length_nil]; omega)))).bind fun _ => ?_
      refine At.rdRewind.bind fun _ => ?_
      refine (At.codePass t.wlArg _ _ _ (hroom'.mono (Nat.div_le_div_right ?_))).weaken (fun _ h => h) fun _ v hv => ?_
      · rw [hwords', hcode]
        simp only [List.length_append, List.length_cons, List.length_nil]
        omega
      · refine ⟨e2, ?_⟩
        rw [hwords', hcode, List.drop_eq_nil_of_le (by
          rw [bitsOf_length, hin]; exact wordCount_covers _ _ hwl)] at hv
        rw [← hbody']
        simpa [List.append_assoc] using hv
    obtain ⟨a, r3, h3, hp3⟩ := hrest r2 hA2
    refine ⟨a, r3, ?_, hp3⟩
    rw [Cmd.bind_apply, hr2]
    exact h3
  refine henc.bind fun _ r hr' => ?_
  obtain ⟨e', hA⟩ := hr'
  have h5 : 5 ≤ body.length := by
    rw [← hlen, egCode_length, egCode_length]
    have l2 : 1 ≤ Nat.log2 (t.wlArg + 1) := by rw [Nat.le_log2 (by omega)]; omega
    have l3 : 1 ≤ (serTree t.wlArg (sfOrder words) (treeFromCodes (sfCodes words) (sfOrder words))).length := by
      exact serTree_length_pos _ _ _ (treeFromCodes_ne_none _ _)
    omega
  have hfin := ((At.finishHeader (s := t) (ign := 0#3) (left := []) (e := e') body h5 hroom).bind
    (f := fun _ => resultIsLength >>= fun _ => leaveEngine) fun _ => Closed.finish) r hA
  obtain ⟨a, r', hrun, hE, ho, hp, hl, hpos, hign, her⟩ := hfin
  refine ⟨a, r', hrun, ?_, her⟩
  rw [sfFile, hbody]
  refine ⟨hE, ho, hp, ?_, hign⟩
  rw [hpos, Reader.logicalLen, hign, hE.2.2.2.2.1]
  simp

/-! ## The decoder's run -/

theorem PTree.leafCount_pos {wl : Nat} {t : PTree} (h : t.full wl) : 1 ≤ t.leafCount := by
  induction t with
  | none => exact h.elim
  | leaf w => exact Nat.le_refl 1
  | node c0 c1 ih0 ih1 => exact Nat.le_trans (ih0 h.1) (Nat.le_add_right _ _)

/-- `ParseNode` reads a full tree back, whatever follows it (R277, R278). -/
theorem At.parseNode (wl : Nat) : ∀ (tree : PTree) (fuel nodes leaves : Nat) (rest : Bits), tree.full wl →
    tree.leafCount ≤ fuel → nodes + 2 * tree.leafCount ≤ 2 ^ (wl + 1) → leaves + tree.leafCount ≤ 2 ^ wl →
    Cmd.Completes (At s ign (serNode wl tree ++ rest) out e) (parseNode wl fuel (nodes, leaves))
      (fun v t => v = (tree, nodes + 2 * tree.leafCount - 1, leaves + tree.leafCount) ∧ At s ign rest out e t) := by
  intro tree
  induction tree with
  | none => exact fun fuel nodes leaves rest h => h.elim
  | leaf w =>
    intro fuel nodes leaves rest hfull hf hn hl
    obtain ⟨k, rfl⟩ : ∃ k, fuel = k + 1 := ⟨fuel - 1, by simp [PTree.leafCount] at hf; omega⟩
    simp only [PTree.leafCount] at hn hl ⊢
    rw [Machine.parseNode, serNode]
    refine (At.requireAvail (by simp)).bind fun _ => ?_
    refine Cmd.Completes.bind' (At.rdBits (rest := nb w wl ++ rest) [true]) ?_
    refine Cmd.Completes.require_bind (by simp; omega) ?_
    rw [if_pos rfl]
    refine Cmd.Completes.require_bind (by simpa using hl) ?_
    refine (At.requireAvail (by simp)).bind fun _ => ?_
    have h := At.rdBits (s := s) (ign := ign) (rest := rest) (out := out) (e := e) (nb w wl)
    rw [nb_length] at h
    refine Cmd.Completes.bind' h ?_
    refine Cmd.Completes.pure fun t ht => ⟨?_, ht⟩
    rw [val_nb, Nat.mod_eq_of_lt hfull, show nodes + 2 * 1 - 1 = nodes + 1 by omega]
  | node c0 c1 ih0 ih1 =>
    intro fuel nodes leaves rest hfull hf hn hl
    have p0 := PTree.leafCount_pos hfull.1
    have p1 := PTree.leafCount_pos hfull.2
    simp only [PTree.leafCount] at hf hn hl ⊢
    obtain ⟨k, rfl⟩ : ∃ k, fuel = k + 1 := ⟨fuel - 1, by omega⟩
    rw [Machine.parseNode, serNode]
    refine (At.requireAvail (by simp)).bind fun _ => ?_
    refine Cmd.Completes.bind' (At.rdBits (rest := serNode wl c0 ++ serNode wl c1 ++ rest) [false]) ?_
    refine Cmd.Completes.require_bind (by simp; omega) ?_
    rw [if_neg (by simp), List.append_assoc]
    refine Cmd.Completes.bind' (ih0 k (nodes + 1) leaves _ hfull.1 (by omega) (by omega) (by omega)) ?_
    refine Cmd.Completes.bind' (ih1 k _ _ rest hfull.2 (by omega) (by omega) (by omega)) ?_
    refine Cmd.Completes.pure fun t ht => ⟨?_, ht⟩
    dsimp only
    rw [show nodes + 1 + 2 * c0.leafCount - 1 + 2 * c1.leafCount - 1 = nodes + 2 * (c0.leafCount + c1.leafCount) - 1 by
      omega, Nat.add_assoc leaves]

/-- The engine memories with another current node of the code walk. -/
def Engine.withNode (e : Engine) (nd : PTree) : Engine := { e with sf := { e.sf with node := nd } }

/-- One code walk (R296). -/
theorem At.walkCode (w : Nat) : ∀ (tree : PTree) (code rest : Bits) (e : Engine), tree.wordAt code = some w →
    Cmd.Completes (At s ign (code ++ rest) out e) (walkCode tree)
      (fun v t => v = w ∧ ∃ nd, At s ign rest out (e.withNode nd) t) := by
  intro tree
  induction tree with
  | none => intro code rest e h; cases code <;> cases h
  | leaf v =>
    intro code rest e h
    cases code with
    | nil =>
      injection h with h
      subst h
      exact Cmd.Completes.pure fun t ht => ⟨rfl, e.sf.node, ht⟩
    | cons b code => cases h
  | node c0 c1 ih0 ih1 =>
    intro code rest e h
    cases code with
    | nil => cases h
    | cons b code =>
      rw [Machine.walkCode]
      refine (At.setEng (e' := e.withNode (.node c0 c1)) ?_).bind fun _ => ?_
      · intro t ht
        rw [State.setSf, State.setEng, ht.eng]
        rfl
      refine (At.requireAvail (by simp)).bind fun _ => ?_
      refine Cmd.Completes.bind' (At.rdBits (rest := code ++ rest) [b]) ?_
      rw [PTree.wordAt] at h
      cases b with
      | true => exact ih1 code rest _ h
      | false => exact ih0 code rest _ h

/-- The walks of a code stream, to its end, a Word held back (R296). -/
theorem At.decodeWalkLoop (wl : Nat) (tree : PTree) (hroot : tree.wordAt [] = none) : ∀ (codes : List Bits)
    (words : List Nat) (fuel : Nat) (pend : Option Nat) (out : Bits) (e : Engine), e.sf.tree = tree →
    codes.map tree.wordAt = words.map some → codes.length ≤ fuel →
    Room s.par ((out.length + ((pend.toList ++ words).dropLast.flatMap fun w => nb w wl).length) / 8) →
    Cmd.Completes (At s ign codes.flatten out e) (decodeWalkLoop wl fuel pend) (fun v t =>
      v = (pend.toList ++ words).getLast? ∧
      ∃ e', At s ign [] (out ++ (pend.toList ++ words).dropLast.flatMap fun w => nb w wl) e' t) := by
  intro codes
  induction codes with
  | nil =>
    intro words fuel pend out e he hc hf hroom
    have hw : words = [] := by simpa using hc.symm
    subst hw
    have hend : ∀ t, At s ign [] out e t → pend = (pend.toList ++ []).getLast? ∧
        ∃ e', At s ign [] (out ++ (pend.toList ++ []).dropLast.flatMap fun w => nb w wl) e' t := by
      intro t ht
      cases pend with
      | none => exact ⟨rfl, e, by simpa using ht⟩
      | some w => exact ⟨rfl, e, by simpa using ht⟩
    cases fuel with
    | zero => exact Cmd.Completes.pure hend
    | succ fuel =>
      refine At.look_bind fun t ht => ?_
      rw [ht.avail, if_neg (by simp)]
      exact Cmd.Completes.pure hend
  | cons code codes ih =>
    intro words fuel pend out e he hc hf hroom
    cases words with
    | nil => cases hc
    | cons w words =>
      rw [List.map_cons, List.map_cons] at hc
      obtain ⟨h1, h2⟩ := List.cons.inj hc
      obtain ⟨fuel, rfl⟩ : ∃ k, fuel = k + 1 := ⟨fuel - 1, by simp at hf; omega⟩
      have hne : code ≠ [] := by rintro rfl; rw [hroot] at h1; cases h1
      have hpos := List.length_pos_iff.2 hne
      refine At.look_bind fun t ht => ?_
      rw [ht.avail, if_pos (by simp; omega), ht.eng, he, List.flatten_cons]
      refine (At.walkCode w tree code codes.flatten e h1).bind fun v r hv => ?_
      obtain ⟨rfl, nd, hA⟩ := hv
      have hcons : (pend.toList ++ v :: words).dropLast = pend.toList ++ (v :: words).dropLast := by
        rw [List.dropLast_append_of_ne_nil (by simp)]
      rw [hcons, List.flatMap_append, List.length_append] at hroom
      have hemit : Cmd.Completes (At s ign codes.flatten out (e.withNode nd)) (emitPending wl pend)
          (fun _ t => At s ign codes.flatten (out ++ pend.toList.flatMap fun w => nb w wl) (e.withNode nd) t) := by
        cases pend with
        | none => exact Cmd.Completes.pure fun t ht => by simpa using ht
        | some u =>
          have := At.wrBits (s := s) (ign := ign) (left := codes.flatten) (out := out) (more := nb u wl)
            (e := e.withNode nd) (hroom.mono (Nat.div_le_div_right (by simp)))
          rw [Option.toList_some, List.flatMap_singleton]
          exact this
      refine (hemit.bind (f := fun _ => Machine.decodeWalkLoop wl fuel (some v)) (post := fun x t =>
        x = (pend.toList ++ v :: words).getLast? ∧
        ∃ e', At s ign [] (out ++ (pend.toList ++ v :: words).dropLast.flatMap fun w => nb w wl) e' t) fun _ => ?_) r hA
      refine (ih words fuel (some v) _ (e.withNode nd) he h2 (by simpa using hf) ?_).weaken (fun _ h => h) ?_
      · rw [List.length_append, Nat.add_assoc]
        exact hroom
      · rintro x t ⟨hx, e', ht⟩
        refine ⟨?_, e', ?_⟩
        · rw [hx, show (some v).toList ++ words = v :: words from rfl, List.getLast?_append_of_ne_nil pend.toList (by simp)]
        · rw [hcons, List.flatMap_append, ← List.append_assoc]
          exact ht

theorem length_le_flatten (codes : List Bits) (h : ∀ c ∈ codes, 1 ≤ c.length) : codes.length ≤ codes.flatten.length := by
  induction codes with
  | nil => simp
  | cons c codes ih =>
    have h1 := h c (by simp)
    have h2 := ih fun x hx => h x (List.mem_cons_of_mem _ hx)
    rw [List.flatten_cons, List.length_append, List.length_cons]
    omega

theorem flatMap_nb_length (wl : Nat) (words : List Nat) : (words.flatMap fun w => nb w wl).length = wl * words.length := by
  induction words with
  | nil => rfl
  | cons w words ih =>
    rw [List.flatMap_cons, List.length_append, nb_length, ih, List.length_cons, Nat.mul_succ, Nat.add_comm]

theorem strippedBits_append (wl p w : Nat) (init : List Nat) (hp : p < wl) :
    strippedBits wl p (init ++ [w]) = (init.flatMap fun w => nb w wl) ++ (nb w wl).take (wl - p) := by
  rw [strippedBits, List.flatMap_append, List.flatMap_singleton, List.length_append, List.length_singleton,
    Nat.mul_succ, List.take_append, flatMap_nb_length, List.take_of_length_le (by rw [flatMap_nb_length]; omega),
    show wl * init.length + wl - p - wl * init.length = wl - p by omega]

theorem normalize_root (t : PTree) : (Machine.normalize t).wordAt [] = none := by
  cases t <;> rfl

/-- SF.DEC's pseudocode completes on every file of the grammar, and leaves the decoded bits with the word pad stripped
(R300). -/
theorem sfDecBody_completes (hw : s.par.wf = true) (n p wl : Nat) (tree : PTree) (codes : List Bits) (words : List Nat)
    (pad : Bits) (h1 : wlInRange s.par wl = true) (hpw : p < wl) (hn : n < 8) (hp : pad.length = n)
    (hfull : tree.full wl) (hleaf : tree.leafCount ≤ 2 ^ wl)
    (hcodes : codes.map (Machine.normalize tree).wordAt = words.map some)
    (hin : bitsOf s.input = nb n 3 ++ egCode p ++ egCode wl ++ serNode wl tree ++ codes.flatten ++ pad)
    (hnone : words = [] → p = 0) (hmod : (wl * words.length - p) % 8 = 0)
    (hr : s.canRead) (hs : s.stagedSound) (hroom : Room s.par ((wl * words.length - p) / 8)) :
    Cmd.Completes (fun t => t = s) sfDecBody
      (fun _ t => DecodeEnd s t n (bytesOf (strippedBits wl p words)) ∧ t.er = s.er) := by
  have hmax : s.par.wlMax ≤ 24 := by
    simp [Params.wf] at hw
    omega
  have hwl : wl ≤ s.par.wlMax := by simp [wlInRange] at h1; omega
  have hslen : (strippedBits wl p words).length = wl * words.length - p := by
    rw [strippedBits, List.length_take, flatMap_nb_length]
    omega
  refine engine_start hr hs ?_
  rw [hin]
  refine (At.rdPadHeader (s := s) (out := []) (e := Engine.empty) n hn
    (egCode p ++ (egCode wl ++ (serNode wl tree ++ codes.flatten))) pad hp).weaken
      (fun t ht => by simpa [List.append_assoc] using ht) (fun _ _ h => h) |>.bind fun _ => ?_
  have hhead : Cmd.Completes
      (At s (BitVec.ofNat 3 n) (egCode p ++ (egCode wl ++ (serNode wl tree ++ codes.flatten))) [] Engine.empty)
      sfReadHeader (fun v t => v = (p, wl) ∧
        At s (BitVec.ofNat 3 n) (serNode wl tree ++ codes.flatten) [] Engine.empty t) := by
    refine Cmd.Completes.bind' (At.rdEG p (by omega)) ?_
    refine Cmd.Completes.bind' (At.rdEG wl (by omega)) ?_
    refine At.look_bind fun t ht => ?_
    rw [ht.par]
    refine Cmd.Completes.require_bind h1 ?_
    refine Cmd.Completes.require_bind (by simpa using hpw) ?_
    exact Cmd.Completes.pure fun u hu => ⟨rfl, hu⟩
  refine Cmd.Completes.bind' hhead ?_
  dsimp only
  generalize he1 : ({ Engine.empty with sf := { Engine.empty.sf with p := p, wl := wl } } : Engine) = e1
  refine (At.setEng (e' := e1) ?_).bind fun _ => ?_
  · intro t ht
    rw [State.setSf, State.setEng, ht.eng, ← he1]
  have hfuel : tree.leafCount ≤ 2 ^ (wl + 1) := by rw [pow_succ]; omega
  have hparse : Cmd.Completes (At s (BitVec.ofNat 3 n) (serNode wl tree ++ codes.flatten) [] e1) (parseTree wl)
      (fun _ t => At s (BitVec.ofNat 3 n) codes.flatten []
        { e1 with sf := { e1.sf with tree := Machine.normalize tree } } t) := by
    refine Cmd.Completes.bind' (At.parseNode wl tree _ 0 0 _ hfull hfuel (by rw [pow_succ]; omega) (by omega)) ?_
    refine At.setEng fun t ht => ?_
    rw [State.setSf, State.setEng, ht.eng]
  refine hparse.bind fun _ => ?_
  have hcl : codes.length = words.length := by simpa using congrArg List.length hcodes
  have hdrop : (words.dropLast.flatMap fun w => nb w wl).length ≤ wl * words.length - p := by
    rw [flatMap_nb_length, List.length_dropLast]
    rcases Nat.eq_zero_or_pos words.length with h0 | h0
    · simp [h0]
    · obtain ⟨k, hk⟩ : ∃ k, words.length = k + 1 := ⟨words.length - 1, by omega⟩
      rw [hk, Nat.mul_succ, Nat.add_sub_cancel]
      omega
  have hwalk : Cmd.Completes (At s (BitVec.ofNat 3 n) codes.flatten []
        { e1 with sf := { e1.sf with tree := Machine.normalize tree } }) (decodeWalk wl)
      (fun v t => v = words.getLast? ∧ ∃ e', At s (BitVec.ofNat 3 n) [] (words.dropLast.flatMap fun w => nb w wl) e' t) := by
    refine At.look_bind fun t ht => ?_
    rw [ht.avail]
    have hf : codes.length ≤ codes.flatten.length := by
      have : ∀ c ∈ codes, 1 ≤ c.length := by
        intro c hc
        rcases Nat.eq_zero_or_pos c.length with h0 | h0
        · rw [List.length_eq_zero_iff] at h0
          subst h0
          have : (Machine.normalize tree).wordAt [] ∈ words.map some := by
            rw [← hcodes]
            exact List.mem_map_of_mem hc
          rw [normalize_root] at this
          simp at this
        · exact h0
      exact length_le_flatten codes this
    have h := At.decodeWalkLoop (s := s) (ign := BitVec.ofNat 3 n) wl (Machine.normalize tree) (normalize_root tree)
      codes words codes.flatten.length none []
      { e1 with sf := { e1.sf with tree := Machine.normalize tree } } rfl hcodes hf
      (hroom.mono (Nat.div_le_div_right (by simpa using hdrop)))
    simpa using h
  refine hwalk.bind fun v r hv => ?_
  obtain ⟨rfl, e2, hA⟩ := hv
  have hstrip : Cmd.Completes (At s (BitVec.ofNat 3 n) [] (words.dropLast.flatMap fun w => nb w wl) e2)
      (stripPad p wl words.getLast?)
      (fun _ t => At s (BitVec.ofNat 3 n) [] (strippedBits wl p words) e2 t) := by
    have hfin : ∀ t, At s (BitVec.ofNat 3 n) [] (strippedBits wl p words) e2 t → t.wr.frac.isEmpty = true := by
      intro t ht
      have h0 : t.wr.frac.length = 0 := by rw [ht.isOut.1, tailBits_length, hslen, hmod]
      rw [List.length_eq_zero_iff] at h0
      rw [h0]
      rfl
    have htail : Cmd.Completes (At s (BitVec.ofNat 3 n) [] (strippedBits wl p words) e2)
        (look >>= fun s => require s.wr.frac.isEmpty .outMisaligned)
        (fun _ t => At s (BitVec.ofNat 3 n) [] (strippedBits wl p words) e2 t) := by
      refine At.look_bind fun t ht => ?_
      intro r hr
      exact ⟨(), r, (require_apply _ _ _).trans (if_pos (hfin t ht)), hr⟩
    rcases List.eq_nil_or_concat words with h0 | ⟨init, w, h0⟩
    · subst h0
      refine Cmd.Completes.require_bind (by simpa using hnone rfl) ?_
      simpa [strippedBits] using htail
    · rw [List.concat_eq_append] at h0
      rw [h0] at hroom hslen ⊢
      rw [h0] at htail
      rw [List.getLast?_append_of_ne_nil _ (by simp), List.dropLast_append_of_ne_nil (by simp)]
      simp only [List.dropLast_singleton, List.append_nil, List.getLast?_singleton]
      have hsp := strippedBits_append wl p w init hpw
      have hwr := At.wrBits (s := s) (ign := BitVec.ofNat 3 n) (left := []) (out := init.flatMap fun w => nb w wl)
        (more := (nb w wl).take (wl - p)) (e := e2) (by
          rw [← List.length_append, ← hsp, hslen]
          exact hroom)
      rw [← hsp] at hwr
      exact hwr.bind fun _ => htail
  have hflush := At.flushPoint (s := s) (ign := BitVec.ofNat 3 n) (left := []) (e := e2) (out := strippedBits wl p words)
    (by rw [hslen]; exact hmod)
  have hend := (hstrip.bind (f := fun _ => flushPoint >>= fun _ => resultIsLength >>= fun _ => leaveEngine) fun _ =>
    hflush.bind (f := fun _ => resultIsLength >>= fun _ => leaveEngine) fun _ => Closed.finish) r hA
  obtain ⟨a, r', hrun, hE, hout, hpos', hl, hpos, hign, her⟩ := hend
  have hblen : (bytesOf (strippedBits wl p words)).length = (strippedBits wl p words).length / 8 := bytesOf_length _ _ rfl
  refine ⟨a, r', ?_, ⟨hE, hout, ?_, ?_, hign⟩, her⟩
  · exact hrun
  · rw [hpos', hl, hblen]
  · rw [hpos, Reader.logicalLen, hign, hE.2.2.2.2.1, BitVec.toNat_ofNat, Nat.mod_eq_of_lt (by omega)]

end Sys2Proof.Machine
end

