-- ==== Sys2Proof/Machine/Assembler.lean ====
section
/-! DEFINITION. The command lines and pseudo-instructions of 30_encoding R125 to R127 as the lists of host actions they
expand to (log 25). Notation for a host's program: the core sees the actions only. -/

namespace Sys2Proof.Machine

/-- A host write of a whole register (10_state R32). -/
def hostSet (offset : Nat) (v : Word) : HostAction := .regWrite offset 32 v

/-- A host write of a command's word to CMD (30_encoding R100). -/
def hostIssue (i : Instr) : HostAction := hostSet 0x04 (encode i)

/-- A command line with its operands (30_encoding R126). -/
inductive CommandLine where
  /-- a command with no register operand, `BR.READ c` among them (its CNT is in the word). -/
  | plain (i : Instr)
  /-- `BR.IGN n`. -/
  | brIgn (n : Word)
  /-- `BW.WRITE c, v`. -/
  | bwWrite (c : Nat) (v : Word)
  /-- `BW.RAW b`. -/
  | bwRaw (b : Word)
  /-- `EG.ENC n`. -/
  | egEnc (n : Word)
  /-- `LZ.COMP hb, mb, depth`. -/
  | lzComp (hb mb depth : Word)
  /-- `SF.COMP wl`. -/
  | sfComp (wl : Word)
  deriving DecidableEq, Repr

/-- Operands to ARG0, ARG1, ARG2 in order, then the word to CMD (30_encoding R126). -/
def CommandLine.actions : CommandLine → List HostAction
  | .plain i => [hostIssue i]
  | .brIgn n => [hostSet 0x08 n, hostIssue .brIgn]
  | .bwWrite c v => [hostSet 0x08 v, hostIssue (.bwWrite c)]
  | .bwRaw b => [hostSet 0x08 b, hostIssue .bwRaw]
  | .egEnc n => [hostSet 0x08 n, hostIssue .egEnc]
  | .lzComp hb mb depth => [hostSet 0x08 hb, hostSet 0x0C mb, hostSet 0x10 depth, hostIssue .lzComp]
  | .sfComp wl => [hostSet 0x08 wl, hostIssue .sfComp]

/-- `SETSRC n` (30_encoding R127). -/
def pseudoSetSrc (n : Word) : List HostAction := [hostSet 0x20 n]

/-- `BR.BIT` (R127). -/
def pseudoBrBit : List HostAction := (CommandLine.plain (.brRead 1)).actions

/-- `BR.BYTE` (R127). -/
def pseudoBrByte : List HostAction := (CommandLine.plain (.brRead 8)).actions

/-- `BW.BIT b` (R127). -/
def pseudoBwBit (b : Word) : List HostAction := (CommandLine.bwWrite 1 b).actions

/-- `BW.BYTE v` (R127). -/
def pseudoBwByte (v : Word) : List HostAction := (CommandLine.bwWrite 8 v).actions

/-- `BW.FINISH` (R127). -/
def pseudoBwFinish : List HostAction := (CommandLine.plain .bwFill).actions ++ (CommandLine.plain .bwFlush).actions

/-- `BW.PATCH0 p` (R127), `t` being what its host read of `SNK[0]` gives. -/
def pseudoBwPatch0 (p t : Word) : List HostAction :=
  (CommandLine.plain .bwSeek0).actions ++ [.snkRead 0]
    ++ (CommandLine.bwRaw ((p <<< 5) ||| (t &&& 0x1F#32))).actions

/-- `WAIT` (R127): one read of STATUS, since BUSY reads 0 (10_state R39). -/
def pseudoWait : List HostAction := [.regRead 0x14 32]

/-- `COMPRESS.LZ n, hb, mb, depth` (R127). -/
def pseudoCompressLz (n hb mb depth : Word) : List HostAction :=
  pseudoSetSrc n ++ (CommandLine.lzComp hb mb depth).actions

/-- `COMPRESS.SF n, wl` (R127). -/
def pseudoCompressSf (n wl : Word) : List HostAction := pseudoSetSrc n ++ (CommandLine.sfComp wl).actions

/-- `DECODE.LZ n` (R127). -/
def pseudoDecodeLz (n : Word) : List HostAction := pseudoSetSrc n ++ (CommandLine.plain .lzDec).actions

/-- `DECODE.SF n` (R127). -/
def pseudoDecodeSf (n : Word) : List HostAction := pseudoSetSrc n ++ (CommandLine.plain .sfDec).actions

/-- The host loads a byte sequence into SRC from index `a` on (70_reset R383, step 1). -/
def hostLoad : List Byte → Nat → List HostAction
  | [], _ => []
  | b :: rest, a => .srcWrite a b :: hostLoad rest (a + 1)

end Sys2Proof.Machine
end

