-- ==== Sys2Proof/Tests/Slice0.lean ====
section
/-! SUPPORT. Tests: ill-formed terms that WellFormed refuses, command words written out from 30_encoding R105, one-step
tests whose expected results are the vectors of 95_test_vectors (each named), and one witness for each statement with
hypotheses. -/

namespace Sys2Proof.Tests

open Sys2Proof Sys2Proof.Machine

set_option Elab.async false

/-! ## Small states -/

/-- The cells of a byte list loaded at index 0. -/
def cells (bs : List Byte) : List Host.Cell := bs.zipIdx.map fun x => (x.2, x.1)

/-- The host has loaded `bs` and announced its length. -/
def loaded (bs : List Byte) : State :=
  { State.reset with src := cells bs, srcLen := BitVec.ofNat 32 bs.length }

/-- As `loaded`, after BR.INIT. -/
def reading (bs : List Byte) : State := { loaded bs with rd := { State.reset.rd with len := bs.length } }

/-- A writer in the middle of its output: 3 bits of an incomplete byte, one byte in SNK, one staged. -/
def writing : State :=
  { State.reset with
    wr := { frac := [true, false, true], pos := 2, len := 2, total := 19#32, mark := 1, staging := [(1, 0xAB#8)],
            fresh := [(1, 1)] }
    snk := [(0, 0x11#8)] }

/-- A writer after four staged bytes. -/
def staged : State :=
  { State.reset with
    wr := { frac := [], pos := 4, len := 4, total := 32#32, mark := 0,
            staging := [(0, 0x01#8), (1, 0x02#8), (2, 0x03#8), (3, 0x04#8)], fresh := [(0, 4)] } }

/-- The host's next action. -/
def doing (act : HostAction) (s : State) : State := { s with host := [act] }

/-- `c` with `bits` more in the incomplete byte. -/
def withFrac (bits : Bits) (s : State) : State := { s with wr := { s.wr with frac := bits } }

/-! ## WellFormed: what it refuses -/

theorem test_wf_refuses_cnt_64_read : (Instr.brRead 64).wf = false := by decide
theorem test_wf_refuses_cnt_64_write : (Instr.bwWrite 64).wf = false := by decide
theorem test_wf_refuses_hbMax : ({ Params.reference with hbMax := 25 }).wf = false := by decide
theorem test_wf_refuses_mbMax : ({ Params.reference with mbMax := 0 }).wf = false := by decide
theorem test_wf_refuses_wlMax : ({ Params.reference with wlMax := 25 }).wf = false := by decide
theorem test_wf_refuses_srcMax : ({ Params.reference with srcMax := 2 ^ 28 + 1 }).wf = false := by decide
theorem test_wf_refuses_snkCap : ({ Params.reference with snkCap := 0 }).wf = false := by decide
theorem test_wf_refuses_bufBytes : ({ Params.reference with bufBytes := 0 }).wf = false := by decide
theorem test_wf_refuses_wbufBytes : ({ Params.reference with wbufBytes := 0 }).wf = false := by decide
theorem test_wf_reference : Params.reference.wf = true := by decide

/-! ## Decoding: each command's word, written from the table of 30_encoding R105 -/

theorem test_decode_nop : decode 0x00000000#32 = .ok .nop := by decide
theorem test_decode_clr : decode 0x00000001#32 = .ok .clr := by decide
theorem test_decode_srst : decode 0x00000002#32 = .ok .srst := by decide
theorem test_decode_brInit : decode 0x00000010#32 = .ok .brInit := by decide
theorem test_decode_brIgn : decode 0x00000011#32 = .ok .brIgn := by decide
theorem test_decode_brRead : decode 0x00002012#32 = .ok (.brRead 32) := by decide
theorem test_decode_bwInit : decode 0x00000020#32 = .ok .bwInit := by decide
theorem test_decode_bwWrite : decode 0x00000321#32 = .ok (.bwWrite 3) := by decide
theorem test_decode_bwFill : decode 0x00000022#32 = .ok .bwFill := by decide
theorem test_decode_bwFlush : decode 0x00000023#32 = .ok .bwFlush := by decide
theorem test_decode_bwSeek0 : decode 0x00000024#32 = .ok .bwSeek0 := by decide
theorem test_decode_bwRaw : decode 0x00000025#32 = .ok .bwRaw := by decide
theorem test_decode_egEnc : decode 0x00000030#32 = .ok .egEnc := by decide
theorem test_decode_egDec : decode 0x00000031#32 = .ok .egDec := by decide
theorem test_decode_lzComp : decode 0x00000040#32 = .ok .lzComp := by decide
theorem test_decode_lzDec : decode 0x00000041#32 = .ok .lzDec := by decide
theorem test_decode_sfComp : decode 0x00000050#32 = .ok .sfComp := by decide
theorem test_decode_sfDec : decode 0x00000051#32 = .ok .sfDec := by decide

/-- BR.READ 5, bit by bit: RSV 0, CNT 000101, OP 00010010 (30_encoding R100, R105). -/
theorem test_decode_bits : decode 0b000000000000000000_000101_00010010#32 = .ok (.brRead 5) := by decide

/-- V-SYS-5, V-SYS-6, V-SYS-7: the three illegal words. -/
theorem test_decode_badOp : decode 0x000000FF#32 = .error .badOp := by decide
theorem test_decode_rsvSet : decode 0x00004010#32 = .error .rsvSet := by decide
theorem test_decode_cntUnused : decode 0x00000110#32 = .error .cntUnused := by decide

/-- The host's numbering of a table word. -/
theorem test_decodeTableWord : decodeTableWord 32 0x2821 = some (.bwWrite 40) := by decide

/-- The next step after placing a word runs it. -/
theorem test_withFetchWord : step (State.reset.withFetchWord 32 0x00) = .next State.reset := rfl

/-! ## One step each: the vectors of 95_test_vectors -/

/-- V-SYS-1, V-SYS-2, V-SYS-3. -/
theorem test_reset_registers : State.reset.readReg 0x00 = 0x49544331#32 ∧ State.reset.readReg 0x34 = 0x00101010#32 ∧
    State.reset.readReg 0x14 = 0x00000004#32 := by decide +kernel

/-- V-SYS-5. -/
theorem test_illegal_word : (nextOf (step (doing (hostSet 0x04 0xFF#32) State.reset))).readReg 0x14 = 0x00000806#32 ∧
    (nextOf (step (doing (hostSet 0x04 0xFF#32) State.reset))).readReg 0x1C = 0x0000FF01#32 := by decide +kernel

/-- V-SYS-4. -/
theorem test_nop : exec .nop State.reset = .next State.reset := rfl

/-- V-SYS-10. -/
theorem test_clr : (nextOf (exec .clr (errorEntry .rsvSet 0x00#8 State.reset))).readReg 0x14 = 0x00000004#32 := by
  decide +kernel

/-- V-SYS-11. -/
theorem test_srst : let t := nextOf (exec .srst (nextOf (exec (.brRead 3) (reading [0x61#8]))))
    t.readReg 0x14 = 0x00000004#32 ∧ t.result = 0#32 ∧ t.rd.pos = 0 ∧ t.srcLen = 1#32 := by decide +kernel

/-- V-BR-1's BR.INIT. -/
theorem test_brInit : (nextOf (exec .brInit (loaded [0x61#8]))).readReg 0x14 = 0#32 := by decide +kernel

/-- V-BR-11. -/
theorem test_brInit_srcRange : (nextOf (exec .brInit { State.reset with srcLen := 65537#32 })).readReg 0x1C =
    0x00001007#32 := by decide +kernel

/-- V-BR-4's BR.IGN: 3 logical bits are left. -/
theorem test_brIgn : (nextOf (exec .brIgn { reading [0x61#8] with arg0 := 5#32 })).rd.avail = 3 := by decide +kernel

/-- V-BR-8. -/
theorem test_brIgn_range : (nextOf (exec .brIgn { reading [0x61#8] with arg0 := 8#32 })).readReg 0x1C = 0x00001102#32 := by
  decide +kernel

/-- V-BR-5. -/
theorem test_brRead_32 : let t := nextOf (exec (.brRead 32) (reading [0x12#8, 0x34#8, 0x56#8, 0x78#8, 0x9A#8]))
    t.result = 0x12345678#32 ∧ t.rd.pos = 32 ∧ t.readReg 0x14 = 0x00040000#32 := by decide +kernel

/-- V-BR-2. -/
theorem test_brRead_end : let t := nextOf (exec (.brRead 8) { reading [0x61#8] with
      rd := { State.reset.rd with len := 1, pos := 3 } })
    t.result = 1#32 ∧ t.rd.pos = 8 ∧ t.readReg 0x14 = 0x0000A004#32 := by decide +kernel

/-- 40_bitstream R153, 60_exceptions R346: a faulting refill of byte 1 has the old block and the emptied buffer as points, the
next byte to fetch being 1 at both. -/
theorem test_refill_fault : let s : State := { reading [0x12#8, 0x34#8] with
      rd := { State.reset.rd with len := 2, pos := 8, refill := [0x12#8] }
      par := { Params.reference with bufBytes := 1, srcFaults := [1] } }
    (runOf (fetchByte 1) s).points.map (fun u => (u.rd.refill, u.rd.nextFetch)) = [([0x12#8], 1), ([], 1)] := by decide +kernel

/-- V-BW-11: the pending bits are dropped. -/
theorem test_bwInit : (nextOf (exec .bwInit (withFrac [true, false, true] State.reset))).readReg 0x14 = 0x00000004#32 := by
  decide +kernel

/-- V-BW-2's BW.WRITE 32. -/
theorem test_bwWrite_32 : (nextOf (exec (.bwWrite 32) { State.reset with arg0 := 0xDEADBEEF#32 })).wr.staging =
    [(0, 0xDE#8), (1, 0xAD#8), (2, 0xBE#8), (3, 0xEF#8)] := by decide +kernel

/-- V-BW-13: the second byte has no room. -/
theorem test_bwWrite_full : (nextOf (exec (.bwWrite 16) { State.reset with
      arg0 := 0x1234#32, par := { Params.reference with snkCap := 1 } })).er =
    { err := true, code := .io, info := 0x2102#16 } := by decide +kernel

/-- V-BW-1's BW.FILL. -/
theorem test_bwFill : let t := nextOf (exec .bwFill (withFrac [true, false, true] State.reset))
    t.result = 5#32 ∧ t.wr.staging = [(0, 0xA0#8)] ∧ t.wr.frac = [] := by decide +kernel

/-- V-BW-2's BW.FLUSH. -/
theorem test_bwFlush : (nextOf (exec .bwFlush staged)).output = [0x01#8, 0x02#8, 0x03#8, 0x04#8] := by decide +kernel

/-- V-BW-14: byte 2 fails as the buffer is drained. -/
theorem test_bwFlush_fault : (nextOf (exec .bwFlush { staged with par := { Params.reference with snkFaults := [2] } })).er =
    { err := true, code := .io, info := 0x2303#16 } := by decide +kernel

/-- V-BW-8's BW.SEEK0. -/
theorem test_bwSeek0 : let t := nextOf (exec .bwSeek0 staged)
    t.wr.pos = 0 ∧ t.wr.len = 4 ∧ t.wr.total = 32#32 := by decide +kernel

/-- V-BW-8's BW.RAW at index 0. -/
theorem test_bwRaw : let t := nextOf (exec .bwRaw { nextOf (exec .bwSeek0 staged) with arg0 := 0x11#32 })
    t.output = [0x11#8, 0x02#8, 0x03#8, 0x04#8] ∧ t.wr.pos = 1 ∧ t.wr.total = 32#32 := by decide +kernel

/-- V-BW-7. -/
theorem test_bwRaw_unaligned : (nextOf (exec .bwRaw { withFrac [false, false, false] State.reset with arg0 := 0x11#32 })).er =
    { err := true, code := .protocol, info := 0x2501#16 } := by decide +kernel

/-- X2, X3: EG(4) and EG(99). -/
theorem test_egEnc : let t := nextOf (exec .egEnc { State.reset with arg0 := 99#32 })
    t.wr.staging = [(0, 0x03#8)] ∧ t.wr.frac = [false, false, true, false, false] ∧ t.wr.total = 13#32 := by decide +kernel

/-- V-EG-1: the longest code. -/
theorem test_egEnc_max : let t := nextOf (exec .egEnc { State.reset with arg0 := 0xFFFFFFFF#32 })
    t.wr.total = 65#32 ∧ t.wr.pos = 8 ∧ t.readReg 0x14 = 0x00000044#32 := by decide +kernel

/-- V-EG-3. -/
theorem test_egDec : let t := nextOf (exec .egDec (reading [0x03#8, 0x20#8]))
    t.result = 99#32 ∧ t.rd.pos = 13 := by decide +kernel

/-- An empty stream ends inside a code (41_elias_gamma R202). -/
theorem test_egDec_empty : (nextOf (exec .egDec (reading []))).er =
    { err := true, code := .malformed, info := 0x3101#16 } := by decide +kernel

/-- The source "abababab". -/
def abab : List Byte := [0x61#8, 0x62#8, 0x61#8, 0x62#8, 0x61#8, 0x62#8, 0x61#8, 0x62#8]

/-- The LZSS file of "abababab" for hb = mb = 3 (V-LZ-1). -/
def ababFile : List Byte := [0x64#8, 0x25#8, 0x86#8, 0xC4#8, 0x08#8, 0x20#8]

/-- A core about to compress `src` by LZSS. -/
def compressing (src : List Byte) : State := { loaded src with arg0 := 3#32, arg1 := 3#32 }

/-- P3, V-LZ-1. -/
theorem test_lzComp : let t := nextOf (exec .lzComp (compressing abab))
    t.output = ababFile ∧ t.result = 6#32 ∧ t.wr.pos = 1 ∧ t.rd.pos = 64 ∧ t.readReg 0x14 = 0x00000004#32 := by decide +kernel

/-- V-LZ-E4: hb is checked first. -/
theorem test_lzComp_hbRange : (nextOf (exec .lzComp State.reset)).readReg 0x1C = 0x00004004#32 := by decide +kernel

/-- P3, V-LD-1. -/
theorem test_lzDec : let t := nextOf (exec .lzDec (loaded ababFile))
    t.output = abab ∧ t.result = 8#32 ∧ t.wr.pos = 8 ∧ t.rd.pos = 45 ∧ t.readReg 0x14 = 0x0000001C#32 := by decide +kernel

/-- V-LD-11: a reference outside the window. -/
theorem test_lzDec_badReference : (nextOf (exec .lzDec (loaded [0x64#8, 0x25#8, 0x84#8, 0x48#8]))).er =
    { err := true, code := .malformed, info := 0x4105#16 } := by decide +kernel

/-- The Shannon-Fano file of "AAAB" for WL = 8 (V-SF-1). -/
def aaabFile : List Byte := [0xD1#8, 0x2A#8, 0x0D#8, 0x08#8, 0x40#8]

/-- P4, V-SF-1. -/
theorem test_sfComp : let t := nextOf (exec .sfComp { loaded [0x41#8, 0x41#8, 0x41#8, 0x42#8] with arg0 := 8#32 })
    t.output = aaabFile ∧ t.result = 5#32 ∧ t.wr.pos = 1 ∧ t.rd.pos = 32 := by decide +kernel

/-- V-SF-4: three Words of 3 bits, the last one completed. -/
theorem test_sfComp_pad : (nextOf (exec .sfComp { loaded [0x61#8] with arg0 := 3#32 })).output =
    [0x48#8, 0x84#8, 0x55#8, 0xC4#8] := by decide +kernel

/-- P4, V-SD-1. -/
theorem test_sfDec : let t := nextOf (exec .sfDec (loaded aaabFile))
    t.output = [0x41#8, 0x41#8, 0x41#8, 0x42#8] ∧ t.result = 4#32 ∧ t.rd.pos = 34 ∧ t.readReg 0x14 = 0x00000034#32 := by
  decide +kernel

/-- V-SD-9: the walk follows the missing child. -/
theorem test_sfDec_noChild : (nextOf (exec .sfDec (loaded [0x11#8, 0x34#8, 0x11#8]))).er =
    { err := true, code := .malformed, info := 0x5108#16 } := by decide +kernel

/-- 93 I23: a byte completed by the command the reset ends counts as stored before `snk_pos` has moved past it. -/
theorem test_resetDuring_completed : ((List.range 16).any fun k =>
    let u := stateDuring 0x0821#32 k writing
    u.wr.pos == 2 && u.unflushed 2) = true := by decide +kernel

/-- 20_memory R80: a byte stored below a `cmark` that an error left too high counts as stored since the last flush point. -/
theorem test_unflushed_below_mark : let s := { writing with wr := { writing.wr with mark := 9 } }
    (nextOf (exec (.bwWrite 5) s)).unflushed 2 = true := by decide +kernel

/-- P1 step 8 and 9 as BW.PATCH0 (30_encoding R127): the host's actions and the byte they put. -/
theorem test_bwPatch0 : pseudoBwPatch0 2#32 0x04#32 =
    [.regWrite 0x04 32 0x24#32, .snkRead 0, .regWrite 0x08 32 0x44#32, .regWrite 0x04 32 0x25#32] := by decide +kernel

/-! ## Witnesses: for each statement with hypotheses, a state and operands that meet them -/

theorem writing_inv : writing.Inv where
  params := by decide
  rdLen := by decide
  rdPos := by decide
  refill := by decide
  frac := by decide
  pos := by decide
  len := by decide
  mark := by decide
  staged := by decide
  stagedIn := by decide
  stagedOrder := by decide
  freshIn := by decide
  stagedFresh := by decide
  rcnt := by decide
  calm := fun _ => ⟨rfl, rfl⟩
  alarmed := fun h => nomatch h
  src := by decide
  snk := by decide
  draws := List.Pairwise.nil

/-- A writer at the very end of its sink, 7 bits of an incomplete byte pending (the boundary of SinkErrors). -/
def full : State :=
  { writing with
    wr := { frac := [true, false, true, false, false, true, true], pos := 131072, len := 131072, total := 1048583#32,
            mark := 131072, staging := [], fresh := [] } }

theorem full_inv : full.Inv :=
  { writing_inv with
    frac := by decide, pos := by decide, len := by decide, mark := by decide, staged := by decide, stagedIn := by decide
    stagedOrder := List.Pairwise.nil, freshIn := by decide, stagedFresh := by decide }

/-- The faults of a sink or source, everything else the reference. -/
def failing (src snk : List Nat) (s : State) : State :=
  { s with par := { Params.reference with srcFaults := src, snkFaults := snk } }

theorem canStoreFile_of {s : State} (hp : s.par = Params.reference) (hs : s.wr.staging = []) {k : Nat} (hk : k ≤ 131072) :
    s.canStoreFile k := by
  refine ⟨fun c hc => ?_, by rw [hp]; exact hk, fun a _ => by rw [hp]; rfl⟩
  rw [hs] at hc
  cases hc

theorem canStore_of {s : State} (hp : s.par = Params.reference) {k : Nat} (hk : s.wr.pos + k ≤ 131072) : s.canStore k :=
  ⟨fun c _ => by rw [hp]; rfl, by rw [hp]; exact hk, fun a _ _ => by rw [hp]; rfl⟩

theorem sound_of {s : State} (hp : s.par = Params.reference) (n : Nat) : s.sourceSound n :=
  fun a _ => by rw [hp]; rfl

theorem witness_DecodeEncodeAgree : (Instr.bwWrite 63).wf = true := by decide
theorem witness_EncodeDecodeAgree : decode 0x00003F12#32 = .ok (.brRead 63) := by decide

theorem witness_IllegalWordsInOrder : decode 0x00004003#32 = .error .badOp ∧ decode 0x80000121#32 = .error .rsvSet ∧
    decode 0x00002051#32 = .error .cntUnused := by decide

theorem witness_StepRunsDecodedCommand :
    (doing (.regWrite 0x04 32 0x2012#32) State.reset).host = [.regWrite 0x04 32 0x2012#32] ∧
    decode 0x2012#32 = .ok (.brRead 32) ∧ State.reset.er.err = false ∧
    opField 0x01#32 = 0x01#8 ∧ decode 0x01#32 = .ok .clr := by decide

theorem witness_IllegalWordEntersError :
    (doing (.regWrite 0x04 32 0x4000#32) (errorEntry .badOp 0xFF#8 State.reset)).host = [.regWrite 0x04 32 0x4000#32] ∧
    decode 0x4000#32 = .error .rsvSet ∧ opField 0x4000#32 = 0x00#8 ∧
    decode 0xFF#32 = .error .badOp ∧ decode 0x110#32 = .error .cntUnused := by decide

theorem witness_IgnoredWhileErr :
    (doing (.regWrite 0x04 32 0x821#32) (errorEntry .badOp 0xFF#8 State.reset)).er.err = true ∧
    opField 0x821#32 = 0x21#8 ∧ opField 0xFF#32 = 0xFF#8 := by decide

/-- One state for each clause: offset 0x3C read, ARG0 and the reserved offset 0x3C written, a byte write at 4 and a read at
the last offset, 63. -/
theorem witness_RegisterAccess :
    (doing (.regRead (4 * 15) 32) State.reset).host = [.regRead (4 * 15) 32] ∧
    (doing (.regWrite (4 * 2) 32 5#32) State.reset).host = [.regWrite (4 * 2) 32 5#32] ∧
    (doing (.regWrite (4 * 15) 32 5#32) State.reset).host = [.regWrite (4 * 15) 32 5#32] ∧
    (doing (.regWrite 4 8 5#32) State.reset).host = [.regWrite 4 8 5#32] ∧ (8 ≠ 32 ∨ 4 % 4 ≠ 0) ∧
    (doing (.regRead 63 32) State.reset).host = [.regRead 63 32] ∧ (32 ≠ 32 ∨ 63 % 4 ≠ 0) := by decide

theorem witness_StatusFields : full.wr.frac.length < 8 := by decide
theorem witness_ParamsFields : ({ Params.reference with hbMax := 24, mbMax := 1 }).wf = true := by decide

theorem writing_freshFromMark : writing.freshFromMark := by
  refine ⟨by decide, fun a => ?_⟩
  show covers [(1, 1)] a = true ↔ 1 ≤ a ∧ a < 2
  simp

/-- A reset between commands; during BW.WRITE 8, below `cmark`; where the word is ignored; where it is illegal. -/
theorem witness_HardwareReset : (doing .reset writing).host = [.reset] ∧ writing.unflushed 0 = false ∧
    writing.unflushed 2 = false ∧
    (doing (.resetDuring 0x0821#32 3) writing).host = [.resetDuring 0x0821#32 3] ∧ decode 0x0821#32 = .ok (.bwWrite 8) ∧
    Instr.bwWrite 8 ∉ [Instr.lzComp, .lzDec, .sfComp, .sfDec] ∧ 0 < writing.wr.mark ∧
    (errorEntry .badOp 0xFF#8 writing).er.err = true ∧ opField 0x0821#32 ≠ 0x00#8 ∧ opField 0x0821#32 ≠ 0x01#8 ∧
    opField 0x0821#32 ≠ 0x02#8 ∧ decode 0xFF#32 = .error .badOp := by decide

theorem witness_HardwareReset_inv : (doing (.resetDuring 0x0821#32 3) writing).Inv ∧
    (doing (.resetDuring 0x0821#32 3) writing).freshFromMark := ⟨{ writing_inv with }, writing_freshFromMark⟩

/-- SRC at its last index and just outside; SNK read at a flush point, below `cmark`, at `snk_pos`, at SNK_CAP; SNK written
below `cmark`, at `snk_pos`, at the byte stored since the last flush point, at SNK_CAP. -/
theorem witness_HostWindowAccess :
    (doing (.srcWrite 65535 7#8) State.reset).host = [.srcWrite 65535 7#8] ∧ 65535 < State.reset.par.srcMax ∧
    State.reset.rd.len ≤ 65535 ∧ State.reset.rd.buffered 65535 = none ∧
    (doing (.srcWrite 65536 7#8) State.reset).host = [.srcWrite 65536 7#8] ∧ State.reset.par.srcMax ≤ 65536 ∧
    (doing (.snkRead 0) writing).host = [.snkRead 0] ∧ writing.unflushed 0 = false ∧ writing.unflushed 2 = false ∧
    (State.reset.wr.mark = State.reset.wr.pos ∧ State.reset.wr.frac = [] ∧ State.reset.wr.staging = [] ∧
      State.reset.wr.fresh = []) ∧
    State.reset.par.snkCap ≤ 131072 ∧
    (doing (.snkWrite 1 7#8) writing).host = [.snkWrite 1 7#8] ∧ writing.unflushed 1 = true ∧ 1 < writing.wr.len ∧
    0 < writing.par.snkCap ∧ writing.wr.len ≤ 2 := by decide

/-- BR.IGN 8: BAD_PARAM. -/
theorem witness_PreciseErrorsChangeNothingElse : let s := { writing with arg0 := 8#32 }
    ∃ t, s.er.err = false ∧ exec .brIgn s = .next t ∧ t.er.err = true ∧ t.er.code = .badParam :=
  ⟨_, rfl, exec_next _ _, by decide +kernel, by decide +kernel⟩

/-- EG.DEC of an empty stream: MALFORMED, with an output under way. -/
theorem witness_ImpreciseErrorsKeep :
    ∃ t, writing.Inv ∧ writing.er.err = false ∧ exec .egDec writing = .next t ∧ t.er.err = true ∧
      t.er.code = .malformed ∧ Instr.egDec ∉ [Instr.bwInit, .bwSeek0, .lzComp, .lzDec, .sfComp, .sfDec] ∧
      writing.wr.mark ≤ writing.wr.pos ∧ 0 < writing.wr.mark :=
  ⟨_, writing_inv, rfl, exec_next _ _, by decide +kernel, by decide +kernel, by decide, by decide, by decide⟩

theorem witness_ReaderCommandsFrame : let s := { reading [0x03#8, 0x20#8] with arg0 := 7#32 }
    s.er.err = false ∧ (∃ t, exec .brInit s = .next t ∧ t.er.err = false) ∧
    (∃ t, exec .brIgn s = .next t ∧ t.er.err = false) ∧ (∃ t, exec .egDec s = .next t ∧ t.er.err = false) ∧
    ∃ t, exec (.brRead 32) s = .next t ∧ t.er.err = false :=
  ⟨rfl, ⟨_, exec_next _ _, by decide +kernel⟩, ⟨_, exec_next _ _, by decide +kernel⟩,
    ⟨_, exec_next _ _, by decide +kernel⟩, ⟨_, exec_next _ _, by decide +kernel⟩⟩

/-- The commands that need an aligned writer run after BW.FILL. -/
theorem witness_WriterCommandsFrame : let s := { writing with arg0 := 255#32 }
    s.er.err = false ∧ (∃ t, exec .bwInit s = .next t ∧ t.er.err = false) ∧
    (∃ t, exec (.bwWrite 32) s = .next t ∧ t.er.err = false) ∧ (∃ t, exec .egEnc s = .next t ∧ t.er.err = false) ∧
    (∃ t, exec .bwFill s = .next t ∧ t.er.err = false) ∧
    (∃ t, exec .bwFlush (withFrac [] s) = .next t ∧ t.er.err = false) ∧
    (∃ t, exec .bwSeek0 (withFrac [] s) = .next t ∧ t.er.err = false) ∧
    ∃ t, exec .bwRaw (withFrac [] s) = .next t ∧ t.er.err = false :=
  ⟨rfl, ⟨_, exec_next _ _, by decide +kernel⟩, ⟨_, exec_next _ _, by decide +kernel⟩,
    ⟨_, exec_next _ _, by decide +kernel⟩, ⟨_, exec_next _ _, by decide +kernel⟩,
    ⟨_, exec_next _ _, by decide +kernel⟩, ⟨_, exec_next _ _, by decide +kernel⟩, ⟨_, exec_next _ _, by decide +kernel⟩⟩

theorem witness_WriterCommandsFrame_inv : { writing with arg0 := 255#32 }.Inv ∧
    (withFrac [] { writing with arg0 := 255#32 }).Inv :=
  ⟨{ writing_inv with }, { writing_inv with frac := by decide }⟩

/-- The four engine commands, each over a source of its own, an output under way. -/
theorem witness_EngineCommandsFrame : let on := fun (s : State) => { s with wr := writing.wr, snk := writing.snk }
    (∃ t, exec .lzComp (on (compressing abab)) = .next t ∧ t.er.err = false) ∧
    (∃ t, exec .lzDec (on (loaded ababFile)) = .next t ∧ t.er.err = false) ∧
    (∃ t, exec .sfComp (on { loaded [0x41#8] with arg0 := 8#32 }) = .next t ∧ t.er.err = false) ∧
    ∃ t, exec .sfDec (on (loaded aaabFile)) = .next t ∧ t.er.err = false :=
  ⟨⟨_, exec_next _ _, by decide +kernel⟩, ⟨_, exec_next _ _, by decide +kernel⟩,
    ⟨_, exec_next _ _, by decide +kernel⟩, ⟨_, exec_next _ _, by decide +kernel⟩⟩

theorem witness_EngineCommandsFrame_inv (s : State) (hp : s = loaded ababFile ∨ s = loaded aaabFile ∨ s = compressing abab ∨
    s = { loaded [0x41#8] with arg0 := 8#32 }) : { s with wr := writing.wr, snk := writing.snk }.Inv := by
  rcases hp with rfl | rfl | rfl | rfl <;> exact { writing_inv with src := by decide }

theorem witness_BrInitAndBrIgn : { State.reset with srcLen := 65536#32 }.srcLen.toNat ≤ State.reset.par.srcMax ∧
    { reading [0x61#8] with arg0 := 7#32 }.arg0.toNat ≤ 7 := by decide

/-- CNT at its limit, 32, and the end of the stream within it; the buffers are empty. -/
theorem witness_BrReadReturnsBits : let s := reading [0x12#8, 0x34#8, 0x56#8]
    32 ≤ 32 ∧ s.sourceSound s.rd.len ∧ s.steady (min 32 s.rd.avail) ∧ min 32 s.rd.avail = 24 :=
  ⟨by decide, sound_of rfl _, steady_of_fresh rfl rfl _, by decide +kernel⟩

/-- The host has overwritten byte 0 under the reader. -/
theorem witness_BrReadUnderHazardCompletes :
    let s := { reading [0x12#8] with rd := { len := 1, pos := 0, ign := 0#3, refill := [], refillAt := 0,
                                             stale := [(0, 0xFF#8)] } }
    8 ≤ 32 ∧ s.sourceSound s.rd.len ∧ s.candidates 0 = [0x12#8, 0xFF#8] :=
  ⟨by decide, sound_of rfl _, by decide +kernel⟩

theorem witness_StreamsConcatenate_read : let s := reading [0x12#8, 0x34#8, 0x56#8, 0x78#8]
    ∃ t1 t2 t3, 20 + 12 ≤ 32 ∧ 20 + 12 ≤ s.rd.avail ∧ s.steady (20 + 12) ∧ s.sourceSound s.rd.len ∧
      exec (.brRead 20) s = .next t1 ∧ exec (.brRead 12) t1 = .next t2 ∧ exec (.brRead (20 + 12)) s = .next t3 :=
  ⟨_, _, _, by decide, by decide +kernel, steady_of_fresh rfl rfl _, sound_of rfl _, exec_next _ _, exec_next _ _,
    exec_next _ _⟩

theorem witness_StreamsConcatenate_write : ∃ t1 t2 t3, writing.Inv ∧ 7 + 6 ≤ 32 ∧
    writing.canStore ((writing.wr.frac.length + 7 + 6) / 8) ∧
    exec (.bwWrite 7) { writing with arg0 := 0x1ABC#32 >>> 6 } = .next t1 ∧
    exec (.bwWrite 6) { t1 with arg0 := 0x1ABC#32 } = .next t2 ∧
    exec (.bwWrite (7 + 6)) { writing with arg0 := 0x1ABC#32 } = .next t3 :=
  ⟨_, _, _, writing_inv, by decide, canStore_of rfl (by decide), exec_next _ _, exec_next _ _, exec_next _ _⟩

/-- The last byte of the block fails. -/
theorem witness_SourceFaultRaised : let s := failing [2] [] (reading [0x12#8, 0x34#8, 0x56#8])
    0 < s.rd.avail ∧ s.rd.buffered (s.rd.pos / 8) = none ∧
    (∃ a ∈ s.blockIndices (s.blockStart (s.rd.pos / 8)), srcFaultAt s.par a = true) :=
  ⟨by decide +kernel, by decide +kernel, 2, by decide +kernel, by decide +kernel⟩

theorem witness_BwInitStartsOutput : writing.stagedSound := fun _ _ => rfl

/-- CNT 32, and exactly enough room. -/
theorem witness_BwWriteAppends :
    let s := { writing with
      wr := { writing.wr with pos := 131068, len := 131068, mark := 131068, staging := [], fresh := [] } }
    s.Inv ∧ 32 ≤ 32 ∧ s.canStore ((s.wr.frac.length + 32) / 8) ∧ s.wr.pos + (s.wr.frac.length + 32) / 8 = s.par.snkCap :=
  ⟨{ writing_inv with
      pos := by decide, len := by decide, mark := by decide, staged := by decide, stagedIn := by decide
      stagedOrder := List.Pairwise.nil, freshIn := by decide, stagedFresh := by decide }, by decide, canStore_of rfl (by decide), by decide⟩

theorem witness_BwFillCompletesByte : (writing.Inv ∧ writing.canStore (if writing.wr.frac = [] then 0 else 1)) ∧
    (withFrac [] full).Inv ∧ (withFrac [] full).canStore (if (withFrac [] full).wr.frac = [] then 0 else 1) :=
  ⟨⟨writing_inv, canStore_of rfl (by decide)⟩, { full_inv with frac := by decide }, canStore_of rfl (by decide)⟩

theorem witness_BwFlushAndSeek : (withFrac [] writing).wr.frac = [] ∧ (withFrac [] writing).stagedSound :=
  ⟨rfl, fun _ _ => rfl⟩

theorem witness_BwRawStoresByte : let s := { withFrac [] writing with arg0 := 255#32 }
    s.wr.frac = [] ∧ s.arg0.toNat ≤ 255 ∧ s.canStore 1 := ⟨rfl, by decide, canStore_of rfl (by decide)⟩

theorem witness_UnalignedFlushIsProtocolError : writing.wr.frac ≠ [] ∧ writing.arg0.toNat ≤ 255 := by decide

/-- One state for each clause, at its boundary. -/
theorem witness_BadOperandsRefused :
    32 < 33 ∧ 7 < (8#32).toNat ∧ 255 < (256#32).toNat ∧ Params.reference.srcMax < (65537#32).toNat ∧
    (0#32).toNat < 1 ∧ Params.reference.hbMax < (17#32).toNat ∧ Params.reference.mbMax < (17#32).toNat ∧
    Params.reference.wlMax < (17#32).toNat ∧ 1 ≤ (16#32).toNat ∧ (16#32).toNat ≤ Params.reference.hbMax := by decide

theorem witness_SinkErrors_full : full.Inv ∧ full.par.snkCap ≤ full.wr.pos ∧ 1 ≤ 32 ∧ 8 ≤ full.wr.frac.length + 1 ∧
    full.wr.frac ≠ [] ∧ full.stagedSound ∧ (withFrac [] full).wr.frac = [] ∧ full.arg0.toNat ≤ 255 :=
  ⟨full_inv, by decide, by decide, by decide, by decide, fun _ _ => rfl, rfl, by decide⟩

theorem witness_SinkErrors_staged : let s := withFrac [] (failing [] [1] writing)
    s.Inv ∧ (∃ c ∈ s.wr.staging, snkFaultAt s.par c.1 = true) ∧ s.wr.frac = [] :=
  ⟨{ writing_inv with frac := by decide }, ⟨(1, 0xAB#8), by decide, by decide⟩, rfl⟩

/-- The failing byte joins a buffer of 64; it fills a buffer of 2. -/
theorem witness_SinkErrors_completed : let s := failing [] [2] writing
    let u := { s with par := { s.par with wbufBytes := 2 } }
    s.Inv ∧ 5 ≤ 32 ∧ s.stagedSound ∧ s.wr.pos < s.par.snkCap ∧ snkFaultAt s.par s.wr.pos = true ∧
    8 ≤ s.wr.frac.length + 5 ∧ s.wr.frac.length + 5 < 16 ∧ s.wr.staging.length + 1 < s.par.wbufBytes ∧
    u.Inv ∧ u.wr.staging.length + 1 = u.par.wbufBytes :=
  ⟨{ writing_inv with }, by decide, by intro c hc; simp [failing, writing] at hc; subst hc; rfl, by decide, by decide,
    by decide, by decide, by decide, { writing_inv with params := by decide, staged := by decide }, by decide⟩

theorem witness_WriterStaysPacked : ∃ t, writing.Inv ∧ writing.packed ∧ writing.freshFromMark ∧ writing.er.err = false ∧
    exec .bwFill writing = .next t ∧ t.er.err = false :=
  ⟨_, writing_inv, rfl, writing_freshFromMark, rfl, exec_next _ _, by decide +kernel⟩

/-- One write of a session. -/
def sessionWrite (o : Host.Outcome State Fault Refusal) (x : Nat × Word) : Host.Outcome State Fault Refusal :=
  match o with
  | .next st => exec (.bwWrite x.1) { st with arg0 := x.2 }
  | other => other

theorem sessionWrite_next (a : State) (x : Nat × Word) :
    sessionWrite (.next a) x = .next (nextOf (exec (.bwWrite x.1) { a with arg0 := x.2 })) := by
  rw [sessionWrite]
  exact exec_next _ _

/-- The state after each write of the session. -/
def sessionFirst : State := nextOf (exec (.bwWrite 3) { nextOf (exec .bwInit writing) with arg0 := 5#32 })
/-- The state after the session's second write. -/
def sessionSecond : State := nextOf (exec (.bwWrite 8) { sessionFirst with arg0 := 0x61#32 })
/-- The state after BW.FILL. -/
def sessionFilled : State := nextOf (exec .bwFill sessionSecond)
/-- The state after BW.FLUSH. -/
def sessionEnd : State := nextOf (exec .bwFlush sessionFilled)

/-- A session of two writes, 11 bits in all, and a reader over its output. -/
theorem witness_PadCountLaw : let writes : List (Nat × Word) := [(3, 5#32), (8, 0x61#32)]
    let u : State := { reading [0xAC#8, 0x20#8] with rd := { State.reset.rd with len := 2, ign := 5#3 } }
    (∀ x ∈ writes, x.1 ≤ 32) ∧ writing.canStoreFile (((writes.map (·.1)).sum + 7) / 8) ∧
      exec .bwInit writing = .next (nextOf (exec .bwInit writing)) ∧
      writes.foldl sessionWrite (.next (nextOf (exec .bwInit writing))) = .next sessionSecond ∧
      exec .bwFill sessionSecond = .next sessionFilled ∧ exec .bwFlush sessionFilled = .next sessionEnd ∧
      u.rd.len = sessionEnd.wr.len ∧ u.rd.pos = 0 ∧ u.rd.ign.toNat = sessionFilled.result.toNat ∧
      ∀ x, x < sessionEnd.wr.len → u.srcByte x = sessionEnd.snkByte x := by
  refine ⟨by decide, ⟨fun _ _ => rfl, by decide, fun _ _ => rfl⟩, exec_next _ _, ?_, exec_next _ _, exec_next _ _,
    by decide +kernel, rfl, by decide +kernel, by decide +kernel⟩
  rw [List.foldl_cons, List.foldl_cons, List.foldl_nil, sessionWrite_next, sessionWrite_next]
  rfl

theorem witness_EgEncAppendsCode : let s := { writing with arg0 := 0xFFFFFFFF#32 }
    s.Inv ∧ s.canStore ((s.wr.frac.length + (egCode s.arg0.toNat).length) / 8) :=
  ⟨{ writing_inv with }, canStore_of rfl (by decide +kernel)⟩

/-- EG(99) and 3 bits more. -/
theorem witness_EgDecReadsCode : let s := reading [0x03#8, 0x20#8]
    99 < 2 ^ 32 ∧ s.unread = egCode 99 ++ [false, false, false] ∧ s.sourceSound s.rd.len ∧ s.steady (egCode 99).length :=
  ⟨by decide, by decide +kernel, sound_of rfl _, steady_of_fresh rfl rfl _⟩

/-- A proper beginning of EG(255); 33 zeros; EG(2^32). -/
theorem witness_EgDecMalformed :
    (let s := reading [0x00#8]
     s.sourceSound s.rd.len ∧ s.steady s.rd.avail ∧ 255 < 2 ^ 32 ∧ s.unread.isPrefixOf (egCode 255) = true ∧
       s.unread ≠ egCode 255) ∧
    (let s := reading [0#8, 0#8, 0#8, 0#8, 0#8]
     s.sourceSound s.rd.len ∧ s.steady s.rd.avail ∧ (List.replicate 33 false).isPrefixOf s.unread = true) ∧
    (let s := reading [0#8, 0#8, 0#8, 0#8, 0x80#8, 0#8, 0#8, 0#8, 0xC0#8]
     s.sourceSound s.rd.len ∧ s.steady s.rd.avail ∧ 2 ^ 32 ≤ 4294967296 ∧ 4294967296 < 2 ^ 33 - 1 ∧
       (egCode 4294967296).isPrefixOf s.unread = true) :=
  ⟨⟨sound_of rfl _, steady_of_fresh rfl rfl _, by decide, by decide +kernel, by decide +kernel⟩,
    ⟨sound_of rfl _, steady_of_fresh rfl rfl _, by decide +kernel⟩,
    ⟨sound_of rfl _, steady_of_fresh rfl rfl _, by decide, by decide, by decide +kernel⟩⟩

/-- A window whose second candidate is longer than its first, searched at depth 0, 1 and 2. -/
theorem witness_MatchSearchLaws : matchSearch [1#8, 9#8, 1#8, 2#8] [1#8, 2#8] 0 = (2, 2) ∧
    matchSearch [1#8, 9#8, 1#8, 2#8] [1#8, 2#8] 1 = (0, 1) ∧ matchSearch [1#8, 9#8, 1#8, 2#8] [1#8, 2#8] 2 = (2, 2) ∧
    matchSearch [9#8] [1#8] 0 = (0, 0) := by decide

/-- hb = 2: a window exactly full, and one byte more. -/
theorem witness_HistAppendLaws : ([1#8, 2#8] : List Byte).length + ([3#8] : List Byte).length ≤ 2 ^ 2 - 1 ∧
    2 ^ 2 - 1 < ([1#8, 2#8, 3#8] : List Byte).length + ([4#8] : List Byte).length ∧
    ([4#8] : List Byte).length ≤ 2 ^ 2 - 1 := by decide

theorem witness_GammaCodeLaws : (egCode 4).isPrefixOf (egCode 4) = true ∧ 4294967295 < 2 ^ 32 := by decide +kernel

theorem witness_LzRecordsReplayToSource : 1 ≤ 24 ∧ lzRecords 24 1 0 [] = [] := by decide +kernel

theorem witness_LzMatchesPayOff : LzRecord.copy 0 2 ∈ lzRecords 3 3 0 abab := by decide +kernel

theorem compressing_ready : let s := compressing abab
    1 ≤ s.arg0.toNat ∧ s.arg0.toNat ≤ s.par.hbMax ∧ 1 ≤ s.arg1.toNat ∧ s.arg1.toNat ≤ s.par.mbMax ∧ s.canRead ∧
    s.canStoreFile (lzFile s.arg0.toNat s.arg1.toNat s.arg2.toNat s.input).length :=
  ⟨by decide, by decide, by decide, by decide, ⟨by decide +kernel, sound_of rfl _⟩,
    canStoreFile_of rfl rfl (by decide +kernel)⟩

theorem witness_LzCompWritesFile : let s := compressing abab
    1 ≤ s.arg0.toNat ∧ s.arg0.toNat ≤ s.par.hbMax ∧ 1 ≤ s.arg1.toNat ∧ s.arg1.toNat ≤ s.par.mbMax ∧ s.canRead ∧
    s.canStoreFile (lzFile s.arg0.toNat s.arg1.toNat s.arg2.toNat s.input).length := compressing_ready

/-- The file of V-LD-10, its two pad bits set: a match no encoder writes. -/
theorem witness_LzDecReplaysFile : let s := loaded [0x64#8, 0x25#8, 0x84#8, 0x0F#8]
    s.par.wf = true ∧ 3 ≤ s.par.hbMax ∧ 3 ≤ s.par.mbMax ∧ 3 < 8 ∧
    (∀ r ∈ [LzRecord.literal 0x61#8, .copy 0 1], r.fits 3 3) ∧
    lzReplay 3 [] [LzRecord.literal 0x61#8, .copy 0 1] = some [0x61#8, 0x61#8] ∧
    bitsOf s.input = nb 3 3 ++ lzBody 3 3 [LzRecord.literal 0x61#8, .copy 0 1] ++ [true, true, true] ∧
    s.canRead ∧ s.canStoreFile 2 := by
  refine ⟨by decide, by decide, by decide, by decide, ?_, by decide +kernel, by decide +kernel,
    ⟨by decide +kernel, sound_of rfl _⟩, canStoreFile_of rfl rfl (by decide)⟩
  intro r hr
  simp only [List.mem_cons, List.not_mem_nil, or_false] at hr
  rcases hr with rfl | rfl
  · trivial
  · exact ⟨by decide, by decide⟩

/-- One file for each clause: empty; N = 6 in one byte; hb = 0; hb = 17; mb = 17 (V-LD-2 to V-LD-6). -/
theorem witness_LzDecHeaderErrors :
    (∀ bs ∈ [[], [0xC0#8], [0x34#8], [0xE1#8, 0x22#8, 0x00#8], [0xE4#8, 0x09#8, 0x00#8]],
      (loaded bs).par.wf = true ∧ (loaded bs).srcLenInRange = true ∧ (loaded bs).wr.staging = []) ∧
    (loaded []).srcLen = 0#32 ∧
    bitsOf (loaded [0xC0#8]).input = nb 6 3 ++ List.replicate 5 false ∧ (List.replicate 5 false).length < 6 ∧
    bitsOf (loaded [0x34#8]).input = nb 1 3 ++ egCode 0 ++ egCode 1 ++ [false] ∧ 0 < 1 ∧
    bitsOf (loaded [0xE1#8, 0x22#8, 0x00#8]).input =
      nb 7 3 ++ egCode 17 ++ egCode 3 ++ List.replicate 7 false ∧ Params.reference.hbMax < 17 ∧
    bitsOf (loaded [0xE4#8, 0x09#8, 0x00#8]).input =
      nb 7 3 ++ egCode 3 ++ egCode 17 ++ List.replicate 7 false ∧ Params.reference.mbMax < 17 := by decide +kernel

/-- `hb` cut short (V-LD-14), `hb` of 33 zeros (V-LD-15); after `hb` = 0, `mb` cut short and of 33 zeros and more. -/
theorem witness_LzDecHeaderErrors_gamma :
    bitsOf (loaded [0x44#8]).input = nb 2 3 ++ [false, false, true] ++ [false, false] ∧
    gammaCut [false, false, true] ∧
    bitsOf (loaded [0x80#8, 0#8, 0#8, 0#8, 0#8]).input = nb 4 3 ++ List.replicate 33 false ++ List.replicate 4 false ∧
    gammaTooLarge (List.replicate 33 false) ∧
    bitsOf (loaded [0x10#8]).input = nb 0 3 ++ egCode 0 ++ List.replicate 4 false ++ [] ∧
    gammaCut (List.replicate 4 false) ∧
    bitsOf (loaded [0x10#8, 0#8, 0#8, 0#8, 0#8]).input = nb 0 3 ++ egCode 0 ++ List.replicate 36 false ++ [] ∧
    gammaTooLarge (List.replicate 36 false) :=
  ⟨by decide +kernel, ⟨3, by decide, by decide +kernel, by decide +kernel⟩, by decide +kernel, .inl (by decide),
    by decide +kernel, ⟨15, by decide, by decide +kernel, by decide +kernel⟩, by decide +kernel, .inl (by decide)⟩

theorem witness_LzDecHeaderErrors_sound (bs : List Byte) : (loaded bs).sourceSound (loaded bs).srcLen.toNat ∧
    (loaded bs).stagedSound := ⟨sound_of rfl _, fun _ _ => rfl⟩

/-- V-LD-12 and V-LD-11: a truncated literal; a reference outside the window after one literal. -/
theorem witness_LzDecStreamErrors :
    (let s := loaded [0xE4#8, 0x25#8, 0x80#8]
     s.par.wf = true ∧ lzReplay 3 [] [] = some [] ∧ s.canRead ∧ s.canStoreFile 0 ∧
     bitsOf s.input = nb 7 3 ++ lzBody 3 3 [] ++ [true, false, true, true] ++ List.replicate 7 false ∧
     List.isPrefixOf [true, false, true, true] (recordBits 3 3 (.literal 0x61#8)) = true) ∧
    (let s := loaded [0x64#8, 0x25#8, 0x84#8, 0x48#8]
     s.par.wf = true ∧ lzReplay 3 [] [.literal 0x61#8] = some [0x61#8] ∧ s.canRead ∧ s.canStoreFile 1 ∧
     bitsOf s.input = nb 3 3 ++ lzBody 3 3 [.literal 0x61#8] ++ recordBits 3 3 (.copy 1 1) ++ List.replicate 3 false ∧
     1 < 2 ^ 3 ∧ lzReplay 3 [] ([.literal 0x61#8] ++ [.copy 1 1]) = none) :=
  ⟨⟨by decide, by decide +kernel, ⟨by decide +kernel, sound_of rfl _⟩, canStoreFile_of rfl rfl (by decide),
      by decide +kernel, by decide +kernel⟩,
    ⟨by decide, by decide +kernel, ⟨by decide +kernel, sound_of rfl _⟩, canStoreFile_of rfl rfl (by decide),
      by decide +kernel, by decide, by decide +kernel⟩⟩

theorem holdsOutputOf_of {u s : State} (h1 : u.srcLen = s.result)
    (h2 : (List.range s.wr.len).all (fun a => decide (u.srcByte a = s.snkByte a)) = true) : u.holdsOutputOf s :=
  ⟨h1, fun a ha => by simpa using List.all_eq_true.1 h2 a (List.mem_range.2 ha)⟩

theorem witness_LzRoundTrip : let s := compressing abab; let u := loaded ababFile
    ∃ t, s.par.wf = true ∧ u.par.wf = true ∧ exec .lzComp s = .next t ∧ u.holdsOutputOf t ∧
      s.arg0.toNat ≤ u.par.hbMax ∧ s.arg1.toNat ≤ u.par.mbMax ∧ u.canRead ∧ u.canStoreFile s.srcLen.toNat :=
  ⟨_, by decide, by decide, exec_next _ _, holdsOutputOf_of (by decide +kernel) (by decide +kernel), by decide, by decide,
    ⟨by decide +kernel, sound_of rfl _⟩, canStoreFile_of rfl rfl (by decide +kernel)⟩

theorem witness_WordPadAndOrder : 1 ≤ 24 ∧ sfOrder [3, 0, 2, 0] = [0, 2, 3] := by decide +kernel

/-- Two Words and more; one Word. -/
theorem witness_CodesArePrefixFree : 2 ≤ (sfOrder [3, 0, 2]).length ∧ sfOrder [5, 5] = [5] := by decide +kernel

theorem witness_TreeWalksCodes : 2 ≤ (sfOrder [3, 0, 2]).length ∧ (∀ w ∈ [3, 0, 2], w < 2 ^ 2) ∧ sfOrder [5, 5] = [5] := by
  decide +kernel

/-- V-SF-3. -/
theorem witness_SingleWordBody : 1 ≤ 8 ∧ [0x61#8, 0x61#8] ≠ ([] : List Byte) ∧
    ∀ v ∈ sfWords 8 [0x61#8, 0x61#8], v = 0x61 := by decide +kernel

/-- WL at its limit, 16; a source of 3 bytes, so a word pad of 8. -/
theorem witness_SfCompWritesFile : let s := { loaded [0x61#8, 0x62#8, 0x63#8] with arg0 := 16#32 }
    1 ≤ s.arg0.toNat ∧ s.arg0.toNat ≤ s.par.wlMax ∧ s.canRead ∧ s.canStoreFile (sfFile s.arg0.toNat s.input).length :=
  ⟨by decide, by decide, ⟨by decide +kernel, sound_of rfl _⟩, canStoreFile_of rfl rfl (by decide +kernel)⟩

/-- V-SF-4's file, read by the grammar. -/
theorem witness_SfDecDecodesFile : let s := loaded [0x48#8, 0x84#8, 0x55#8, 0xC4#8]
    let tree := PTree.node (.node (.leaf 0) (.leaf 2)) (.leaf 3)
    s.par.wf = true ∧ 3 ≤ s.par.wlMax ∧ 1 < 3 ∧ 2 < 8 ∧ tree.full 3 ∧ tree.leafCount ≤ 2 ^ 3 ∧
    [[true], [false, false], [false, true]].map (Machine.normalize tree).wordAt = [3, 0, 2].map some ∧
    bitsOf s.input = nb 2 3 ++ egCode 1 ++ egCode 3 ++ serNode 3 tree ++
      [[true], [false, false], [false, true]].flatten ++ [false, false] ∧
    (3 * [3, 0, 2].length - 1) % 8 = 0 ∧ s.canRead ∧ s.canStoreFile ((3 * [3, 0, 2].length - 1) / 8) :=
  ⟨by decide, by decide, by decide, by decide, ⟨⟨(by decide : 0 < 2 ^ 3), (by decide : 2 < 2 ^ 3)⟩, (by decide : 3 < 2 ^ 3)⟩, by decide,
    by decide +kernel, by decide +kernel, by decide, ⟨by decide +kernel, sound_of rfl _⟩, canStoreFile_of rfl rfl (by decide)⟩

/-- One file for each clause: empty; WL = 0; P = WL + 1; a word pad and no Word; 3 decoded bits (V-SD-2, 3, 5, 11, 12). -/
theorem witness_SfDecErrors :
    (∀ bs ∈ [[], [0x78#8], [0xA4#8, 0x60#8], [0x28#8, 0x90#8], [0x52#8, 0x58#8]],
      (loaded bs).par.wf = true ∧ (loaded bs).srcLenInRange = true ∧ (loaded bs).wr.staging = []) ∧
    (loaded []).srcLen = 0#32 ∧
    bitsOf (loaded [0x78#8]).input = nb 3 3 ++ egCode 0 ++ egCode 0 ++ List.replicate 3 false ∧
    bitsOf (loaded [0xA4#8, 0x60#8]).input = nb 5 3 ++ egCode 3 ++ egCode 2 ++ List.replicate 5 false ∧
    bitsOf (loaded [0x28#8, 0x90#8]).input = nb 1 3 ++ egCode 1 ++ egCode 3 ++ serNode 3 (.leaf 0) ++ [false] ∧
    bitsOf (loaded [0x52#8, 0x58#8]).input =
      nb 2 3 ++ egCode 0 ++ egCode 3 ++ serNode 3 (.leaf 3) ++ [[false]].flatten ++ [false, false] ∧
    [[false]].map (Machine.normalize (.leaf 3)).wordAt = [3].map some ∧ (3 * [3].length - 0) % 8 ≠ 0 := by decide +kernel

/-- The pad field (V-LD-3's [0xE0]), P and WL cut short or too large, as for LZ.DEC (V-LD-14, V-LD-15). -/
theorem witness_SfDecErrors_header :
    bitsOf (loaded [0xE0#8]).input = nb 7 3 ++ List.replicate 5 false ∧ (List.replicate 5 false).length < 7 ∧
    bitsOf (loaded [0x44#8]).input = nb 2 3 ++ [false, false, true] ++ [false, false] ∧
    bitsOf (loaded [0x80#8, 0#8, 0#8, 0#8, 0#8]).input = nb 4 3 ++ List.replicate 33 false ++ List.replicate 4 false ∧
    bitsOf (loaded [0x10#8]).input = nb 0 3 ++ egCode 0 ++ List.replicate 4 false ++ [] ∧
    bitsOf (loaded [0x10#8, 0#8, 0#8, 0#8, 0#8]).input = nb 0 3 ++ egCode 0 ++ List.replicate 36 false ++ [] := by
  decide +kernel

/-- The tree header: cut short (V-SD-6) or 3 zeros for WL = 1; three leaves (V-SD-7) or 4 zeros for WL = 1. -/
theorem witness_SfDecErrors_tree :
    (let body := [false, true] ++ nb 0x41 8
     bitsOf (loaded [0x71#8, 0x2A#8, 0x08#8]).input = nb 3 3 ++ egCode 0 ++ egCode 8 ++ body ++ List.replicate 3 false ∧
       treeCut 8 body) ∧
    treeCut 1 (List.replicate 3 false) ∧
    (let tree := PTree.node (.node (.leaf 0) (.leaf 1)) (.leaf 1)
     bitsOf (loaded [0x34#8, 0x5E#8]).input = nb 1 3 ++ egCode 0 ++ egCode 1 ++ serNode 1 tree ++ [false] ∧
       treeTooLarge 1 (serNode 1 tree)) ∧
    treeTooLarge 1 (List.replicate 4 false) :=
  ⟨⟨by decide +kernel, .inl ⟨.node (.leaf 0x41) (.leaf 0x42),
      ⟨(by decide : 0x41 < 2 ^ 8), (by decide : 0x42 < 2 ^ 8)⟩, by decide, by decide +kernel, by decide +kernel⟩⟩,
    .inr ⟨3, by decide, rfl⟩,
    ⟨by decide +kernel, .inl ⟨.node (.node (.leaf 0) (.leaf 1)) (.leaf 1), ⟨⟨(by decide : 0 < 2 ^ 1), (by decide : 1 < 2 ^ 1)⟩, (by decide : 1 < 2 ^ 1)⟩,
      by decide, by decide +kernel⟩⟩,
    .inr (by decide)⟩

/-- The codes: the missing child after three Codes (V-SD-9); one bit of a Code of two (V-SD-10). -/
theorem witness_SfDecErrors_codes :
    (let s := loaded [0x11#8, 0x34#8, 0x11#8]
     bitsOf s.input = nb 0 3 ++ egCode 0 ++ egCode 8 ++
       (serNode 8 (.leaf 0x41) ++ List.replicate 3 false ++ [true] ++ []) ++ [] ∧ s.canStoreFile (8 * 3 / 8)) ∧
    (let s := loaded [0xF1#8, 0x2A#8, 0x0A#8, 0x85#8, 0x43#8, 0x80#8]
     let tree := PTree.node (.leaf 0x41) (.node (.leaf 0x42) (.leaf 0x43))
     bitsOf s.input = nb 7 3 ++ egCode 0 ++ egCode 8 ++ (serNode 8 tree ++ ([] : List Bits).flatten ++ [true]) ++
       List.replicate 7 false ∧
     tree.full 8 ∧ tree.leafCount ≤ 2 ^ 8 ∧ ((Machine.normalize tree).wordAt ([true] ++ [false])).isSome = true ∧
     s.canStoreFile (8 * 0 / 8)) :=
  ⟨⟨by decide +kernel, canStoreFile_of rfl rfl (by decide)⟩,
    ⟨by decide +kernel, ⟨(by decide : 0x41 < 2 ^ 8), (by decide : 0x42 < 2 ^ 8), (by decide : 0x43 < 2 ^ 8)⟩, by decide,
      by decide +kernel, canStoreFile_of rfl rfl (by decide)⟩⟩

theorem witness_SfRoundTrip : let s := { loaded [0x41#8, 0x41#8, 0x41#8, 0x42#8] with arg0 := 8#32 }; let u := loaded aaabFile
    ∃ t, s.par.wf = true ∧ u.par.wf = true ∧ s.arg0.toNat ≤ s.par.wlMax ∧ s.canRead ∧
      s.canStoreFile (sfFile s.arg0.toNat s.input).length ∧ exec .sfComp s = .next t ∧ u.holdsOutputOf t ∧
      s.arg0.toNat ≤ u.par.wlMax ∧ u.canRead ∧ u.canStoreFile s.srcLen.toNat :=
  ⟨_, by decide, by decide, by decide, ⟨by decide +kernel, sound_of rfl _⟩, canStoreFile_of rfl rfl (by decide +kernel),
    exec_next _ _, holdsOutputOf_of (by decide +kernel) (by decide +kernel), by decide,
    ⟨by decide +kernel, sound_of rfl _⟩, canStoreFile_of rfl rfl (by decide +kernel)⟩

theorem witness_StepKeepsInvariant : ∃ t, (doing (hostSet 0x04 0x22#32) writing).Inv ∧
    step (doing (hostSet 0x04 0x22#32) writing) = .next t :=
  ⟨_, { writing_inv with }, exec_next .bwFill writing⟩

/-- Two buffered bytes, one of them overwritten by the host. -/
def buffered : State :=
  { reading [0x12#8, 0x34#8] with
    rd := { len := 2, pos := 0, ign := 0#3, refill := [0x12#8, 0xFF#8], refillAt := 0, stale := [(1, 0xFF#8)] } }

theorem witness_StepKeepsReaderCoherent : (doing (hostSet 0x04 0x0812#32) buffered).readerCoherent ∧
    ∃ t, step (doing (hostSet 0x04 0x0812#32) buffered) = .next t := by
  refine ⟨fun i v h => ?_, _, exec_next (.brRead 8) buffered⟩
  match i with
  | 0 =>
    have hv : v = 0x12#8 := by simpa [doing, buffered] using h.symm
    exact .inl (by rw [hv]; decide +kernel)
  | 1 => exact .inr (by simpa [doing, buffered] using h.symm)
  | i + 2 => simp [doing, buffered] at h

end Sys2Proof.Tests
end

/-! What one step can do, and the invariants every step keeps (10_state; 60_exceptions R345 to R347; 70_reset R380, R391). -/

namespace Sys2Proof.Machine

/-! ## What a step can do -/

/-- Everything one action of the host or the platform can make of a state. -/
inductive HostMove (s : State) : State → Prop where
  /-- a command runs. -/
  | command (i : Instr) (t : State) : exec i s = .next t → HostMove s t
  /-- a word that is no command raises (60_exceptions R345). -/
  | illegal (c : Cause) (op : BitVec 8) : HostMove s (errorEntry c op s)
  /-- a write of ARG0, ARG1, ARG2 or SRC_LEN, or no effect at all (10_state R32, 60_exceptions R347). -/
  | registers (a0 a1 a2 n : Word) : HostMove s { s with arg0 := a0, arg1 := a1, arg2 := a2, srcLen := n }
  /-- a read. -/
  | bus (v : Word) (n : Nat) : HostMove s { s with busData := v, draw := n }
  /-- a write of SRC. -/
  | srcWrite (a : Nat) (v : Byte) : a < s.par.srcMax → HostMove s (hostWriteSrc a v s)
  /-- a write of SNK. -/
  | snkWrite (a : Nat) (v : Byte) : a < s.par.snkCap → HostMove s (s.setSnk (Memory.set s.snk a v))
  /-- the hardware reset between commands. -/
  | reset : HostMove s (hardReset s)
  /-- the hardware reset during a command. -/
  | resetDuring (w : Word) (k : Nat) : HostMove s (hardReset (stateDuring w k s))

theorem HostMove.idle (s : State) : HostMove s s := .registers s.arg0 s.arg1 s.arg2 s.srcLen

theorem issue_cases {w : Word} {s t : State} (h : issue w s = .next t) : HostMove s t := by
  unfold issue at h
  split at h
  · cases h; exact .idle s
  · split at h
    · cases h; exact .illegal _ _
    · exact .command _ t h

theorem writeReg_cases {offset : Nat} {v : Word} {s t : State} (h : writeReg offset v s = .next t) : HostMove s t := by
  unfold writeReg at h
  split at h
  · exact issue_cases h
  · cases h; exact .registers v s.arg1 s.arg2 s.srcLen
  · cases h; exact .registers s.arg0 v s.arg2 s.srcLen
  · cases h; exact .registers s.arg0 s.arg1 v s.srcLen
  · cases h; exact .registers s.arg0 s.arg1 s.arg2 v
  · cases h; exact .idle s

theorem hostReadSnk_cases (a : Nat) (s : State) : HostMove s (hostReadSnk a s) := by
  unfold hostReadSnk
  split
  · exact .bus _ (s.draw + 1)
  · exact .bus _ s.draw

theorem perform_cases {act : HostAction} {s t : State} (h : perform act s = .next t) : HostMove s t := by
  cases act with
  | regWrite offset width v =>
    rw [perform] at h
    split_ifs at h
    · exact writeReg_cases h
    · cases h; exact .idle s
  | regRead offset width =>
    rw [perform] at h
    split_ifs at h <;> cases h
    · exact .bus _ s.draw
    · exact .bus _ (s.draw + 1)
  | srcWrite a v =>
    rw [perform] at h
    split_ifs at h with ha
    cases h
    exact .srcWrite a v (Nat.lt_of_not_le ha)
  | snkRead a =>
    rw [perform] at h
    split_ifs at h
    cases h
    exact hostReadSnk_cases a s
  | snkWrite a v =>
    rw [perform] at h
    split_ifs at h with ha
    cases h
    exact .snkWrite a v (Nat.lt_of_not_le ha)
  | reset => cases h; exact .reset
  | resetDuring w k => cases h; exact .resetDuring w k

/-- A step is one action, taken from the host's queue; with none queued it is idle. -/
theorem step_cases {s t : State} (h : step s = .next t) : ∃ rest, HostMove (s.setHost rest) t := by
  cases hq : s.host with
  | nil =>
    rw [step_idle hq] at h
    cases h
    exact ⟨s.host, .idle s⟩
  | cons act rest =>
    rw [step_of_host hq] at h
    exact ⟨rest, perform_cases h⟩

/-! ## From the points of a run to the end of a command -/

section

variable {I : State → Prop} {i : Instr} {s t : State}

theorem Run.start_all (hs : I s) : (Run.start s).All I := ⟨hs, fun _ h => nomatch h⟩

theorem runOf_all {body : Cmd Unit} (hb : KeepsFrame I body) (hs : I s) : (runOf body s).All I := by
  have h := hb (Run.start s) (Run.start_all hs) trivial
  unfold runOf
  cases hr : body (Run.start s) with
  | ok u r => rw [hr] at h; exact h.1
  | error c r => rw [hr] at h; exact h

theorem runOf_of_ok {body : Cmd Unit} {r : Run} (h : body (Run.start s) = .ok () r) : runOf body s = r := by
  rw [runOf, h]

theorem runOf_of_error {body : Cmd Unit} {c : Cause} {r : Run} (h : body (Run.start s) = .error c r) :
    runOf body s = r := by
  rw [runOf, h]

/-- How a command ends when every point of its run meets `I`. -/
theorem exec_cases_of_keeps (hb : KeepsFrame I (bodyOf i)) (hs : I s) (h : exec i s = .next t) :
    (∃ r : Run, r.All I ∧ t = r.st) ∨ (∃ c op, t = errorEntry c op s) ∨
    (∃ (c : Cause) (op : BitVec 8) (r : Run), r.All I ∧ t = errorEntry c op (r.afterError s)) := by
  have hall := runOf_all hb hs
  rcases exec_cases h with ⟨r, hr, ht⟩ | ⟨c, r, -, -, ht⟩ | ⟨c, r, hr, -, ht⟩
  · exact .inl ⟨r, runOf_of_ok hr ▸ hall, ht⟩
  · exact .inr (.inl ⟨c, _, ht⟩)
  · exact .inr (.inr ⟨c, _, r, runOf_of_error hr ▸ hall, ht⟩)

/-- A point of the run of any word's command meets what every command keeps. -/
theorem stateDuring_of_keeps (hb : ∀ i, KeepsFrame I (bodyOf i)) (hs : I s) (w : Word) (k : Nat) :
    I (stateDuring w k s) := by
  unfold stateDuring
  split
  · exact hs
  · split
    · exact hs
    · rename_i i _
      obtain ⟨hst, htrail⟩ := runOf_all (hb i) hs
      rw [List.getD_eq_getElem?_getD]
      cases hk : (runOf (bodyOf i) s).points[k]? with
      | none => exact hst
      | some u =>
        have hu := List.mem_of_getElem? hk
        rw [Run.points, List.mem_reverse, List.mem_cons] at hu
        rcases hu with rfl | hu
        · exact hst
        · exact htrail u hu

/-! ## The invariant of the machine -/

theorem Cause.code_ne_none (c : Cause) : c.code ≠ .none := by cases c <;> decide

theorem State.Inv.errorEntry (h : s.Inv) (c : Cause) (op : BitVec 8) : (errorEntry c op s).Inv :=
  { h with calm := (fun he => nomatch he), alarmed := fun _ => c.code_ne_none }

theorem State.Inv.hardReset (h : s.Inv) : (hardReset s).Inv :=
  { (softReset_inv ⟨h, rfl⟩ : InvAt s.par (softReset s)).1 with }

theorem State.Inv.hostWriteSrc (h : s.Inv) {a : Nat} (ha : a < s.par.srcMax) (v : Byte) : (hostWriteSrc a v s).Inv := by
  have hm := Memory.set_wf h.src ha v
  unfold Machine.hostWriteSrc
  dsimp only
  split <;> exact { h with src := hm }

theorem snkDrawFrom_sorted {old : List (Nat × Nat)} (h : old.Pairwise fun c d => d.1 < c.1) (c n : Nat) :
    (snkDrawFrom old c n).Pairwise fun c d => d.1 < c.1 :=
  List.pairwise_cons.2 ⟨fun _ hd => by simpa using (List.mem_filter.1 hd).2, h.filter _⟩

/-- The spans of single indices cover the indices they are made of. -/
theorem covers_map_single {cells : List Host.Cell} {c : Host.Cell} (h : c ∈ cells) :
    covers (cells.map fun c => (c.1, 1)) c.1 = true :=
  List.any_eq_true.2 ⟨(c.1, 1), List.mem_map_of_mem h, by simp⟩

/-- What a MALFORMED, UNSUPPORTED or IO error leaves meets the invariant: each piece is at a point of the run, each on its
own, and no clause of the invariant ties two pieces but the staging buffer and the record of stored bytes, which
`Run.afterError` extends. -/
theorem State.Inv.afterError {p : Params} {r : Run} (hs : InvAt p s) (hr : r.All (InvAt p)) : (r.afterError s).Inv := by
  obtain ⟨hs, rfl⟩ := hs
  have hpoint (n : Nat) : (r.pick n).Inv ∧ (r.pick n).par = s.par := Run.pick_of_all hr n
  have hwr (n : Nat) : WriterOk s.par (r.pick n).wr := InvAt.writerOk (hpoint n)
  have hfresh : ∀ f ∈ r.st.wr.fresh, f.1 + f.2 ≤ s.par.snkCap := (InvAt.writerOk hr.1).freshIn
  exact
    { hs with
      rdLen := (hpoint _).2 ▸ (hpoint _).1.rdLen
      rdPos := (hpoint _).2 ▸ (hpoint _).1.rdPos
      refill := (hpoint _).2 ▸ (hpoint _).1.refill
      frac := (hwr _).frac
      pos := (hwr _).pos
      len := (hwr _).len
      mark := (hwr _).mark
      staged := (hwr _).staged
      stagedIn := (hwr _).stagedIn
      stagedOrder := (hwr _).stagedOrder
      freshIn := by
        intro f hf
        rcases List.mem_append.1 hf with hf | hf
        · obtain ⟨c, hc, rfl⟩ := List.mem_map.1 hf
          exact (hwr _).stagedIn c hc
        · exact hfresh f hf
      stagedFresh := by
        intro c hc
        show covers (_ ++ _) c.1 = true
        rw [covers_append, Bool.or_eq_true]
        exact .inl (covers_map_single hc)
      snk := Memory.below_wf hs.snk _
      draws := snkDrawFrom_sorted hs.draws _ _ }

theorem State.Inv.exec (h : s.Inv) (he : exec i s = .next t) : t.Inv := by
  have hs : InvAt s.par s := ⟨h, rfl⟩
  rcases exec_cases_of_keeps (bodyOf_inv i) hs he with ⟨r, hr, rfl⟩ | ⟨c, op, rfl⟩ | ⟨c, op, r, hr, rfl⟩
  · exact hr.1.1
  · exact h.errorEntry c op
  · exact (State.Inv.afterError hs hr).errorEntry c op

theorem State.Inv.hostMove (h : s.Inv) (hm : HostMove s t) : t.Inv := by
  cases hm with
  | command i _ he => exact h.exec he
  | illegal c op => exact h.errorEntry c op
  | registers => exact { h with }
  | bus => exact { h with }
  | srcWrite a v ha => exact h.hostWriteSrc ha v
  | snkWrite a v ha => exact { h with snk := Memory.set_wf h.snk ha v }
  | reset => exact h.hardReset
  | resetDuring w k => exact (stateDuring_of_keeps bodyOf_inv ⟨h, rfl⟩ w k : InvAt s.par _).1.hardReset

end

/-- Settles O59: a step is one host move, a command's every point meets the invariant (`bodyOf_inv`), and what an error
leaves is built from such points. -/
theorem stepKeepsInvariant : Obligations.StepKeepsInvariant := by
  intro s t h hstep
  obtain ⟨rest, hm⟩ := step_cases hstep
  exact State.Inv.hostMove (s := s.setHost rest) { h with } hm

end Sys2Proof.Machine

/-! What the pseudocode of every command assigns, said once: an invariant closed under those assignments holds at every point
of every command's run. -/

namespace Sys2Proof.Machine

/-! ## The assignments of the commands -/

/-- The readers a command may give the state `s`: each byte such a reader buffers is the byte SRC holds, or one the reader of
`s` buffers under the same record of overwritten bytes. -/
def State.mayRead (s : State) (r : Reader) : Prop :=
  ∀ a v, r.buffered a = some v → v = s.srcByte a ∨ (s.rd.buffered a = some v ∧ r.stale = s.rd.stale)

/-- A command that leaves the refill buffer alone. -/
theorem State.mayRead_sameBuffer (s : State) {r : Reader} (h1 : r.refill = s.rd.refill) (h2 : r.refillAt = s.rd.refillAt)
    (h3 : r.stale = s.rd.stale) : s.mayRead r := by
  intro a v hv
  rw [Reader.buffered, h1, h2] at hv
  exact .inr ⟨hv, h3⟩

/-- A command that empties the refill buffer. -/
theorem State.mayRead_emptied (s : State) {r : Reader} (h : r.refill = []) : s.mayRead r := by
  intro a v hv
  simp [Reader.buffered, h] at hv

/-- `I` survives every assignment that the pseudocode of a command makes. -/
structure CommandClosed (I : State → Prop) : Prop where
  /-- the reader. -/
  setRd : ∀ {s r}, I s → s.mayRead r → I (s.setRd r)
  /-- the writer. -/
  setWr : ∀ {s} w, I s → I (s.setWr w)
  /-- SNK. -/
  setSnk : ∀ {s} m, I s → I (s.setSnk m)
  /-- the engine memories. -/
  setEng : ∀ {s} e, I s → I (s.setEng e)
  /-- RESULT. -/
  setResult : ∀ {s} v, I s → I (s.setResult v)
  /-- `rcnt`. -/
  setRcnt : ∀ {s} n, I s → I (s.setRcnt n)
  /-- the counter of draws. -/
  drew : ∀ {s} n, I s → I (s.drew n)
  /-- CLR. -/
  clearError : ∀ {s}, I s → I (clearError s)
  /-- SRST. -/
  softReset : ∀ {s}, I s → I (softReset s)

theorem KeepsFrame.look_bind {β : Type} {I : State → Prop} {f : State → Cmd β} (h : ∀ s, KeepsFrame I (f s)) :
    KeepsFrame I (Machine.look >>= f) :=
  Cmd.Keeps.look_bind fun s _ _ => (h s).from

theorem KeepsFrame.require_bind {β : Type} {I : State → Prop} {ok : Bool} {c : Cause} {f : Unit → Cmd β}
    (h : KeepsFrame I (f ())) : KeepsFrame I (Machine.require ok c >>= f) :=
  (KeepsFrame.require ok c).bind fun _ => h

theorem KeepsFrame.advance_bind {β : Type} {I : State → Prop} {g : State → State} {f : Unit → Cmd β}
    (hg : ∀ s, I s → I (g s)) (h : KeepsFrame I (f ())) : KeepsFrame I (Machine.advance g >>= f) :=
  (KeepsFrame.advance hg).bind fun _ => h

section

variable {I : State → Prop} (hI : CommandClosed I)
include hI

theorem CommandClosed.setLz {s : State} (m : LzMem) (h : I s) : I (s.setLz m) := hI.setEng _ h

theorem CommandClosed.setSf {s : State} (m : SfMem) (h : I s) : I (s.setSf m) := hI.setEng _ h

/-! ## Reader -/

theorem CommandClosed.fetchByte (a : Nat) : KeepsFrame I (fetchByte a) := by
  refine Cmd.Keeps.look_bind fun s _ _ => ?_
  split
  · exact (KeepsFrame.pure ()).from
  · refine (Cmd.Keeps.advance fun t ht _ => hI.setRd ht (t.mayRead_emptied rfl)).bind fun _ => ?_
    refine (Cmd.Keeps.require _ _).bind fun _ => (Cmd.Keeps.advance fun t ht h => hI.setRd ht ?_).toFrame
    obtain ⟨-, u, rfl, -, rfl⟩ := h
    exact fun b v hv => .inl (refilled_byte hv)

theorem CommandClosed.deliverBits (n : Nat) : ∀ j, KeepsFrame I (deliverBits n j) := by
  induction n with
  | zero => exact fun _ => KeepsFrame.pure _
  | succ n ih =>
    refine fun j => KeepsFrame.bind (x := deliverBit j) ?_ fun _ => (ih (j + 1)).bind fun _ => KeepsFrame.pure _
    refine (hI.fetchByte _).bind fun _ => KeepsFrame.look_bind fun s => ?_
    dsimp only
    split
    · exact KeepsFrame.pure _
    · exact KeepsFrame.advance_bind (fun _ h => hI.drew 1 h) (KeepsFrame.pure _)

theorem CommandClosed.rdBits (n : Nat) : KeepsFrame I (rdBits n) :=
  KeepsFrame.look_bind fun _ => (hI.deliverBits n _).bind fun _ =>
    KeepsFrame.advance_bind (fun t ht => hI.setRd ht (t.mayRead_sameBuffer rfl rfl rfl)) (KeepsFrame.pure _)

theorem CommandClosed.requireRead {β : Type} {n : Nat} {c : Cause} {f : Bits → Cmd β} (hf : ∀ b, KeepsFrame I (f b)) :
    KeepsFrame I (Machine.requireAvail n c >>= fun _ => Machine.rdBits n >>= f) :=
  (requireAvail_keeps n c).bind fun _ => (hI.rdBits n).bind hf

theorem CommandClosed.rdInit : KeepsFrame I rdInit :=
  KeepsFrame.look_bind fun _ => KeepsFrame.require_bind <|
    KeepsFrame.advance fun t ht => hI.setRd ht (t.mayRead_emptied rfl)

theorem CommandClosed.rdRewind : KeepsFrame I rdRewind :=
  KeepsFrame.advance fun t ht => hI.setRd ht (t.mayRead_emptied rfl)

/-- An assignment of `rd_ign`. -/
theorem CommandClosed.setIgn (n : BitVec 3) : KeepsFrame I (advance fun s => s.setRd { s.rd with ign := n }) :=
  KeepsFrame.advance fun t ht => hI.setRd ht (t.mayRead_sameBuffer rfl rfl rfl)

/-! ## Writer -/

theorem CommandClosed.writer (f : State → Writer) : KeepsFrame I (advance fun s => s.setWr (f s)) :=
  KeepsFrame.advance fun _ h => hI.setWr _ h

theorem CommandClosed.drainBytes (cells : List Host.Cell) : KeepsFrame I (drainBytes cells) := by
  induction cells with
  | nil => exact KeepsFrame.pure ()
  | cons c rest ih =>
    exact KeepsFrame.look_bind fun _ => KeepsFrame.require_bind <|
      KeepsFrame.advance_bind (fun _ h => hI.setWr _ (hI.setSnk _ h)) ih

theorem CommandClosed.drain : KeepsFrame I drain := KeepsFrame.look_bind fun _ => hI.drainBytes _

theorem CommandClosed.drainIfFull : KeepsFrame I drainIfFull := by
  refine KeepsFrame.look_bind fun s => ?_
  split
  · exact hI.drain
  · exact KeepsFrame.pure ()

theorem CommandClosed.completeByte (v : Byte) : KeepsFrame I (completeByte v) :=
  KeepsFrame.look_bind fun _ => KeepsFrame.require_bind <| hI.drainIfFull.bind fun _ => (hI.writer _).bind fun _ =>
    hI.drainIfFull.bind fun _ => hI.writer _

theorem CommandClosed.wrBits (bits : Bits) : KeepsFrame I (wrBits bits) := by
  induction bits with
  | nil => exact KeepsFrame.pure ()
  | cons b rest ih =>
    refine KeepsFrame.bind (x := wrBit b) (KeepsFrame.look_bind fun s => ?_) fun _ => ih
    split
    · exact hI.writer _
    · exact (hI.writer _).bind fun _ => (hI.completeByte _).bind fun _ => hI.writer _

theorem CommandClosed.wrInit : KeepsFrame I wrInit :=
  (Cmd.Keeps.noteMark 0).bind fun _ => hI.drain.bind fun _ => hI.writer _

theorem CommandClosed.flushPoint : KeepsFrame I flushPoint :=
  KeepsFrame.look_bind fun _ => KeepsFrame.require_bind <| hI.drain.bind fun _ => (hI.writer _).bind fun _ =>
    KeepsFrame.look_bind fun _ => Cmd.Keeps.noteMark _

theorem CommandClosed.fill : KeepsFrame I fill :=
  KeepsFrame.look_bind fun _ => (hI.wrBits _).bind fun _ => KeepsFrame.pure _

theorem CommandClosed.seek0 : KeepsFrame I seek0 :=
  (Cmd.Keeps.noteMark 0).bind fun _ => hI.flushPoint.bind fun _ => hI.writer _

theorem CommandClosed.rawByte (v : Byte) : KeepsFrame I (rawByte v) :=
  hI.flushPoint.bind fun _ => (hI.completeByte v).bind fun _ => hI.flushPoint

/-! ## Elias-gamma and the parts both engines share -/

theorem CommandClosed.rdZeroRun (left : Nat) : ∀ k, KeepsFrame I (rdZeroRun left k) := by
  induction left with
  | zero => exact fun _ => Cmd.Keeps.raise _
  | succ left ih =>
    refine fun k => hI.requireRead fun b => ?_
    split
    · exact KeepsFrame.pure k
    · exact ih (k + 1)

theorem CommandClosed.rdEG : KeepsFrame I rdEG :=
  (hI.rdZeroRun 33 0).bind fun _ => hI.requireRead fun _ => KeepsFrame.require_bind (KeepsFrame.pure _)

theorem CommandClosed.enterEngine : KeepsFrame I enterEngine :=
  (Cmd.Keeps.enterEngine fun _ h _ => hI.setEng _ h).toFrame

/-- The end of every engine command. -/
theorem CommandClosed.engineEnd : KeepsFrame I (resultIsLength >>= fun _ => leaveEngine) :=
  KeepsFrame.advance_bind (fun _ h => hI.setResult _ h) (Cmd.Keeps.leaveEngine fun _ e h _ => hI.drew 1 (hI.setEng e h)).toFrame

theorem CommandClosed.engineStart {β : Type} {f : Unit → Cmd β} (hf : KeepsFrame I (f ())) :
    KeepsFrame I (Machine.rdInit >>= fun _ => Machine.enterEngine >>= fun _ => Machine.wrInit >>= f) :=
  hI.rdInit.bind fun _ => hI.enterEngine.bind fun _ => hI.wrInit.bind fun _ => hf

theorem CommandClosed.finishHeader : KeepsFrame I finishHeader :=
  hI.fill.bind fun _ => hI.seek0.bind fun _ => KeepsFrame.look_bind fun _ => hI.rawByte _

theorem CommandClosed.rdPadHeader : KeepsFrame I rdPadHeader :=
  hI.requireRead fun _ => (hI.setIgn _).bind fun _ => KeepsFrame.look_bind fun _ => KeepsFrame.require _ _

/-! ## LZSS -/

theorem CommandClosed.lz (f : State → LzMem) : KeepsFrame I (advance fun s => s.setLz (f s)) :=
  KeepsFrame.advance fun _ h => hI.setLz _ h

theorem CommandClosed.lzEncodeLoop (src : List Byte) (fuel : Nat) : KeepsFrame I (lzEncodeLoop src fuel) := by
  induction fuel with
  | zero => exact KeepsFrame.pure ()
  | succ fuel ih =>
    refine KeepsFrame.look_bind fun s => ?_
    split
    · exact (hI.lz _).bind fun _ => KeepsFrame.look_bind fun _ => (hI.wrBits _).bind fun _ => (hI.lz _).bind fun _ => ih
    · exact KeepsFrame.pure ()

theorem CommandClosed.lzEncode (src : List Byte) (hb mb depth : Nat) : KeepsFrame I (lzEncode src hb mb depth) :=
  (hI.wrBits _).bind fun _ => (hI.wrBits _).bind fun _ => (hI.wrBits _).bind fun _ => (hI.lz _).bind fun _ =>
    hI.lzEncodeLoop _ _

theorem CommandClosed.lzCompBody : KeepsFrame I lzCompBody :=
  KeepsFrame.look_bind fun _ => KeepsFrame.require_bind <| KeepsFrame.require_bind <| hI.engineStart <|
    KeepsFrame.look_bind fun _ => (hI.rdBits _).bind fun _ => (hI.lzEncode _ _ _ _).bind fun _ =>
      hI.finishHeader.bind fun _ => hI.engineEnd

theorem CommandClosed.lzReadHeader : KeepsFrame I lzReadHeader :=
  hI.rdEG.bind fun _ => hI.rdEG.bind fun _ => KeepsFrame.look_bind fun _ => KeepsFrame.require_bind <|
    KeepsFrame.require_bind <| KeepsFrame.pure _

theorem CommandClosed.lzDecodeRecord : KeepsFrame I lzDecodeRecord := by
  refine (hI.rdBits 1).bind fun _ => KeepsFrame.look_bind fun s => ?_
  dsimp only
  split
  · exact hI.requireRead fun _ => (hI.wrBits _).bind fun _ => hI.lz _
  · exact (requireAvail_keeps _ _).bind fun _ => (hI.rdBits _).bind fun _ => (hI.rdBits _).bind fun _ =>
      KeepsFrame.require_bind <| (hI.wrBits _).bind fun _ => hI.lz _

theorem CommandClosed.lzDecodeLoop (fuel : Nat) : KeepsFrame I (lzDecodeLoop fuel) := by
  induction fuel with
  | zero => exact KeepsFrame.pure ()
  | succ fuel ih =>
    refine KeepsFrame.look_bind fun s => ?_
    split
    · exact hI.lzDecodeRecord.bind fun _ => ih
    · exact KeepsFrame.pure ()

theorem CommandClosed.lzDecBody : KeepsFrame I lzDecBody :=
  hI.engineStart <| hI.rdPadHeader.bind fun _ => hI.lzReadHeader.bind fun _ =>
    KeepsFrame.bind (x := lzDecode _ _) ((hI.lz _).bind fun _ => KeepsFrame.look_bind fun _ => hI.lzDecodeLoop _) fun _ =>
      hI.flushPoint.bind fun _ => hI.engineEnd

/-! ## Shannon-Fano -/

theorem CommandClosed.sf (f : State → SfMem) : KeepsFrame I (advance fun s => s.setSf (f s)) :=
  KeepsFrame.advance fun _ h => hI.setSf _ h

theorem CommandClosed.readWord (wl : Nat) : KeepsFrame I (readWord wl) :=
  KeepsFrame.look_bind fun _ => (hI.rdBits _).bind fun _ => KeepsFrame.pure _

theorem CommandClosed.countPass (wl n : Nat) : KeepsFrame I (countPass wl n) := by
  induction n with
  | zero => exact KeepsFrame.pure ()
  | succ n ih => exact (hI.readWord wl).bind fun _ => (hI.sf _).bind fun _ => ih

theorem CommandClosed.codePass (wl n : Nat) : KeepsFrame I (codePass wl n) := by
  induction n with
  | zero => exact KeepsFrame.pure ()
  | succ n ih =>
    exact (hI.readWord wl).bind fun _ => KeepsFrame.look_bind fun _ => (hI.wrBits _).bind fun _ => ih

theorem CommandClosed.sfEncode (wl : Nat) : KeepsFrame I (sfEncode wl) :=
  KeepsFrame.look_bind fun _ => (hI.sf _).bind fun _ => (hI.countPass _ _).bind fun _ => (hI.sf _).bind fun _ =>
    (hI.wrBits _).bind fun _ => (hI.wrBits _).bind fun _ => (hI.wrBits _).bind fun _ => KeepsFrame.look_bind fun _ =>
      (hI.wrBits _).bind fun _ => hI.rdRewind.bind fun _ => hI.codePass _ _

theorem CommandClosed.sfCompBody : KeepsFrame I sfCompBody :=
  KeepsFrame.look_bind fun _ => KeepsFrame.require_bind <| hI.engineStart <| (hI.sfEncode _).bind fun _ =>
    hI.finishHeader.bind fun _ => hI.engineEnd

theorem CommandClosed.sfReadHeader : KeepsFrame I sfReadHeader :=
  hI.rdEG.bind fun _ => hI.rdEG.bind fun _ => KeepsFrame.look_bind fun _ => KeepsFrame.require_bind <|
    KeepsFrame.require_bind <| KeepsFrame.pure _

theorem CommandClosed.parseNode (wl fuel : Nat) : ∀ nl, KeepsFrame I (parseNode wl fuel nl) := by
  induction fuel with
  | zero => exact fun _ => Cmd.Keeps.raise _
  | succ fuel ih =>
    refine fun nl => hI.requireRead fun b => KeepsFrame.require_bind ?_
    split
    · exact KeepsFrame.require_bind <| hI.requireRead fun _ => KeepsFrame.pure _
    · exact (ih _).bind fun _ => (ih _).bind fun _ => KeepsFrame.pure _

theorem CommandClosed.walkCode (tree : PTree) : KeepsFrame I (walkCode tree) := by
  induction tree with
  | none => exact Cmd.Keeps.raise _
  | leaf w => exact KeepsFrame.pure w
  | node c0 c1 ih0 ih1 =>
    refine (hI.sf _).bind fun _ => hI.requireRead fun b => ?_
    split
    · exact ih1
    · exact ih0

theorem CommandClosed.emitPending (wl : Nat) (pend : Option Nat) : KeepsFrame I (emitPending wl pend) := by
  cases pend with
  | none => exact KeepsFrame.pure ()
  | some w => exact hI.wrBits _

theorem CommandClosed.decodeWalkLoop (wl fuel : Nat) : ∀ pend, KeepsFrame I (decodeWalkLoop wl fuel pend) := by
  induction fuel with
  | zero => exact fun pend => KeepsFrame.pure pend
  | succ fuel ih =>
    refine fun pend => KeepsFrame.look_bind fun s => ?_
    split
    · exact (hI.walkCode _).bind fun w => (hI.emitPending wl pend).bind fun _ => ih (some w)
    · exact KeepsFrame.pure pend

theorem CommandClosed.stripPad (p wl : Nat) (pend : Option Nat) : KeepsFrame I (stripPad p wl pend) := by
  cases pend with
  | none => exact KeepsFrame.require_bind <| KeepsFrame.look_bind fun _ => KeepsFrame.require _ _
  | some w => exact (hI.wrBits _).bind fun _ => KeepsFrame.look_bind fun _ => KeepsFrame.require _ _

theorem CommandClosed.sfDecBody : KeepsFrame I sfDecBody :=
  hI.engineStart <| hI.rdPadHeader.bind fun _ => hI.sfReadHeader.bind fun _ => (hI.sf _).bind fun _ =>
    KeepsFrame.bind (x := parseTree _) ((hI.parseNode _ _ _).bind fun _ => hI.sf _) fun _ =>
      KeepsFrame.bind (x := decodeWalk _) (KeepsFrame.look_bind fun _ => hI.decodeWalkLoop _ _ _) fun _ =>
        (hI.stripPad _ _ _).bind fun _ => hI.flushPoint.bind fun _ => hI.engineEnd

/-! ## Every command -/

/-- Every point of every command's run meets `I`, whether the command ends or raises. -/
theorem CommandClosed.bodyOf (i : Instr) : KeepsFrame I (bodyOf i) := by
  cases i with
  | nop => exact KeepsFrame.pure ()
  | clr => exact KeepsFrame.advance fun _ h => hI.clearError h
  | srst => exact KeepsFrame.advance fun _ h => hI.softReset h
  | brInit => exact hI.rdInit
  | brIgn => exact KeepsFrame.look_bind fun _ => KeepsFrame.require_bind <| hI.setIgn _
  | brRead cnt =>
    exact KeepsFrame.require_bind <| KeepsFrame.look_bind fun _ => (hI.rdBits _).bind fun _ =>
      KeepsFrame.advance fun _ h => hI.setRcnt _ (hI.setResult _ h)
  | bwInit => exact hI.wrInit
  | bwWrite cnt => exact KeepsFrame.require_bind <| KeepsFrame.look_bind fun _ => hI.wrBits _
  | bwFill => exact hI.fill.bind fun _ => KeepsFrame.advance fun _ h => hI.setResult _ h
  | bwFlush => exact hI.flushPoint
  | bwSeek0 => exact hI.seek0
  | bwRaw => exact KeepsFrame.look_bind fun _ => KeepsFrame.require_bind <| hI.rawByte _
  | egEnc => exact KeepsFrame.look_bind fun _ => hI.wrBits _
  | egDec => exact hI.rdEG.bind fun _ => KeepsFrame.advance fun _ h => hI.setResult _ h
  | lzComp => exact hI.lzCompBody
  | lzDec => exact hI.lzDecBody
  | sfComp => exact hI.sfCompBody
  | sfDec => exact hI.sfDecBody

end

end Sys2Proof.Machine

/-! What every command keeps of the host's state (10_state R37, R48), and the coherence of the refill buffer (10_state R59,
70_reset R391). -/

namespace Sys2Proof.Machine

/-! ## The host's state -/

/-- The host's registers, SRC, the launch parameters, the host's queue and the last value read are those of `s`. -/
def HostKept (s t : State) : Prop :=
  t.arg0 = s.arg0 ∧ t.arg1 = s.arg1 ∧ t.arg2 = s.arg2 ∧ t.srcLen = s.srcLen ∧
    t.src = s.src ∧ t.par = s.par ∧ t.host = s.host ∧ t.busData = s.busData

theorem HostKept.refl (s : State) : HostKept s s := ⟨rfl, rfl, rfl, rfl, rfl, rfl, rfl, rfl⟩

/-- No assignment of a command is to the host's state. -/
theorem hostKept_closed (s : State) : CommandClosed (HostKept s) where
  setRd h _ := h
  setWr _ h := h
  setSnk _ h := h
  setEng _ h := h
  setResult _ h := h
  setRcnt _ h := h
  drew _ h := h
  clearError h := h
  softReset h := h

theorem exec_hostKept {i : Instr} {s t : State} (h : exec i s = .next t) : HostKept s t := by
  rcases exec_cases_of_keeps ((hostKept_closed s).bodyOf i) (.refl s) h with ⟨r, hr, rfl⟩ | ⟨c, op, rfl⟩ | ⟨c, op, r, -, rfl⟩
  · exact hr.1
  · exact .refl s
  · exact .refl s

/-- Settles O15: a command always answers, and neither its assignments nor an error touch the host's state. -/
theorem commandsAnswerAndKeepHostState : Obligations.CommandsAnswerAndKeepHostState :=
  fun i s => ⟨_, exec_next i s, exec_hostKept (exec_next i s)⟩

/-! ## The refill buffer -/

/-- Coherence, said of the SRC indices the buffer holds. -/
theorem readerCoherent_iff (s : State) :
    s.readerCoherent ↔ ∀ a v, s.rd.buffered a = some v → v = s.srcByte a ∨ (a, v) ∈ s.rd.stale := by
  constructor
  · intro h a v hv
    rw [Reader.buffered] at hv
    split at hv
    · rename_i hle
      simpa only [Nat.add_sub_cancel' hle] using h _ v hv
    · cases hv
  · intro h i v hv
    refine h _ v ?_
    rw [Reader.buffered, if_pos (Nat.le_add_right _ i), Nat.add_sub_cancel_left]
    exact hv

theorem readerCoherent_of_empty {s : State} (h : s.rd.refill = []) : s.readerCoherent := by
  intro i v hv
  rw [h] at hv
  cases hv

/-- Coherence is of the refill buffer, the record of overwritten bytes and SRC alone. -/
theorem State.readerCoherent.congr {s t : State} (h : s.readerCoherent) (h1 : t.rd.refill = s.rd.refill)
    (h2 : t.rd.refillAt = s.rd.refillAt) (h3 : t.rd.stale = s.rd.stale) (h4 : t.src = s.src) : t.readerCoherent := by
  unfold State.readerCoherent State.srcByte
  rw [h1, h2, h3, h4]
  exact h

/-- The reader is coherent with the SRC cells `m`. -/
def CoherentWith (m : List Host.Cell) (s : State) : Prop := s.readerCoherent ∧ s.src = m

theorem State.readerCoherent.setRd {s : State} (h : s.readerCoherent) {r : Reader} (hr : s.mayRead r) :
    (s.setRd r).readerCoherent := by
  rw [readerCoherent_iff] at h ⊢
  intro a v hv
  rcases hr a v hv with hv | ⟨hv, hst⟩
  · exact .inl hv
  · exact (h a v hv).imp_right fun hm => hst ▸ hm

/-- Every assignment of a command keeps the reader coherent with an SRC that does not change. -/
theorem coherentWith_closed (m : List Host.Cell) : CommandClosed (CoherentWith m) where
  setRd h hr := ⟨h.1.setRd hr, h.2⟩
  setWr _ h := h
  setSnk _ h := h
  setEng _ h := h
  setResult _ h := h
  setRcnt _ h := h
  drew _ h := h
  clearError h := h
  softReset h := ⟨readerCoherent_of_empty rfl, h.2⟩

/-- An error leaves the refill buffer, its index and the record of overwritten bytes at one and the same point of the run. -/
theorem Run.afterError_readerCoherent {r : Run} {s : State} (hr : r.All (CoherentWith s.src)) :
    (r.afterError s).readerCoherent := by
  obtain ⟨hc, hsrc⟩ := Run.pick_of_all hr (r.st.draw + 3)
  exact hc.congr rfl rfl rfl hsrc.symm

theorem State.readerCoherent.exec {i : Instr} {s t : State} (h : s.readerCoherent) (he : exec i s = .next t) :
    t.readerCoherent := by
  rcases exec_cases_of_keeps ((coherentWith_closed s.src).bodyOf i) ⟨h, rfl⟩ he with
    ⟨r, hr, rfl⟩ | ⟨c, op, rfl⟩ | ⟨c, op, r, hr, rfl⟩
  · exact hr.1.1
  · exact h
  · exact Run.afterError_readerCoherent hr

theorem srcByte_setSrc_set_of_ne (s : State) {a b : Nat} (h : b ≠ a) (v : Byte) :
    (s.setSrc (Memory.set s.src a v)).srcByte b = s.srcByte b := by
  simp only [State.srcByte, State.setSrc_src, Memory.get?_set, if_neg h]

/-- A host write of SRC keeps the reader coherent: a buffered byte at the index written is recorded as overwritten, if it was
the byte SRC held. -/
theorem State.readerCoherent.hostWriteSrc {s : State} (h : s.readerCoherent) (a : Nat) (v : Byte) :
    (hostWriteSrc a v s).readerCoherent := by
  rw [readerCoherent_iff] at h ⊢
  unfold Machine.hostWriteSrc
  split
  · intro b w hw
    by_cases hb : b = a
    · subst hb
      refine .inr ?_
      rcases h b w hw with rfl | hst
      · exact List.mem_cons_self
      · exact List.mem_cons_of_mem _ hst
    · refine (h b w hw).imp (fun hv => ?_) (List.mem_cons_of_mem _)
      exact hv.trans (srcByte_setSrc_set_of_ne s hb v).symm
  · rename_i hnone
    intro b w hw
    have hb : b ≠ a := by
      rintro rfl
      exact hnone (.inr (Option.isSome_iff_exists.2 ⟨w, hw⟩))
    exact (h b w hw).imp_left fun hv => hv.trans (srcByte_setSrc_set_of_ne s hb v).symm

theorem State.readerCoherent.hostMove {s t : State} (h : s.readerCoherent) (hm : HostMove s t) : t.readerCoherent := by
  cases hm with
  | command i _ he => exact h.exec he
  | srcWrite a v _ => exact h.hostWriteSrc a v
  | illegal | registers | bus | snkWrite => exact h
  | reset | resetDuring => exact readerCoherent_of_empty rfl

/-- Settles O60: a refill fetches the bytes SRC holds, a host write of SRC records the byte it overwrites, and a reset empties
the buffer. -/
theorem stepKeepsReaderCoherent : Obligations.StepKeepsReaderCoherent := by
  intro s t h hstep
  obtain ⟨rest, hm⟩ := step_cases hstep
  exact State.readerCoherent.hostMove (s := s.setHost rest) h hm

end Sys2Proof.Machine

/-! The registers: what a read of STATUS and PARAMS returns, and what the host's accesses do (10_state R31, R32, R38, R53,
R64). -/

namespace Sys2Proof.Machine

/-! ## STATUS and PARAMS as fields -/

/-- The fields of a word laid out as STATUS (10_state R38), each cut out where it was put. -/
theorem statusLayout_fields (rcnt : BitVec 6) (code : BitVec 4) (frac ign : BitVec 3) (eof err : BitVec 1) :
    let v := 0#13 ++ rcnt ++ code ++ frac ++ ign ++ eof ++ err ++ 0#1
    v.extractLsb' 0 1 = 0#1 ∧ v.extractLsb' 1 1 = err ∧ v.extractLsb' 2 1 = eof ∧ v.extractLsb' 3 3 = ign ∧
    v.extractLsb' 6 3 = frac ∧ v.extractLsb' 9 4 = code ∧ v.extractLsb' 13 6 = rcnt ∧ v.extractLsb' 19 13 = 0#13 := by
  simp (disch := decide) only [BitVec.extractLsb'_append_eq_of_le, BitVec.extractLsb'_append_eq_of_add_le,
    BitVec.extractLsb'_eq_self, Nat.reduceSub, and_self, -Nat.reduceAdd]

theorem statusWord_fields (s : State) :
    let v := s.statusWord
    v.extractLsb' 0 1 = 0#1 ∧ v.extractLsb' 1 1 = BitVec.ofBool s.er.err ∧
    v.extractLsb' 2 1 = BitVec.ofBool s.rd.eof ∧ v.extractLsb' 3 3 = s.rd.ign ∧
    v.extractLsb' 6 3 = BitVec.ofNat 3 s.wr.frac.length ∧ v.extractLsb' 9 4 = s.er.code.num ∧
    v.extractLsb' 13 6 = s.rcnt ∧ v.extractLsb' 19 13 = 0#13 :=
  statusLayout_fields s.rcnt s.er.code.num (BitVec.ofNat 3 s.wr.frac.length) s.rd.ign _ _

/-- RD_EOF (10_state R41). -/
theorem ofBool_eof (r : Reader) : BitVec.ofBool r.eof = 1#1 ↔ 8 * r.len - r.ign.toNat ≤ r.pos := by
  unfold Reader.eof Reader.logicalLen
  by_cases h : 8 * r.len - r.ign.toNat ≤ r.pos <;> simp [h]

/-- The fields of a word laid out as PARAMS (10_state R53), each cut out where it was put. -/
theorem paramsLayout_fields (wl mb hb : BitVec 8) :
    let v := 0#8 ++ wl ++ mb ++ hb
    v.extractLsb' 0 8 = hb ∧ v.extractLsb' 8 8 = mb ∧ v.extractLsb' 16 8 = wl ∧ v.extractLsb' 24 8 = 0#8 := by
  simp (disch := decide) only [BitVec.extractLsb'_append_eq_of_le, BitVec.extractLsb'_append_eq_of_add_le,
    BitVec.extractLsb'_eq_self, Nat.reduceSub, and_self, -Nat.reduceAdd]

/-- PARAMS is its fields one after the other, for parameters of 8 bits. -/
theorem paramsWord_eq_append {p : Params} (hh : p.hbMax < 256) (hm : p.mbMax < 256) (hw : p.wlMax < 256) :
    paramsWord p = 0#8 ++ BitVec.ofNat 8 p.wlMax ++ BitVec.ofNat 8 p.mbMax ++ BitVec.ofNat 8 p.hbMax := by
  have hm' : p.mbMax <<< 8 < 2 ^ 32 := by rw [Nat.shiftLeft_eq]; omega
  have hw' : p.wlMax <<< 16 < 2 ^ 32 := by rw [Nat.shiftLeft_eq]; omega
  have hl : (paramsWord p).toNat = p.hbMax ||| p.mbMax <<< 8 ||| p.wlMax <<< 16 := by
    simp only [paramsWord, BitVec.toNat_or, BitVec.toNat_shiftLeft, BitVec.toNat_ofNat]
    rw [Nat.mod_eq_of_lt (by omega), Nat.mod_eq_of_lt (a := p.mbMax) (by omega), Nat.mod_eq_of_lt hm',
      Nat.mod_eq_of_lt (a := p.wlMax) (by omega), Nat.mod_eq_of_lt hw']
  apply BitVec.eq_of_toNat_eq
  rw [hl, BitVec.toNat_append, BitVec.toNat_append, BitVec.toNat_append, BitVec.toNat_ofNat, BitVec.toNat_ofNat,
    BitVec.toNat_ofNat, BitVec.toNat_ofNat, Nat.mod_eq_of_lt hw, Nat.mod_eq_of_lt hm, Nat.mod_eq_of_lt hh, Nat.zero_mod,
    Nat.zero_shiftLeft, Nat.zero_or, Nat.shiftLeft_or_distrib, ← Nat.shiftLeft_add]
  ac_rfl

/-- Settles O11: STATUS is its fields one after the other, so each is cut out where it was put. -/
theorem statusFields : Obligations.StatusFields := by
  intro s hfrac
  obtain ⟨hbusy, herr, heof, hign, hwrFrac, hcode, hrcnt, hrsv⟩ := statusWord_fields s
  refine ⟨hbusy, herr, heof ▸ ofBool_eof s.rd, hign, ?_, ?_, hrcnt, hrsv⟩
  · show (s.statusWord.extractLsb' 6 3).toNat = _
    rw [hwrFrac, BitVec.toNat_ofNat]
    omega
  · show s.statusWord.extractLsb' 9 4 = _
    rw [hcode]
    cases s.er.code <;> rfl

/-- Settles O12: within R10 each parameter is at most 24, so it fits its 8-bit field. -/
theorem paramsFields : Obligations.ParamsFields := by
  intro s hp
  obtain ⟨hh, hm, hw⟩ : s.par.hbMax < 256 ∧ s.par.mbMax < 256 ∧ s.par.wlMax < 256 := by
    simp only [Params.wf, Bool.and_eq_true, decide_eq_true_eq] at hp
    omega
  have hv : s.readReg 0x34 =
      0#8 ++ BitVec.ofNat 8 s.par.wlMax ++ BitVec.ofNat 8 s.par.mbMax ++ BitVec.ofNat 8 s.par.hbMax :=
    paramsWord_eq_append hh hm hw
  obtain ⟨hb, mb, wl, rsv⟩ := paramsLayout_fields (BitVec.ofNat 8 s.par.wlMax) (BitVec.ofNat 8 s.par.mbMax)
    (BitVec.ofNat 8 s.par.hbMax)
  rw [hv]
  refine ⟨?_, ?_, ?_, rsv⟩
  · exact (congrArg BitVec.toNat hb).trans (Nat.mod_eq_of_lt hh)
  · exact (congrArg BitVec.toNat mb).trans (Nat.mod_eq_of_lt hm)
  · exact (congrArg BitVec.toNat wl).trans (Nat.mod_eq_of_lt hw)

/-! ## The host's accesses -/

section

variable {s : State} {offset width : Nat}

/-- An access of another width or alignment (10_state R32). -/
theorem regAligned_eq_false (h : width ≠ 32 ∨ offset % 4 ≠ 0) : regAligned offset width = false := by
  simp only [regAligned, Bool.and_eq_false_iff, decide_eq_false_iff_not]
  exact h

theorem regAligned_word (k : Nat) : regAligned (4 * k) 32 = true := by
  simp [regAligned]

theorem perform_regRead_aligned (h : offset < 64) (ha : regAligned offset width = true) :
    perform (.regRead offset width) s = .next (s.setBus (s.readReg offset)) := by
  rw [perform, if_neg (Nat.not_le.2 h), if_pos ha]

theorem perform_regRead_other (h : offset < 64) (ha : regAligned offset width = false) :
    perform (.regRead offset width) s = .next ((s.setBus (Config.freeWord s.draw)).drew 1) := by
  rw [perform, if_neg (Nat.not_le.2 h), if_neg (by simp [ha])]

theorem perform_regWrite_aligned (h : offset < 64) (ha : regAligned offset width = true) (v : Word) :
    perform (.regWrite offset width v) s = writeReg offset v s := by
  rw [perform, if_neg (Nat.not_le.2 h), if_pos ha]

theorem perform_regWrite_other (h : offset < 64) (ha : regAligned offset width = false) (v : Word) :
    perform (.regWrite offset width v) s = .next s := by
  rw [perform, if_neg (Nat.not_le.2 h), if_neg (by simp [ha])]

/-- A write of any register but CMD, by the registers' numbers (10_state R31). -/
theorem writeReg_of_ne_cmd {k : Nat} (hk : k < 16) (hcmd : k ≠ 1) (v : Word) (s : State) :
    writeReg (4 * k) v s = .next (
      if k = 2 then { s with arg0 := v } else if k = 3 then { s with arg1 := v }
      else if k = 4 then { s with arg2 := v } else if k = 8 then { s with srcLen := v } else s) := by
  obtain rfl | hk2 : k = 0 ∨ 2 ≤ k := by omega
  · rfl
  · interval_cases k <;> rfl

end

/-- Settles O10, clause by clause from the outcome of each kind of access. -/
theorem registerAccess : Obligations.RegisterAccess := by
  refine ⟨?_, ?_, ?_, ?_, ?_⟩
  · intro s rest k hk hs
    rw [step_of_host hs, perform_regRead_aligned (by omega) (regAligned_word k)]
    rfl
  · intro s
    exact ⟨rfl, rfl, rfl, rfl, rfl, rfl, rfl, rfl, rfl, rfl, rfl, rfl, rfl⟩
  · intro s rest k v hk hcmd hs
    rw [step_of_host hs, perform_regWrite_aligned (by omega) (regAligned_word k), writeReg_of_ne_cmd hk hcmd]
    rfl
  · intro s rest offset width v ho hw hs
    rw [step_of_host hs, perform_regWrite_other ho (regAligned_eq_false hw)]
    rfl
  · intro s rest offset width ho hw hs
    exact ⟨_, (step_of_host hs).trans (perform_regRead_other ho (regAligned_eq_false hw)), rfl⟩

/-! ## Reset -/

/-- Settles O9: every register of the reset state, evaluated. -/
theorem resetRegisterValues : Obligations.ResetRegisterValues := by
  unfold Obligations.ResetRegisterValues
  decide

theorem Params.reference_wf : Params.reference.wf = true := by decide

/-- Settles O58: at reset every counter is 0, every list is empty and there is no error. -/
theorem resetMeetsInvariant : Obligations.ResetMeetsInvariant where
  params := Params.reference_wf
  rdLen := Nat.zero_le _
  rdPos := Nat.zero_le _
  refill := Nat.zero_le _
  frac := Nat.zero_lt_succ _
  pos := Nat.zero_le _
  len := Nat.zero_le _
  mark := Nat.zero_le _
  staged := Nat.zero_le _
  stagedIn := List.forall_mem_nil _
  stagedOrder := .nil
  freshIn := List.forall_mem_nil _
  stagedFresh := List.forall_mem_nil _
  rcnt := Nat.zero_le _
  calm _ := ⟨rfl, rfl⟩
  alarmed h := nomatch h
  src := rfl
  snk := rfl
  draws := .nil

end Sys2Proof.Machine

/-! The host's accesses of the SRC and SNK windows (20_memory R78 to R80, 70_reset R384, R392). -/

namespace Sys2Proof.Machine

section

variable {s : State} {a : Nat} {v : Byte}

/-! ## What each access answers -/

theorem perform_srcWrite_inside (h : a < s.par.srcMax) : perform (.srcWrite a v) s = .next (hostWriteSrc a v s) := by
  rw [perform, if_neg (Nat.not_le.2 h)]

theorem perform_srcWrite_outside (h : s.par.srcMax ≤ a) : perform (.srcWrite a v) s = .fault .outsideSrc := by
  rw [perform, if_pos h]

theorem perform_snkRead_inside (h : a < s.par.snkCap) : perform (.snkRead a) s = .next (hostReadSnk a s) := by
  rw [perform, if_neg (Nat.not_le.2 h)]

theorem perform_snkRead_outside (h : s.par.snkCap ≤ a) : perform (.snkRead a) s = .fault .outsideSnk := by
  rw [perform, if_pos h]

theorem perform_snkWrite_outside (h : s.par.snkCap ≤ a) : perform (.snkWrite a v) s = .fault .outsideSnk := by
  rw [perform, if_pos h]

/-- The host may not write a byte of the output stored since the last flush point (70_reset R384; log 13). -/
theorem perform_snkWrite_refused (h : a < s.par.snkCap) (hf : s.unflushed a = true) (hl : a < s.wr.len) :
    perform (.snkWrite a v) s = .refused .hostDuty := by
  rw [perform, if_neg (Nat.not_le.2 h), if_pos (by simp [hf, hl])]

theorem perform_snkWrite_allowed (h : a < s.par.snkCap) (hd : s.unflushed a = false ∨ s.wr.len ≤ a) :
    perform (.snkWrite a v) s = .next (s.setSnk (Memory.set s.snk a v)) := by
  rw [perform, if_neg (Nat.not_le.2 h), if_neg]
  rw [Bool.and_eq_true, decide_eq_true_eq, not_and_or, Bool.not_eq_true, Nat.not_lt]
  exact hd

/-! ## What each access leaves -/

/-- A write of SRC moves SRC and, in the reader, the record of bytes overwritten under it (70_reset R391). -/
theorem hostWriteSrc_frame (a : Nat) (v : Byte) (s : State) :
    hostWriteSrc a v s = { s with src := (hostWriteSrc a v s).src, rd := (hostWriteSrc a v s).rd } ∧
    (hostWriteSrc a v s).rd = { s.rd with stale := (hostWriteSrc a v s).rd.stale } := by
  unfold hostWriteSrc
  dsimp only
  split <;> exact ⟨rfl, rfl⟩

theorem hostWriteSrc_srcByte (a : Nat) (v : Byte) (s : State) (b : Nat) :
    (hostWriteSrc a v s).srcByte b = if b = a then v else s.srcByte b := by
  have hsrc : (hostWriteSrc a v s).src = Memory.set s.src a v := rfl
  rw [State.srcByte, hsrc, Memory.get?_set, State.srcByte]
  split <;> rfl

/-- A byte that is no part of the reader's source and not buffered is no byte of the reader (70_reset R391). -/
theorem hostWriteSrc_rd_of_unused (hl : s.rd.len ≤ a) (hb : s.rd.buffered a = none) :
    (hostWriteSrc a v s).rd = s.rd := by
  unfold hostWriteSrc
  dsimp only
  rw [if_neg (by simp [hb, hl])]
  rfl

theorem hostReadSnk_of_flushed (h : s.unflushed a = false) :
    hostReadSnk a s = s.setBus ((s.snkByte a).setWidth 32) := by
  rw [hostReadSnk, if_neg (by simp [h])]

theorem hostReadSnk_frame (a : Nat) (s : State) :
    hostReadSnk a s = { s with busData := (hostReadSnk a s).busData, draw := (hostReadSnk a s).draw } := by
  unfold hostReadSnk
  split <;> rfl

/-- At a flush point no byte is staged: SNK holds every byte the writer stored (20_memory R80). -/
theorem State.atFlushPoint.storedByte (h : s.atFlushPoint) (a : Nat) : s.storedByte a = s.snkByte a := by
  obtain ⟨-, -, hstaging, -⟩ := h
  rw [storedByte_eq, hstaging]
  rfl

theorem State.atFlushPoint.unflushed (h : s.atFlushPoint) (a : Nat) : s.unflushed a = false := by
  obtain ⟨-, -, -, hfresh⟩ := h
  rw [State.unflushed, hfresh, covers_nil]

end

/-- Settles O14, access by access: a step takes the host's action off the queue and performs it. -/
theorem hostWindowAccess : Obligations.HostWindowAccess := by
  refine ⟨?_, ?_, ?_⟩
  · intro s rest a v hs
    rw [step_of_host hs]
    refine ⟨fun ha => ?_, perform_srcWrite_outside (s := s.setHost rest)⟩
    obtain ⟨hframe, hrd⟩ := hostWriteSrc_frame a v (s.setHost rest)
    have hbyte := hostWriteSrc_srcByte a v (s.setHost rest)
    exact ⟨_, perform_srcWrite_inside ha, (hbyte a).trans (if_pos rfl), fun b hb => (hbyte b).trans (if_neg hb), hframe,
      hrd, hostWriteSrc_rd_of_unused (s := s.setHost rest)⟩
  · intro s rest a hs
    rw [step_of_host hs]
    refine ⟨perform_snkRead_outside (s := s.setHost rest), fun ha => ?_⟩
    rw [perform_snkRead_inside (s := s.setHost rest) ha]
    have hread (hf : s.unflushed a = false) := hostReadSnk_of_flushed (s := s.setHost rest) hf
    refine ⟨fun hflush => ?_, fun hf => ?_, _, rfl, hostReadSnk_frame a (s.setHost rest)⟩
    · rw [hread (hflush.unflushed a), hflush.storedByte a]
      rfl
    · rw [hread hf]
      rfl
  · intro s rest a v hs
    rw [step_of_host hs]
    refine ⟨perform_snkWrite_outside (s := s.setHost rest), perform_snkWrite_refused (s := s.setHost rest),
      fun ha hd => ?_⟩
    have hbyte := snkByte_setSnk_set (s.setHost rest) a v
    exact ⟨_, perform_snkWrite_allowed ha hd, (hbyte a).trans (if_pos rfl), fun b hb => (hbyte b).trans (if_neg hb), rfl⟩

end Sys2Proof.Machine

/-! A sequence of reads, or of writes, is one continuous bit stream (20_memory R72). -/

namespace Sys2Proof.Machine

/-! ## Reads -/

/-- The value of at most 32 bits fits RESULT. -/
theorem toNat_ofNat_val {bits : Bits} (h : bits.length ≤ 32) : (BitVec.ofNat 32 (val bits)).toNat = val bits := by
  rw [BitVec.toNat_ofNat, Nat.mod_eq_of_lt]
  exact (val_lt bits).trans_le (Nat.pow_le_pow_right Nat.two_pos h)

/-- BR.READ (R152) over bytes that do not fail and each stand for one value: the reader delivers the bits, then RESULT and
RCNT are written. -/
theorem exec_brRead_completes {s : State} {cnt : Nat} (hc : cnt ≤ 32) (hs : s.sourceSound s.rd.len)
    (hst : s.steady (min cnt s.rd.avail)) :
    ∃ u, Delivered s u (min cnt s.rd.avail) ∧ exec (.brRead cnt) s =
      .next ((u.setResult (BitVec.ofNat 32 (val (s.unread.take cnt)))).setRcnt (BitVec.ofNat 6 (min cnt s.rd.avail))) := by
  have htake : s.unread.take (min cnt s.rd.avail) = s.unread.take cnt := by
    rw [← unread_length, ← List.take_eq_take_min]
  have hbody : Cmd.Completes (fun t => t = s) (brReadBody cnt) fun _ t => ∃ u, Delivered s u (min cnt s.rd.avail) ∧
      t = (u.setResult (BitVec.ofNat 32 (val (s.unread.take cnt)))).setRcnt (BitVec.ofNat 6 (min cnt s.rd.avail)) := by
    refine Cmd.Completes.require_bind (decide_eq_true hc) (Cmd.Completes.look_bind ?_)
    rintro t rfl
    refine (rdBits_unread t hs _ (Nat.min_le_right ..) hst).bind fun bits => ?_
    refine (Cmd.Completes.advance _).weaken (fun _ h => h) ?_
    rintro _ _ ⟨u, rfl, rfl, hu⟩
    exact ⟨u, hu, by rw [htake]⟩
  obtain ⟨_, he, u, hu, rfl⟩ := exec_of_completes (i := .brRead cnt) hbody
  exact ⟨u, hu, he⟩

theorem Delivered.pos {s t : State} {n : Nat} (h : Delivered s t n) : t.rd.pos = s.rd.pos + n := by
  obtain ⟨⟨_, _, rfl⟩, -⟩ := h
  rfl

/-- After `a` bits, those that follow stand for one value as they did before. -/
theorem Delivered.steady {s t : State} {a b : Nat} (h : Delivered s t a) (hst : s.steady (a + b)) : t.steady b := by
  intro j hj hjb
  rw [h.pos] at hj hjb
  exact h.2 _ (hst j (by omega) (by omega))

theorem Delivered.avail {s t : State} {n : Nat} (h : Delivered s t n) : t.rd.avail = s.rd.avail - n := by
  rw [← unread_length, h.unread, List.length_drop, unread_length]

/-- A read of `n` bits that are left (R152): RESULT is their value, and the rest is as `RdBits` leaves it. -/
theorem brRead_of_avail {s t : State} {n : Nat} (hn : n ≤ 32) (ha : n ≤ s.rd.avail) (hs : s.sourceSound s.rd.len)
    (hst : s.steady n) (he : exec (.brRead n) s = .next t) :
    ∃ u r c, Delivered s u n ∧ r.toNat = val (s.unread.take n) ∧ t = (u.setResult r).setRcnt c := by
  have hmin : min n s.rd.avail = n := Nat.min_eq_left ha
  obtain ⟨u, hu, he'⟩ := exec_brRead_completes hn hs (by rwa [hmin])
  rw [hmin] at hu
  rw [he] at he'
  cases he'
  exact ⟨u, _, _, hu, toNat_ofNat_val ((List.length_take_le ..).trans hn), rfl⟩

/-- A read of `a` bits and one of `b` bits deliver what one read of `a + b` bits does: the second read takes the next `b` of the
bits that the first has left. -/
theorem brRead_concat {s t1 t2 t3 : State} {a b : Nat} (hn : a + b ≤ 32) (ha : a + b ≤ s.rd.avail) (hst : s.steady (a + b))
    (hs : s.sourceSound s.rd.len) (h1 : exec (.brRead a) s = .next t1) (h2 : exec (.brRead b) t1 = .next t2)
    (h3 : exec (.brRead (a + b)) s = .next t3) :
    t3.result.toNat = t1.result.toNat * 2 ^ b + t2.result.toNat ∧ t3.rd.pos = t2.rd.pos := by
  obtain ⟨u1, r1, c1, hu1, hr1, rfl⟩ :=
    brRead_of_avail (by omega) (by omega) hs (fun j hj hja => hst j hj (by omega)) h1
  have havail : b ≤ u1.rd.avail := by rw [hu1.avail]; omega
  obtain ⟨u2, r2, c2, hu2, hr2, rfl⟩ := brRead_of_avail (s := (u1.setResult r1).setRcnt c1) (by omega) havail
    (hu1.sound hs) (hu1.steady hst) h2
  obtain ⟨u3, r3, c3, hu3, hr3, rfl⟩ := brRead_of_avail hn ha hs hst h3
  have hr2 : r2.toNat = val ((s.unread.drop a).take b) := by rw [← hu1.unread]; exact hr2
  have hlen : ((s.unread.drop a).take b).length = b := by
    rw [List.length_take, List.length_drop, unread_length]
    omega
  constructor
  · show r3.toNat = r1.toNat * 2 ^ b + r2.toNat
    rw [hr3, hr1, hr2, List.take_add, val_append, hlen]
  · show u3.rd.pos = u2.rd.pos
    rw [hu3.pos, hu2.pos, ← Nat.add_assoc, ← hu1.pos]
    rfl

/-! ## Writes -/

/-- `t` is `s` after the bits `bits` were written (40_bitstream R143). -/
def WroteBits (s t : State) (bits : Bits) : Prop :=
  Wrote s t (bytesOf (s.wr.frac ++ bits)) (tailBits (s.wr.frac ++ bits)) bits.length

theorem WroteBits.frac {s t : State} {bits : Bits} (h : WroteBits s t bits) : t.wr.frac = tailBits (s.wr.frac ++ bits) := by
  obtain ⟨_, _, _, rfl, -⟩ := h
  rfl

/-- Writing some bits and then some more is writing all of them. -/
theorem WroteBits.trans {s t u : State} {x y : Bits} (h : WroteBits s t x) (h' : WroteBits t u y) :
    WroteBits s u (x ++ y) := by
  have := Wrote.trans h h'
  rw [h.frac, tailBits_append, ← bytesOf_take_whole (s.wr.frac ++ x), ← bytesOf_append, List.append_assoc,
    ← List.length_append] at this
  exact this

/-- Writing moves no register of the host. -/
theorem WroteBits.setArg0 {s t : State} {bits : Bits} (h : WroteBits s t bits) (v : Word) :
    WroteBits { s with arg0 := v } { t with arg0 := v } bits := by
  obtain ⟨m, staging, fresh, rfl, hrest⟩ := h
  exact ⟨m, staging, fresh, rfl, hrest⟩

/-- What is left to store after some of the bits are written. -/
theorem WroteBits.canStore {s t : State} {x : Bits} {n : Nat} (h : WroteBits s t x)
    (hs : s.canStore ((s.wr.frac.length + x.length + n) / 8)) : t.canStore ((t.wr.frac.length + n) / 8) := by
  refine Wrote.canStore h hs ?_
  rw [bytesOf_length _ _ rfl, h.frac, tailBits_length, List.length_append]
  omega

/-- Two ways of writing the same bits leave the same writer and the same bytes stored, whatever is staged or in SNK. -/
theorem WroteBits.agree {s t u : State} {bits : Bits} (h : WroteBits s t bits) (h' : WroteBits s u bits) :
    t.wr.frac = u.wr.frac ∧ t.wr.pos = u.wr.pos ∧ t.wr.len = u.wr.len ∧ t.wr.total = u.wr.total ∧
      ∀ a, t.storedByte a = u.storedByte a := by
  obtain ⟨_, _, _, ht, -, -, -, hb⟩ := h
  obtain ⟨_, _, _, hu, -, -, -, hb'⟩ := h'
  have hwt := congrArg State.wr ht
  have hwu := congrArg State.wr hu
  refine ⟨?_, ?_, ?_, ?_, fun a => (hb a).trans (hb' a).symm⟩ <;> rw [hwt, hwu] <;> rfl

/-- BW.WRITE (R156) where the bytes it completes can be stored. -/
theorem exec_bwWrite_completes {s : State} {cnt : Nat} (hc : cnt ≤ 32) (ho : s.stagedSorted) (hf : s.wr.frac.length < 8)
    (hs : s.canStore ((s.wr.frac.length + cnt) / 8)) :
    ∃ t, exec (.bwWrite cnt) s = .next t ∧ WroteBits s t (nb s.arg0.toNat cnt) := by
  refine exec_of_completes (i := .bwWrite cnt) (post := fun _ t => WroteBits s t (nb s.arg0.toNat cnt)) ?_
  refine Cmd.Completes.require_bind (decide_eq_true hc) (Cmd.Completes.look_bind ?_)
  rintro t rfl
  exact wrBits_completes _ t ho hf (by rw [State.writeArg, nb_length]; exact hs)

/-- BW.WRITE of the low `cnt` bits of `v`. -/
theorem wroteBits_of_exec {s t : State} {cnt : Nat} {v : Word} (hc : cnt ≤ 32) (ho : s.stagedSorted)
    (hf : s.wr.frac.length < 8) (hs : s.canStore ((s.wr.frac.length + cnt) / 8))
    (he : exec (.bwWrite cnt) { s with arg0 := v } = .next t) :
    WroteBits { s with arg0 := v } t (nb v.toNat cnt) := by
  obtain ⟨t', he', hw⟩ := exec_bwWrite_completes (s := { s with arg0 := v }) hc ho hf hs
  rw [he] at he'
  cases he'
  exact hw

/-- The high `a` bits of the `a + b` low bits of `v` and then its low `b` bits, written one after the other (R156). -/
theorem bwWrite_concat {s t1 t2 : State} {a b : Nat} {v : Word} (hi : s.Inv) (hn : a + b ≤ 32)
    (hs : s.canStore ((s.wr.frac.length + a + b) / 8)) (h1 : exec (.bwWrite a) { s with arg0 := v >>> b } = .next t1)
    (h2 : exec (.bwWrite b) { t1 with arg0 := v } = .next t2) :
    WroteBits { s with arg0 := v } t2 (nb v.toNat (a + b)) := by
  have hhigh : (v >>> b).toNat = v.toNat / 2 ^ b := by rw [BitVec.toNat_ushiftRight, Nat.shiftRight_eq_div_pow]
  have w1 := wroteBits_of_exec (by omega) hi.stagedOrder hi.frac (hs.mono (by omega)) h1
  have hfrac : t1.wr.frac.length < 8 := by rw [w1.frac, tailBits_length]; omega
  have hstore : t1.canStore ((t1.wr.frac.length + b) / 8) := w1.canStore (by rw [nb_length]; exact hs)
  have w2 := wroteBits_of_exec (by omega) (Wrote.sorted w1) hfrac hstore h2
  rw [nb_append, ← hhigh]
  exact (w1.setArg0 v).trans w2

/-- Settles O25: the bits of a read are those left unread, a prefix of which is what two reads take one after the other; and
writes of two bit lists one after the other are a write of both. -/
theorem streamsConcatenate : Obligations.StreamsConcatenate := by
  refine ⟨fun s t1 t2 t3 a b hn ha hst hs h1 h2 h3 => brRead_concat hn ha hst hs h1 h2 h3,
    fun s t1 t2 t3 a b v hi hn hs h1 h2 h3 => ?_⟩
  have hs' : s.canStore ((s.wr.frac.length + (a + b)) / 8) := Nat.add_assoc .. ▸ hs
  exact (bwWrite_concat hi hn hs h1 h2).agree (wroteBits_of_exec hn hi.stagedOrder hi.frac hs' h3)

end Sys2Proof.Machine

/-! The command word: its fields, the opcode map read in both directions, and what the decoder answers (30_encoding R100 to
R110). -/

namespace Sys2Proof

/-! ## The fields of a word -/

/-- The three fields are all of a word (R100). -/
theorem append_fields (w : Word) : (rsvField w ++ cntField w) ++ opField w = w := by
  unfold rsvField cntField opField
  rw [BitVec.extractLsb'_append_extractLsb'_eq_extractLsb' (by rfl),
    BitVec.extractLsb'_append_extractLsb'_eq_extractLsb' (by rfl), BitVec.extractLsb'_eq_self]

/-- `Laws.EncodeFields` of every command. -/
theorem encode_fields (i : Instr) : Laws.EncodeFields.Statement i := by
  cases i with
  | nop => exact Laws.EncodeFields.nop
  | clr => exact Laws.EncodeFields.clr
  | srst => exact Laws.EncodeFields.srst
  | brInit => exact Laws.EncodeFields.brInit
  | brIgn => exact Laws.EncodeFields.brIgn
  | brRead cnt => exact Laws.EncodeFields.brRead cnt
  | bwInit => exact Laws.EncodeFields.bwInit
  | bwWrite cnt => exact Laws.EncodeFields.bwWrite cnt
  | bwFill => exact Laws.EncodeFields.bwFill
  | bwFlush => exact Laws.EncodeFields.bwFlush
  | bwSeek0 => exact Laws.EncodeFields.bwSeek0
  | bwRaw => exact Laws.EncodeFields.bwRaw
  | egEnc => exact Laws.EncodeFields.egEnc
  | egDec => exact Laws.EncodeFields.egDec
  | lzComp => exact Laws.EncodeFields.lzComp
  | lzDec => exact Laws.EncodeFields.lzDec
  | sfComp => exact Laws.EncodeFields.sfComp
  | sfDec => exact Laws.EncodeFields.sfDec

/-- A command is well formed when its CNT fits the field (R101). -/
theorem Instr.wf_iff (i : Instr) : i.wf = true ↔ cntOf i < 64 := by
  cases i <;> simp [Instr.wf, cntOf]

/-- A command that does not use CNT has none (R105). -/
theorem cntOf_eq_zero_or_usesCnt (i : Instr) : cntOf i = 0 ∨ usesCnt (opcode i) = true := by
  cases i with
  | brRead | bwWrite => exact .inr rfl
  | _ => exact .inl rfl

theorem usesCnt_eq_false_iff (op : BitVec 8) : usesCnt op = false ↔ op ≠ 0x12#8 ∧ op ≠ 0x21#8 := by
  simp [usesCnt]

/-! ## The opcode map -/

/-- What the map names has the OP and the CNT it was named by. -/
theorem instrOfOp_eq_some {op : BitVec 8} {cnt : Nat} {i : Instr} (h : instrOfOp op cnt = some i) :
    opcode i = op ∧ cntOf i = if usesCnt op then cnt else 0 := by
  unfold instrOfOp at h
  split at h
  case h_19 => cases h
  all_goals
    next hop =>
      cases h
      obtain ⟨-, rfl⟩ := BitVec.toNat_eq_nat.1 hop
      exact ⟨rfl, rfl⟩

/-- One command of each row of the opcode table, in its order (R105). -/
def tableRows : List Instr :=
  [.nop, .clr, .srst, .brInit, .brIgn, .brRead 0, .bwInit, .bwWrite 0, .bwFill, .bwFlush, .bwSeek0, .bwRaw, .egEnc, .egDec,
    .lzComp, .lzDec, .sfComp, .sfDec]

theorem opcode_mem_tableRows (i : Instr) : opcode i ∈ tableRows.map opcode := by
  cases i <;> simp [opcode, tableRows]

theorem instrOfOp_opcode_ne_none (i : Instr) (cnt : Nat) : instrOfOp (opcode i) cnt ≠ none := by
  cases i <;> exact Option.some_ne_none _

/-- The map names a command exactly for the OP values of the table, whatever CNT is (R106). -/
theorem instrOfOp_ne_none_iff {op : BitVec 8} {cnt : Nat} : instrOfOp op cnt ≠ none ↔ op ∈ tableRows.map opcode := by
  constructor
  · intro h
    obtain ⟨i, hi⟩ := Option.ne_none_iff_exists'.1 h
    exact (instrOfOp_eq_some hi).1 ▸ opcode_mem_tableRows i
  · intro h
    obtain ⟨i, -, rfl⟩ := List.mem_map.1 h
    exact instrOfOp_opcode_ne_none i cnt

/-! ## The decoder's answers -/

section

variable {w : Word} {i : Instr}

theorem decode_of_none (h : instrOfOp (opField w) (cntField w).toNat = none) : decode w = .error .badOp := by
  rw [decode, h]

theorem decode_of_some (h : instrOfOp (opField w) (cntField w).toNat = some i) :
    decode w = if rsvField w ≠ 0#18 then .error .rsvSet
      else if cntField w ≠ 0#6 ∧ usesCnt (opField w) = false then .error .cntUnused else .ok i := by
  rw [decode, h]

theorem decode_eq_badOp_iff : decode w = .error .badOp ↔ instrOfOp (opField w) (cntField w).toNat = none := by
  cases h : instrOfOp (opField w) (cntField w).toNat with
  | none => simp [decode_of_none h]
  | some j => rw [decode_of_some h]; split_ifs <;> simp

theorem decode_eq_rsvSet_iff :
    decode w = .error .rsvSet ↔ instrOfOp (opField w) (cntField w).toNat ≠ none ∧ rsvField w ≠ 0#18 := by
  cases h : instrOfOp (opField w) (cntField w).toNat with
  | none => simp [decode_of_none h]
  | some j => rw [decode_of_some h]; split_ifs <;> simp [*]

theorem decode_eq_cntUnused_iff :
    decode w = .error .cntUnused ↔ instrOfOp (opField w) (cntField w).toNat ≠ none ∧ rsvField w = 0#18 ∧
      cntField w ≠ 0#6 ∧ usesCnt (opField w) = false := by
  cases h : instrOfOp (opField w) (cntField w).toNat with
  | none => simp [decode_of_none h]
  | some j => rw [decode_of_some h]; split_ifs <;> simp_all

theorem decode_eq_ok_iff :
    decode w = .ok i ↔ instrOfOp (opField w) (cntField w).toNat = some i ∧ rsvField w = 0#18 ∧
      (cntField w = 0#6 ∨ usesCnt (opField w) = true) := by
  cases h : instrOfOp (opField w) (cntField w).toNat with
  | none => simp [decode_of_none h]
  | some j => rw [decode_of_some h]; split_ifs <;> simp_all [or_iff_not_imp_left]

end

/-- Settles O2: the word's fields are the command's OP, its CNT and 0, and OP and CNT name the command. -/
theorem decodeEncodeAgree : Obligations.DecodeEncodeAgree := by
  intro i hwf
  obtain ⟨hop, hcnt, hrsv, hi⟩ := encode_fields i hwf
  refine decode_eq_ok_iff.2 ⟨by rw [hop, hcnt, hi], hrsv, ?_⟩
  rw [hop]
  exact (cntOf_eq_zero_or_usesCnt i).imp_left fun h0 => BitVec.eq_of_toNat_eq (hcnt.trans h0)

/-- The CNT of a decoded command is the word's CNT field. -/
theorem cntOf_of_decode {w : Word} {i : Instr} (h : decode w = .ok i) : cntOf i = (cntField w).toNat := by
  obtain ⟨hi, -, huse⟩ := decode_eq_ok_iff.1 h
  rw [(instrOfOp_eq_some hi).2]
  rcases huse with h0 | huse
  · rw [h0]; exact ite_self _
  · exact if_pos huse

/-- Settles O3: the command has the word's OP and CNT fields, RSV is 0, and the three fields are all of the word. -/
theorem encodeDecodeAgree : Obligations.EncodeDecodeAgree := by
  intro w i h
  obtain ⟨hi, hrsv, -⟩ := decode_eq_ok_iff.1 h
  have hcnt := cntOf_of_decode h
  refine ⟨(Instr.wf_iff i).2 (hcnt ▸ (cntField w).isLt), ?_⟩
  rw [encode, hcnt, (instrOfOp_eq_some hi).1, BitVec.ofNat_toNat, BitVec.setWidth_eq, ← hrsv, append_fields]

/-- Settles O4: each answer of the decoder says which checks the word passed. -/
theorem illegalWordsInOrder : Obligations.IllegalWordsInOrder := by
  intro w known
  have hknown : instrOfOp (opField w) (cntField w).toNat ≠ none ↔ known := instrOfOp_ne_none_iff
  refine ⟨?_, ?_, ?_⟩
  · rw [decode_eq_badOp_iff, ← hknown, not_ne_iff]
  · rw [decode_eq_rsvSet_iff, hknown]
    rfl
  · rw [decode_eq_cntUnused_iff, hknown, usesCnt_eq_false_iff]
    rfl

/-- Settles O1: fixed words, decoded by evaluation. -/
theorem decodesSpecWords : Obligations.DecodesSpecWords := by
  unfold Obligations.DecodesSpecWords
  decide

end Sys2Proof

/-! The issue of a command word (30_encoding R110; 60_exceptions R345, R347). -/

namespace Sys2Proof.Machine

section

variable {s : State} {w : Word}

/-- A write of CMD issues its word (10_state R36). -/
theorem step_of_cmdWrite {rest : List HostAction} (h : s.host = .regWrite 0x04 32 w :: rest) :
    step s = issue w (s.setHost rest) := by
  rw [step_of_host h, perform_regWrite_aligned (by omega) (regAligned_word 1), writeReg]

/-- Which words are not ignored (60_exceptions R347). -/
theorem isIgnored_eq_false_iff :
    isIgnored w s = false ↔ s.er.err = false ∨ opField w = 0x00#8 ∨ opField w = 0x01#8 ∨ opField w = 0x02#8 := by
  simp [isIgnored, isSystemOp, or_iff_not_imp_left]

theorem issue_of_ok {i : Instr} (hn : isIgnored w s = false) (hd : decode w = .ok i) : issue w s = exec i s := by
  rw [issue, if_neg (by simp [hn]), hd]

theorem issue_of_error {e : DecodeError} (hn : isIgnored w s = false) (hd : decode w = .error e) :
    issue w s = .next (errorEntry (illegalCause e) (opField w) s) := by
  rw [issue, if_neg (by simp [hn]), hd]

/-- A word of the full width is the one issued. -/
theorem State.withFetchWord_host (s : State) (w : Word) :
    (s.withFetchWord 32 w.toNat).host = .regWrite 0x04 32 w :: s.host := by
  rw [State.withFetchWord, State.setHost_host, Nat.mod_eq_of_lt w.isLt, BitVec.ofNat_toNat, BitVec.setWidth_eq]

end

/-- Settles O5: the word is issued at the state with its write off the queue; `withFetchWord` puts such a write there. -/
theorem stepRunsDecodedCommand : Obligations.StepRunsDecodedCommand := by
  refine ⟨fun s rest w i hs hd hn => ?_, fun s w i hd he => ?_⟩
  · rw [step_of_cmdWrite hs]
    exact issue_of_ok (isIgnored_eq_false_iff.2 hn) hd
  · rw [step_of_cmdWrite (s.withFetchWord_host w)]
    exact issue_of_ok (isIgnored_eq_false_iff.2 (.inl he)) hd

/-- Settles O6: the word raises at the state with its write off the queue, and `errorEntry` assigns the error state alone. -/
theorem illegalWordEntersError : Obligations.IllegalWordEntersError := by
  intro s rest w e hs hd hn
  rw [step_of_cmdWrite hs, issue_of_error (s := s.setHost rest) (isIgnored_eq_false_iff.2 hn) hd]
  cases e <;> rfl

end Sys2Proof.Machine

/-! The reader commands (40_bitstream R150 to R152; 41_elias_gamma R204): what they leave where they complete. -/

namespace Sys2Proof.Machine

/-! ## Pseudocode that ends -/

section

variable {α β : Type} {I pre : State → Prop}

/-- From every run at a state that meets `pre`: where the piece ends, `post` holds of its answer and its last state. -/
abbrev Cmd.Ends (pre : State → Prop) (x : Cmd α) (post : α → State → Prop) : Prop :=
  Cmd.Keeps (fun _ => True) pre x post

theorem Cmd.Ends.advance {f : State → State} {post : Unit → State → Prop} (h : ∀ s, pre s → post () (f s)) :
    Cmd.Ends pre (Machine.advance f) post :=
  fun r _ hp => ⟨⟨trivial, fun _ _ => trivial⟩, h r.st hp⟩

theorem Cmd.Ends.pure {a : α} {post : α → State → Prop} (h : ∀ s, pre s → post a s) :
    Cmd.Ends pre (Pure.pure a : Cmd α) post :=
  fun r hr hp => ⟨hr, h r.st hp⟩

/-- Past a check. -/
theorem Cmd.Ends.require_bind {ok : Bool} {c : Cause} {f : Unit → Cmd β} {post : β → State → Prop}
    (h : ok = true → Cmd.Ends pre (f ()) post) : Cmd.Ends pre (Machine.require ok c >>= f) post :=
  (Cmd.Keeps.require ok c).bind fun _ => Cmd.Keeps.ofState fun t _ ht =>
    (h ht.1).weaken (fun _ hu => by rw [hu]; exact ht.2) fun _ _ _ h => h

/-- Past a read of the state that what follows does not need. -/
theorem Cmd.Ends.look_bind {f : State → Cmd β} {post : β → State → Prop} (h : ∀ s, pre s → Cmd.Ends pre (f s) post) :
    Cmd.Ends pre (Machine.look >>= f) post :=
  Cmd.Keeps.look_bind fun s _ hs => (h s hs).weaken (fun _ ht => by rw [ht]; exact hs) fun _ _ _ h => h

/-- A command that raises nothing ends as its pseudocode does. -/
theorem exec_ends {i : Instr} {s t : State} {post : Unit → State → Prop} (h : Cmd.Ends (fun u => u = s) (bodyOf i) post)
    (he : exec i s = .next t) (hn : t.er.err = false) : post () t := by
  have hrun := h (Run.start s) (Run.start_all trivial) rfl
  rcases exec_cases he with ⟨r, hr, rfl⟩ | ⟨c, r, -, -, rfl⟩ | ⟨c, r, -, -, rfl⟩
  · rw [hr] at hrun
    exact hrun.2
  · cases hn
  · cases hn

end

section

variable {s t u : State}

/-! ## Delivering bits -/

/-- `t` is `s` after some bits were delivered: neither the announced length nor the record of overwritten bytes has moved, and
nothing else but the reader and the counter of draws. -/
def Read (s t : State) : Prop :=
  t = { s with rd := t.rd, draw := t.draw } ∧ t.rd.len = s.rd.len ∧ t.rd.stale = s.rd.stale

theorem Read.refl (s : State) : Read s s := ⟨rfl, rfl, rfl⟩

theorem Read.setRd (h : Read s t) {r : Reader} (hl : r.len = t.rd.len := by rfl) (hs : r.stale = t.rd.stale := by rfl) :
    Read s (t.setRd r) := by
  obtain ⟨ht, hlen, hstale⟩ := h
  refine ⟨?_, hl.trans hlen, hs.trans hstale⟩
  rw [ht]
  rfl

theorem Read.drew (h : Read s t) (n : Nat) : Read s (t.drew n) := by
  obtain ⟨ht, hlen, hstale⟩ := h
  refine ⟨?_, hlen, hstale⟩
  rw [ht]
  rfl

/-- A piece of pseudocode that only delivers bits. -/
abbrev Reads {α : Type} (s : State) (x : Cmd α) : Prop := Cmd.Ends (Read s) x fun _ t => Read s t

theorem reads_advance {f : State → State} (h : ∀ t, Read s t → Read s (f t)) : Reads s (advance f) := Cmd.Ends.advance h

theorem fetchByte_reads (a : Nat) : Reads s (fetchByte a) := by
  refine Cmd.Ends.look_bind fun t _ => ?_
  split
  · exact Cmd.Ends.pure fun _ h => h
  · exact (reads_advance fun _ h => h.setRd).bind fun _ => Cmd.Ends.require_bind fun _ =>
      reads_advance fun _ h => h.setRd

theorem deliverBit_reads (j : Nat) : Reads s (deliverBit j) := by
  refine (fetchByte_reads _).bind fun _ => Cmd.Ends.look_bind fun t _ => ?_
  dsimp only
  split
  · exact Cmd.Ends.pure fun _ h => h
  · exact (reads_advance fun _ h => h.drew 1).bind fun _ => Cmd.Ends.pure fun _ h => h

theorem deliverBits_reads (n : Nat) : ∀ j, Reads s (deliverBits n j) := by
  induction n with
  | zero => exact fun _ => Cmd.Ends.pure fun _ h => h
  | succ n ih =>
    exact fun j => (deliverBit_reads j).bind fun _ => (ih (j + 1)).bind fun _ => Cmd.Ends.pure fun _ h => h

theorem rdBits_reads (n : Nat) : Reads s (rdBits n) :=
  Cmd.Ends.look_bind fun _ _ => (deliverBits_reads n _).bind fun _ =>
    (reads_advance fun _ h => h.setRd).bind fun _ => Cmd.Ends.pure fun _ h => h

theorem requireAvail_reads (n : Nat) (c : Cause) : Reads s (requireAvail n c) :=
  Cmd.Ends.look_bind fun _ _ => (Cmd.Keeps.require _ c).weaken (fun _ h => h) fun _ _ _ h => h.2

theorem rdZeroRun_reads (left : Nat) : ∀ k, Reads s (rdZeroRun left k) := by
  induction left with
  | zero => exact fun _ => Cmd.Keeps.raise _
  | succ left ih =>
    refine fun k => (requireAvail_reads 1 _).bind fun _ => (rdBits_reads 1).bind fun b => ?_
    split
    · exact Cmd.Ends.pure fun _ h => h
    · exact ih (k + 1)

theorem rdEG_reads : Reads s rdEG :=
  (rdZeroRun_reads 33 0).bind fun k => (requireAvail_reads k _).bind fun _ => (rdBits_reads k).bind fun _ =>
    Cmd.Ends.require_bind fun _ => Cmd.Ends.pure fun _ h => h

/-! ## The commands -/

/-- BR.INIT (R150). -/
theorem rdInit_completes (h : s.srcLen.toNat ≤ s.par.srcMax) :
    Cmd.Completes (fun t => t = s) rdInit fun _ t => t = s.setRd
      { len := s.srcLen.toNat, pos := 0, ign := 0#3, refill := [], refillAt := 0, stale := [] } := by
  refine Cmd.Completes.look_bind ?_
  rintro t rfl
  refine Cmd.Completes.require_bind (decide_eq_true h) ((Cmd.Completes.advance _).weaken (fun _ h => h) ?_)
  rintro _ _ ⟨_, rfl, rfl⟩
  rfl

/-- BR.IGN (R151). -/
theorem brIgnBody_completes (h : s.arg0.toNat ≤ 7) :
    Cmd.Completes (fun t => t = s) brIgnBody fun _ t => t = s.setRd { s.rd with ign := BitVec.ofNat 3 s.arg0.toNat } := by
  refine Cmd.Completes.look_bind ?_
  rintro t rfl
  refine Cmd.Completes.require_bind (decide_eq_true h) ((Cmd.Completes.advance _).weaken (fun _ h => h) ?_)
  rintro _ _ ⟨_, rfl, rfl⟩
  rfl

theorem brInit_ends : Cmd.Ends (fun t => t = s) rdInit fun _ t => t = { s with rd := t.rd } := by
  refine Cmd.Ends.look_bind fun _ _ => Cmd.Ends.require_bind fun _ => Cmd.Ends.advance ?_
  rintro _ rfl
  rfl

theorem brIgn_ends : Cmd.Ends (fun t => t = s) brIgnBody fun _ t =>
    t = { s with rd := t.rd } ∧ t.rd.len = s.rd.len ∧ t.rd.stale = s.rd.stale := by
  refine Cmd.Ends.look_bind fun _ _ => Cmd.Ends.require_bind fun _ => Cmd.Ends.advance ?_
  rintro _ rfl
  exact ⟨rfl, rfl, rfl⟩

theorem egDec_ends : Cmd.Ends (fun t => t = s) egDecBody fun _ t => ∃ u v, Read s u ∧ t = u.setResult v := by
  refine ((rdEG_reads (s := s)).weaken (fun t (h : t = s) => h ▸ .refl s) fun _ _ _ h => h).bind fun _ => Cmd.Ends.advance ?_
  exact fun u hu => ⟨u, _, hu, rfl⟩

theorem brRead_ends (cnt : Nat) : Cmd.Ends (fun t => t = s) (brReadBody cnt) fun _ t =>
    ∃ u v n, Read s u ∧ t = (u.setResult v).setRcnt n := by
  refine Cmd.Ends.require_bind fun _ => Cmd.Ends.look_bind fun _ _ => ?_
  refine ((rdBits_reads (s := s) _).weaken (fun t (h : t = s) => h ▸ .refl s) fun _ _ _ h => h).bind fun _ =>
    Cmd.Ends.advance ?_
  exact fun u hu => ⟨u, _, _, hu, rfl⟩

end

/-- Settles O22: each of the two commands makes one assignment to the reader. -/
theorem brInitAndBrIgn : Obligations.BrInitAndBrIgn := by
  refine ⟨fun s h => ?_, fun s h => ?_⟩
  · obtain ⟨_, he, rfl⟩ := exec_of_completes (i := .brInit) (rdInit_completes h)
    exact he
  · obtain ⟨_, he, rfl⟩ := exec_of_completes (i := .brIgn) (brIgnBody_completes h)
    have hign : (BitVec.ofNat 3 s.arg0.toNat).toNat = s.arg0.toNat := by
      rw [BitVec.toNat_ofNat, Nat.mod_eq_of_lt (by omega)]
    exact ⟨_, he, rfl, hign, by rw [Reader.logicalLen, State.setRd_rd, hign]⟩

/-- Settles O23: the bits are delivered by `RdBits`, then RESULT and RCNT are written. -/
theorem brReadReturnsBits : Obligations.BrReadReturnsBits := by
  intro s cnt hc hs hst
  obtain ⟨u, ⟨⟨rf, a, rfl⟩, -⟩, he⟩ := exec_brRead_completes hc hs hst
  exact ⟨_, he, rfl, rfl, rfl, rfl⟩

/-- Settles O18: BR.INIT and BR.IGN assign the reader only; BR.READ and EG.DEC deliver bits, then write their results. -/
theorem readerCommandsFrame : Obligations.ReaderCommandsFrame := by
  intro i s t _ he hn
  refine ⟨?_, ?_, ?_, ?_⟩
  · rintro (rfl | rfl)
    · exact exec_ends (i := .brInit) brInit_ends he hn
    · exact (exec_ends (i := .brIgn) brIgn_ends he hn).1
  · rintro rfl
    obtain ⟨u, v, ⟨hu, -⟩, rfl⟩ := exec_ends (i := .egDec) egDec_ends he hn
    rw [hu]
    rfl
  · rintro cnt rfl
    obtain ⟨u, v, n, ⟨hu, -⟩, rfl⟩ := exec_ends (i := .brRead cnt) (brRead_ends cnt) he hn
    rw [hu]
    rfl
  · rintro (rfl | rfl | ⟨cnt, rfl⟩)
    · exact (exec_ends (i := .brIgn) brIgn_ends he hn).2
    · obtain ⟨u, v, ⟨-, hu⟩, rfl⟩ := exec_ends (i := .egDec) egDec_ends he hn
      exact hu
    · obtain ⟨u, v, n, ⟨-, hu⟩, rfl⟩ := exec_ends (i := .brRead cnt) (brRead_ends cnt) he hn
      exact hu

end Sys2Proof.Machine

/-! The errors that change the error state only, at the first checks of a command (60_exceptions R341, R346). -/

namespace Sys2Proof.Machine

/-! ## Pseudocode that raises -/

section

variable {α β : Type} {pre : State → Prop} {c : Cause}

/-- From every run at a state that meets `pre`, the piece raises `c`. -/
def Cmd.Fails (pre : State → Prop) (x : Cmd α) (c : Cause) : Prop :=
  ∀ r : Run, pre r.st → ∃ r', x r = .error c r'

theorem Cmd.Fails.bind {x : Cmd α} {f : α → Cmd β} (hx : Cmd.Fails pre x c) : Cmd.Fails pre (x >>= f) c := by
  intro r hp
  obtain ⟨r', hr⟩ := hx r hp
  exact ⟨r', by rw [Cmd.bind_apply, hr]⟩

theorem Cmd.Fails.look_bind {s : State} {f : State → Cmd β} (h : Cmd.Fails (fun t => t = s) (f s) c) :
    Cmd.Fails (fun t => t = s) (Machine.look >>= f) c := by
  rintro r rfl
  exact h r rfl

/-- A check that fails. -/
theorem Cmd.Fails.require_bind {ok : Bool} {f : Unit → Cmd β} (h : ok = false) :
    Cmd.Fails pre (Machine.require ok c >>= f) c :=
  fun r _ => ⟨r, by rw [Cmd.bind_apply, require_apply, h]; rfl⟩

/-- A check that holds, before the failure. -/
theorem Cmd.Fails.passed_bind {ok : Bool} {d : Cause} {f : Unit → Cmd β} (hok : ok = true) (h : Cmd.Fails pre (f ()) c) :
    Cmd.Fails pre (Machine.require ok d >>= f) c := by
  intro r hp
  rw [Cmd.bind_apply, require_apply, if_pos hok]
  exact h r hp

theorem Cmd.Fails.noteMark_bind {m : Nat} {f : Unit → Cmd β} (h : Cmd.Fails pre (f ()) c) :
    Cmd.Fails pre (Machine.noteMark m >>= f) c :=
  fun _ hp => h _ hp

/-- A command whose pseudocode raises ILLEGAL, BAD_PARAM or PROTOCOL (60_exceptions R345, R346). -/
theorem exec_of_fails {i : Instr} {op : BitVec 8} {s : State} (hop : opcode i = op) (hc : c.code.precise = true)
    (h : Cmd.Fails (fun t => t = s) (bodyOf i) c) : exec i s = .next (errorEntry c op s) := by
  obtain ⟨r, hr⟩ := h (Run.start s) rfl
  rw [exec_eq_runCmd, hop]
  exact runCmd_of_precise hr hc

end

section

variable {s : State}

/-! ## A flush point with an incomplete byte -/

theorem flushPoint_fails (hf : s.wr.frac ≠ []) : Cmd.Fails (fun t => t = s) flushPoint .unalignedFlush :=
  Cmd.Fails.look_bind <| Cmd.Fails.require_bind (by simpa using hf)

theorem bwRawBody_fails (ha : s.arg0.toNat ≤ 255) (hf : s.wr.frac ≠ []) :
    Cmd.Fails (fun t => t = s) bwRawBody .unalignedFlush :=
  Cmd.Fails.look_bind <| Cmd.Fails.passed_bind (decide_eq_true ha) (flushPoint_fails hf).bind

/-! ## Operands out of range -/

theorem rdInit_fails (h : s.par.srcMax < s.srcLen.toNat) : Cmd.Fails (fun t => t = s) rdInit .srcRange :=
  Cmd.Fails.look_bind <| Cmd.Fails.require_bind (decide_eq_false (Nat.not_le.2 h))

theorem brIgnBody_fails (h : 7 < s.arg0.toNat) : Cmd.Fails (fun t => t = s) brIgnBody .ignRange :=
  Cmd.Fails.look_bind <| Cmd.Fails.require_bind (decide_eq_false (Nat.not_le.2 h))

theorem bwRawBody_fails_range (h : 255 < s.arg0.toNat) : Cmd.Fails (fun t => t = s) bwRawBody .rawRange :=
  Cmd.Fails.look_bind <| Cmd.Fails.require_bind (decide_eq_false (Nat.not_le.2 h))

/-- A value outside 1 to `m` fails the two comparisons of a range check. -/
theorem range_check_false {n m : Nat} (h : n < 1 ∨ m < n) : (decide (1 ≤ n) && decide (n ≤ m)) = false := by
  rw [Bool.and_eq_false_iff, decide_eq_false_iff_not, decide_eq_false_iff_not]
  omega

theorem range_check_true {n m : Nat} (h1 : 1 ≤ n) (h2 : n ≤ m) : (decide (1 ≤ n) && decide (n ≤ m)) = true := by
  rw [decide_eq_true h1, decide_eq_true h2]
  rfl

/-- LZ.COMP checks `hb` first (42_lzss R241). -/
theorem lzCompBody_fails_hb (h : s.arg0.toNat < 1 ∨ s.par.hbMax < s.arg0.toNat) :
    Cmd.Fails (fun t => t = s) lzCompBody .hbRange :=
  Cmd.Fails.look_bind <| Cmd.Fails.require_bind (range_check_false h)

/-- LZ.COMP checks `mb` second (42_lzss R241). -/
theorem lzCompBody_fails_mb (h1 : 1 ≤ s.arg0.toNat) (h2 : s.arg0.toNat ≤ s.par.hbMax)
    (h : s.arg1.toNat < 1 ∨ s.par.mbMax < s.arg1.toNat) : Cmd.Fails (fun t => t = s) lzCompBody .mbRange :=
  Cmd.Fails.look_bind <| Cmd.Fails.passed_bind (range_check_true h1 h2) <| Cmd.Fails.require_bind (range_check_false h)

/-- LZ.COMP checks SRC_LEN last (42_lzss R241). -/
theorem lzCompBody_fails_src (h1 : 1 ≤ s.arg0.toNat) (h2 : s.arg0.toNat ≤ s.par.hbMax) (h3 : 1 ≤ s.arg1.toNat)
    (h4 : s.arg1.toNat ≤ s.par.mbMax) (h : s.par.srcMax < s.srcLen.toNat) :
    Cmd.Fails (fun t => t = s) lzCompBody .srcRange :=
  Cmd.Fails.look_bind <| Cmd.Fails.passed_bind (range_check_true h1 h2) <|
    Cmd.Fails.passed_bind (range_check_true h3 h4) (rdInit_fails h).bind

/-- SF.COMP checks `WL` first (43_shannon_fano R291). -/
theorem sfCompBody_fails_wl (h : s.arg0.toNat < 1 ∨ s.par.wlMax < s.arg0.toNat) :
    Cmd.Fails (fun t => t = s) sfCompBody .wlRange :=
  Cmd.Fails.look_bind <| Cmd.Fails.require_bind (range_check_false h)

/-- SF.COMP checks SRC_LEN last (43_shannon_fano R291). -/
theorem sfCompBody_fails_src (h1 : 1 ≤ s.arg0.toNat) (h2 : s.arg0.toNat ≤ s.par.wlMax)
    (h : s.par.srcMax < s.srcLen.toNat) : Cmd.Fails (fun t => t = s) sfCompBody .srcRange :=
  Cmd.Fails.look_bind <| Cmd.Fails.passed_bind (range_check_true h1 h2) (rdInit_fails h).bind

end

/-- Settles O32: `FlushPoint` checks `wfrac` before it does anything. -/
theorem unalignedFlushIsProtocolError : Obligations.UnalignedFlushIsProtocolError := fun _ hf =>
  ⟨exec_of_fails (i := .bwFlush) rfl rfl (flushPoint_fails hf),
    exec_of_fails (i := .bwSeek0) rfl rfl (Cmd.Fails.noteMark_bind (flushPoint_fails hf).bind),
    fun ha => exec_of_fails (i := .bwRaw) rfl rfl (bwRawBody_fails ha hf)⟩

/-- Settles O33: each command checks its operands before it does anything, in the order of R241 and R291. -/
theorem badOperandsRefused : Obligations.BadOperandsRefused := by
  intro s bad
  refine ⟨fun cnt hc => ?_, fun h => exec_of_fails (i := .brIgn) rfl rfl (brIgnBody_fails h),
    fun h => exec_of_fails (i := .bwRaw) rfl rfl (bwRawBody_fails_range h), fun h => ?_,
    fun h => exec_of_fails (i := .lzComp) rfl rfl (lzCompBody_fails_hb h),
    fun h1 h2 => ⟨fun h => exec_of_fails (i := .lzComp) rfl rfl (lzCompBody_fails_mb h1 h2 h),
      fun h3 h4 h => exec_of_fails (i := .lzComp) rfl rfl (lzCompBody_fails_src h1 h2 h3 h4 h)⟩,
    fun h => exec_of_fails (i := .sfComp) rfl rfl (sfCompBody_fails_wl h),
    fun h1 h2 h => exec_of_fails (i := .sfComp) rfl rfl (sfCompBody_fails_src h1 h2 h)⟩
  · have hr : cntInRange cnt = false := decide_eq_false (Nat.not_le.2 hc)
    exact ⟨exec_of_fails (i := .brRead cnt) (op := 0x12#8) rfl rfl (Cmd.Fails.require_bind hr),
      exec_of_fails (i := .bwWrite cnt) (op := 0x21#8) rfl rfl (Cmd.Fails.require_bind hr)⟩
  · exact ⟨exec_of_fails (i := .brInit) rfl rfl (rdInit_fails h), exec_of_fails (i := .lzDec) rfl rfl (rdInit_fails h).bind,
      exec_of_fails (i := .sfDec) rfl rfl (rdInit_fails h).bind⟩

end Sys2Proof.Machine

/-! The writer commands where they complete (40_bitstream R155 to R160), and the pad count law (R163). -/

namespace Sys2Proof.Machine

section

variable {s t u : State} {bits more : Bits}

/-! ## What each command leaves -/

/-- The state a command answers, where its pseudocode completes. -/
theorem exec_post {i : Instr} {post : Unit → State → Prop} (h : Cmd.Completes (fun v => v = s) (bodyOf i) post)
    (he : exec i s = .next t) : post () t := by
  obtain ⟨v, hv, hp⟩ := exec_of_completes h
  rw [he] at hv
  cases hv
  exact hp

/-- What writing leaves, as the claims state it. -/
theorem WroteBits.appended (h : WroteBits s t bits) : Appended s t bits := by
  obtain ⟨m, st, fr, rfl, -, -, hc, hb⟩ := h
  have hlen : (bytesOf (s.wr.frac ++ bits)).length = (s.wr.frac ++ bits).length / 8 := bytesOf_length _ _ rfl
  rw [hlen] at hc hb
  refine ⟨rfl, rfl, ?_, ?_, rfl, rfl, fun a => ?_, hb⟩
  · simp [hlen]
  · simp only [State.setWr_wr, ← List.length_eq_zero_iff, hlen]
  · simp [State.unflushed, hc a]

/-- The bits of a whole number of bytes leave none over. -/
theorem tailBits_eq_nil {b : Bits} (h : b.length % 8 = 0) : tailBits b = [] :=
  List.length_eq_zero_iff.1 (by rw [tailBits_length, h])

/-- `Fill()` (R147) writes the zero bits up to the byte boundary. -/
theorem fill_wroteBits (s : State) (ho : s.stagedSorted) (hf : s.wr.frac.length < 8)
    (hcap : s.canStore (if s.wr.frac = [] then 0 else 1)) :
    Cmd.Completes (fun t => t = s) fill fun p t =>
      p = (8 - s.wr.frac.length) % 8 ∧ WroteBits s t (List.replicate p false) := by
  refine (fill_completes s ho hf hcap).weaken (fun _ h => h) ?_
  rintro p t ⟨rfl, hw⟩
  refine ⟨rfl, ?_⟩
  rw [WroteBits, tailBits_eq_nil (by simp only [List.length_append, List.length_replicate]; omega), List.length_replicate]
  exact hw

/-- BW.FILL (R157) where the byte it completes can be stored. -/
theorem exec_bwFill_completes (ho : s.stagedSorted) (hf : s.wr.frac.length < 8)
    (hcap : s.canStore (if s.wr.frac = [] then 0 else 1)) :
    ∃ u, WroteBits s u (List.replicate ((8 - s.wr.frac.length) % 8) false) ∧
      exec .bwFill s = .next (u.setResult (BitVec.ofNat 32 ((8 - s.wr.frac.length) % 8))) := by
  have hbody : Cmd.Completes (fun v => v = s) bwFillBody fun _ v => ∃ u,
      WroteBits s u (List.replicate ((8 - s.wr.frac.length) % 8) false) ∧
        v = u.setResult (BitVec.ofNat 32 ((8 - s.wr.frac.length) % 8)) := by
    refine (fill_wroteBits s ho hf hcap).bind fun p => (Cmd.Completes.advance _).weaken (fun _ h => h) ?_
    rintro _ _ ⟨u, rfl, rfl, hu⟩
    exact ⟨u, hu, rfl⟩
  obtain ⟨_, he, u, hu, rfl⟩ := exec_of_completes (i := .bwFill) hbody
  exact ⟨u, hu, he⟩

/-- BW.RAW's operand in range is passed to `RawByte` (R160). -/
theorem bwRawBody_completes {post : Unit → State → Prop} (ha : s.arg0.toNat ≤ 255)
    (h : Cmd.Completes (fun t => t = s) (rawByte (s.arg0.setWidth 8)) post) :
    Cmd.Completes (fun t => t = s) bwRawBody post := by
  refine Cmd.Completes.look_bind ?_
  rintro v rfl
  exact Cmd.Completes.require_bind (decide_eq_true ha) h

end

/-- Settles O27: `WrInit` drains the staging buffer and replaces the writer. -/
theorem bwInitStartsOutput : Obligations.BwInitStartsOutput := by
  intro s hs
  obtain ⟨_, he, m, rfl, hb⟩ := exec_of_completes (i := .bwInit) (wrInit_completes s hs)
  exact ⟨_, he, rfl, hb⟩

/-- Settles O28: BW.WRITE is `WrBits` of the low bits of ARG0. -/
theorem bwWriteAppends : Obligations.BwWriteAppends := by
  intro s cnt hi hc hs
  obtain ⟨t, he, hw⟩ := exec_bwWrite_completes hc hi.stagedOrder hi.frac hs
  exact ⟨t, he, hw.appended⟩

/-- Settles O29: the zero bits and those of the incomplete byte are a whole byte, or none. -/
theorem bwFillCompletesByte : Obligations.BwFillCompletesByte := by
  intro s hi hs
  obtain ⟨u, hu, he⟩ := exec_bwFill_completes hi.stagedOrder hi.frac hs
  refine ⟨_, u, he, rfl, hu.appended, ?_⟩
  have hf := hi.frac
  show u.wr.frac = []
  rw [hu.frac, tailBits_eq_nil]
  simp only [List.length_append, List.length_replicate]
  omega

/-- Settles O30: `FlushPoint` drains the staging buffer and moves `cmark`; `Seek0` then sets both positions to 0. -/
theorem bwFlushAndSeek : Obligations.BwFlushAndSeek := by
  intro s hf hs
  obtain ⟨_, he, m, rfl, hb⟩ := exec_of_completes (i := .bwFlush) (flushPoint_completes s hs hf)
  obtain ⟨_, he', m', rfl, hb'⟩ := exec_of_completes (i := .bwSeek0) (seek0_completes s hs hf)
  exact ⟨⟨_, he, ⟨rfl, hb⟩, rfl, hf, rfl, rfl⟩, ⟨_, he', ⟨rfl, hb'⟩, rfl, hf, rfl, rfl⟩⟩

/-- Settles O31: `RawByte` stores the byte between two flush points. -/
theorem bwRawStoresByte : Obligations.BwRawStoresByte := by
  intro s hf ha hs
  obtain ⟨_, he, m, rfl, hb⟩ :=
    exec_of_completes (i := .bwRaw) (bwRawBody_completes ha (rawByte_completes s hf hs (s.arg0.setWidth 8)))
  exact ⟨_, he, rfl, rfl, hb⟩

section

variable {s t u : State} {bits more : Bits}

/-! ## A session of writes -/

/-- `t` is a point of a session of writer commands that BW.INIT started at `s`: the writer holds the output bits `bits`, and
neither the launch parameters nor the error state have moved. -/
structure Session (s : State) (bits : Bits) (t : State) : Prop where
  /-- the bits written. -/
  held : Holding t s.storedByte bits
  /-- the launch parameters. -/
  par : t.par = s.par
  /-- the error state. -/
  er : t.er = s.er

theorem Session.canStore (h : Session s bits t) {k : Nat} (hr : Room s.par (bits.length / 8 + k)) : t.canStore k :=
  stagedSorted_canStore h.held (by rw [h.par]; exact hr)

theorem Session.frac_length (h : Session s bits t) : t.wr.frac.length = bits.length % 8 := by
  rw [h.held.1, tailBits_length]

theorem Session.sorted (h : Session s bits t) : t.stagedSorted := by
  obtain ⟨-, -, -, -, -, hsort, -⟩ := h.held
  exact hsort

theorem Session.wrote (h : Session s bits t) (hw : WroteBits t u more) : Session s (bits ++ more) u := by
  obtain ⟨hheld, w, m, rfl⟩ := h.held.wrote hw
  exact ⟨hheld, h.par, h.er⟩

/-- BW.INIT starts a session (R155). -/
theorem session_of_bwInit (hs : s.stagedSound) (he : exec .bwInit s = .next t) : Session s [] t := by
  obtain ⟨m, ht, hb⟩ := exec_post (i := .bwInit) (wrInit_completes s hs) he
  subst ht
  refine ⟨⟨rfl, rfl, rfl, rfl, rfl, List.Pairwise.nil, nofun, fun a => ?_⟩, rfl, rfl⟩
  exact (hb a).trans (if_neg (Nat.not_lt_zero a)).symm

/-- BW.WRITE of `n` bits of `v` in a session with room (R156). -/
theorem Session.bwWrite (h : Session s bits t) {n : Nat} {v : Word} (hn : n ≤ 32) (hr : Room s.par ((bits.length + n) / 8))
    (he : exec (.bwWrite n) { t with arg0 := v } = .next u) : Session s (bits ++ nb v.toNat n) u := by
  have hv : Session s bits { t with arg0 := v } := ⟨h.held, h.par, h.er⟩
  have hfrac := h.frac_length
  exact hv.wrote (wroteBits_of_exec hn h.sorted (by omega) (h.canStore (hr.mono (by omega))) he)

/-- The next write of a session, as R163's statement chains them. -/
def writeNext (o : Host.Outcome State Fault Refusal) (x : Nat × Word) : Host.Outcome State Fault Refusal :=
  match o with
  | .next st => exec (.bwWrite x.1) { st with arg0 := x.2 }
  | other => other

/-- The bits of a list of writes (R156). -/
def writtenBits (writes : List (Nat × Word)) : Bits := writes.flatMap fun x => nb x.2.toNat x.1

theorem writtenBits_cons (x : Nat × Word) (writes : List (Nat × Word)) :
    writtenBits (x :: writes) = nb x.2.toNat x.1 ++ writtenBits writes := List.flatMap_cons

theorem writtenBits_length (writes : List (Nat × Word)) : (writtenBits writes).length = (writes.map (·.1)).sum := by
  simp [writtenBits, List.length_flatMap]

/-- Any list of writes with room for their bits. -/
theorem Session.writes (writes : List (Nat × Word)) : ∀ {bits : Bits} {t : State}, Session s bits t →
    (∀ x ∈ writes, x.1 ≤ 32) → Room s.par ((bits.length + (writtenBits writes).length) / 8) →
    writes.foldl writeNext (.next t) = .next u → Session s (bits ++ writtenBits writes) u := by
  induction writes with
  | nil =>
    intro bits t h _ _ he
    cases he
    rwa [writtenBits, List.flatMap_nil, List.append_nil]
  | cons x rest ih =>
    intro bits t h hx hr he
    rw [List.forall_mem_cons] at hx
    rw [writtenBits_cons, List.length_append, nb_length] at hr
    have hstep := exec_next (.bwWrite x.1) { t with arg0 := x.2 }
    rw [List.foldl_cons, writeNext, hstep] at he
    have h' := ih (h.bwWrite hx.1 (hr.mono (by omega)) hstep) hx.2
      (by rw [List.length_append, nb_length]; exact hr.mono (by omega)) he
    rwa [List.append_assoc, ← writtenBits_cons] at h'

/-- BW.FILL completes the last byte of a session with zeros, and RESULT is their number (R157). -/
theorem Session.bwFill (h : Session s bits t) (hr : Room s.par ((bits.length + 7) / 8)) (he : exec .bwFill t = .next u) :
    Session s (bits ++ List.replicate (fillCount bits.length) false) u ∧
      u.result = BitVec.ofNat 32 (fillCount bits.length) := by
  have hfrac := h.frac_length
  have hroom : bits.length / 8 + (if t.wr.frac = [] then 0 else 1) ≤ (bits.length + 7) / 8 := by
    split
    · omega
    · rename_i hne
      have := List.length_pos_iff.2 hne
      omega
  obtain ⟨w, hw, he'⟩ := exec_bwFill_completes h.sorted (by omega) (h.canStore (hr.mono hroom))
  rw [he] at he'
  cases he'
  rw [hfrac] at hw ⊢
  obtain ⟨hheld, hpar, her⟩ := h.wrote hw
  exact ⟨⟨hheld, hpar, her⟩, rfl⟩

/-- BW.FLUSH of whole bytes: the output is the bits written (R158). -/
theorem Session.bwFlush (h : Session s bits t) (h8 : bits.length % 8 = 0) (he : exec .bwFlush t = .next u) :
    u.output = bytesOf bits ∧ u.er = s.er := by
  obtain ⟨hfrac, -, hlen, -, -, -, hsound, hb⟩ := h.held
  obtain ⟨m, hu, hub⟩ :=
    exec_post (i := .bwFlush) (flushPoint_completes t hsound (by rw [hfrac, tailBits_eq_nil h8])) he
  subst hu
  refine ⟨?_, h.er⟩
  have hbl : (bytesOf bits).length = bits.length / 8 := bytesOf_length _ _ rfl
  apply List.ext_getElem
  · simp [State.output, hlen, hbl]
  · intro k h1 h2
    rw [hbl] at h2
    simp only [State.output, List.getElem_map, List.getElem_range]
    rw [hub, hb, if_pos h2, List.getD_eq_getElem]

/-! ## Reading back -/

theorem fillCount_lt (n : Nat) : fillCount n < 8 := Nat.mod_lt _ (by decide)

theorem add_fillCount_mod (n : Nat) : (n + fillCount n) % 8 = 0 := by
  rw [fillCount]
  omega

/-- A reader at the start of a source of whole bytes of bits whose ignore count is the number of the bits' padding. -/
theorem unread_of_padded {bits pad : Bits} (h8 : (bits ++ pad).length % 8 = 0)
    (hsrc : s.source s.rd.len = bytesOf (bits ++ pad)) (hpos : s.rd.pos = 0) (hign : s.rd.ign.toNat = pad.length) :
    s.unread = bits := by
  have hlen : 8 * s.rd.len = (bits ++ pad).length := by
    have h := congrArg List.length hsrc
    rw [bytesOf_length _ _ rfl, State.source, List.length_map, List.length_range] at h
    omega
  rw [State.unread, State.logicalStream, hsrc, bitsOf_bytesOf ((bits ++ pad).length / 8) _ (by omega), Reader.logicalLen,
    hlen, hign, hpos, List.drop_zero, List.length_append, Nat.add_sub_cancel, List.take_left]

end

/-- Settles O36: the session stores the bits written and their padding, whole bytes; the ignore count cuts off the padding. -/
theorem padCountLaw : Obligations.PadCountLaw := by
  intro writes s a b c d u hx ⟨hs, hroom⟩ ha hb hc hd hlen hpos hign hsrc
  rw [← writtenBits_length] at hroom
  have hsa := session_of_bwInit hs ha
  have hsb : Session s (writtenBits writes) b := hsa.writes writes hx (Room.mono hroom (by simp; omega)) hb
  obtain ⟨hsc, hres⟩ := hsb.bwFill hroom hc
  have h8 : (writtenBits writes ++ List.replicate (fillCount (writtenBits writes).length) false).length % 8 = 0 := by
    rw [List.length_append, List.length_replicate, add_fillCount_mod]
  obtain ⟨hout, her⟩ := hsc.bwFlush h8 hd
  suffices hread : u.unread = writtenBits writes from ⟨her, hread⟩
  refine unread_of_padded h8 ?_ hpos ?_
  · rw [← hout, hlen]
    exact List.map_congr_left fun x hx => hsrc x (List.mem_range.1 hx)
  · have := fillCount_lt (writtenBits writes).length
    rw [hign, hres, BitVec.toNat_ofNat, Nat.mod_eq_of_lt (by omega), List.length_replicate]

end Sys2Proof.Machine

/-! The writer primitives wherever they end (40_bitstream R143 to R149), room or no room: which bytes a command has left
alone, and what ties `wfrac`, `wr_total` and the record of unflushed bytes (R162, 70_reset R392). -/

namespace Sys2Proof.Machine

section

variable {α β : Type} {pre : State → Prop} {C : Prop}

/-! ## What an end implies -/

/-- What holds whatever the state still holds later. -/
theorem Cmd.Ends.const (x : Cmd α) : Cmd.Ends (fun _ => C) x fun _ _ => C := by
  intro r _ hC
  split
  · exact ⟨⟨trivial, fun _ _ => trivial⟩, hC⟩
  · exact ⟨trivial, fun _ _ => trivial⟩

theorem Cmd.Ends.bind_const {x : Cmd α} {f : α → Cmd β} (h : Cmd.Ends pre x fun _ _ => C) :
    Cmd.Ends pre (x >>= f) fun _ _ => C :=
  h.bind fun a => Cmd.Ends.const (f a)

/-- Where an end implies what completion needs, the piece ends as it completes. -/
theorem Cmd.Ends.of_completes {x : Cmd α} {post : α → State → Prop} (hn : Cmd.Ends pre x fun _ _ => C)
    (hc : C → Cmd.Completes pre x post) : Cmd.Ends pre x post := by
  intro r hr hp
  have h := hn r hr hp
  cases hx : x r with
  | error c r' => exact ⟨trivial, fun _ _ => trivial⟩
  | ok a r' =>
    rw [hx] at h
    obtain ⟨b, r'', hb, hpost⟩ := hc h.2 r hp
    rw [hx] at hb
    cases hb
    exact ⟨⟨trivial, fun _ _ => trivial⟩, hpost⟩

end

section

variable {s t u : State} {lo mid hi : Nat}

/-! ## Flush points that end -/

theorem drainBytes_ends_sound (p : Params) (cells : List Host.Cell) :
    Cmd.Ends (fun t => t.par = p) (drainBytes cells) fun _ _ => ∀ c ∈ cells, snkFaultAt p c.1 = false := by
  induction cells with
  | nil => exact Cmd.Ends.pure fun _ _ => nofun
  | cons c rest ih =>
    refine Cmd.Ends.look_bind fun t ht => Cmd.Ends.require_bind fun hok => ?_
    refine (Cmd.Ends.advance (post := fun _ u => u.par = p) ?_).bind fun _ => ih.weaken (fun _ h => h) ?_
    · exact fun _ hu => hu
    · intro _ _ _ hrest
      rw [ht, Bool.not_eq_true'] at hok
      exact List.forall_mem_cons.2 ⟨hok, hrest⟩

/-- A drain that ends has written no failing byte (60_exceptions R343). -/
theorem drain_ends_sound : Cmd.Ends (fun t => t = s) drain fun _ _ => s.stagedSound := by
  refine Cmd.Keeps.look_bind ?_
  rintro t - rfl
  exact (drainBytes_ends_sound t.par t.wr.staging).weaken (fun _ h => by rw [h]) fun _ _ _ h => h

theorem drain_ends : Cmd.Ends (fun t => t = s) drain fun _ t => Drained s t :=
  .of_completes drain_ends_sound (drain_completes s)

theorem flushPoint_ends_sound : Cmd.Ends (fun t => t = s) flushPoint fun _ _ => s.stagedSound ∧ s.wr.frac = [] := by
  refine Cmd.Keeps.look_bind ?_
  rintro t - rfl
  refine Cmd.Ends.require_bind fun hf => Cmd.Ends.bind_const (drain_ends_sound.weaken (fun _ h => h) fun _ _ _ hs => ?_)
  exact ⟨hs, List.isEmpty_iff.1 hf⟩

/-- A flush point that ends (R146): the writer was aligned, and SNK holds every byte it stored. -/
theorem flushPoint_ends : Cmd.Ends (fun t => t = s) flushPoint fun _ t =>
    s.wr.frac = [] ∧ FlushedTo s t { s.wr with mark := s.wr.pos } := by
  refine .of_completes flushPoint_ends_sound fun h => (flushPoint_completes s h.1 h.2).weaken (fun _ h => h) ?_
  rintro _ _ ⟨m, rfl, hb⟩
  exact ⟨h.2, rfl, hb⟩

/-- `Seek0()` that ends (R148). -/
theorem seek0_ends : Cmd.Ends (fun t => t = s) seek0 fun _ t => FlushedTo s t { s.wr with pos := 0, mark := 0 } := by
  have hsound : Cmd.Ends (fun t => t = s) seek0 fun _ _ => s.stagedSound ∧ s.wr.frac = [] :=
    (Cmd.Keeps.noteMark 0).bind fun _ => flushPoint_ends_sound.bind_const
  refine .of_completes hsound fun h => (seek0_completes s h.1 h.2).weaken (fun _ h => h) ?_
  rintro _ _ ⟨m, rfl, hb⟩
  exact ⟨rfl, hb⟩

/-- The writer of a new output (R145). -/
def newWriter : Writer := { frac := [], pos := 0, len := 0, total := 0#32, mark := 0, staging := [], fresh := [] }

/-- `WrInit()` that ends (R145). -/
theorem wrInit_ends : Cmd.Ends (fun t => t = s) wrInit fun _ t => FlushedTo s t newWriter := by
  have hsound : Cmd.Ends (fun t => t = s) wrInit fun _ _ => s.stagedSound :=
    (Cmd.Keeps.noteMark 0).bind fun _ => drain_ends_sound.bind_const
  refine .of_completes hsound fun h => (wrInit_completes s h).weaken (fun _ h => h) ?_
  rintro _ _ ⟨m, rfl, hb⟩
  exact ⟨rfl, hb⟩

/-! ## Bytes left alone -/

/-- The byte last stored at index `a` is the same in `t` as in `s`; and where no staged byte of `s` is to go there, the byte
SNK holds is, and none of `t` is either. -/
def SameAt (s t : State) (a : Nat) : Prop :=
  t.storedByte a = s.storedByte a ∧
    ((∀ c ∈ s.wr.staging, c.1 ≠ a) → t.snkByte a = s.snkByte a ∧ ∀ c ∈ t.wr.staging, c.1 ≠ a)

theorem SameAt.trans {a : Nat} (h : SameAt s t a) (h' : SameAt t u a) : SameAt s u a := by
  refine ⟨h'.1.trans h.1, fun hs => ?_⟩
  obtain ⟨hb, ht⟩ := h.2 hs
  obtain ⟨hb', hu⟩ := h'.2 ht
  exact ⟨hb'.trans hb, hu⟩

theorem overlay_of_ne {a : Nat} {v : Byte} {cells : List Host.Cell} (h : ∀ c ∈ cells, c.1 ≠ a) : overlay a v cells = v := by
  induction cells with
  | nil => rfl
  | cons c rest ih =>
    rw [List.forall_mem_cons] at h
    rw [overlay, List.foldl_cons, if_neg h.1]
    exact ih h.2

/-- Draining the whole staging buffer leaves every index alone in this sense. -/
theorem sameAt_of_drained (hb : ∀ a, t.snkByte a = s.storedByte a) (hs : t.wr.staging = []) (a : Nat) : SameAt s t a := by
  have hstored : t.storedByte a = s.storedByte a := by rw [storedByte_eq, hs]; exact hb a
  refine ⟨hstored, fun h => ⟨?_, by rw [hs]; nofun⟩⟩
  rw [hb, storedByte_eq, overlay_of_ne h]

theorem FlushedTo.sameAt {w : Writer} (h : FlushedTo s t w) (a : Nat) : SameAt s t a := by
  obtain ⟨ht, hb⟩ := h
  exact sameAt_of_drained hb (by rw [ht]) a

theorem FlushedTo.onlyWriter {w : Writer} (h : FlushedTo s t w) : OnlyWriter s t := ⟨_, _, h.1⟩

theorem FlushedTo.wr {w : Writer} (h : FlushedTo s t w) : t.wr = { w with staging := [], fresh := [] } := by
  rw [h.1]

/-- `t` is `s` after a stretch of writing that has stored the bytes of the indices `lo` to `hi - 1`: they count as stored since
the last flush point (20_memory R80), and every other index is left alone. -/
structure Touched (s t : State) (lo hi : Nat) : Prop where
  /-- only the writer and SNK have moved. -/
  frame : OnlyWriter s t
  /-- there was no flush point. -/
  mark : t.wr.mark = s.wr.mark
  /-- the bytes stored since the last flush point. -/
  fresh : ∀ a, t.unflushed a = true ↔ s.unflushed a = true ∨ (lo ≤ a ∧ a < hi)
  /-- staged bytes stay in index order. -/
  sorted : s.stagedSorted → t.stagedSorted
  /-- the other bytes. -/
  kept : s.stagedSorted → ∀ a, (a < lo ∨ hi ≤ a) → SameAt s t a

theorem Touched.trans (h : Touched s t lo mid) (h' : Touched t u mid hi) (h1 : lo ≤ mid) (h2 : mid ≤ hi) :
    Touched s u lo hi where
  frame := h.frame.trans h'.frame
  mark := h'.mark.trans h.mark
  fresh a := by
    rw [h'.fresh, h.fresh, or_assoc]
    exact or_congr_right (by omega)
  sorted hs := h'.sorted (h.sorted hs)
  kept hs a ha := (h.kept hs a (by omega)).trans (h'.kept (h.sorted hs) a (by omega))

/-- An assignment to the writer that is not to the buffers, the record of unflushed bytes or `cmark` touches no index. -/
theorem touched_setWr (s : State) {w : Writer} (p : Nat) (hm : w.mark = s.wr.mark := by rfl)
    (hs : w.staging = s.wr.staging := by rfl) (hf : w.fresh = s.wr.fresh := by rfl) : Touched s (s.setWr w) p p where
  frame := (OnlyWriter.refl s).setWr w
  mark := hm
  fresh a := by
    rw [State.unflushed, State.setWr_wr, hf]
    exact ⟨.inl, fun h => h.resolve_right (by omega)⟩
  sorted h := by rwa [State.stagedSorted, State.setWr_wr, hs]
  kept _ a _ := by
    refine ⟨?_, fun h => ⟨rfl, by rwa [State.setWr_wr, hs]⟩⟩
    rw [storedByte_eq, State.setWr_wr, hs]
    rfl

/-- Staging a byte touches its index (60_exceptions R343). -/
theorem touched_stage (s : State) (v : Byte) {p : Nat} (hp : s.wr.pos = p) :
    Touched s (s.setWr { s.wr with staging := stage s.wr.staging s.wr.pos v, fresh := noteFresh s.wr.fresh s.wr.pos })
      p (p + 1) where
  frame := (OnlyWriter.refl s).setWr _
  mark := rfl
  fresh a := by
    rw [State.unflushed, State.setWr_wr, covers_noteFresh, Bool.or_eq_true, decide_eq_true_eq]
    exact or_congr_right (by omega)
  sorted h := stage_sorted h _ _
  kept h a ha := by
    refine ⟨?_, fun hn => ⟨rfl, fun c hc => ?_⟩⟩
    · rw [storedByte_eq, State.setWr_wr, overlay_stage h, if_neg (by omega)]
      rfl
    · rcases stage_mem hc with rfl | hc
      · show s.wr.pos ≠ a
        omega
      · exact hn c hc

/-- A drain touches no index. -/
theorem Drained.touched (h : Drained s t) (p : Nat) : Touched s t p p := by
  have hstored := h.storedByte
  obtain ⟨m, rfl, hb⟩ := h
  exact
    { frame := ((OnlyWriter.refl s).setSnk m).setWr _
      mark := rfl
      fresh := fun a => ⟨.inl, fun h => h.resolve_right (by omega)⟩
      sorted := fun _ => List.Pairwise.nil
      kept := fun _ a _ => sameAt_of_drained hb rfl a }

/-! ## Writing that ends -/

/-- The position, the incomplete byte and the count of bits written are the same. -/
def SameCounts (s t : State) : Prop := t.wr.pos = s.wr.pos ∧ t.wr.frac = s.wr.frac ∧ t.wr.total = s.wr.total

theorem drainIfFull_ends : Cmd.Ends (fun t => t = s) drainIfFull fun _ t =>
    (∀ p, Touched s t p p) ∧ SameCounts s t := by
  refine Cmd.Keeps.look_bind ?_
  rintro v - rfl
  split
  · refine drain_ends.weaken (fun _ h => h) fun _ w _ h => ⟨h.touched, ?_⟩
    obtain ⟨m, rfl, -⟩ := h
    exact ⟨rfl, rfl, rfl⟩
  · refine Cmd.Ends.pure ?_
    rintro w rfl
    exact ⟨fun p => touched_setWr w p, rfl, rfl, rfl⟩

/-- `CompleteByte(v)` that ends (R144): one byte is stored at `snk_pos`. -/
theorem completeByte_ends (v : Byte) : Cmd.Ends (fun t => t = s) (completeByte v) fun _ t =>
    Touched s t s.wr.pos (s.wr.pos + 1) ∧ t.wr.pos = s.wr.pos + 1 ∧ t.wr.frac = s.wr.frac ∧ t.wr.total = s.wr.total := by
  refine Cmd.Ends.look_bind fun _ _ => Cmd.Ends.require_bind fun _ => drainIfFull_ends.bind fun _ => ?_
  refine (Cmd.Ends.advance (post := fun _ t => Touched s t s.wr.pos (s.wr.pos + 1) ∧ SameCounts s t) ?_).bind fun _ => ?_
  · rintro t ⟨ht, hpos, hfrac, htotal⟩
    exact ⟨(ht _).trans (touched_stage t v hpos) le_rfl (Nat.le_succ _), hpos, hfrac, htotal⟩
  refine (Cmd.Keeps.ofState fun t _ ht => (drainIfFull_ends (s := t)).weaken (fun _ h => h) fun _ u _ hu => ?_).bind
    (mid := fun _ t => Touched s t s.wr.pos (s.wr.pos + 1) ∧ SameCounts s t) fun _ => Cmd.Ends.advance ?_
  · obtain ⟨ht, hpos, hfrac, htotal⟩ := ht
    obtain ⟨hu, hpos', hfrac', htotal'⟩ := hu
    exact ⟨ht.trans (hu _) (Nat.le_succ _) le_rfl, hpos'.trans hpos, hfrac'.trans hfrac, htotal'.trans htotal⟩
  · rintro t ⟨ht, hpos, hfrac, htotal⟩
    exact ⟨ht.trans (touched_setWr t _) (Nat.le_succ _) le_rfl, by rw [← hpos]; rfl, hfrac, htotal⟩

/-- `t` is `s` after `n` bits were written, the sink having taken every byte they completed (R143): some bytes are stored from
`snk_pos` on; the incomplete byte and `wr_total` count the bits. -/
structure BitsStored (s t : State) (n : Nat) : Prop where
  /-- the position moves up. -/
  pos : s.wr.pos ≤ t.wr.pos
  /-- the bytes stored. -/
  touched : Touched s t s.wr.pos t.wr.pos
  /-- the incomplete byte. -/
  frac : s.wr.frac.length < 8 → t.wr.frac.length = (s.wr.frac.length + n) % 8
  /-- the count. -/
  total : t.wr.total = s.wr.total + BitVec.ofNat 32 n

theorem BitsStored.refl (s : State) : BitsStored s s 0 where
  pos := le_rfl
  touched := touched_setWr s _
  frac h := (Nat.mod_eq_of_lt h).symm
  total := (BitVec.add_zero _).symm

theorem BitsStored.trans {m n : Nat} (h : BitsStored s t m) (h' : BitsStored t u n) : BitsStored s u (m + n) where
  pos := h.pos.trans h'.pos
  touched := h.touched.trans h'.touched h.pos h'.pos
  frac hf := by
    have ht := h.frac hf
    rw [h'.frac (by omega), ht]
    omega
  total := by rw [h'.total, h.total, BitVec.add_assoc, ← BitVec.ofNat_add]

/-- One bit (R143). -/
theorem wrBit_ends (b : Bool) : Cmd.Ends (fun t => t = s) (wrBit b) fun _ t => BitsStored s t 1 := by
  refine Cmd.Keeps.look_bind ?_
  rintro t - rfl
  split
  · rename_i hlt
    refine Cmd.Ends.advance ?_
    rintro t rfl
    exact
      { pos := le_rfl, touched := touched_setWr t _, total := rfl
        frac := fun _ => by simp only [State.setWr_wr, List.length_append, List.length_singleton]; omega }
  · rename_i hge
    refine (Cmd.Ends.advance (post := fun _ u => u = t.setWr { t.wr with total := t.wr.total + 1#32 }) ?_).bind fun _ =>
      (completeByte_ends _).bind fun _ => Cmd.Ends.advance ?_
    · rintro _ rfl
      rfl
    · rintro u ⟨hu, hpos, hfrac, htotal⟩
      have hpos' : u.wr.pos = t.wr.pos + 1 := hpos
      refine ⟨?_, ?_, fun _ => ?_, htotal⟩
      · show t.wr.pos ≤ u.wr.pos
        omega
      · have h1 := touched_setWr t (w := { t.wr with total := t.wr.total + 1#32 }) t.wr.pos
        have h2 := (h1.trans hu le_rfl (Nat.le_succ _)).trans
          (touched_setWr u (w := { u.wr with frac := [] }) _) (Nat.le_succ _) le_rfl
        show Touched t _ t.wr.pos u.wr.pos
        rw [hpos']
        exact h2
      · show 0 = _
        omega

/-- `WrBits(s)` that ends (R143). -/
theorem wrBits_ends (bits : Bits) : ∀ s, Cmd.Ends (fun t => t = s) (wrBits bits) fun _ t => BitsStored s t bits.length := by
  induction bits with
  | nil =>
    refine fun s => Cmd.Ends.pure ?_
    rintro t rfl
    exact .refl t
  | cons b rest ih =>
    refine fun s => (wrBit_ends b).bind fun _ => Cmd.Keeps.ofState fun t _ ht => (ih t).weaken (fun _ h => h) fun _ u _ hu => ?_
    rw [List.length_cons, Nat.add_comm]
    exact ht.trans hu

/-- `Fill()` that ends (R147). -/
theorem fill_ends : Cmd.Ends (fun t => t = s) fill fun n t =>
    n = (8 - s.wr.frac.length) % 8 ∧ BitsStored s t n := by
  refine Cmd.Keeps.look_bind ?_
  rintro t - rfl
  refine (wrBits_ends _ t).bind fun _ => Cmd.Ends.pure fun u hu => ⟨rfl, ?_⟩
  rwa [List.length_replicate] at hu

/-- `RawByte(v)` that ends (R149): one byte is stored between two flush points. -/
theorem rawByte_ends (v : Byte) : Cmd.Ends (fun t => t = s) (rawByte v) fun _ t =>
    OnlyWriter s t ∧ t.wr.pos = s.wr.pos + 1 ∧ t.wr.frac = s.wr.frac ∧ t.wr.total = s.wr.total ∧
      t.wr.mark = t.wr.pos ∧ t.wr.fresh = [] ∧ ∀ a, (a < s.wr.pos ∨ t.wr.pos ≤ a) → SameAt s t a := by
  refine flushPoint_ends.bind fun _ => Cmd.Keeps.ofState fun t _ ⟨_, ht⟩ => ?_
  refine (completeByte_ends v).bind fun _ => Cmd.Keeps.ofState fun u _ hu => flushPoint_ends.weaken (fun _ h => h) ?_
  rintro _ w - ⟨-, hw⟩
  obtain ⟨hut, hpos, hfrac, htotal⟩ := hu
  have hsorted : t.stagedSorted := by rw [State.stagedSorted, ht.wr]; exact List.Pairwise.nil
  rw [ht.wr] at hpos hfrac htotal
  rw [hw.wr]
  refine ⟨(ht.onlyWriter.trans hut.frame).trans hw.onlyWriter, hpos, hfrac, htotal, rfl, rfl, fun a ha => ?_⟩
  refine ((ht.sameAt a).trans (hut.kept hsorted a ?_)).trans (hw.sameAt a)
  have ha : a < s.wr.pos ∨ u.wr.pos ≤ a := ha
  rw [ht.wr]
  show a < s.wr.pos ∨ s.wr.pos + 1 ≤ a
  rwa [← hpos]

end

end Sys2Proof.Machine

/-! What the writer commands leave unchanged (40_bitstream R155 to R160, 41_elias_gamma R203). -/

namespace Sys2Proof.Machine

section

variable {s t u : State}

/-- Only the writer and SNK have moved, and no index below `snk_pos` before or from `snk_pos` after on is touched. -/
def WriterFrame (s t : State) : Prop :=
  OnlyWriter s t ∧ ∀ a, (a < s.wr.pos ∨ t.wr.pos ≤ a) → SameAt s t a

theorem FlushedTo.writerFrame {w : Writer} (h : FlushedTo s t w) : WriterFrame s t := ⟨h.onlyWriter, fun a _ => h.sameAt a⟩

theorem BitsStored.writerFrame {n : Nat} (h : BitsStored s t n) (hs : s.stagedSorted) : WriterFrame s t :=
  ⟨h.touched.frame, h.touched.kept hs⟩

theorem wrBits_frame (bits : Bits) (hs : s.stagedSorted) :
    Cmd.Ends (fun t => t = s) (wrBits bits) fun _ t => WriterFrame s t :=
  (wrBits_ends bits s).weaken (fun _ h => h) fun _ _ _ h => h.writerFrame hs

/-- BW.RAW that ends (R160). -/
theorem bwRawBody_ends : Cmd.Ends (fun t => t = s) bwRawBody fun _ t => WriterFrame s t := by
  refine Cmd.Ends.look_bind fun _ _ => Cmd.Ends.require_bind fun _ => (rawByte_ends _).weaken (fun _ h => h) ?_
  rintro _ t - ⟨hframe, -, -, -, -, -, hkept⟩
  exact ⟨hframe, hkept⟩

/-- BW.FILL that ends (R157): RESULT is written last. -/
theorem bwFillBody_ends : Cmd.Ends (fun t => t = s) bwFillBody fun _ t => ∃ u,
    BitsStored s u ((8 - s.wr.frac.length) % 8) ∧ t = u.setResult (BitVec.ofNat 32 ((8 - s.wr.frac.length) % 8)) := by
  refine fill_ends.bind fun n => Cmd.Ends.advance ?_
  rintro u ⟨rfl, hu⟩
  exact ⟨u, hu, rfl⟩

/-- The writer commands but BW.FILL. -/
theorem writerFrame_of_exec {i : Instr} (hs : s.stagedSorted) (he : exec i s = .next t) (hn : t.er.err = false)
    (hi : i ∈ [Instr.bwInit, .bwFlush, .bwSeek0, .bwRaw, .egEnc] ∨ ∃ cnt, i = .bwWrite cnt) : WriterFrame s t := by
  refine exec_ends (post := fun _ t => WriterFrame s t) ?_ he hn
  rcases hi with hi | ⟨cnt, rfl⟩
  · simp only [List.mem_cons, List.not_mem_nil, or_false] at hi
    rcases hi with rfl | rfl | rfl | rfl | rfl
    · exact wrInit_ends.weaken (fun _ h => h) fun _ _ _ h => h.writerFrame
    · exact flushPoint_ends.weaken (fun _ h => h) fun _ _ _ h => h.2.writerFrame
    · exact seek0_ends.weaken (fun _ h => h) fun _ _ _ h => h.writerFrame
    · exact bwRawBody_ends
    · exact Cmd.Ends.look_bind fun _ _ => wrBits_frame _ hs
  · exact Cmd.Ends.require_bind fun _ => Cmd.Ends.look_bind fun _ _ => wrBits_frame _ hs

/-- What the claim says of a command's frame, from the frame of the writer. -/
theorem WriterFrame.claim (h : WriterFrame s t) :
    t = { s with wr := t.wr, snk := t.snk } ∧ ∀ a, (a < s.wr.pos ∨ t.wr.pos ≤ a) →
      t.storedByte a = s.storedByte a ∧ ((∀ c ∈ s.wr.staging, c.1 ≠ a) → t.snkByte a = s.snkByte a) := by
  obtain ⟨⟨w, m, rfl⟩, hkept⟩ := h
  exact ⟨rfl, fun a ha => ⟨(hkept a ha).1, fun hn => ((hkept a ha).2 hn).1⟩⟩

end

/-- Settles O19: every writer command is bits or bytes stored from `snk_pos` on, or a drain; BW.FILL writes RESULT as well. -/
theorem writerCommandsFrame : Obligations.WriterCommandsFrame := by
  intro i s t hinv _ he hn hi
  by_cases hfill : i = .bwFill
  · subst hfill
    obtain ⟨u, hu, rfl⟩ := exec_ends (i := .bwFill) bwFillBody_ends he hn
    obtain ⟨hframe, hkept⟩ := (hu.writerFrame hinv.stagedOrder).claim
    refine ⟨?_, fun h => absurd rfl h, hkept⟩
    rw [hframe]
    rfl
  · have hi : i ∈ [Instr.bwInit, .bwFlush, .bwSeek0, .bwRaw, .egEnc] ∨ ∃ cnt, i = .bwWrite cnt := by
      simpa [hfill] using hi
    obtain ⟨hframe, hkept⟩ := (writerFrame_of_exec hinv.stagedOrder he hn hi).claim
    have hresult : t.result = s.result := by rw [hframe]
    refine ⟨?_, fun _ => hresult, hkept⟩
    rw [hframe]

end Sys2Proof.Machine

/-! What the writer keeps over every command (40_bitstream R162, 70_reset R392): `|wfrac| = wr_total mod 8`, and the unflushed
bytes are those from `cmark` on. -/

namespace Sys2Proof.Machine

/-! ## Laws of the writer -/

/-- A piece of pseudocode that keeps `I` where it ends. -/
abbrev KeepsEnd {α : Type} (I : State → Prop) (x : Cmd α) : Prop := Cmd.Ends I x fun _ t => I t

/-- `I` is about the writer alone, and each writer primitive of 40_bitstream keeps it where it ends. -/
structure WriterLaw (I : State → Prop) : Prop where
  /-- only the writer matters. -/
  congr : ∀ {s t : State}, I s → t.wr = s.wr → I t
  /-- `WrBits`. -/
  wrBits : ∀ bits, KeepsEnd I (wrBits bits)
  /-- `WrInit`. -/
  wrInit : KeepsEnd I wrInit
  /-- `FlushPoint`. -/
  flushPoint : KeepsEnd I flushPoint
  /-- `Seek0`. -/
  seek0 : KeepsEnd I seek0
  /-- `RawByte`. -/
  rawByte : ∀ v, KeepsEnd I (rawByte v)
  /-- SRST. -/
  softReset : ∀ s, I (softReset s)

section

variable {I : State → Prop} (hI : WriterLaw I)
include hI

/-! ## Pieces that leave the writer alone -/

theorem WriterLaw.assign {f : State → State} (hf : ∀ s, (f s).wr = s.wr := by intro; rfl) : KeepsEnd I (advance f) :=
  Cmd.Ends.advance fun s hs => hI.congr hs (hf s)

theorem WriterLaw.reads {α : Type} {x : Cmd α} (h : ∀ s, Reads s x) : KeepsEnd I x := by
  refine Cmd.Keeps.ofState fun s _ hs => (h s).weaken (fun _ ht => by rw [ht]; exact .refl s) fun _ t _ ht => ?_
  exact hI.congr hs (by rw [ht.1])

theorem WriterLaw.rdBits (n : Nat) : KeepsEnd I (rdBits n) := hI.reads fun _ => rdBits_reads n

theorem WriterLaw.rdEG : KeepsEnd I rdEG := hI.reads fun _ => rdEG_reads

theorem WriterLaw.requireRead {β : Type} {n : Nat} {c : Cause} {f : Bits → Cmd β} (hf : ∀ b, KeepsEnd I (f b)) :
    KeepsEnd I (Machine.requireAvail n c >>= fun _ => Machine.rdBits n >>= f) :=
  (hI.reads fun _ => requireAvail_reads n c).bind fun _ => (hI.rdBits n).bind hf

theorem WriterLaw.rdInit : KeepsEnd I rdInit := Cmd.Ends.look_bind fun _ _ => Cmd.Ends.require_bind fun _ => hI.assign

/-! ## The parts both engines share -/

theorem WriterLaw.fill : KeepsEnd I fill :=
  Cmd.Ends.look_bind fun _ _ => (hI.wrBits _).bind fun _ => Cmd.Ends.pure fun _ h => h

theorem WriterLaw.engineStart {f : Unit → Cmd Unit} (hf : KeepsEnd I (f ())) :
    KeepsEnd I (Machine.rdInit >>= fun _ => enterEngine >>= fun _ => Machine.wrInit >>= f) := by
  have henter : KeepsEnd I enterEngine := fun _ _ hs => ⟨⟨trivial, fun _ _ => trivial⟩, hI.congr hs rfl⟩
  exact hI.rdInit.bind fun _ => henter.bind fun _ => hI.wrInit.bind fun _ => hf

theorem WriterLaw.engineEnd : KeepsEnd I (resultIsLength >>= fun _ => leaveEngine) := by
  have hleave : KeepsEnd I leaveEngine := fun _ _ hs => ⟨⟨trivial, fun _ _ => trivial⟩, hI.congr hs rfl⟩
  exact hI.assign.bind fun _ => hleave

theorem WriterLaw.finishHeader : KeepsEnd I finishHeader :=
  hI.fill.bind fun _ => hI.seek0.bind fun _ => Cmd.Ends.look_bind fun _ _ => hI.rawByte _

theorem WriterLaw.rdPadHeader : KeepsEnd I rdPadHeader :=
  hI.requireRead fun _ => hI.assign.bind fun _ => Cmd.Ends.look_bind fun _ _ =>
    (Cmd.Keeps.require _ _).weaken (fun _ h => h) fun _ _ _ h => h.2

/-! ## LZSS -/

theorem WriterLaw.lzEncodeLoop (src : List Byte) (fuel : Nat) : KeepsEnd I (lzEncodeLoop src fuel) := by
  induction fuel with
  | zero => exact Cmd.Ends.pure fun _ h => h
  | succ fuel ih =>
    refine Cmd.Ends.look_bind fun _ _ => ?_
    split
    · exact hI.assign.bind fun _ => Cmd.Ends.look_bind fun _ _ => (hI.wrBits _).bind fun _ => hI.assign.bind fun _ => ih
    · exact Cmd.Ends.pure fun _ h => h

theorem WriterLaw.lzCompBody : KeepsEnd I lzCompBody := by
  refine Cmd.Ends.look_bind fun _ _ => Cmd.Ends.require_bind fun _ => Cmd.Ends.require_bind fun _ => hI.engineStart ?_
  refine Cmd.Ends.look_bind fun _ _ => (hI.rdBits _).bind fun _ => Cmd.Keeps.bind (x := lzEncode _ _ _ _) ?_ fun _ =>
    hI.finishHeader.bind fun _ => hI.engineEnd
  exact (hI.wrBits _).bind fun _ => (hI.wrBits _).bind fun _ => (hI.wrBits _).bind fun _ => hI.assign.bind fun _ =>
    hI.lzEncodeLoop _ _

theorem WriterLaw.lzReadHeader : KeepsEnd I lzReadHeader :=
  hI.rdEG.bind fun _ => hI.rdEG.bind fun _ => Cmd.Ends.look_bind fun _ _ => Cmd.Ends.require_bind fun _ =>
    Cmd.Ends.require_bind fun _ => Cmd.Ends.pure fun _ h => h

theorem WriterLaw.lzDecodeRecord : KeepsEnd I lzDecodeRecord := by
  refine (hI.rdBits 1).bind fun _ => Cmd.Ends.look_bind fun _ _ => ?_
  dsimp only
  split
  · exact hI.requireRead fun _ => (hI.wrBits _).bind fun _ => hI.assign
  · exact (hI.reads fun _ => requireAvail_reads _ _).bind fun _ => (hI.rdBits _).bind fun _ => (hI.rdBits _).bind fun _ =>
      Cmd.Ends.require_bind fun _ => (hI.wrBits _).bind fun _ => hI.assign

theorem WriterLaw.lzDecodeLoop (fuel : Nat) : KeepsEnd I (lzDecodeLoop fuel) := by
  induction fuel with
  | zero => exact Cmd.Ends.pure fun _ h => h
  | succ fuel ih =>
    refine Cmd.Ends.look_bind fun _ _ => ?_
    split
    · exact hI.lzDecodeRecord.bind fun _ => ih
    · exact Cmd.Ends.pure fun _ h => h

theorem WriterLaw.lzDecBody : KeepsEnd I lzDecBody := by
  refine hI.engineStart <| hI.rdPadHeader.bind fun _ => hI.lzReadHeader.bind fun _ =>
    Cmd.Keeps.bind (x := lzDecode _ _) ?_ fun _ => hI.flushPoint.bind fun _ => hI.engineEnd
  exact hI.assign.bind fun _ => Cmd.Ends.look_bind fun _ _ => hI.lzDecodeLoop _

/-! ## Shannon-Fano -/

theorem WriterLaw.readWord (wl : Nat) : KeepsEnd I (readWord wl) :=
  Cmd.Ends.look_bind fun _ _ => (hI.rdBits _).bind fun _ => Cmd.Ends.pure fun _ h => h

theorem WriterLaw.countPass (wl n : Nat) : KeepsEnd I (countPass wl n) := by
  induction n with
  | zero => exact Cmd.Ends.pure fun _ h => h
  | succ n ih => exact (hI.readWord wl).bind fun _ => hI.assign.bind fun _ => ih

theorem WriterLaw.codePass (wl n : Nat) : KeepsEnd I (codePass wl n) := by
  induction n with
  | zero => exact Cmd.Ends.pure fun _ h => h
  | succ n ih =>
    exact (hI.readWord wl).bind fun _ => Cmd.Ends.look_bind fun _ _ => (hI.wrBits _).bind fun _ => ih

theorem WriterLaw.sfEncode (wl : Nat) : KeepsEnd I (sfEncode wl) :=
  Cmd.Ends.look_bind fun _ _ => hI.assign.bind fun _ => (hI.countPass _ _).bind fun _ => hI.assign.bind fun _ =>
    (hI.wrBits _).bind fun _ => (hI.wrBits _).bind fun _ => (hI.wrBits _).bind fun _ => Cmd.Ends.look_bind fun _ _ =>
      (hI.wrBits _).bind fun _ => hI.assign.bind fun _ => hI.codePass _ _

theorem WriterLaw.sfCompBody : KeepsEnd I sfCompBody :=
  Cmd.Ends.look_bind fun _ _ => Cmd.Ends.require_bind fun _ => hI.engineStart <| (hI.sfEncode _).bind fun _ =>
    hI.finishHeader.bind fun _ => hI.engineEnd

theorem WriterLaw.sfReadHeader : KeepsEnd I sfReadHeader :=
  hI.rdEG.bind fun _ => hI.rdEG.bind fun _ => Cmd.Ends.look_bind fun _ _ => Cmd.Ends.require_bind fun _ =>
    Cmd.Ends.require_bind fun _ => Cmd.Ends.pure fun _ h => h

theorem WriterLaw.parseNode (wl fuel : Nat) : ∀ nl, KeepsEnd I (parseNode wl fuel nl) := by
  induction fuel with
  | zero => exact fun _ => Cmd.Keeps.raise _
  | succ fuel ih =>
    refine fun nl => hI.requireRead fun b => Cmd.Ends.require_bind fun _ => ?_
    split
    · exact Cmd.Ends.require_bind fun _ => hI.requireRead fun _ => Cmd.Ends.pure fun _ h => h
    · exact (ih _).bind fun _ => (ih _).bind fun _ => Cmd.Ends.pure fun _ h => h

theorem WriterLaw.walkCode (tree : PTree) : KeepsEnd I (walkCode tree) := by
  induction tree with
  | none => exact Cmd.Keeps.raise _
  | leaf w => exact Cmd.Ends.pure fun _ h => h
  | node c0 c1 ih0 ih1 =>
    refine hI.assign.bind fun _ => hI.requireRead fun b => ?_
    split
    · exact ih1
    · exact ih0

theorem WriterLaw.emitPending (wl : Nat) (pend : Option Nat) : KeepsEnd I (emitPending wl pend) := by
  cases pend with
  | none => exact Cmd.Ends.pure fun _ h => h
  | some w => exact hI.wrBits _

theorem WriterLaw.decodeWalkLoop (wl fuel : Nat) : ∀ pend, KeepsEnd I (decodeWalkLoop wl fuel pend) := by
  induction fuel with
  | zero => exact fun _ => Cmd.Ends.pure fun _ h => h
  | succ fuel ih =>
    refine fun pend => Cmd.Ends.look_bind fun _ _ => ?_
    split
    · exact (hI.walkCode _).bind fun w => (hI.emitPending wl pend).bind fun _ => ih (some w)
    · exact Cmd.Ends.pure fun _ h => h

theorem WriterLaw.stripPad (p wl : Nat) (pend : Option Nat) : KeepsEnd I (stripPad p wl pend) := by
  have haligned : KeepsEnd I (look >>= fun s => require s.wr.frac.isEmpty .outMisaligned) :=
    Cmd.Ends.look_bind fun _ _ => (Cmd.Keeps.require _ _).weaken (fun _ h => h) fun _ _ _ h => h.2
  cases pend with
  | none => exact Cmd.Ends.require_bind fun _ => haligned
  | some w => exact (hI.wrBits _).bind fun _ => haligned

theorem WriterLaw.sfDecBody : KeepsEnd I sfDecBody := by
  refine hI.engineStart <| hI.rdPadHeader.bind fun _ => hI.sfReadHeader.bind fun _ => hI.assign.bind fun _ =>
    Cmd.Keeps.bind (x := parseTree _) ((hI.parseNode _ _ _).bind fun _ => hI.assign) fun _ =>
      Cmd.Keeps.bind (x := decodeWalk _) ?_ fun _ => (hI.stripPad _ _ _).bind fun _ => hI.flushPoint.bind fun _ => hI.engineEnd
  exact Cmd.Ends.look_bind fun _ _ => hI.decodeWalkLoop _ _ _

/-! ## Every command -/

theorem WriterLaw.bodyOf (i : Instr) : KeepsEnd I (bodyOf i) := by
  cases i with
  | nop => exact Cmd.Ends.pure fun _ h => h
  | clr => exact hI.assign
  | srst => exact Cmd.Ends.advance fun s _ => hI.softReset s
  | brInit => exact hI.rdInit
  | brIgn => exact Cmd.Ends.look_bind fun _ _ => Cmd.Ends.require_bind fun _ => hI.assign
  | brRead cnt =>
    exact Cmd.Ends.require_bind fun _ => Cmd.Ends.look_bind fun _ _ => (hI.rdBits _).bind fun _ => hI.assign
  | bwInit => exact hI.wrInit
  | bwWrite cnt => exact Cmd.Ends.require_bind fun _ => Cmd.Ends.look_bind fun _ _ => hI.wrBits _
  | bwFill => exact hI.fill.bind fun _ => hI.assign
  | bwFlush => exact hI.flushPoint
  | bwSeek0 => exact hI.seek0
  | bwRaw => exact Cmd.Ends.look_bind fun _ _ => Cmd.Ends.require_bind fun _ => hI.rawByte _
  | egEnc => exact Cmd.Ends.look_bind fun _ _ => hI.wrBits _
  | egDec => exact hI.rdEG.bind fun _ => hI.assign
  | lzComp => exact hI.lzCompBody
  | lzDec => exact hI.lzDecBody
  | sfComp => exact hI.sfCompBody
  | sfDec => exact hI.sfDecBody

/-- A law of the writer is kept by every command that completes or changes the error state only. -/
theorem WriterLaw.exec {i : Instr} {s t : State} (hs : I s) (he : exec i s = .next t)
    (hp : t.er.err = true → t.er.code = .illegal ∨ t.er.code = .badParam ∨ t.er.code = .protocol) : I t := by
  have hrun := hI.bodyOf i (Run.start s) (Run.start_all trivial) hs
  rcases exec_cases he with ⟨r, hr, rfl⟩ | ⟨c, r, -, -, rfl⟩ | ⟨c, r, -, hc, rfl⟩
  · rw [hr] at hrun
    exact hrun.2
  · exact hI.congr hs rfl
  · have hcode : c.code = .illegal ∨ c.code = .badParam ∨ c.code = .protocol := hp rfl
    rcases hcode with h | h | h <;> rw [h] at hc <;> cases hc

end

/-! ## The two laws -/

section

variable {s t : State}

/-- A law kept by what a primitive makes of each state that meets it. -/
theorem keepsEnd_of_ends {α : Type} {I : State → Prop} {x : Cmd α} {post : State → α → State → Prop}
    (h : ∀ s, Cmd.Ends (fun t => t = s) x (post s)) (hI : ∀ s a t, I s → post s a t → I t) : KeepsEnd I x :=
  Cmd.Keeps.ofState fun s _ hs => (h s).weaken (fun _ ht => ht) fun a t _ ht => hI s a t hs ht

/-- `wr_total` counts modulo a multiple of 8. -/
theorem toNat_add_mod8 (v : Word) (n : Nat) : (v + BitVec.ofNat 32 n).toNat % 8 = (v.toNat + n) % 8 := by
  rw [BitVec.toNat_add, BitVec.toNat_ofNat]
  omega

theorem State.packed.congr (h1 : t.wr.frac = s.wr.frac) (h2 : t.wr.total = s.wr.total) (h : s.packed) : t.packed := by
  unfold State.packed
  rw [h1, h2]
  exact h

theorem BitsStored.packed {n : Nat} (h : BitsStored s t n) (hs : s.packed) : t.packed := by
  unfold State.packed at hs ⊢
  rw [h.frac (by omega), h.total, toNat_add_mod8]
  omega

/-- `|wfrac| = wr_total mod 8` (R162). -/
theorem packed_law : WriterLaw State.packed where
  congr hs h := State.packed.congr (by rw [h]) (by rw [h]) hs
  wrBits bits := keepsEnd_of_ends (wrBits_ends bits) fun _ _ _ hs h => h.packed hs
  wrInit := keepsEnd_of_ends (fun _ => wrInit_ends) fun _ _ t _ h => by rw [State.packed, h.wr]; rfl
  flushPoint := keepsEnd_of_ends (fun _ => flushPoint_ends) fun _ _ _ hs h =>
    hs.congr (by rw [h.2.wr]) (by rw [h.2.wr])
  seek0 := keepsEnd_of_ends (fun _ => seek0_ends) fun _ _ _ hs h => hs.congr (by rw [h.wr]) (by rw [h.wr])
  rawByte v := keepsEnd_of_ends (fun _ => rawByte_ends v) fun _ _ _ hs ⟨_, _, hfrac, htotal, _⟩ => hs.congr hfrac htotal
  softReset _ := rfl

/-- After a flush point no byte is unflushed. -/
theorem freshFromMark_of_flushed (h1 : t.wr.mark = t.wr.pos) (h2 : t.wr.fresh = []) : t.freshFromMark := by
  refine ⟨h1.le, fun a => ?_⟩
  rw [State.unflushed, h2, covers_nil, h1]
  exact ⟨nofun, by omega⟩

/-- Bytes stored from `snk_pos` on join those from `cmark` on. -/
theorem BitsStored.freshFromMark {n : Nat} (h : BitsStored s t n) (hs : s.freshFromMark) : t.freshFromMark := by
  obtain ⟨hle, hfresh⟩ := hs
  have hpos := h.pos
  refine ⟨by rw [h.touched.mark]; omega, fun a => ?_⟩
  rw [h.touched.fresh, hfresh, h.touched.mark]
  omega

/-- The unflushed bytes are those at `cmark` to `snk_pos - 1` (70_reset R392). -/
theorem freshFromMark_law : WriterLaw State.freshFromMark where
  congr hs h := by
    unfold State.freshFromMark State.unflushed at hs ⊢
    rw [h]
    exact hs
  wrBits bits := keepsEnd_of_ends (wrBits_ends bits) fun _ _ _ hs h => h.freshFromMark hs
  wrInit := keepsEnd_of_ends (fun _ => wrInit_ends) fun _ _ _ _ h =>
    freshFromMark_of_flushed (by rw [h.wr]; rfl) (by rw [h.wr])
  flushPoint := keepsEnd_of_ends (fun _ => flushPoint_ends) fun _ _ _ _ h =>
    freshFromMark_of_flushed (by rw [h.2.wr]) (by rw [h.2.wr])
  seek0 := keepsEnd_of_ends (fun _ => seek0_ends) fun _ _ _ _ h =>
    freshFromMark_of_flushed (by rw [h.wr]) (by rw [h.wr])
  rawByte v := keepsEnd_of_ends (fun _ => rawByte_ends v) fun _ _ _ _ ⟨_, _, _, _, hmark, hfresh, _⟩ =>
    freshFromMark_of_flushed hmark hfresh
  softReset s := freshFromMark_of_flushed rfl rfl

end

/-! ## A flush point of an aligned writer -/

section

variable {α β : Type} {s t u : State}

/-- The incomplete byte is empty, and no PROTOCOL error is on record. -/
def State.aligned (s : State) : Prop := s.wr.frac = [] ∧ s.er.code ≠ .protocol

/-- From an aligned writer: the piece leaves it aligned where it ends, and raises no PROTOCOL error where it does not. -/
def StaysAligned (x : Cmd α) : Prop :=
  ∀ r : Run, r.st.aligned → match x r with
    | .ok _ r' => r'.st.aligned
    | .error c _ => c.code ≠ .protocol

theorem StaysAligned.bind {x : Cmd α} {f : α → Cmd β} (hx : StaysAligned x) (hf : ∀ a, StaysAligned (f a)) :
    StaysAligned (x >>= f) := by
  intro r hr
  have h := hx r hr
  rw [Cmd.bind_apply]
  cases hxr : x r with
  | ok a r' => rw [hxr] at h; exact hf a r' h
  | error c r' => rw [hxr] at h; exact h

theorem StaysAligned.look_bind {f : State → Cmd β} (h : ∀ s, s.aligned → StaysAligned (f s)) :
    StaysAligned (Machine.look >>= f) :=
  fun r hr => h r.st hr r hr

theorem StaysAligned.require {ok : Bool} {c : Cause} (h : ok = true ∨ c.code ≠ .protocol) :
    StaysAligned (Machine.require ok c) := by
  intro r hr
  rw [require_apply]
  cases ok
  · exact h.resolve_left nofun
  · exact hr

theorem StaysAligned.pure (a : α) : StaysAligned (Pure.pure a : Cmd α) := fun _ hr => hr

theorem StaysAligned.advance {f : State → State} (hf : ∀ s, (f s).er = s.er := by intro; rfl)
    (hw : ∀ s, (f s).wr.frac = s.wr.frac := by intro; rfl) : StaysAligned (Machine.advance f) :=
  fun r hr => ⟨(hw r.st).trans hr.1, by rw [hf]; exact hr.2⟩

theorem StaysAligned.noteMark (m : Nat) : StaysAligned (Machine.noteMark m) := fun _ hr => hr

theorem drainBytes_staysAligned (cells : List Host.Cell) : StaysAligned (drainBytes cells) := by
  induction cells with
  | nil => exact .pure ()
  | cons c rest ih =>
    exact .look_bind fun _ _ => (StaysAligned.require (.inr (by decide))).bind fun _ => (StaysAligned.advance).bind fun _ => ih

theorem drain_staysAligned : StaysAligned drain := .look_bind fun _ _ => drainBytes_staysAligned _

theorem drainIfFull_staysAligned : StaysAligned drainIfFull := by
  refine .look_bind fun s _ => ?_
  split
  · exact drain_staysAligned
  · exact .pure ()

theorem completeByte_staysAligned (v : Byte) : StaysAligned (completeByte v) :=
  .look_bind fun _ _ => (StaysAligned.require (.inr (by decide))).bind fun _ => drainIfFull_staysAligned.bind fun _ =>
    (StaysAligned.advance).bind fun _ => drainIfFull_staysAligned.bind fun _ => .advance

theorem flushPoint_staysAligned : StaysAligned flushPoint :=
  .look_bind fun _ hs => (StaysAligned.require (.inl (List.isEmpty_iff.2 hs.1))).bind fun _ =>
    drain_staysAligned.bind fun _ => (StaysAligned.advance).bind fun _ => .look_bind fun _ _ => .noteMark _

theorem seek0_staysAligned : StaysAligned seek0 :=
  (StaysAligned.noteMark 0).bind fun _ => flushPoint_staysAligned.bind fun _ => .advance

theorem bwRawBody_staysAligned : StaysAligned bwRawBody :=
  .look_bind fun _ _ => (StaysAligned.require (.inr (by decide))).bind fun _ => flushPoint_staysAligned.bind fun _ =>
    (completeByte_staysAligned _).bind fun _ => flushPoint_staysAligned

/-- A command that stays aligned answers no PROTOCOL error. -/
theorem exec_not_protocol {i : Instr} (h : StaysAligned (bodyOf i)) (hs : s.aligned) :
    ∃ u, exec i s = .next u ∧ u.er.code ≠ .protocol := by
  refine ⟨_, exec_next i s, ?_⟩
  have hrun := h (Run.start s) hs
  rcases exec_cases (exec_next i s) with ⟨r, hr, hu⟩ | ⟨c, r, hr, -, hu⟩ | ⟨c, r, hr, -, hu⟩ <;> rw [hr] at hrun
  · rw [hu]
    exact hrun.2
  · rw [hu]
    exact hrun
  · rw [hu]
    exact hrun

/-- BW.FILL that completes (R157): the writer is aligned, and RESULT is the number of zero bits. -/
theorem bwFill_aligned (hinv : s.Inv) (hs : s.packed) (he : exec .bwFill s = .next t) (hn : t.er.err = false) :
    t.result.toNat = (8 - s.wr.total.toNat % 8) % 8 ∧ t.aligned := by
  have hcalm := (hinv.exec he).calm hn
  obtain ⟨u, hu, rfl⟩ := exec_ends (i := .bwFill) bwFillBody_ends he hn
  have hfrac : s.wr.frac.length = s.wr.total.toNat % 8 := hs
  refine ⟨?_, List.length_eq_zero_iff.1 ?_, by rw [hcalm.1]; nofun⟩
  · rw [State.setResult_result, BitVec.toNat_ofNat, hfrac, Nat.mod_eq_of_lt (by omega)]
  · have hlen := hu.frac hinv.frac
    show u.wr.frac.length = 0
    omega

end

/-- Settles O35: both equations are laws of the writer; after BW.FILL the writer is aligned, and a flush point of an aligned
writer has no PROTOCOL error to raise. -/
theorem writerStaysPacked : Obligations.WriterStaysPacked := by
  refine ⟨fun i s t _ hs he hp => packed_law.exec hs he hp, fun i s t _ hs he hp => freshFromMark_law.exec hs he hp, ?_⟩
  intro s t hinv hs _ he hn
  obtain ⟨hresult, ht⟩ := bwFill_aligned hinv hs he hn
  exact ⟨hresult, exec_not_protocol flushPoint_staysAligned ht, exec_not_protocol seek0_staysAligned ht,
    exec_not_protocol bwRawBody_staysAligned ht⟩

end Sys2Proof.Machine

/-! The Elias-gamma code and its two commands (41_elias_gamma R200 to R206): the code's laws, EG.ENC, EG.DEC. -/

namespace Sys2Proof.Machine

/-! ## The code -/

section

variable {n k : Nat} {t u x y : Bits}

/-- The zeros up to the first 1 of a list are those of every list it begins. -/
theorem zeros_eq_of_prefix : ∀ {a b : Nat},
    List.replicate a false ++ true :: x <+: List.replicate b false ++ true :: y → a = b
  | 0, 0, _ => rfl
  | 0, b + 1, h => by simp [List.replicate_succ] at h
  | a + 1, 0, h => by simp [List.replicate_succ] at h
  | a + 1, b + 1, h => congrArg (· + 1) (zeros_eq_of_prefix (List.cons_prefix_cons.1 h).2)

/-- A beginning of `k` zeros and a 1 ends in the zeros or after the 1. -/
theorem prefix_zeros_one (h : t <+: List.replicate k false ++ true :: u) :
    (∃ z ≤ k, t = List.replicate z false) ∨ ∃ v, t = List.replicate k false ++ true :: v ∧ v <+: u := by
  induction k generalizing t with
  | zero =>
    rcases List.prefix_cons_iff.1 h with rfl | ⟨v, rfl, hv⟩
    · exact .inl ⟨0, le_rfl, rfl⟩
    · exact .inr ⟨v, rfl, hv⟩
  | succ k ih =>
    rcases List.prefix_cons_iff.1 h with rfl | ⟨t', rfl, ht'⟩
    · exact .inl ⟨0, Nat.zero_le _, rfl⟩
    · rcases ih ht' with ⟨z, hz, rfl⟩ | ⟨v, rfl, hv⟩
      · exact .inl ⟨z + 1, Nat.succ_le_succ hz, rfl⟩
      · exact .inr ⟨v, rfl, hv⟩

theorem egCode_prefix_free {m : Nat} (h : egCode n <+: egCode m) : n = m := by
  have hzeros : Nat.log2 (n + 1) = Nat.log2 (m + 1) := by
    rw [egCode_eq, egCode_eq] at h
    exact zeros_eq_of_prefix h
  have hval := congrArg val (h.eq_of_length (by simp [hzeros]))
  rw [val_egCode, val_egCode] at hval
  omega

/-- The number `m = n + 1` from its `k` bits after the leading 1 (R202). -/
theorem two_pow_add_val_egCode (n : Nat) : 2 ^ Nat.log2 (n + 1) + val (nb (n + 1) (Nat.log2 (n + 1))) = n + 1 := by
  have h := val_egCode n
  rw [egCode_eq, val_append, val_replicate_false, val_cons, nb_length] at h
  simpa using h

/-- The codes of at most 65 bits (R200). -/
theorem log2_succ_le (h : n < 2 ^ 33 - 1) : Nat.log2 (n + 1) ≤ 32 :=
  Nat.le_of_lt_succ ((Nat.log2_lt (Nat.succ_ne_zero n)).2 (by omega))

end

/-- Settles O37: `k` zeros and the leading 1 of `n + 1` begin the code, so a code that begins another has its length. -/
theorem gammaCodeLaws : Obligations.GammaCodeLaws := by
  refine ⟨fun n => ⟨egCode_length n, ?_, val_egCode n⟩, fun n m h => egCode_prefix_free (List.isPrefixOf_iff_prefix.1 h),
    fun n hn => ?_, by decide, by decide, by decide⟩
  · rw [egCode_eq, List.append_cons, List.take_left' (by simp)]
  · have := egCode_log2_le n hn
    rw [egCode_length]
    omega

/-- Settles O38: EG.ENC is `WrBits` of the code. -/
theorem egEncAppendsCode : Obligations.EgEncAppendsCode := by
  intro s hi hs
  have hbody : Cmd.Completes (fun t => t = s) egEncBody fun _ t => WroteBits s t (egCode s.arg0.toNat) := by
    refine Cmd.Completes.look_bind ?_
    rintro t rfl
    exact wrBits_completes _ t hi.stagedOrder hi.frac hs
  obtain ⟨t, he, hw⟩ := exec_of_completes (i := .egEnc) hbody
  exact ⟨t, he, hw.appended⟩

/-! ## Raising after a part that completes -/

section

variable {α β : Type} {pre : State → Prop} {c : Cause}

theorem Cmd.Completes.bind_fails {x : Cmd α} {f : α → Cmd β} {mid : α → State → Prop} (hx : Cmd.Completes pre x mid)
    (hf : ∀ a, Cmd.Fails (mid a) (f a) c) : Cmd.Fails pre (x >>= f) c := by
  intro r hp
  obtain ⟨a, r', hr, hm⟩ := hx r hp
  rw [Cmd.bind_apply, hr]
  exact hf a r' hm

/-- The same where the first part's answer is known. -/
theorem Cmd.Completes.bind_fails' {x : Cmd α} {f : α → Cmd β} {mid : State → Prop} {a : α}
    (hx : Cmd.Completes pre x fun b t => b = a ∧ mid t) (hf : Cmd.Fails mid (f a) c) : Cmd.Fails pre (x >>= f) c :=
  hx.bind_fails fun _ r ⟨hb, hm⟩ => hb ▸ hf r hm

/-- A command whose pseudocode raises (60_exceptions R345). -/
theorem exec_raises {i : Instr} {s : State} (h : Cmd.Fails (fun t => t = s) (bodyOf i) c) :
    Raises i s c.code (errInfo c (opcode i)) := by
  obtain ⟨r, hr⟩ := h (Run.start s) rfl
  have he := exec_next i s
  refine ⟨_, he, ?_⟩
  rcases exec_cases he with ⟨r', hr', -⟩ | ⟨c', r', hr', -, ht⟩ | ⟨c', r', hr', -, ht⟩ <;> rw [hr] at hr' <;> cases hr' <;>
    rw [ht, errorEntry_er]

end

/-! ## `RdEG` over a stream -/

/-- In a state that meets `P left` the reader has the bits `left` and `extra` more to deliver, and delivering a beginning of
`left` leads to a state that meets `P` of the remainder. `RdEG` needs no more of the state it starts in, be it a command's own
or a point of an engine command (`At.supply`). -/
structure Supply (P : Bits → State → Prop) (extra : Nat) : Prop where
  avail : ∀ {left : Bits} {t : State}, P left t → t.rd.avail = left.length + extra
  rdBits : ∀ bits left : Bits,
    Cmd.Completes (P (bits ++ left)) (rdBits bits.length) fun b t => b = bits ∧ P left t

theorem At.supply (s : State) (ign : BitVec 3) (out : Bits) (e : Engine) :
    Supply (fun left => At s ign left out e) 0 where
  avail h := h.avail
  rdBits bits _ := At.rdBits bits

/-- `RdEG` up to its check of the number read (R202). -/
def rdGammaNumber : Cmd Nat := do
  let k ← rdZeroRun 33 0
  requireAvail k .truncGamma
  let rest ← rdBits k
  pure (2 ^ k + val rest)

theorem rdEG_eq : rdEG = rdGammaNumber >>= fun m =>
    require (decide (m ≤ 2 ^ 32)) .gammaOverflow >>= fun _ => pure (m - 1) := by
  simp only [rdGammaNumber, bind_assoc, pure_bind]
  rfl

section

variable {P : Bits → State → Prop} {extra n : Nat} {left : Bits} {c : Cause} (hP : Supply P extra)
include hP

theorem Supply.requireAvail (h : n ≤ left.length + extra) :
    Cmd.Completes (P left) (requireAvail n c) fun _ t => P left t := by
  intro r hr
  refine ⟨(), r, ?_, hr⟩
  exact (require_apply _ _ _).trans (if_pos (by rw [hP.avail hr]; exact decide_eq_true h))

theorem Supply.requireAvail_fails (h : left.length + extra < n) : Cmd.Fails (P left) (Machine.requireAvail n c) c := by
  intro r hr
  refine ⟨r, (require_apply _ _ _).trans (if_neg ?_)⟩
  rw [hP.avail hr]
  simpa using h

/-- The zero run counts the zeros in front of it one by one. -/
theorem Supply.rdZeroRun_zeros (z : Nat) : ∀ (m k : Nat) (r : Run), P (List.replicate z false ++ left) r.st →
    ∃ r', rdZeroRun (m + z) k r = rdZeroRun m (k + z) r' ∧ P left r'.st := by
  induction z with
  | zero => exact fun m k r hr => ⟨r, rfl, hr⟩
  | succ z ih =>
    intro m k r hr
    obtain ⟨_, r1, h1, hr1⟩ := hP.requireAvail (n := 1) (c := .truncGamma) (by simp; omega) r hr
    obtain ⟨_, r2, h2, rfl, hr2⟩ := hP.rdBits [false] (List.replicate z false ++ left) r1 hr1
    have hstep : rdZeroRun (m + z + 1) k r = rdZeroRun (m + z) (k + 1) r2 := by
      rw [List.length_singleton] at h2
      simp only [rdZeroRun, Cmd.bind_apply, h1, h2]
      rfl
    obtain ⟨r', h3, hr'⟩ := ih m (k + 1) r2 hr2
    exact ⟨r', by rw [← Nat.add_assoc, hstep, h3, Nat.add_right_comm, Nat.add_assoc], hr'⟩

/-- At most 32 zeros and a 1 (R202). -/
theorem Supply.rdZeroRun (hn : n ≤ 32) :
    Cmd.Completes (P (List.replicate n false ++ true :: left)) (rdZeroRun 33 0) fun k t => k = n ∧ P left t := by
  intro r hr
  obtain ⟨m, hm⟩ := Nat.exists_eq_add_of_le' hn
  obtain ⟨r', he, hr'⟩ := hP.rdZeroRun_zeros n (m + 1) 0 r hr
  rw [show 33 = m + 1 + n by omega, he, Nat.zero_add]
  have hone : Cmd.Completes (P (true :: left)) (Machine.rdZeroRun (m + 1) n) fun k t => k = n ∧ P left t :=
    (hP.requireAvail (by simp; omega)).bind fun _ =>
      Cmd.Completes.bind' (hP.rdBits [true] left) (Cmd.Completes.pure fun _ h => ⟨rfl, h⟩)
  exact hone r' hr'

/-- A code of at most 65 bits is read as the number it spells. -/
theorem Supply.rdGammaNumber (hn : n < 2 ^ 33 - 1) :
    Cmd.Completes (P (egCode n ++ left)) rdGammaNumber fun m t => m = n + 1 ∧ P left t := by
  have hbits := hP.rdBits (nb (n + 1) (Nat.log2 (n + 1))) left
  rw [nb_length] at hbits
  rw [egCode_eq, List.append_assoc, List.cons_append]
  refine Cmd.Completes.bind' (hP.rdZeroRun (log2_succ_le hn)) ?_
  refine (hP.requireAvail (by simp; omega)).bind fun _ => ?_
  exact Cmd.Completes.bind' hbits (Cmd.Completes.pure fun _ h => ⟨two_pow_add_val_egCode n, h⟩)

/-- `RdEG` reads a code back (R202, R205). -/
theorem Supply.rdEG (hn : n < 2 ^ 32) :
    Cmd.Completes (P (egCode n ++ left)) rdEG fun v t => v = n ∧ P left t := by
  rw [rdEG_eq]
  refine Cmd.Completes.bind' (hP.rdGammaNumber (by omega)) ?_
  exact Cmd.Completes.require_bind (decide_eq_true (by omega)) (Cmd.Completes.pure fun _ h => ⟨rfl, h⟩)

/-- `RdEG` refuses 33 zeros and a number above 2^32 (R202). -/
theorem Supply.rdEG_tooLarge (h : gammaTooLarge left) : Cmd.Fails (P left) Machine.rdEG .gammaOverflow := by
  rcases h with h | ⟨n, hlo, hhi, h⟩ <;> obtain ⟨rest, rfl⟩ := List.isPrefixOf_iff_prefix.1 h
  · refine Cmd.Fails.bind fun r hr => ?_
    obtain ⟨r', he, -⟩ := hP.rdZeroRun_zeros 33 0 0 r hr
    exact ⟨r', he⟩
  · rw [rdEG_eq]
    exact (hP.rdGammaNumber hhi).bind_fails' (Cmd.Fails.require_bind (decide_eq_false (by omega)))

end

/-- `RdEG` of a stream that ends inside a code: in its zeros, where a bit more is needed, or in the bits after its 1, where `k`
are (R202). -/
theorem Supply.rdEG_cut {P : Bits → State → Prop} (hP : Supply P 0) {left : Bits} (h : gammaCut left) :
    Cmd.Fails (P left) Machine.rdEG .truncGamma := by
  obtain ⟨n, hn, hpre, hne⟩ := h
  have hk := egCode_log2_le n hn
  have hpre := List.isPrefixOf_iff_prefix.1 hpre
  have hshort : left.length < (egCode n).length :=
    lt_of_le_of_ne hpre.length_le fun hlen => hne (hpre.eq_of_length hlen)
  rw [egCode_eq] at hpre
  rcases prefix_zeros_one hpre with ⟨z, hz, rfl⟩ | ⟨v, rfl, -⟩
  · refine Cmd.Fails.bind fun r hr => ?_
    obtain ⟨m, hm⟩ := Nat.exists_eq_add_of_le' (hz.trans hk)
    obtain ⟨r', he, hr'⟩ := hP.rdZeroRun_zeros (left := []) z (m + 1) 0 r (by rwa [List.append_nil])
    rw [show 33 = m + 1 + z by omega, he]
    exact (hP.requireAvail_fails (by simp)).bind r' hr'
  · refine (hP.rdZeroRun hk).bind_fails' (hP.requireAvail_fails ?_).bind
    simp only [egCode_length, List.length_append, List.length_replicate, List.length_cons] at hshort
    omega

/-! ## EG.DEC -/

section

variable {s t u : State} {left rest : Bits}

theorem Delivered.trans {a b : Nat} (h : Delivered s t a) (h' : Delivered t u b) : Delivered s u (a + b) := by
  obtain ⟨⟨_, _, rfl⟩, hs⟩ := h
  obtain ⟨⟨rf, q, rfl⟩, hs'⟩ := h'
  refine ⟨⟨rf, q, ?_⟩, fun a ha => hs' a (hs a ha)⟩
  simp only [State.setRd, Nat.add_assoc]

/-- `t` is `s` with a beginning of its bits delivered: `left`, of which the host has disturbed none, and then `rest` are still
to come. -/
structure Pending (s : State) (rest left : Bits) (t : State) : Prop where
  delivered : ∃ read, s.unread = read ++ (left ++ rest) ∧ Delivered s t read.length
  sound : t.sourceSound t.rd.len
  steady : t.steady left.length

theorem Pending.start (h : s.unread = left ++ rest) (hs : s.sourceSound s.rd.len) (hst : s.steady left.length) :
    Pending s rest left s :=
  ⟨⟨[], h, .refl s⟩, hs, hst⟩

theorem Pending.unread (h : Pending s rest left t) : t.unread = left ++ rest := by
  obtain ⟨read, hread, ht⟩ := h.delivered
  rw [ht.unread, hread, List.drop_left]

theorem Pending.supply (s : State) (rest : Bits) : Supply (Pending s rest) rest.length where
  avail h := by rw [← unread_length, h.unread, List.length_append]
  rdBits bits left := by
    intro r h
    have hst : r.st.steady (bits.length + left.length) := by
      rw [← List.length_append]
      exact h.steady
    obtain ⟨b, r', he, hb, hd⟩ := rdBits_unread r.st h.sound bits.length
      (by rw [← unread_length, h.unread]; simp) (fun j hj hlt => hst j hj (by omega)) r rfl
    obtain ⟨read, hread, ht⟩ := h.delivered
    refine ⟨b, r', he, ?_, ⟨read ++ bits, ?_, ?_⟩, hd.sound h.sound, hd.steady hst⟩
    · rw [hb, h.unread, List.append_assoc, List.take_left]
    · rw [hread, List.append_assoc, List.append_assoc]
    · rw [List.length_append]
      exact ht.trans hd

/-- EG.DEC (R204) where a code is left to read: the reader delivers its bits, then RESULT is written. -/
theorem egDecBody_completes {n : Nat} (hn : n < 2 ^ 32) (hu : s.unread = egCode n ++ rest) (hs : s.sourceSound s.rd.len)
    (hst : s.steady (egCode n).length) :
    Cmd.Completes (fun t => t = s) egDecBody fun _ t =>
      ∃ u, Delivered s u (egCode n).length ∧ t = u.setResult (BitVec.ofNat 32 n) := by
  refine Cmd.Completes.bind' (((Pending.supply s rest).rdEG (left := []) hn).weaken ?_ fun _ _ h => h) ?_
  · rintro t rfl
    rw [List.append_nil]
    exact .start hu hs hst
  · refine (Cmd.Completes.advance _).weaken (fun _ h => h) ?_
    rintro _ _ ⟨u, rfl, ⟨read, hread, hd⟩, -, -⟩
    have hcode : read = egCode n := List.append_cancel_right (hread.symm.trans hu)
    exact ⟨u, hcode ▸ hd, rfl⟩

/-- EG.DEC raises what `RdEG` raises over the bits left. -/
theorem egDec_raises {c : Cause} (hs : s.sourceSound s.rd.len) (hst : s.steady s.rd.avail)
    (h : Cmd.Fails (Pending s [] s.unread) rdEG c) : Raises .egDec s c.code (errInfo c 0x31#8) := by
  refine exec_raises (i := .egDec) (Cmd.Fails.bind ?_)
  rintro r rfl
  exact h r (.start (List.append_nil _).symm hs (by rwa [unread_length]))

end

/-- Settles O39: `RdEG` reads the code back, and its value, below 2^32, fits RESULT. -/
theorem egDecReadsCode : Obligations.EgDecReadsCode := by
  intro s n rest hn hu hs hst
  obtain ⟨_, he, _, ⟨⟨rf, q, rfl⟩, -⟩, rfl⟩ := exec_of_completes (i := .egDec) (egDecBody_completes hn hu hs hst)
  exact ⟨_, he, Nat.mod_eq_of_lt hn, rfl, rfl⟩

/-- Settles O40: the bits left are a cut code or one too large, of which `RdEG` raises each error. -/
theorem egDecMalformed : Obligations.EgDecMalformed := by
  intro s hs hst
  have hP := Pending.supply s []
  exact ⟨fun h => egDec_raises hs hst (hP.rdEG_cut h), fun h => egDec_raises hs hst (hP.rdEG_tooLarge h)⟩

end Sys2Proof.Machine

/-! LZSS as functions of byte lists (42_lzss R223 to R229): the window, the match finder, the encoder's records. -/

namespace Sys2Proof.Machine

/-- Settles O42: the definition's two cases, and the length of each. -/
theorem histAppendLaws : Obligations.HistAppendLaws := by
  intro hb hist t
  unfold histAppend
  refine ⟨fun h => if_neg (by omega), fun h => if_pos h, fun h => ?_⟩
  split
  · exact h
  · rw [List.length_append]; omega

/-- Settles O43: from a window and a position on the records replay to the rest of the source (`lzReplay_recordsFrom`), here
from the empty window and position 0. -/
theorem lzRecordsReplayToSource : Obligations.LzRecordsReplayToSource := by
  intro hb mb depth src _ hmb
  rw [lzRecords, lzReplay_recordsFrom hb mb depth src hmb _ _ _ (by omega), List.drop_zero]

/-- Settles O44: the bounds of `lzRecordsFrom_copy`, from the empty window on; the break-even point is at least 1. -/
theorem lzMatchesPayOff : Obligations.LzMatchesPayOff := by
  intro hb mb depth src off len hhb hmb h
  obtain ⟨hlong, hin, hfit⟩ := lzRecordsFrom_copy hb mb depth src hhb hmb _ _ _ (Nat.zero_le _) off len h
  have hpos := breakEven_pos hb mb
  exact ⟨hlong, by omega, by omega, by omega, hin⟩

/-! ## The match finder -/

section

variable {hist look : List Byte} {l : Byte} {depth n off len : Nat}

/-- How far the candidate at offset `o` extends (R224). -/
def matchAt (hist look : List Byte) (o : Nat) : Nat := matchLength (hist.drop o) look

/-- The scan so far: `(off, len)` is the best of the candidates below offset `n`, the earliest of the longest, and among the
first `depth` where a depth is set; with no candidate it is `(0, 0)`. -/
structure BestBelow (hist : List Byte) (l : Byte) (look : List Byte) (depth n off len : Nat) : Prop where
  longest : ∀ o < n, matchAt hist (l :: look) o ≤ len
  earliest : ∀ o < n, 0 < len → matchAt hist (l :: look) o = len → off ≤ o
  none : len = 0 → off = 0
  reached : 0 < len → off < n ∧ matchAt hist (l :: look) off = len ∧ (depth ≠ 0 → (hist.take off).count l < depth)

theorem matchAt_pos_iff {o : Nat} : 0 < matchAt hist (l :: look) o ↔ hist[o]? = some l := by
  rw [matchAt, ← List.head?_drop]
  cases hist.drop o with
  | nil => simp [matchLength]
  | cons h hs => rw [matchLength, List.head?_cons, Option.some_inj]; split <;> simp [*]

/-- One offset further (R224): the candidate there, if there is one, is better only where it is longer. -/
theorem BestBelow.next (h : BestBelow hist l look depth n off len) (hn : depth ≠ 0 → (hist.take n).count l < depth) :
    BestBelow hist l look depth (n + 1)
      (if matchAt hist (l :: look) n > len then (n, matchAt hist (l :: look) n) else (off, len)).1
      (if matchAt hist (l :: look) n > len then (n, matchAt hist (l :: look) n) else (off, len)).2 := by
  obtain ⟨hlong, hearly, hnone, hreach⟩ := h
  have hlast {o : Nat} (ho : o < n + 1) : o < n ∨ o = n := Nat.lt_succ_iff_lt_or_eq.1 ho
  split
  · rename_i hgt
    refine ⟨fun o ho => ?_, fun o ho _ heq => ?_, fun h0 => ?_, fun _ => ⟨Nat.lt_succ_self n, rfl, hn⟩⟩
    · rcases hlast ho with ho | rfl
      · exact (hlong o ho).trans (Nat.le_of_lt hgt)
      · exact le_rfl
    · rcases hlast ho with ho | rfl
      · exact absurd heq (Nat.ne_of_lt (Nat.lt_of_le_of_lt (hlong o ho) hgt))
      · exact le_rfl
    · exact absurd h0 (Nat.ne_of_gt (Nat.zero_lt_of_lt hgt))
  · rename_i hle
    refine ⟨fun o ho => ?_, fun o ho hpos heq => ?_, hnone, fun hpos => ?_⟩
    · rcases hlast ho with ho | rfl
      · exact hlong o ho
      · exact Nat.not_lt.1 hle
    · rcases hlast ho with ho | rfl
      · exact hearly o ho hpos heq
      · exact Nat.le_of_lt (hreach hpos).1
    · obtain ⟨hlt, hrest⟩ := hreach hpos
      exact ⟨Nat.lt_succ_of_lt hlt, hrest⟩

/-- Where the scan of R224 stops: at the end of the window, or past the last of the `depth` candidates asked for. -/
def ScanEnd (hist : List Byte) (l : Byte) (depth n : Nat) : Prop :=
  hist.length ≤ n ∨ (depth ≠ 0 ∧ depth ≤ (hist.take n).count l)

/-- The scan keeps the best candidate so far, up to where it stops. -/
theorem scanMatches_best : ∀ (hs : List Byte) (o off len : Nat), hist.drop o = hs →
    (depth ≠ 0 → (hist.take o).count l < depth) → BestBelow hist l look depth o off len →
    ∃ n, ScanEnd hist l depth n ∧ BestBelow hist l look depth n
      (scanMatches (l :: look) depth hs o ((hist.take o).count l) off len).1
      (scanMatches (l :: look) depth hs o ((hist.take o).count l) off len).2 := by
  intro hs
  induction hs with
  | nil => exact fun o off len hd _ hbest => ⟨o, .inl (List.drop_eq_nil_iff.1 hd), hbest⟩
  | cons h hs ih =>
    intro o off len hd hcount hbest
    have hnext := hbest.next hcount
    have hget : hist[o]? = some h := by rw [← List.head?_drop, hd]; rfl
    have hd' : hist.drop (o + 1) = hs := by rw [← List.drop_drop, hd]; rfl
    have htake : (hist.take (o + 1)).count l = (hist.take o).count l + [h].count l := by
      rw [List.take_add_one, hget, List.count_append]
      rfl
    have hat : matchAt hist (l :: look) o = matchLength (h :: hs) (l :: look) := by rw [matchAt, hd]
    rw [scanMatches]
    by_cases heq : l = h
    · rw [if_pos (show (l :: look).head? = some h from congrArg some heq), ← hat]
      rw [← heq, List.count_singleton_self] at htake
      dsimp only
      split
      · rename_i hstop
        exact ⟨o + 1, .inr ⟨hstop.1, by omega⟩, hnext⟩
      · rename_i hgo
        rw [← htake]
        exact ih _ _ _ hd' (fun h0 => by have := hcount h0; omega) hnext
    · rw [if_neg (show (l :: look).head? ≠ some h from fun he => heq (Option.some.inj he))]
      replace htake : (hist.take (o + 1)).count l = (hist.take o).count l := by
        rw [htake, List.count_eq_zero.2 (List.mem_singleton.not.2 heq : l ∉ [h]), Nat.add_zero]
      have hzero : ¬ matchAt hist (l :: look) o > len := by
        have : ¬ 0 < matchAt hist (l :: look) o := by
          rw [matchAt_pos_iff, hget]
          exact fun he => heq (Option.some.inj he).symm
        omega
      rw [if_neg hzero] at hnext
      rw [← htake]
      exact ih _ _ _ hd' (by rw [htake]; exact hcount) hnext

theorem matchSearch_best (hist : List Byte) (l : Byte) (look : List Byte) (depth : Nat) :
    ∃ n, ScanEnd hist l depth n ∧ BestBelow hist l look depth n (matchSearch hist (l :: look) depth).1
      (matchSearch hist (l :: look) depth).2 :=
  scanMatches_best hist 0 0 0 rfl (fun h => Nat.pos_of_ne_zero h)
    ⟨nofun, nofun, fun _ => rfl, fun h => absurd h (Nat.lt_irrefl 0)⟩

/-- A length of 0 means that the lookahead's first byte does not occur (R225). -/
theorem BestBelow.len_eq_zero_iff (h : BestBelow hist l look depth n off len) (hend : ScanEnd hist l depth n) :
    len = 0 ↔ l ∉ hist := by
  constructor
  · intro h0 hl
    have hmem : l ∈ hist.take n := by
      rcases hend with hn | ⟨hdepth, hcount⟩
      · rwa [List.take_of_length_le hn]
      · exact List.count_pos_iff.1 (by omega)
    obtain ⟨o, ho⟩ := List.mem_iff_getElem?.1 hmem
    rw [List.getElem?_take] at ho
    split at ho
    · rename_i hlt
      have := matchAt_pos_iff (look := look).2 ho
      have := h.longest o hlt
      omega
    · cases ho
  · intro hl
    by_contra h0
    obtain ⟨-, hat, -⟩ := h.reached (Nat.pos_of_ne_zero h0)
    exact hl (List.mem_of_getElem? (matchAt_pos_iff.1 (hat ▸ Nat.pos_of_ne_zero h0)))

/-- No candidate asked for is missed: past the end of the scan there is none (R225). -/
theorem ScanEnd.lt_or_matchAt_eq_zero (hend : ScanEnd hist l depth n) {o : Nat}
    (ho : depth = 0 ∨ (hist.take o).count l < depth) : o < n ∨ matchAt hist (l :: look) o = 0 := by
  refine (Nat.lt_or_ge o n).imp_right fun hno => ?_
  rcases hend with hn | ⟨hdepth, hcount⟩
  · rw [matchAt, List.drop_eq_nil_of_le (hn.trans hno)]
    rfl
  · have := (List.take_sublist_take_left (l := hist) hno).count_le l
    omega

end

/-- Settles O41: the scan keeps the best candidate so far (`BestBelow.next`), and where it stops no candidate asked for is
left. -/
theorem matchSearchLaws : Obligations.MatchSearchLaws := by
  intro hist l look depth m
  obtain ⟨n, hend, hbest⟩ := matchSearch_best hist l look depth
  obtain ⟨hin, hlen, hsame⟩ := matchSearch_isMatch hist (l :: look) depth
  refine ⟨hbest.len_eq_zero_iff hend, hbest.none, hin, hlen, hsame, fun o ho => ?_, fun hdepth hpos => ?_⟩
  · rcases hend.lt_or_matchAt_eq_zero (look := look) ho with hlt | hzero
    · exact ⟨hbest.longest o hlt, hbest.earliest o hlt⟩
    · exact ⟨hzero.trans_le (Nat.zero_le _), fun hpos heq => absurd (hzero.symm.trans heq) (Nat.ne_of_lt hpos)⟩
  · obtain ⟨-, -, hcount⟩ := hbest.reached hpos
    exact hcount hdepth

end Sys2Proof.Machine

/-! LZ.COMP and LZ.DEC where they complete, and the round trip (42_lzss R241, R250, R256). -/

namespace Sys2Proof.Machine

section

variable {s t u : State} {hb mb depth : Nat} {src : List Byte}

/-- The fields of the encoder's records fit their widths (R227). -/
theorem lzRecords_fits (hhb : 1 ≤ hb) (hmb : 1 ≤ mb) : ∀ r ∈ lzRecords hb mb depth src, r.fits hb mb
  | .literal _, _ => trivial
  | .copy off len, hr => by
    obtain ⟨-, -, hoff, hlen, -⟩ := lzMatchesPayOff hb mb depth src off len hhb hmb hr
    exact ⟨hoff, hlen⟩

/-- A file is whole bytes, so its bytes hold its bits (30_encoding R115, R116). -/
theorem bitsOf_bytesOf_fileBits (body : Bits) : bitsOf (bytesOf (fileBits body)) = fileBits body := by
  have hlen : (fileBits body).length % 8 = 0 := by
    have := add_fillCount_mod (3 + body.length)
    simp only [fileBits, List.length_append, nb_length, List.length_replicate]
    exact this
  exact bitsOf_bytesOf ((fileBits body).length / 8) _ (by omega)

/-- What an engine command wrote, as the source of the next (R256, 43_shannon_fano R305). -/
theorem State.holdsOutputOf.input (h : u.holdsOutputOf t) (hend : EngineEnd s t) (hlen : t.output.length < 2 ^ 32) :
    u.input = t.output := by
  obtain ⟨hsrcLen, hbytes⟩ := h
  obtain ⟨-, hresult, -⟩ := hend
  rw [State.output, List.length_map, List.length_range] at hlen
  rw [State.input, hsrcLen, hresult, BitVec.toNat_ofNat, Nat.mod_eq_of_lt hlen]
  exact List.map_congr_left fun a ha => hbytes a (List.mem_range.1 ha)

/-- The upper bounds of 00_scope R10 that the codecs need. -/
theorem Params.wf_bounds {p : Params} (h : p.wf = true) :
    p.hbMax ≤ 24 ∧ p.mbMax ≤ 24 ∧ p.wlMax ≤ 24 ∧ p.snkCap ≤ 2 ^ 28 := by
  simp only [Params.wf, Bool.and_eq_true, decide_eq_true_eq] at h
  omega

/-- LZ.COMP over a source that can be read into a sink that can hold the file (R241). -/
theorem exec_lzComp_completes (h1 : 1 ≤ s.arg0.toNat) (h2 : s.arg0.toNat ≤ s.par.hbMax) (h3 : 1 ≤ s.arg1.toNat)
    (h4 : s.arg1.toNat ≤ s.par.mbMax) (hr : s.canRead)
    (hst : s.canStoreFile (lzFile s.arg0.toNat s.arg1.toNat s.arg2.toNat s.input).length) :
    ∃ t, exec .lzComp s = .next t ∧ CompressEnd s t (lzFile s.arg0.toNat s.arg1.toNat s.arg2.toNat s.input) := by
  obtain ⟨hs, hroom⟩ := hst
  obtain ⟨t, he, hend, -⟩ := exec_of_completes (i := .lzComp)
    (lzCompBody_completes (range_check_true h1 h2) (range_check_true h3 h4) hr hs hroom)
  exact ⟨t, he, hend⟩

/-- LZ.DEC over a file of the grammar into a sink that can hold the output (R250). -/
theorem exec_lzDec_completes {n : Nat} {records : List LzRecord} {pad : Bits} {out : List Byte} (hw : s.par.wf = true)
    (h1 : 1 ≤ hb) (h2 : hb ≤ s.par.hbMax) (h3 : 1 ≤ mb) (h4 : mb ≤ s.par.mbMax) (hn : n < 8) (hp : pad.length = n)
    (hfit : ∀ r ∈ records, r.fits hb mb) (hout : lzReplay hb [] records = some out)
    (hin : bitsOf s.input = nb n 3 ++ lzBody hb mb records ++ pad) (hr : s.canRead) (hst : s.canStoreFile out.length) :
    ∃ t, exec .lzDec s = .next t ∧ DecodeEnd s t n out ∧ t.er = s.er := by
  obtain ⟨hs, hroom⟩ := hst
  exact exec_of_completes (i := .lzDec) (lzDecBody_completes hw hb mb n records pad out (range_check_true h1 h2)
    (range_check_true h3 h4) hn hp hfit hout hin hr hs hroom)

theorem input_length (s : State) : s.input.length = s.srcLen.toNat := by
  rw [State.input, State.source, List.length_map, List.length_range]

end

/-- Settles O45: `LzEncode` writes the body after a placeholder, which `FinishHeader` makes the file. -/
theorem lzCompWritesFile : Obligations.LzCompWritesFile :=
  fun _ h1 h2 h3 h4 hr hst => exec_lzComp_completes h1 h2 h3 h4 hr hst

/-- Settles O46: the pad field and the header are read back, then each record in turn. -/
theorem lzDecReplaysFile : Obligations.LzDecReplaysFile := by
  intro s hb mb n records pad out hw h1 h2 h3 h4 hn hp hfit hout hin hr hst
  obtain ⟨t, he, hend, -⟩ := exec_lzDec_completes hw h1 h2 h3 h4 hn hp hfit hout hin hr hst
  exact ⟨t, he, hend⟩

/-- Settles O49: the source of LZ.DEC is the file LZ.COMP wrote; its records fit their widths and replay to the source
(`lzRecordsReplayToSource`). -/
theorem lzRoundTrip : Obligations.LzRoundTrip := by
  intro s t u hsw huw h1 h2 h3 h4 hr hst he hload h5 h6 hur hust
  obtain ⟨_, he', hend, hfile, -⟩ := exec_lzComp_completes h1 h2 h3 h4 hr hst
  obtain rfl : t = _ := Host.Outcome.next.inj (he.symm.trans he')
  obtain ⟨-, -, -, hcap⟩ := Params.wf_bounds hsw
  obtain ⟨-, hlen, -⟩ := hst
  have hin := hload.input hend (by rw [hfile]; omega)
  rw [hfile] at hin
  have hbits := (congrArg bitsOf hin).trans (bitsOf_bytesOf_fileBits _)
  rw [← input_length s] at hust
  obtain ⟨v, hv, ⟨-, hout, -⟩, her⟩ := exec_lzDec_completes huw h1 h5 h3 h6 (fillCount_lt _) (List.length_replicate ..)
    (lzRecords_fits h1 h3) (lzRecordsReplayToSource _ _ _ _ h1 h3) hbits hur hust
  exact ⟨v, hv, hout, her⟩

end Sys2Proof.Machine

/-! The files that a decode command refuses at its header (42_lzss R244, R245; 41_elias_gamma R202; 43_shannon_fano R295). -/

namespace Sys2Proof.Machine

/-! ## A decode command up to its header -/

section

variable {α β : Type} {pre : State → Prop} {c : Cause}

/-- A read of the state before the failure, in any of the states the piece may start in. -/
theorem Cmd.Fails.look_bind_pre {f : State → Cmd β} (h : ∀ t, pre t → Cmd.Fails pre (f t) c) :
    Cmd.Fails pre (Machine.look >>= f) c :=
  fun r hr => h r.st hr r hr

end

/-- Both decoders read two Elias-gamma codes after the pad field, then check the two values (42_lzss R245,
43_shannon_fano R295). -/
def readTwoGammas (check : Nat → Nat → Cmd (Nat × Nat)) : Cmd (Nat × Nat) := do
  let a ← rdEG
  let b ← rdEG
  check a b

/-- A decode command: the start of an engine command, the pad field, the header, the rest (42_lzss R250, 43_shannon_fano
R300). -/
def decodeBody (check : Nat → Nat → Cmd (Nat × Nat)) (cont : Nat × Nat → Cmd Unit) : Cmd Unit := do
  rdInit
  enterEngine
  wrInit
  rdPadHeader
  let header ← readTwoGammas check
  cont header

/-- The checks of LZ.DEC's header (R245). -/
def lzCheckHeader (hb mb : Nat) : Cmd (Nat × Nat) := do
  let s ← look
  require (hbInRange s.par hb) .hdrHb
  require (mbInRange s.par mb) .hdrMb
  pure (hb, mb)

/-- LZ.DEC after its header (R250). -/
def lzDecRest (header : Nat × Nat) : Cmd Unit := do
  lzDecode header.1 header.2
  flushPoint
  resultIsLength
  leaveEngine

theorem bodyOf_lzDec : bodyOf .lzDec = decodeBody lzCheckHeader lzDecRest := rfl

section

variable {s : State} {ign : BitVec 3} {left out rest pad : Bits} {e : Engine} {c : Cause} {n a b : Nat}
  {check : Nat → Nat → Cmd (Nat × Nat)}

/-- `RdPadHeader()` of fewer than 3 bits (R244). -/
theorem At.rdPadHeader_short (h : left.length < 3) : Cmd.Fails (At s ign left out e) Machine.rdPadHeader .truncHeader :=
  ((At.supply s ign out e).requireAvail_fails h).bind

/-- The position of a reader that ignores no bits. -/
theorem At.pos_of_ign_zero {t : State} (h : At s 0#3 left out e t) : t.rd.pos + left.length = 8 * s.srcLen.toNat := by
  have hpos := h.pos
  rwa [Reader.logicalLen, h.isIgn, h.len] at hpos

/-- `RdPadHeader()` whose pad count hides bits of the pad field: the position, `rest` before the end of the source, is past
the end of the logical stream (R244). -/
theorem At.rdPadHeader_exceeds (hn : n < 8) (h : rest.length < n) :
    Cmd.Fails (At s 0#3 (nb n 3 ++ rest) out e) Machine.rdPadHeader .padExceeds := by
  have hP := At.supply s 0#3 out e
  have hread := hP.rdBits (nb n 3) rest
  rw [nb_length] at hread
  intro r hr
  have hstart := hr.pos_of_ign_zero
  refine (hP.requireAvail (by simp)).bind_fails (fun _ => hread.bind_fails' fun r' hr' => ?_) r hr
  have hpos := hr'.pos_of_ign_zero
  refine ⟨_, (require_apply _ _ _).trans (if_neg ?_)⟩
  have hign : (BitVec.ofNat 3 (val (nb n 3))).toNat = n := by
    rw [val_nb, BitVec.toNat_ofNat, Nat.mod_mod, Nat.mod_eq_of_lt (by omega)]
  rw [List.length_append, nb_length] at hstart
  simp only [decide_eq_true_eq, State.setRd_rd, Reader.logicalLen, hign, hr'.len]
  omega

/-- Both codes are read back, then the two values are checked. -/
theorem At.readTwoGammas_fails (ha : a < 2 ^ 32) (hb : b < 2 ^ 32) (h : Cmd.Fails (At s ign left out e) (check a b) c) :
    Cmd.Fails (At s ign (egCode a ++ (egCode b ++ left)) out e) (readTwoGammas check) c :=
  (At.rdEG a ha).bind_fails' ((At.rdEG b hb).bind_fails' h)

theorem At.readTwoGammas {post : Nat × Nat → State → Prop} (ha : a < 2 ^ 32) (hb : b < 2 ^ 32)
    (h : Cmd.Completes (At s ign left out e) (check a b) post) :
    Cmd.Completes (At s ign (egCode a ++ (egCode b ++ left)) out e) (readTwoGammas check) post :=
  Cmd.Completes.bind' (At.rdEG a ha) (Cmd.Completes.bind' (At.rdEG b hb) h)

/-- A failure after the start of an engine command. -/
theorem engine_start_fails {β : Type} {f : Unit → Cmd β} (hr : s.canRead) (hs : s.stagedSound)
    (h : Cmd.Fails (At s 0#3 (bitsOf s.input) [] Engine.empty) (f ()) c) :
    Cmd.Fails (fun t => t = s) (rdInit >>= fun _ => enterEngine >>= fun _ => wrInit >>= f) c := by
  have hstart := engine_start (f := pure) (post := fun _ => At s 0#3 (bitsOf s.input) [] Engine.empty) hr hs
    (Cmd.Completes.pure fun _ ht => ht)
  have hfails := hstart.bind_fails (f := f) fun _ => h
  simpa only [bind_assoc, pure_bind] using hfails

/-! ## The errors both decoders share -/

variable {i : Instr} {cont : Nat × Nat → Cmd Unit} (hi : bodyOf i = decodeBody check cont) (hr : s.canRead)
  (hs : s.stagedSound)
include hi hr hs

/-- A failure in the pad field. -/
theorem raises_in_padField (h : Cmd.Fails (At s 0#3 (bitsOf s.input) [] Engine.empty) rdPadHeader c) :
    Raises i s c.code (errInfo c (opcode i)) := by
  refine exec_raises ?_
  rw [hi]
  exact engine_start_fails hr hs h.bind

/-- An empty source (R244). -/
theorem raises_of_empty (h : s.srcLen = 0#32) : Raises i s .malformed (errInfo .truncHeader (opcode i)) :=
  raises_in_padField hi hr hs (c := .truncHeader) (At.rdPadHeader_short (by simp [input_length, h]))

/-- A pad count that hides its own field (R244). -/
theorem raises_of_padExceeds (hin : bitsOf s.input = nb n 3 ++ rest) (hn : n < 8) (h : rest.length < n) :
    Raises i s .malformed (errInfo .padExceeds (opcode i)) :=
  raises_in_padField hi hr hs (c := .padExceeds) (hin ▸ At.rdPadHeader_exceeds hn h)

/-- A failure after the pad field. -/
theorem raises_after_padField (hin : bitsOf s.input = nb n 3 ++ left ++ pad) (hn : n < 8) (hp : pad.length = n)
    (h : Cmd.Fails (At s (BitVec.ofNat 3 n) left [] Engine.empty) (readTwoGammas check >>= cont) c) :
    Raises i s c.code (errInfo c (opcode i)) := by
  refine exec_raises ?_
  rw [hi]
  refine engine_start_fails hr hs ?_
  rw [hin]
  exact (At.rdPadHeader n hn left pad hp).bind_fails fun _ => h

/-- A file that ends inside the first code of the header, or whose first value is above 2^32 - 1. -/
theorem raises_of_first_gamma (hin : bitsOf s.input = nb n 3 ++ left ++ pad) (hn : n < 8) (hp : pad.length = n) :
    (gammaCut left → Raises i s .malformed (errInfo .truncGamma (opcode i))) ∧
      (gammaTooLarge left → Raises i s .malformed (errInfo .gammaOverflow (opcode i))) :=
  ⟨fun h => raises_after_padField hi hr hs hin hn hp (c := .truncGamma) ((At.supply ..).rdEG_cut h).bind.bind,
    fun h => raises_after_padField hi hr hs hin hn hp (c := .gammaOverflow) ((At.supply ..).rdEG_tooLarge h).bind.bind⟩

/-- A file that ends inside the second code of the header, or whose second value is above 2^32 - 1. -/
theorem raises_of_second_gamma (hin : bitsOf s.input = nb n 3 ++ egCode a ++ left ++ pad) (hn : n < 8)
    (hp : pad.length = n) (ha : a < 2 ^ 32) :
    (gammaCut left → Raises i s .malformed (errInfo .truncGamma (opcode i))) ∧
      (gammaTooLarge left → Raises i s .malformed (errInfo .gammaOverflow (opcode i))) := by
  have hfirst {c : Cause} (h : Cmd.Fails (At s (BitVec.ofNat 3 n) left [] Engine.empty) rdEG c) :
      Raises i s c.code (errInfo c (opcode i)) :=
    raises_after_padField hi hr hs (by rw [hin, List.append_assoc (nb n 3)]) hn hp ((At.rdEG a ha).bind_fails' h.bind).bind
  exact ⟨fun h => hfirst ((At.supply ..).rdEG_cut h), fun h => hfirst ((At.supply ..).rdEG_tooLarge h)⟩

/-- A file whose two header values fail the decoder's checks. -/
theorem raises_of_header_check (hin : bitsOf s.input = nb n 3 ++ egCode a ++ egCode b ++ rest) (hn : n < 8)
    (hlen : n ≤ rest.length) (ha : a < 2 ^ 32) (hb : b < 2 ^ 32)
    (h : ∀ left, Cmd.Fails (At s (BitVec.ofNat 3 n) left [] Engine.empty) (check a b) c) :
    Raises i s c.code (errInfo c (opcode i)) := by
  have hsplit := List.take_append_drop (rest.length - n) rest
  refine raises_after_padField hi hr hs (pad := rest.drop (rest.length - n)) ?_ hn (by rw [List.length_drop]; omega)
    (At.readTwoGammas_fails ha hb (h (rest.take (rest.length - n)))).bind
  rw [hin]
  conv_lhs => rw [← hsplit]
  simp only [List.append_assoc]

end

/-! ## LZ.DEC -/

section

variable {s : State} {ign : BitVec 3} {left out : Bits} {e : Engine} {hb mb : Nat}

theorem lzCheckHeader_completes (h1 : hbInRange s.par hb = true) (h2 : mbInRange s.par mb = true) :
    Cmd.Completes (At s ign left out e) (lzCheckHeader hb mb) fun v t => v = (hb, mb) ∧ At s ign left out e t := by
  refine At.look_bind fun t ht => ?_
  rw [ht.par]
  exact Cmd.Completes.require_bind h1 <| Cmd.Completes.require_bind h2 <| Cmd.Completes.pure fun _ hu => ⟨rfl, hu⟩

theorem lzCheckHeader_fails_hb (h : hb < 1 ∨ s.par.hbMax < hb) :
    Cmd.Fails (At s ign left out e) (lzCheckHeader hb mb) .hdrHb :=
  Cmd.Fails.look_bind_pre fun t ht => Cmd.Fails.require_bind (by rw [ht.par]; exact range_check_false h)

theorem lzCheckHeader_fails_mb (h1 : 1 ≤ hb) (h2 : hb ≤ s.par.hbMax) (h : mb < 1 ∨ s.par.mbMax < mb) :
    Cmd.Fails (At s ign left out e) (lzCheckHeader hb mb) .hdrMb :=
  Cmd.Fails.look_bind_pre fun t ht => Cmd.Fails.passed_bind (by rw [ht.par]; exact range_check_true h1 h2) <|
    Cmd.Fails.require_bind (by rw [ht.par]; exact range_check_false h)

end

/-- Settles O47: LZ.DEC is a decode command (`bodyOf_lzDec`), which fails in its pad field, in a code, or at a check. -/
theorem lzDecHeaderErrors : Obligations.LzDecHeaderErrors := by
  intro s _ hr hs
  have hi := bodyOf_lzDec
  refine ⟨fun h => raises_of_empty hi hr hs h, fun n rest hin hn h => raises_of_padExceeds hi hr hs hin hn h,
    fun n t pad hin hn hp => raises_of_first_gamma hi hr hs hin hn hp,
    fun n hb t pad hin hn hp hhb => raises_of_second_gamma hi hr hs hin hn hp hhb,
    fun n hb mb rest hin hn hlen hhb hmb => ⟨fun h => ?_, fun h1 h2 h => ?_⟩⟩
  · exact raises_of_header_check hi hr hs hin hn hlen hhb hmb (c := .hdrHb) fun _ => lzCheckHeader_fails_hb h
  · exact raises_of_header_check hi hr hs hin hn hlen hhb hmb (c := .hdrMb) fun _ => lzCheckHeader_fails_mb h1 h2 h

end Sys2Proof.Machine

/-! LZ.DEC of a file that goes wrong after some good records (42_lzss R246). -/

namespace Sys2Proof.Machine

/-! ## The window after some records -/

/-- The decoder's window after a list of records, from the window `hist` on (R246). -/
def lzWindow (hb : Nat) : List Byte → List LzRecord → List Byte
  | hist, [] => hist
  | hist, r :: rest => lzWindow hb (histAppend hb hist ((recordOutput hist r).getD [])) rest

/-- A record that ends the replay of some good records is outside the window they leave. -/
theorem recordOutput_lzWindow_eq_none {hb : Nat} {r : LzRecord} {records : List LzRecord} :
    ∀ {hist out : List Byte}, lzReplay hb hist records = some out → lzReplay hb hist (records ++ [r]) = none →
      recordOutput (lzWindow hb hist records) r = none := by
  induction records with
  | nil =>
    intro hist out _ hbad
    cases hr : recordOutput hist r with
    | none => exact hr
    | some t => simp [lzReplay, hr] at hbad
  | cons q records ih =>
    intro hist out hgood hbad
    rw [lzReplay] at hgood
    rw [List.cons_append, lzReplay] at hbad
    cases hq : recordOutput hist q with
    | none => rw [hq] at hgood; cases hgood
    | some t =>
      rw [hq] at hgood hbad
      obtain ⟨out', hgood', -⟩ := Option.map_eq_some_iff.1 hgood
      rw [lzWindow, hq]
      exact ih hgood' (Option.map_eq_none_iff.1 hbad)

section

variable {s : State} {ign : BitVec 3} {left out rest tail pad : Bits} {e : Engine} {c : Cause} {hb mb off len n : Nat}
  {hist : List Byte} {r : LzRecord}

/-- The decoder's memories with the window `hist` (R246). -/
abbrev decoderMem (hb mb : Nat) (hist : List Byte) : LzMem :=
  { hb := hb, mb := mb, depth := 0, hist := hist, pos := 0, look := [] }

/-! ## One record -/

/-- A record is its first bit, 1 for a literal, and a payload of 8 or of `hb + mb` bits (R228). -/
theorem recordBits_cons (hb mb : Nat) (r : LzRecord) :
    ∃ payload, recordBits hb mb r = (r matches .literal _) :: payload ∧
      payload.length = if (r matches .literal _) then 8 else hb + mb := by
  cases r with
  | literal b => exact ⟨_, rfl, bitsOfByte_length b⟩
  | copy off len => exact ⟨_, rfl, by simp⟩

/-- A stream that ends inside a record (R246). -/
theorem At.lzDecodeRecord_cut (hmem : e.lz = decoderMem hb mb hist) (hpre : tail.isPrefixOf (recordBits hb mb r) = true)
    (hne : tail ≠ []) (hcut : tail ≠ recordBits hb mb r) :
    Cmd.Fails (At s ign tail out e) Machine.lzDecodeRecord .truncRecord := by
  obtain ⟨payload, hbits, hlen⟩ := recordBits_cons hb mb r
  have hpre := List.isPrefixOf_iff_prefix.1 hpre
  have hshort : tail.length < (recordBits hb mb r).length :=
    lt_of_le_of_ne hpre.length_le fun h => hcut (hpre.eq_of_length h)
  rw [hbits] at hpre hshort
  obtain ⟨left, rfl, -⟩ := (List.prefix_cons_iff.1 hpre).resolve_left hne
  have hP := At.supply s ign out e
  refine (hP.rdBits [_] left).bind_fails' (Cmd.Fails.look_bind_pre fun t ht => ?_)
  rw [ht.eng, hmem]
  dsimp only
  simp only [List.length_cons] at hshort
  cases r with
  | literal b =>
    rw [if_pos rfl]
    exact (hP.requireAvail_fails (by simp at hlen; omega)).bind
  | copy off len =>
    rw [if_neg (by simp)]
    exact (hP.requireAvail_fails (by simp at hlen; omega)).bind

/-- A reference outside the window, whatever follows it (R246). -/
theorem At.lzDecodeRecord_outside (hmem : e.lz = decoderMem hb mb hist) (hoff : off < 2 ^ hb) (hlen : len < 2 ^ mb)
    (hout : recordOutput hist (.copy off len) = none) :
    Cmd.Fails (At s ign (recordBits hb mb (.copy off len) ++ rest) out e) Machine.lzDecodeRecord .badReference := by
  have hP := At.supply s ign out e
  have hbits : recordBits hb mb (.copy off len) ++ rest = [false] ++ (nb off hb ++ (nb len mb ++ rest)) := by
    simp [recordBits]
  have hreadOff := hP.rdBits (nb off hb) (nb len mb ++ rest)
  have hreadLen := hP.rdBits (nb len mb) rest
  rw [nb_length] at hreadOff hreadLen
  rw [hbits]
  refine (hP.rdBits [false] _).bind_fails' (Cmd.Fails.look_bind_pre fun t ht => ?_)
  rw [ht.eng, hmem, if_neg (by simp)]
  refine (hP.requireAvail (by simp)).bind_fails fun _ => hreadOff.bind_fails' (hreadLen.bind_fails' ?_)
  rw [val_nb, val_nb, Nat.mod_eq_of_lt hoff, Nat.mod_eq_of_lt hlen]
  refine Cmd.Fails.require_bind (decide_eq_false fun hle => ?_)
  rw [recordOutput, if_pos hle] at hout
  cases hout

/-! ## After some good records -/

/-- The loop of `LzDecode` raises what it raises at the bits after some good records (R246). -/
theorem At.lzDecodeLoop_fails (hne : tail ≠ []) : ∀ (records : List LzRecord) (fuel : Nat) (hist o : List Byte) (out : Bits)
    (e : Engine), records.length < fuel → (∀ r ∈ records, r.fits hb mb) → lzReplay hb hist records = some o →
    e.lz = decoderMem hb mb hist → Room s.par ((out.length + (bitsOf o).length) / 8) →
    (∀ out e, e.lz = decoderMem hb mb (lzWindow hb hist records) →
      Cmd.Fails (At s ign tail out e) Machine.lzDecodeRecord c) →
    Cmd.Fails (At s ign (records.flatMap (recordBits hb mb) ++ tail) out e) (Machine.lzDecodeLoop fuel) c := by
  intro records
  induction records with
  | nil =>
    intro fuel hist o out e hfuel _ _ hmem _ htail
    obtain ⟨fuel, rfl⟩ := Nat.exists_eq_add_one_of_ne_zero (Nat.ne_of_gt (Nat.zero_lt_of_lt hfuel))
    have hpos := List.length_pos_iff.2 hne
    refine Cmd.Fails.look_bind_pre fun t ht => ?_
    rw [if_pos (by rw [ht.avail]; exact hpos)]
    exact (htail out e hmem).bind
  | cons r records ih =>
    intro fuel hist o out e hfuel hfit ho hmem hroom htail
    obtain ⟨fuel, rfl⟩ := Nat.exists_eq_add_one_of_ne_zero (Nat.ne_of_gt (Nat.zero_lt_of_lt hfuel))
    rw [lzReplay] at ho
    rw [lzWindow] at htail
    cases hr : recordOutput hist r with
    | none => rw [hr] at ho; cases ho
    | some t =>
      rw [hr] at ho htail
      obtain ⟨o', ho', rfl⟩ := Option.map_eq_some_iff.1 ho
      rw [bitsOf_append, List.length_append] at hroom
      have hpos := recordBits_length_pos hb mb r
      refine Cmd.Fails.look_bind_pre fun u hu => ?_
      rw [if_pos (by rw [hu.avail]; simp; omega), List.flatMap_cons, List.append_assoc]
      refine Cmd.Completes.bind_fails (At.lzDecodeRecord hb mb hist r t (hfit r List.mem_cons_self) hr hmem
        (hroom.mono (by omega))) fun _ => ?_
      exact ih fuel _ o' _ _ (by simpa using hfuel) (fun x hx => hfit x (List.mem_cons_of_mem _ hx)) ho' rfl
        (by rw [List.length_append, Nat.add_assoc]; exact hroom) htail

/-- LZ.DEC raises what it raises at the bits after a good header and some good records. -/
theorem lzDec_raises_after_records {records : List LzRecord} {o : List Byte} (hw : s.par.wf = true) (h1 : 1 ≤ hb)
    (h2 : hb ≤ s.par.hbMax) (h3 : 1 ≤ mb) (h4 : mb ≤ s.par.mbMax) (hn : n < 8) (hp : pad.length = n)
    (hfit : ∀ r ∈ records, r.fits hb mb) (ho : lzReplay hb [] records = some o)
    (hin : bitsOf s.input = nb n 3 ++ lzBody hb mb records ++ tail ++ pad) (hr : s.canRead) (hst : s.canStoreFile o.length)
    (hne : tail ≠ []) (htail : ∀ out e, e.lz = decoderMem hb mb (lzWindow hb [] records) →
      Cmd.Fails (At s (BitVec.ofNat 3 n) tail out e) lzDecodeRecord c) :
    Raises .lzDec s c.code (errInfo c 0x41#8) := by
  obtain ⟨hs, hroom⟩ := hst
  obtain ⟨hhbMax, hmbMax, -⟩ := Params.wf_bounds hw
  have hlen := flatMap_length_ge _ (recordBits_length_pos hb mb) records
  have htailLen := List.length_pos_iff.2 hne
  refine raises_after_padField (i := .lzDec) bodyOf_lzDec hr hs (hin.trans (by rw [List.append_assoc (nb n 3)])) hn hp ?_
  have hbits : lzBody hb mb records ++ tail = egCode hb ++ (egCode mb ++ (records.flatMap (recordBits hb mb) ++ tail)) := by
    simp only [lzBody, List.append_assoc]
  rw [hbits]
  refine (At.readTwoGammas (by omega) (by omega)
    (lzCheckHeader_completes (range_check_true h1 h2) (range_check_true h3 h4))).bind_fails' (Cmd.Fails.bind ?_)
  refine (At.setEng (e' := { Engine.empty with lz := decoderMem hb mb [] }) fun t ht => ?_).bind_fails fun _ =>
    Cmd.Fails.look_bind_pre fun t ht => ?_
  · rw [State.setLz, State.setEng, ht.eng]
  · rw [ht.avail]
    exact At.lzDecodeLoop_fails hne records _ [] o [] _ (by rw [List.length_append]; omega) hfit ho rfl
      (by simpa using (show Room s.par o.length from hroom)) htail

end

/-- Settles O48: the records leave the window in which the next one is read; it is cut short, or refers outside it. -/
theorem lzDecStreamErrors : Obligations.LzDecStreamErrors := by
  intro s hb mb n records out tail pad hw h1 h2 h3 h4 hn hp hfit hout hin hr hst
  refine ⟨fun r hpre hne hcut => ?_, fun off len rest hoff hlen htail hbad => ?_⟩
  · exact lzDec_raises_after_records (c := .truncRecord) hw h1 h2 h3 h4 hn hp hfit hout hin hr hst hne fun _ _ hmem =>
      At.lzDecodeRecord_cut hmem hpre hne hcut
  · subst htail
    exact lzDec_raises_after_records (c := .badReference) hw h1 h2 h3 h4 hn hp hfit hout hin hr hst (List.cons_ne_nil _ _)
      fun _ _ hmem => At.lzDecodeRecord_outside hmem hoff hlen (recordOutput_lzWindow_eq_none hout hbad)

end Sys2Proof.Machine

/-! The files that SF.DEC refuses (43_shannon_fano R278, R295 to R297). -/

namespace Sys2Proof.Machine

/-! ## SF.DEC after its pad field -/

/-- The checks of SF.DEC's header (R295). -/
def sfCheckHeader (p wl : Nat) : Cmd (Nat × Nat) := do
  let s ← look
  require (wlInRange s.par wl) .hdrWl
  require (decide (p < wl)) .badPad
  pure (p, wl)

/-- SF.DEC after its tree header (R300). -/
def sfDecWords (p wl : Nat) : Cmd Unit := do
  let pend ← decodeWalk wl
  stripPad p wl pend
  flushPoint
  resultIsLength
  leaveEngine

/-- SF.DEC after its header (R300). -/
def sfDecRest (header : Nat × Nat) : Cmd Unit := do
  advance fun s => s.setSf { s.eng.sf with p := header.1, wl := header.2 }
  parseTree header.2
  sfDecWords header.1 header.2

theorem bodyOf_sfDec : bodyOf .sfDec = decodeBody sfCheckHeader sfDecRest := rfl

section

variable {s : State} {ign : BitVec 3} {left out rest : Bits} {e : Engine} {p wl : Nat}

theorem sfCheckHeader_completes (h1 : wlInRange s.par wl = true) (hp : p < wl) :
    Cmd.Completes (At s ign left out e) (sfCheckHeader p wl) fun v t => v = (p, wl) ∧ At s ign left out e t := by
  refine At.look_bind fun t ht => ?_
  rw [ht.par]
  exact Cmd.Completes.require_bind h1 <| Cmd.Completes.require_bind (decide_eq_true hp) <|
    Cmd.Completes.pure fun _ hu => ⟨rfl, hu⟩

theorem sfCheckHeader_fails_wl (h : wl < 1 ∨ s.par.wlMax < wl) :
    Cmd.Fails (At s ign left out e) (sfCheckHeader p wl) .hdrWl :=
  Cmd.Fails.look_bind_pre fun t ht => Cmd.Fails.require_bind (by rw [ht.par]; exact range_check_false h)

theorem sfCheckHeader_fails_pad (h1 : 1 ≤ wl) (h2 : wl ≤ s.par.wlMax) (h : wl ≤ p) :
    Cmd.Fails (At s ign left out e) (sfCheckHeader p wl) .badPad :=
  Cmd.Fails.look_bind_pre fun t ht => Cmd.Fails.passed_bind (by rw [ht.par]; exact range_check_true h1 h2) <|
    Cmd.Fails.require_bind (decide_eq_false (Nat.not_lt.2 h))

end

/-- The source of `s` is a file with pad count `n` and a header that SF.DEC accepts, `body` being what follows the header
(30_encoding R116). -/
structure AcceptedHeader (s : State) (n p wl : Nat) (body pad : Bits) : Prop where
  params : s.par.wf = true
  canRead : s.canRead
  staged : s.stagedSound
  input : bitsOf s.input = nb n 3 ++ egCode p ++ egCode wl ++ body ++ pad
  padCount : n < 8
  pad : pad.length = n
  wlPos : 1 ≤ wl
  wlMax : wl ≤ s.par.wlMax
  wordPad : p < wl

section

variable {s : State} {n p wl : Nat} {body pad left : Bits} {c : Cause} {tree : PTree}

/-- SF.DEC raises what it raises after an accepted header. -/
theorem AcceptedHeader.raises (h : AcceptedHeader s n p wl body pad)
    (hf : ∀ e, Cmd.Fails (At s (BitVec.ofNat 3 n) body [] e) (parseTree wl >>= fun _ => sfDecWords p wl) c) :
    Raises .sfDec s c.code (errInfo c 0x51#8) := by
  obtain ⟨-, -, hmax, -⟩ := Params.wf_bounds h.params
  have hwl := h.wlMax
  have hp := h.wordPad
  refine raises_after_padField (i := .sfDec) (left := egCode p ++ (egCode wl ++ body)) bodyOf_sfDec h.canRead h.staged
    (h.input.trans (by simp only [List.append_assoc])) h.padCount h.pad ?_
  refine (At.readTwoGammas (by omega) (by omega)
    (sfCheckHeader_completes (range_check_true h.wlPos hwl) hp)).bind_fails' ?_
  refine (At.setEng (e' := { Engine.empty with sf := { Engine.empty.sf with p := p, wl := wl } }) fun t ht => ?_).bind_fails
    fun _ => hf _
  rw [State.setSf, State.setEng, ht.eng]

end

/-! ## The tree header -/

section

variable {α β : Type} {pre : State → Prop} {c : Cause}

/-- From every run at a state that meets `pre`: the piece ends, and `post` holds of its answer and its last state, or it
raises `c`. -/
def Cmd.CompletesOr (c : Cause) (pre : State → Prop) (x : Cmd α) (post : α → State → Prop) : Prop :=
  ∀ r : Run, pre r.st → (∃ a r', x r = .ok a r' ∧ post a r'.st) ∨ ∃ r', x r = .error c r'

theorem Cmd.Completes.or {x : Cmd α} {post : α → State → Prop} (h : Cmd.Completes pre x post) :
    Cmd.CompletesOr c pre x post :=
  fun r hr => .inl (h r hr)

theorem Cmd.CompletesOr.raise {post : α → State → Prop} : Cmd.CompletesOr c pre (raise c : Cmd α) post :=
  fun r _ => .inr ⟨r, rfl⟩

theorem Cmd.CompletesOr.bind {x : Cmd α} {f : α → Cmd β} {mid : α → State → Prop} {post : β → State → Prop}
    (hx : Cmd.CompletesOr c pre x mid) (hf : ∀ a, Cmd.CompletesOr c (mid a) (f a) post) :
    Cmd.CompletesOr c pre (x >>= f) post := by
  intro r hr
  rw [Cmd.bind_apply]
  rcases hx r hr with ⟨a, r', hxr, hmid⟩ | ⟨r', hxr⟩ <;> rw [hxr]
  · exact hf a r' hmid
  · exact .inr ⟨r', rfl⟩

/-- The same where the first part's answer is known. -/
theorem Cmd.CompletesOr.bind' {x : Cmd α} {f : α → Cmd β} {mid : State → Prop} {a : α} {post : β → State → Prop}
    (hx : Cmd.CompletesOr c pre x fun b t => b = a ∧ mid t) (hf : Cmd.CompletesOr c mid (f a) post) :
    Cmd.CompletesOr c pre (x >>= f) post :=
  hx.bind fun _ r ⟨hb, hm⟩ => hb ▸ hf r hm

/-- A fact about no state, known before the piece starts. -/
theorem Cmd.CompletesOr.of_fact {C : Prop} {x : Cmd α} {post : α → State → Prop} (h : C → Cmd.CompletesOr c pre x post) :
    Cmd.CompletesOr c (fun t => C ∧ pre t) x post :=
  fun r hr => h hr.1 r hr.2

/-- A check that raises `c`. -/
theorem Cmd.CompletesOr.require_bind {ok : Bool} {f : Unit → Cmd β} {post : β → State → Prop}
    (h : ok = true → Cmd.CompletesOr c pre (f ()) post) : Cmd.CompletesOr c pre (Machine.require ok c >>= f) post := by
  cases ok with
  | true => exact h rfl
  | false => exact fun r _ => .inr ⟨r, rfl⟩

theorem Cmd.CompletesOr.fails {x : Cmd α} {post : α → State → Prop} (h : Cmd.CompletesOr c pre x post)
    (hpost : ∀ a t, ¬ post a t) : Cmd.Fails pre x c := by
  intro r hr
  rcases h r hr with ⟨a, r', -, hp⟩ | hfail
  · exact absurd hp (hpost a _)
  · exact hfail

end

section

variable {s : State} {ign : BitVec 3} {left out rest tail : Bits} {e : Engine} {c : Cause} {wl : Nat}

/-- A tree header read whole (R278): its leaves are counted, at most `2^wl`; the only other end is TREE_TOO_LARGE. -/
theorem At.parseNode_total : ∀ (tree : PTree) (fuel nodes leaves : Nat) (rest : Bits), tree.full wl →
    Cmd.CompletesOr .treeTooLarge (At s ign (serNode wl tree ++ rest) out e) (Machine.parseNode wl fuel (nodes, leaves))
      fun v t => (v.2.2 = leaves + tree.leafCount ∧ v.2.2 ≤ 2 ^ wl) ∧ At s ign rest out e t := by
  intro tree
  induction tree with
  | none => exact fun _ _ _ _ h => h.elim
  | leaf w =>
    intro fuel nodes leaves rest _
    cases fuel with
    | zero => exact Cmd.CompletesOr.raise
    | succ fuel =>
      have hP := At.supply s ign out e
      have hword := hP.rdBits (nb w wl) rest
      rw [nb_length] at hword
      refine (hP.requireAvail (by simp [serNode])).or.bind fun _ => (hP.rdBits [true] (nb w wl ++ rest)).or.bind' ?_
      refine Cmd.CompletesOr.require_bind fun _ => ?_
      rw [if_pos rfl]
      refine Cmd.CompletesOr.require_bind fun hleaves => Cmd.Completes.or ?_
      refine (hP.requireAvail (by simp)).bind fun _ => Cmd.Completes.bind' hword (Cmd.Completes.pure fun t ht => ?_)
      exact ⟨⟨rfl, of_decide_eq_true hleaves⟩, ht⟩
  | node c0 c1 ih0 ih1 =>
    intro fuel nodes leaves rest hfull
    cases fuel with
    | zero => exact Cmd.CompletesOr.raise
    | succ fuel =>
      have hP := At.supply s ign out e
      have hbit : serNode wl (.node c0 c1) ++ rest = [false] ++ (serNode wl c0 ++ (serNode wl c1 ++ rest)) := by
        simp [serNode]
      rw [hbit]
      refine (hP.requireAvail (by simp)).or.bind fun _ => (hP.rdBits [false] _).or.bind' ?_
      refine Cmd.CompletesOr.require_bind fun _ => ?_
      rw [if_neg (by simp)]
      refine (ih0 fuel (nodes + 1) leaves _ hfull.1).bind fun left => Cmd.CompletesOr.of_fact fun ⟨h0, _⟩ => ?_
      refine (ih1 fuel left.2.1 left.2.2 rest hfull.2).bind fun right => Cmd.CompletesOr.of_fact fun ⟨h1, hle⟩ => ?_
      refine (Cmd.Completes.pure fun t ht => ⟨⟨?_, hle⟩, ht⟩).or
      rw [h1, h0, PTree.leafCount, Nat.add_assoc]

/-- A stream that ends inside the header of a tree within the limits (R278). -/
theorem At.parseNode_cut : ∀ (tree : PTree) (fuel nodes leaves : Nat) (tail : Bits), tree.full wl →
    tree.leafCount ≤ fuel → nodes + 2 * tree.leafCount ≤ 2 ^ (wl + 1) → leaves + tree.leafCount ≤ 2 ^ wl →
    tail <+: serNode wl tree → tail ≠ serNode wl tree →
    Cmd.Fails (At s ign tail out e) (Machine.parseNode wl fuel (nodes, leaves)) .truncTree := by
  intro tree
  induction tree with
  | none => exact fun _ _ _ _ h => h.elim
  | leaf w =>
    intro fuel nodes leaves tail hfull hf hn hl hpre hne
    simp only [PTree.leafCount] at hf hn hl
    obtain ⟨fuel, rfl⟩ := Nat.exists_eq_add_one_of_ne_zero (Nat.ne_of_gt hf)
    have hshort : tail.length < wl + 1 := by
      have := lt_of_le_of_ne hpre.length_le fun h => hne (hpre.eq_of_length h)
      simpa [serNode] using this
    have hP := At.supply s ign out e
    rcases List.prefix_cons_iff.1 hpre with rfl | ⟨v, rfl, -⟩
    · exact (hP.requireAvail_fails (by simp)).bind
    · refine (hP.requireAvail (by simp)).bind_fails fun _ => (hP.rdBits [true] v).bind_fails' ?_
      refine Cmd.Fails.passed_bind (decide_eq_true (by omega)) ?_
      rw [if_pos rfl]
      exact Cmd.Fails.passed_bind (decide_eq_true hl) (hP.requireAvail_fails (by simpa using hshort)).bind
  | node c0 c1 ih0 ih1 =>
    intro fuel nodes leaves tail hfull hf hn hl hpre hne
    have p0 := PTree.leafCount_pos hfull.1
    have p1 := PTree.leafCount_pos hfull.2
    simp only [PTree.leafCount] at hf hn hl
    obtain ⟨fuel, rfl⟩ := Nat.exists_eq_add_one_of_ne_zero (show fuel ≠ 0 by omega)
    have hP := At.supply s ign out e
    rcases List.prefix_cons_iff.1 hpre with rfl | ⟨v, rfl, hv⟩
    · exact (hP.requireAvail_fails (by simp)).bind
    · refine (hP.requireAvail (by simp)).bind_fails fun _ => (hP.rdBits [false] v).bind_fails' ?_
      refine Cmd.Fails.passed_bind (decide_eq_true (by dsimp only; omega)) ?_
      rw [if_neg (by simp)]
      by_cases hleft : serNode wl c0 <+: v
      · obtain ⟨u, rfl⟩ := hleft
        refine (At.parseNode wl c0 fuel (nodes + 1) leaves u hfull.1 (by omega) (by omega) (by omega)).bind_fails' ?_
        refine (ih1 fuel _ _ u hfull.2 (by omega) (by omega) (by omega) ((List.prefix_append_right_inj _).1 hv) ?_).bind
        rintro rfl
        exact hne rfl
      · have hv0 := (List.prefix_or_prefix_of_prefix hv (List.prefix_append ..)).resolve_right hleft
        refine (ih0 fuel _ _ v hfull.1 (by omega) (by omega) (by omega) hv0 ?_).bind
        rintro rfl
        exact hleft (List.prefix_refl _)

/-- Zeros within the limit of nodes are INTERNAL nodes, each the first child of the one before (R278). -/
theorem At.parseNode_zeros (k : Nat) : ∀ {fuel nodes leaves : Nat}, nodes + k < 2 ^ (wl + 1) →
    Cmd.Fails (At s ign left out e) (Machine.parseNode wl fuel (nodes + k, leaves)) c →
    Cmd.Fails (At s ign (List.replicate k false ++ left) out e) (Machine.parseNode wl (fuel + k) (nodes, leaves)) c := by
  induction k with
  | zero => exact fun _ h => h
  | succ k ih =>
    intro fuel nodes leaves hn h
    have hP := At.supply s ign out e
    refine (hP.requireAvail (by simp; omega)).bind_fails fun _ =>
      (hP.rdBits [false] (List.replicate k false ++ left)).bind_fails' ?_
    refine Cmd.Fails.passed_bind (decide_eq_true (by dsimp only; omega)) ?_
    rw [if_neg (by simp)]
    exact (ih (nodes := nodes + 1) (by omega) (by rwa [Nat.add_right_comm])).bind

theorem two_mul_leaves_le {k : Nat} (h : k ≤ 2 ^ wl) : 2 * k ≤ 2 ^ (wl + 1) := by
  rw [pow_succ]
  omega

/-- A stream that ends inside the tree header (R278). -/
theorem At.parseTree_cut (h : treeCut wl left) : Cmd.Fails (At s ign left out e) (Machine.parseTree wl) .truncTree := by
  refine Cmd.Fails.bind ?_
  rcases h with ⟨tree, hfull, hleaves, hpre, hne⟩ | ⟨k, hk, rfl⟩
  · have hlimit := two_mul_leaves_le hleaves
    exact At.parseNode_cut tree _ 0 0 left hfull (by omega) (by omega) (by omega) (List.isPrefixOf_iff_prefix.1 hpre) hne
  · obtain ⟨m, hm⟩ := Nat.exists_eq_add_of_lt hk
    rw [show 2 ^ (wl + 1) = m + 1 + k by omega, ← List.append_nil (List.replicate k false)]
    exact At.parseNode_zeros k (by omega) ((At.supply s ign out e).requireAvail_fails (by simp)).bind

/-- A tree header of too many leaves or nodes (R278). -/
theorem At.parseTree_tooLarge (h : treeTooLarge wl left) :
    Cmd.Fails (At s ign left out e) (Machine.parseTree wl) .treeTooLarge := by
  refine Cmd.Fails.bind ?_
  rcases h with ⟨tree, hfull, hleaves, hpre⟩ | hpre <;> obtain ⟨rest, rfl⟩ := List.isPrefixOf_iff_prefix.1 hpre
  · refine (At.parseNode_total tree _ 0 0 rest hfull).fails ?_
    rintro v t ⟨⟨hcount, hle⟩, -⟩
    omega
  · obtain ⟨k, hk⟩ := Nat.exists_eq_add_one_of_ne_zero (Nat.ne_of_gt (Nat.two_pow_pos (wl + 1)))
    have hP := At.supply s ign out e
    rw [hk, List.replicate_add, List.append_assoc, Nat.add_comm k 1]
    refine At.parseNode_zeros k (by omega) ?_
    refine (hP.requireAvail (by simp)).bind_fails fun _ => (hP.rdBits [false] rest).bind_fails' ?_
    exact Cmd.Fails.require_bind (decide_eq_false (by dsimp only; omega))

/-- A tree header within the limits is parsed to its tree, normalised (R278, R279). -/
theorem At.parseTree {tree : PTree} (hfull : tree.full wl) (hleaves : tree.leafCount ≤ 2 ^ wl) :
    Cmd.Completes (At s ign (serNode wl tree ++ left) out e) (Machine.parseTree wl) fun _ =>
      At s ign left out { e with sf := { e.sf with tree := Machine.normalize tree } } := by
  have hlimit := two_mul_leaves_le hleaves
  refine Cmd.Completes.bind' (At.parseNode wl tree _ 0 0 left hfull (by omega) (by omega) (by omega)) ?_
  refine At.setEng fun t ht => ?_
  rw [State.setSf, State.setEng, ht.eng]

end

/-! ## The Words -/

section

variable {s : State} {ign : BitVec 3} {left out rest tail more : Bits} {e : Engine} {c : Cause} {p wl w : Nat} {tree : PTree}
  {codes : List Bits} {words : List Nat}

/-- A walk that the stream ends inside of: each bit leads to a child that is there, and no bit is left (R296). -/
theorem At.walkCode_cut (hmore : more ≠ []) : ∀ (tree : PTree) (tail : Bits) (e : Engine),
    tree.wordAt (tail ++ more) = some w → Cmd.Fails (At s ign tail out e) (Machine.walkCode tree) .truncCode := by
  have hcons (tail : Bits) := List.exists_cons_of_ne_nil (List.append_ne_nil_of_right_ne_nil tail hmore)
  intro tree
  induction tree with
  | none | leaf v =>
    intro tail e h
    obtain ⟨b, left, hleft⟩ := hcons tail
    rw [hleft] at h
    cases h
  | node c0 c1 ih0 ih1 =>
    intro tail e h
    have hP := At.supply s ign out (e.withNode (.node c0 c1))
    refine (At.setEng (e' := e.withNode (.node c0 c1)) fun t ht => ?_).bind_fails fun _ => ?_
    · rw [State.setSf, State.setEng, ht.eng]
      rfl
    cases tail with
    | nil => exact (hP.requireAvail_fails (by simp)).bind
    | cons b tail =>
      refine (hP.requireAvail (by simp)).bind_fails fun _ => (hP.rdBits [b] tail).bind_fails' ?_
      rw [List.cons_append, PTree.wordAt] at h
      cases b with
      | true => exact ih1 tail _ h
      | false => exact ih0 tail _ h

/-- A 1 bit at the node of a lone LEAF (R296, R279). -/
theorem At.walkCode_noChild :
    Cmd.Fails (At s ign (true :: rest) out e) (Machine.walkCode (Machine.normalize (.leaf w))) .noChild := by
  have hP := At.supply s ign out (e.withNode (.node (.leaf w) .none))
  refine (At.setEng (e' := e.withNode (.node (.leaf w) .none)) fun t ht => ?_).bind_fails fun _ => ?_
  · rw [State.setSf, State.setEng, ht.eng]
    rfl
  refine (hP.requireAvail (by simp)).bind_fails fun _ => (hP.rdBits [true] rest).bind_fails' ?_
  exact fun r _ => ⟨r, rfl⟩

theorem room_zero (p : Params) : Room p 0 := ⟨Nat.zero_le _, fun a ha => absurd ha (Nat.not_lt_zero a)⟩

/-- A Word held back is written (R296). -/
theorem At.emitPending (pend : Option Nat) (hroom : Room s.par ((out.length + wl * pend.toList.length) / 8)) :
    Cmd.Completes (At s ign left out e) (Machine.emitPending wl pend) fun _ =>
      At s ign left (out ++ pend.toList.flatMap fun w => nb w wl) e := by
  cases pend with
  | none => exact Cmd.Completes.pure fun t ht => by simpa using ht
  | some w =>
    rw [Option.toList_some, List.flatMap_singleton]
    exact At.wrBits (by simpa using hroom)

/-- The walks raise what the walk raises at the bits after some whole Codes (R296). -/
theorem At.decodeWalkLoop_fails (hne : tail ≠ []) (htail : ∀ out e, e.sf.tree = tree →
      Cmd.Fails (At s ign tail out e) (Machine.walkCode tree) c) : ∀ (codes : List Bits) (words : List Nat) (fuel : Nat)
    (pend : Option Nat) (out : Bits) (e : Engine), e.sf.tree = tree → codes.map tree.wordAt = words.map some →
    codes.length < fuel → Room s.par ((out.length + wl * (pend.toList.length + words.length)) / 8) →
    Cmd.Fails (At s ign (codes.flatten ++ tail) out e) (Machine.decodeWalkLoop wl fuel pend) c := by
  have hpos := List.length_pos_iff.2 hne
  intro codes
  induction codes with
  | nil =>
    intro words fuel pend out e he _ hfuel _
    obtain ⟨fuel, rfl⟩ := Nat.exists_eq_add_one_of_ne_zero (Nat.ne_of_gt (Nat.zero_lt_of_lt hfuel))
    refine Cmd.Fails.look_bind_pre fun t ht => ?_
    rw [if_pos (by rw [ht.avail]; exact hpos), ht.eng, he]
    exact (htail out e he).bind
  | cons code codes ih =>
    intro words fuel pend out e he hcodes hfuel hroom
    obtain ⟨fuel, rfl⟩ := Nat.exists_eq_add_one_of_ne_zero (Nat.ne_of_gt (Nat.zero_lt_of_lt hfuel))
    obtain ⟨w, words, rfl⟩ := List.exists_cons_of_ne_nil (show words ≠ [] by rintro rfl; cases hcodes)
    obtain ⟨hcode, hrest⟩ := List.cons.inj hcodes
    refine Cmd.Fails.look_bind_pre fun t ht => ?_
    rw [if_pos (by rw [ht.avail, List.length_append]; omega), ht.eng, he, List.flatten_cons, List.append_assoc]
    refine (At.walkCode w tree code _ e hcode).bind_fails fun v r ⟨hv, nd, hA⟩ => ?_
    subst hv
    rw [List.length_cons, Nat.add_comm words.length, Nat.mul_add] at hroom
    refine (At.emitPending pend (hroom.mono (by omega))).bind_fails (fun _ => ?_) r hA
    refine ih words fuel (some v) _ _ he hrest (by simpa using hfuel) ?_
    rwa [List.length_append, flatMap_nb_length, Nat.add_assoc]

/-- Every Code is at least one bit. -/
theorem codes_length_pos (hcodes : codes.map (Machine.normalize tree).wordAt = words.map some) :
    ∀ c ∈ codes, 1 ≤ c.length := by
  intro c hc
  refine List.length_pos_iff.2 ?_
  rintro rfl
  have hmem : (Machine.normalize tree).wordAt [] ∈ words.map some := hcodes ▸ List.mem_map_of_mem hc
  simp [normalize_root] at hmem

/-- `DecodeWalk` raises what the walk raises at the bits after some whole Codes. -/
theorem At.decodeWalk_fails (he : e.sf.tree = Machine.normalize tree) (hne : tail ≠ [])
    (hcodes : codes.map (Machine.normalize tree).wordAt = words.map some) (hroom : Room s.par (wl * words.length / 8))
    (htail : ∀ out e, Cmd.Fails (At s ign tail out e) (Machine.walkCode (Machine.normalize tree)) c) :
    Cmd.Fails (At s ign (codes.flatten ++ tail) [] e) (Machine.decodeWalk wl) c := by
  have hlen := length_le_flatten codes (codes_length_pos hcodes)
  have hpos := List.length_pos_iff.2 hne
  refine Cmd.Fails.look_bind_pre fun t ht => ?_
  rw [ht.avail]
  exact At.decodeWalkLoop_fails hne (fun out e _ => htail out e) codes words _ none [] e he hcodes
    (by rw [List.length_append]; omega) (by simpa using hroom)

/-- `DecodeWalk` over whole Codes to the end of the stream: every Word but the last is written (R296). -/
theorem At.decodeWalk (he : e.sf.tree = Machine.normalize tree)
    (hcodes : codes.map (Machine.normalize tree).wordAt = words.map some)
    (hroom : Room s.par ((words.dropLast.flatMap fun w => nb w wl).length / 8)) :
    Cmd.Completes (At s ign codes.flatten [] e) (Machine.decodeWalk wl) fun v t =>
      v = words.getLast? ∧ ∃ e', At s ign [] (words.dropLast.flatMap fun w => nb w wl) e' t := by
  refine At.look_bind fun t ht => ?_
  rw [ht.avail]
  exact At.decodeWalkLoop wl (Machine.normalize tree) (normalize_root tree) codes words _ none [] e he hcodes
    (length_le_flatten codes (codes_length_pos hcodes)) (by simpa using hroom)

/-- `StripPad` with no Word and a word pad (R297). -/
theorem At.stripPad_fails_none (hp : 0 < p) : Cmd.Fails (At s ign left out e) (Machine.stripPad p wl none) .padUnderflow :=
  Cmd.Fails.require_bind (decide_eq_false (Nat.ne_of_gt hp))

/-- `StripPad` that leaves an incomplete byte (R297). -/
theorem At.stripPad_fails_some (hroom : Room s.par ((out ++ (nb w wl).take (wl - p)).length / 8))
    (hmod : (out ++ (nb w wl).take (wl - p)).length % 8 ≠ 0) :
    Cmd.Fails (At s ign left out e) (Machine.stripPad p wl (some w)) .outMisaligned := by
  refine Cmd.Completes.bind_fails (At.wrBits (by rwa [← List.length_append])) fun _ => Cmd.Fails.look_bind_pre fun t ht => ?_
  intro r _
  refine ⟨r, (require_apply _ _ _).trans (if_neg fun hempty => hmod ?_)⟩
  rw [← tailBits_length, ← ht.isOut.1, List.isEmpty_iff.1 hempty]
  rfl

end

/-! ## The errors after an accepted header -/

section

variable {s : State} {n p wl k w : Nat} {body pad left rest tail more : Bits} {c : Cause} {tree : PTree} {codes : List Bits}
  {words : List Nat}

/-- SF.DEC raises what it raises after an accepted header and a tree header within the limits. -/
theorem AcceptedHeader.raises_after_tree (h : AcceptedHeader s n p wl (serNode wl tree ++ left) pad) (hfull : tree.full wl)
    (hleaves : tree.leafCount ≤ 2 ^ wl)
    (hf : ∀ e, e.sf.tree = Machine.normalize tree → Cmd.Fails (At s (BitVec.ofNat 3 n) left [] e) (sfDecWords p wl) c) :
    Raises .sfDec s c.code (errInfo c 0x51#8) :=
  h.raises fun _ => (At.parseTree hfull hleaves).bind_fails fun _ => hf _ rfl

/-- A 1 bit at the node of a lone LEAF, after `k` Codes of its Word. -/
theorem AcceptedHeader.raises_noChild
    (h : AcceptedHeader s n p wl (serNode wl (.leaf w) ++ List.replicate k false ++ [true] ++ rest) pad) (hw : w < 2 ^ wl)
    (hst : s.canStoreFile (wl * k / 8)) : Raises .sfDec s .malformed 0x5108#16 := by
  have hcodes : (List.replicate k [false]).map (Machine.normalize (.leaf w)).wordAt = (List.replicate k w).map some := by
    rw [List.map_replicate, List.map_replicate]
    rfl
  have hbody : serNode wl (.leaf w) ++ List.replicate k false ++ [true] ++ rest =
      serNode wl (.leaf w) ++ ((List.replicate k [false]).flatten ++ true :: rest) := by
    simp
  rw [hbody] at h
  refine h.raises_after_tree (c := .noChild) hw (Nat.two_pow_pos wl) fun e he => Cmd.Fails.bind ?_
  exact At.decodeWalk_fails he (List.cons_ne_nil _ _) hcodes (by rw [List.length_replicate]; exact hst.2) fun _ _ =>
    At.walkCode_noChild

/-- A word pad and no Code. -/
theorem AcceptedHeader.raises_padUnderflow (h : AcceptedHeader s n p wl (serNode wl tree) pad) (hfull : tree.full wl)
    (hleaves : tree.leafCount ≤ 2 ^ wl) (hp : 0 < p) : Raises .sfDec s .malformed 0x510A#16 := by
  rw [← List.append_nil (serNode wl tree)] at h
  refine h.raises_after_tree (c := .padUnderflow) hfull hleaves fun e he => ?_
  have hwalk := At.decodeWalk (wl := wl) (ign := BitVec.ofNat 3 n) (codes := []) (words := []) he rfl
    (by simpa using room_zero s.par)
  refine hwalk.bind_fails fun _ r ⟨hv, e', hA⟩ => ?_
  subst hv
  exact (At.stripPad_fails_none hp).bind r hA

/-- A stream that ends inside a Code. -/
theorem AcceptedHeader.raises_truncCode (h : AcceptedHeader s n p wl (serNode wl tree ++ codes.flatten ++ tail) pad)
    (hfull : tree.full wl) (hleaves : tree.leafCount ≤ 2 ^ wl)
    (hcodes : codes.map (Machine.normalize tree).wordAt = words.map some) (hne : tail ≠ []) (hmore : more ≠ [])
    (hwalk : ((Machine.normalize tree).wordAt (tail ++ more)).isSome = true) (hst : s.canStoreFile (wl * words.length / 8)) :
    Raises .sfDec s .malformed 0x5109#16 := by
  obtain ⟨w, hwalk⟩ := Option.isSome_iff_exists.1 hwalk
  rw [List.append_assoc] at h
  refine h.raises_after_tree (c := .truncCode) hfull hleaves fun e he => Cmd.Fails.bind ?_
  exact At.decodeWalk_fails he hne hcodes hst.2 fun _ e => At.walkCode_cut hmore _ tail e hwalk

/-- Decoded bits that are no whole bytes once the word pad is stripped. -/
theorem AcceptedHeader.raises_outMisaligned (h : AcceptedHeader s n p wl (serNode wl tree ++ codes.flatten) pad)
    (hfull : tree.full wl) (hleaves : tree.leafCount ≤ 2 ^ wl)
    (hcodes : codes.map (Machine.normalize tree).wordAt = words.map some) (hmod : (wl * words.length - p) % 8 ≠ 0)
    (hst : s.canStoreFile ((wl * words.length - p) / 8)) : Raises .sfDec s .malformed 0x510D#16 := by
  obtain ⟨-, hroom⟩ := hst
  have hp := h.wordPad
  obtain ⟨init, w, rfl⟩ : ∃ init w, words = init ++ [w] := by
    rcases List.eq_nil_or_concat words with rfl | ⟨init, w, rfl⟩
    · simp at hmod
    · exact ⟨init, w, List.concat_eq_append ..⟩
  have hbits : ((init.flatMap fun w => nb w wl) ++ (nb w wl).take (wl - p)).length = wl * (init ++ [w]).length - p := by
    rw [← strippedBits_append wl p w init hp, strippedBits, List.length_take, flatMap_nb_length]
    omega
  rw [← hbits] at hroom hmod
  have hinit : (init ++ [w]).dropLast = init := List.dropLast_concat
  refine h.raises_after_tree (c := .outMisaligned) hfull hleaves fun e he => ?_
  refine (At.decodeWalk he hcodes ?_).bind_fails fun _ r ⟨hv, e', hA⟩ => ?_
  · rw [hinit]
    exact Room.mono hroom (by rw [List.length_append]; omega)
  · rw [List.getLast?_concat] at hv
    rw [hinit] at hA
    subst hv
    exact (At.stripPad_fails_some hroom hmod).bind r hA

end

/-- Settles O56: SF.DEC is a decode command (`bodyOf_sfDec`); after its header it fails in the tree header, in a Code walk,
or where the word pad is stripped. -/
theorem sfDecErrors : Obligations.SfDecErrors := by
  intro s hw hr hs
  have hi := bodyOf_sfDec
  refine ⟨fun h => raises_of_empty hi hr hs h, fun n rest hin hn h => raises_of_padExceeds hi hr hs hin hn h,
    fun n t pad hin hn hp => raises_of_first_gamma hi hr hs hin hn hp,
    fun n p t pad hin hn hp hp32 => raises_of_second_gamma hi hr hs hin hn hp hp32,
    fun n p wl rest hin hn hlen hp32 hwl32 => ⟨fun h => ?_, fun h1 h2 h => ?_⟩,
    fun n p wl body pad hin hn hp h1 h2 hpw => ?_⟩
  · exact raises_of_header_check hi hr hs hin hn hlen hp32 hwl32 (c := .hdrWl) fun _ => sfCheckHeader_fails_wl h
  · exact raises_of_header_check hi hr hs hin hn hlen hp32 hwl32 (c := .badPad) fun _ => sfCheckHeader_fails_pad h1 h2 h
  have hhead : AcceptedHeader s n p wl body pad := ⟨hw, hr, hs, hin, hn, hp, h1, h2, hpw⟩
  refine ⟨fun h => hhead.raises (c := .truncTree) fun _ => (At.parseTree_cut h).bind,
    fun h => hhead.raises (c := .treeTooLarge) fun _ => (At.parseTree_tooLarge h).bind, ?_, ?_⟩
  · rintro k w rest rfl hw hst
    exact hhead.raises_noChild hw hst
  · intro tree hfull hleaves
    refine ⟨?_, fun codes words hcodes => ⟨?_, ?_⟩⟩
    · rintro hp0 rfl
      exact hhead.raises_padUnderflow hfull hleaves hp0
    · rintro tail more rfl hne hmore hwalk hst
      exact hhead.raises_truncCode hfull hleaves hcodes hne hmore hwalk hst
    · rintro rfl hmod hst
      exact hhead.raises_outMisaligned hfull hleaves hcodes hmod hst

end Sys2Proof.Machine

/-! What the engine commands leave unchanged wherever they complete (42_lzss R241, R250; 43_shannon_fano R291, R300;
20_memory R80). -/

namespace Sys2Proof.Machine

/-! ## The output length -/

section

variable {α : Type} {pre : State → Prop} {s t u : State} {n : Nat}

/-- What holds of two accounts of the same end. -/
theorem Cmd.Ends.and {x : Cmd α} {post post' : α → State → Prop} (h : Cmd.Ends pre x post) (h' : Cmd.Ends pre x post') :
    Cmd.Ends pre x fun a t => post a t ∧ post' a t := by
  intro r hr hp
  have h1 := h r hr hp
  have h2 := h' r hr hp
  cases hx : x r with
  | ok a r' => rw [hx] at h1 h2; exact ⟨h1.1, h1.2, h2.2⟩
  | error c r' => rw [hx] at h1; exact h1

/-- `snk_len` is at least `n` and at least `snk_pos`: no byte of the output is at or beyond it (10_state R52). -/
structure LengthCovers (n : Nat) (t : State) : Prop where
  sorted : t.stagedSorted
  grown : n ≤ t.wr.len
  pos : t.wr.pos ≤ t.wr.len

theorem LengthCovers.drained (h : LengthCovers n s) (hd : Drained s t) : LengthCovers n t := by
  obtain ⟨m, rfl, -⟩ := hd
  exact ⟨List.Pairwise.nil, h.grown, h.pos⟩

theorem LengthCovers.drainIfFull : KeepsEnd (LengthCovers n) drainIfFull := by
  refine Cmd.Ends.look_bind fun _ _ => ?_
  split
  · exact keepsEnd_of_ends (fun _ => drain_ends) fun _ _ _ hs hd => hs.drained hd
  · exact Cmd.Ends.pure fun _ h => h

theorem LengthCovers.completeByte (v : Byte) : KeepsEnd (LengthCovers n) (completeByte v) := by
  refine Cmd.Ends.look_bind fun _ _ => Cmd.Ends.require_bind fun _ => LengthCovers.drainIfFull.bind fun _ => ?_
  refine (Cmd.Ends.advance (post := fun _ t => LengthCovers n t) fun s hs => ?_).bind fun _ =>
    LengthCovers.drainIfFull.bind fun _ => Cmd.Ends.advance fun s hs => ?_
  · exact ⟨stage_sorted hs.sorted _ _, hs.grown, hs.pos⟩
  · exact ⟨hs.sorted, hs.grown.trans (Nat.le_max_left ..), Nat.le_max_right ..⟩

/-- An assignment to the incomplete byte and the counts. -/
theorem LengthCovers.assign {f : State → Writer}
    (h : ∀ s, (f s).staging = s.wr.staging ∧ (f s).len = s.wr.len ∧ (f s).pos = s.wr.pos) :
    KeepsEnd (LengthCovers n) (advance fun s => s.setWr (f s)) := by
  refine Cmd.Ends.advance fun s hs => ?_
  obtain ⟨h1, h2, h3⟩ := h s
  refine ⟨?_, ?_, ?_⟩
  · rw [State.stagedSorted, State.setWr_wr, h1]; exact hs.sorted
  · rw [State.setWr_wr, h2]; exact hs.grown
  · rw [State.setWr_wr, h2, h3]; exact hs.pos

theorem LengthCovers.wrBits (bits : Bits) : KeepsEnd (LengthCovers n) (wrBits bits) := by
  induction bits with
  | nil => exact Cmd.Ends.pure fun _ h => h
  | cons b rest ih =>
    refine Cmd.Keeps.bind (x := wrBit b) (Cmd.Ends.look_bind fun _ _ => ?_) fun _ => ih
    split
    · exact LengthCovers.assign fun _ => ⟨rfl, rfl, rfl⟩
    · exact Cmd.Keeps.bind (LengthCovers.assign fun _ => ⟨rfl, rfl, rfl⟩) fun _ =>
        Cmd.Keeps.bind (LengthCovers.completeByte _) fun _ => LengthCovers.assign fun _ => ⟨rfl, rfl, rfl⟩

theorem LengthCovers.flushPoint : KeepsEnd (LengthCovers n) flushPoint :=
  keepsEnd_of_ends (fun _ => flushPoint_ends) fun _ _ t hs ⟨_, hf⟩ => by
    refine ⟨?_, ?_, ?_⟩
    · rw [State.stagedSorted, hf.wr]; exact List.Pairwise.nil
    · rw [hf.wr]; exact hs.grown
    · rw [hf.wr]; exact hs.pos

theorem LengthCovers.seek0 : KeepsEnd (LengthCovers n) seek0 :=
  (Cmd.Keeps.noteMark 0).bind fun _ => LengthCovers.flushPoint.bind fun _ => Cmd.Ends.advance fun _ hs =>
    ⟨hs.sorted, hs.grown, Nat.zero_le _⟩

theorem LengthCovers.rawByte (v : Byte) : KeepsEnd (LengthCovers n) (rawByte v) :=
  LengthCovers.flushPoint.bind fun _ => (LengthCovers.completeByte v).bind fun _ => LengthCovers.flushPoint

/-! ## The frame of a running engine command -/

/-- `t` is a point of an engine command that started at `s` and has called `WrInit`: what it may have moved, and that SNK at
and above SNK_LEN holds the byte last stored there, no staged byte being to go there. -/
structure EngineFrame (s t : State) : Prop where
  frame : t = { s with rd := t.rd, wr := t.wr, snk := t.snk, result := t.result, eng := t.eng, draw := t.draw }
  covers : LengthCovers t.wr.len t
  kept : ∀ a, t.wr.len ≤ a → t.snkByte a = s.storedByte a ∧ ∀ c ∈ t.wr.staging, c.1 ≠ a

/-- A stretch of writing keeps the frame: it touches no index from `snk_pos` on. -/
theorem EngineFrame.write (h : EngineFrame s t) (hw : WriterFrame t u) (hu : LengthCovers t.wr.len u) : EngineFrame s u := by
  obtain ⟨⟨w, m, rfl⟩, hsame⟩ := hw
  refine ⟨?_, ⟨hu.sorted, le_rfl, hu.pos⟩, fun a ha => ?_⟩
  · conv_lhs => rw [h.frame]
  · obtain ⟨hbyte, hstaged⟩ := h.kept a (hu.grown.trans ha)
    obtain ⟨hbyte', hstaged'⟩ := (hsame a (.inr (hu.pos.trans ha))).2 hstaged
    exact ⟨hbyte'.trans hbyte, hstaged'⟩

theorem EngineFrame.keepsEnd {x : Cmd α} (hw : ∀ t, t.stagedSorted → Cmd.Ends (fun u => u = t) x fun _ u => WriterFrame t u)
    (hl : ∀ n, KeepsEnd (LengthCovers n) x) : KeepsEnd (EngineFrame s) x :=
  Cmd.Keeps.ofState fun t _ ht =>
    ((hw t ht.covers.sorted).and ((hl t.wr.len).weaken (fun _ hu => by rw [hu]; exact ht.covers) fun _ _ _ h => h)).weaken
      (fun _ hu => hu) fun _ _ _ ⟨hframe, hlen⟩ => ht.write hframe hlen

/-- The start of an engine command. -/
theorem EngineFrame.start {f : Unit → Cmd Unit} (hf : KeepsEnd (EngineFrame s) (f ())) :
    Cmd.Ends (fun t => t = s) (rdInit >>= fun _ => enterEngine >>= fun _ => wrInit >>= f) fun _ t => EngineFrame s t := by
  refine brInit_ends.bind fun _ => (Cmd.Keeps.enterEngine fun _ _ _ => trivial).bind fun _ =>
    Cmd.Keeps.bind (mid := fun _ t => EngineFrame s t) (Cmd.Keeps.ofState fun t _ ht => ?_) fun _ => hf
  refine wrInit_ends.weaken (fun _ h => h) fun _ u _ hu => ?_
  obtain ⟨t0, rfl, -, ht0⟩ := ht
  have hwr := hu.wr
  obtain ⟨hframe, hbytes⟩ := hu
  refine ⟨?_, ?_, fun a _ => ⟨?_, ?_⟩⟩
  · rw [hframe, ht0]
    rfl
  · exact ⟨by rw [State.stagedSorted, hwr]; exact List.Pairwise.nil, le_rfl, by rw [hwr]; exact Nat.zero_le _⟩
  · rw [hbytes, ht0]
    rfl
  · rw [hwr]
    nofun

end

/-! ## Laws of a running engine command -/

/-- `I` is kept by every assignment and, where it ends, by every writer primitive that an engine command makes after
`WrInit`. -/
structure EngineLaw (I : State → Prop) : Prop where
  /-- the reader and the counter of draws. -/
  reader : ∀ {s} r n, I s → I { s with rd := r, draw := n }
  /-- the engine memories. -/
  memories : ∀ {s} e, I s → I (s.setEng e)
  /-- RESULT. -/
  result : ∀ {s} v, I s → I (s.setResult v)
  /-- `WrBits`. -/
  wrBits : ∀ bits, KeepsEnd I (wrBits bits)
  /-- `FlushPoint`. -/
  flushPoint : KeepsEnd I flushPoint
  /-- `Seek0`. -/
  seek0 : KeepsEnd I seek0
  /-- `RawByte`. -/
  rawByte : ∀ v, KeepsEnd I (rawByte v)

theorem engineFrame_law (s : State) : EngineLaw (EngineFrame s) where
  reader r n h := by
    refine ⟨?_, ⟨h.covers.sorted, h.covers.grown, h.covers.pos⟩, h.kept⟩
    conv_lhs => rw [h.frame]
  memories e h := by
    refine ⟨?_, ⟨h.covers.sorted, h.covers.grown, h.covers.pos⟩, h.kept⟩
    conv_lhs => rw [h.frame]
    rfl
  result v h := by
    refine ⟨?_, ⟨h.covers.sorted, h.covers.grown, h.covers.pos⟩, h.kept⟩
    conv_lhs => rw [h.frame]
    rfl
  wrBits bits := EngineFrame.keepsEnd (fun _ ht => wrBits_frame bits ht) fun _ => LengthCovers.wrBits bits
  flushPoint := EngineFrame.keepsEnd
    (fun _ _ => flushPoint_ends.weaken (fun _ h => h) fun _ _ _ h => h.2.writerFrame) fun _ => LengthCovers.flushPoint
  seek0 := EngineFrame.keepsEnd
    (fun _ _ => seek0_ends.weaken (fun _ h => h) fun _ _ _ h => h.writerFrame) fun _ => LengthCovers.seek0
  rawByte v := EngineFrame.keepsEnd
    (fun _ _ => (rawByte_ends v).weaken (fun _ h => h) fun _ _ _ ⟨hframe, _, _, _, _, _, hsame⟩ => ⟨hframe, hsame⟩)
    fun _ => LengthCovers.rawByte v

section

variable {I : State → Prop} (hI : EngineLaw I)
include hI

theorem EngineLaw.setRd (f : State → Reader) : KeepsEnd I (advance fun s => s.setRd (f s)) :=
  Cmd.Ends.advance fun s hs => hI.reader (f s) s.draw hs

theorem EngineLaw.lz (f : State → LzMem) : KeepsEnd I (advance fun s => s.setLz (f s)) :=
  Cmd.Ends.advance fun _ hs => hI.memories _ hs

theorem EngineLaw.sf (f : State → SfMem) : KeepsEnd I (advance fun s => s.setSf (f s)) :=
  Cmd.Ends.advance fun _ hs => hI.memories _ hs

/-- What only delivers bits. -/
theorem EngineLaw.reads {α : Type} {x : Cmd α} (h : ∀ s, Reads s x) : KeepsEnd I x :=
  Cmd.Keeps.ofState fun s _ hs => (h s).weaken (fun _ ht => by rw [ht]; exact .refl s) fun _ t _ ⟨ht, _⟩ => by
    rw [ht]
    exact hI.reader t.rd t.draw hs

theorem EngineLaw.rdBits (n : Nat) : KeepsEnd I (rdBits n) := hI.reads fun _ => rdBits_reads n

theorem EngineLaw.rdEG : KeepsEnd I rdEG := hI.reads fun _ => rdEG_reads

theorem EngineLaw.requireRead {β : Type} {n : Nat} {c : Cause} {f : Bits → Cmd β} (hf : ∀ b, KeepsEnd I (f b)) :
    KeepsEnd I (Machine.requireAvail n c >>= fun _ => Machine.rdBits n >>= f) :=
  (hI.reads fun _ => requireAvail_reads n c).bind fun _ => (hI.rdBits n).bind hf

/-! ## The parts both engines share -/

theorem EngineLaw.finishHeader : KeepsEnd I finishHeader :=
  Cmd.Keeps.bind (x := fill) (Cmd.Ends.look_bind fun _ _ => (hI.wrBits _).bind fun _ => Cmd.Ends.pure fun _ h => h)
    fun _ => hI.seek0.bind fun _ => Cmd.Ends.look_bind fun _ _ => hI.rawByte _

theorem EngineLaw.engineEnd : KeepsEnd I (resultIsLength >>= fun _ => leaveEngine) := by
  have hresult : KeepsEnd I resultIsLength := Cmd.Ends.advance fun _ hs => hI.result _ hs
  have hleave : KeepsEnd I leaveEngine := fun r _ hs =>
    ⟨⟨trivial, fun _ _ => trivial⟩, hI.reader r.st.rd (r.st.draw + 1) (hI.memories _ hs)⟩
  exact hresult.bind fun _ => hleave

theorem EngineLaw.rdPadHeader : KeepsEnd I rdPadHeader :=
  hI.requireRead fun _ => (hI.setRd _).bind fun _ => Cmd.Ends.look_bind fun _ _ =>
    (Cmd.Keeps.require _ _).weaken (fun _ h => h) fun _ _ _ h => h.2

theorem EngineLaw.readTwoGammas {check : Nat → Nat → Cmd (Nat × Nat)} (hc : ∀ a b, KeepsEnd I (check a b)) :
    KeepsEnd I (readTwoGammas check) :=
  hI.rdEG.bind fun a => hI.rdEG.bind fun b => hc a b

/-! ## LZSS -/

theorem EngineLaw.lzEncodeLoop (src : List Byte) (fuel : Nat) : KeepsEnd I (lzEncodeLoop src fuel) := by
  induction fuel with
  | zero => exact Cmd.Ends.pure fun _ h => h
  | succ fuel ih =>
    refine Cmd.Ends.look_bind fun _ _ => ?_
    split
    · exact (hI.lz _).bind fun _ => Cmd.Ends.look_bind fun _ _ => (hI.wrBits _).bind fun _ => (hI.lz _).bind fun _ => ih
    · exact Cmd.Ends.pure fun _ h => h

theorem EngineLaw.lzEncode (src : List Byte) (hb mb depth : Nat) : KeepsEnd I (lzEncode src hb mb depth) :=
  (hI.wrBits _).bind fun _ => (hI.wrBits _).bind fun _ => (hI.wrBits _).bind fun _ => (hI.lz _).bind fun _ =>
    hI.lzEncodeLoop _ _

theorem EngineLaw.lzDecodeRecord : KeepsEnd I lzDecodeRecord := by
  refine (hI.rdBits 1).bind fun _ => Cmd.Ends.look_bind fun _ _ => ?_
  dsimp only
  split
  · exact hI.requireRead fun _ => (hI.wrBits _).bind fun _ => hI.lz _
  · exact (hI.reads fun _ => requireAvail_reads _ _).bind fun _ => (hI.rdBits _).bind fun _ => (hI.rdBits _).bind fun _ =>
      Cmd.Ends.require_bind fun _ => (hI.wrBits _).bind fun _ => hI.lz _

theorem EngineLaw.lzDecodeLoop (fuel : Nat) : KeepsEnd I (lzDecodeLoop fuel) := by
  induction fuel with
  | zero => exact Cmd.Ends.pure fun _ h => h
  | succ fuel ih =>
    refine Cmd.Ends.look_bind fun _ _ => ?_
    split
    · exact hI.lzDecodeRecord.bind fun _ => ih
    · exact Cmd.Ends.pure fun _ h => h

theorem EngineLaw.lzDecode (hb mb : Nat) : KeepsEnd I (lzDecode hb mb) :=
  (hI.lz _).bind fun _ => Cmd.Ends.look_bind fun _ _ => hI.lzDecodeLoop _

/-! ## Shannon-Fano -/

theorem EngineLaw.readWord (wl : Nat) : KeepsEnd I (readWord wl) :=
  Cmd.Ends.look_bind fun _ _ => (hI.rdBits _).bind fun _ => Cmd.Ends.pure fun _ h => h

theorem EngineLaw.countPass (wl n : Nat) : KeepsEnd I (countPass wl n) := by
  induction n with
  | zero => exact Cmd.Ends.pure fun _ h => h
  | succ n ih => exact (hI.readWord wl).bind fun _ => (hI.sf _).bind fun _ => ih

theorem EngineLaw.codePass (wl n : Nat) : KeepsEnd I (codePass wl n) := by
  induction n with
  | zero => exact Cmd.Ends.pure fun _ h => h
  | succ n ih => exact (hI.readWord wl).bind fun _ => Cmd.Ends.look_bind fun _ _ => (hI.wrBits _).bind fun _ => ih

theorem EngineLaw.sfEncode (wl : Nat) : KeepsEnd I (sfEncode wl) :=
  Cmd.Ends.look_bind fun _ _ => (hI.sf _).bind fun _ => (hI.countPass _ _).bind fun _ => (hI.sf _).bind fun _ =>
    (hI.wrBits _).bind fun _ => (hI.wrBits _).bind fun _ => (hI.wrBits _).bind fun _ => Cmd.Ends.look_bind fun _ _ =>
      (hI.wrBits _).bind fun _ => (hI.setRd _).bind fun _ => hI.codePass _ _

theorem EngineLaw.parseNode (wl fuel : Nat) : ∀ nl, KeepsEnd I (parseNode wl fuel nl) := by
  induction fuel with
  | zero => exact fun _ => Cmd.Keeps.raise _
  | succ fuel ih =>
    refine fun nl => hI.requireRead fun b => Cmd.Ends.require_bind fun _ => ?_
    split
    · exact Cmd.Ends.require_bind fun _ => hI.requireRead fun _ => Cmd.Ends.pure fun _ h => h
    · exact (ih _).bind fun _ => (ih _).bind fun _ => Cmd.Ends.pure fun _ h => h

theorem EngineLaw.parseTree (wl : Nat) : KeepsEnd I (parseTree wl) := (hI.parseNode _ _ _).bind fun _ => hI.sf _

theorem EngineLaw.walkCode (tree : PTree) : KeepsEnd I (walkCode tree) := by
  induction tree with
  | none => exact Cmd.Keeps.raise _
  | leaf w => exact Cmd.Ends.pure fun _ h => h
  | node c0 c1 ih0 ih1 =>
    refine (hI.sf _).bind fun _ => hI.requireRead fun b => ?_
    split
    · exact ih1
    · exact ih0

theorem EngineLaw.emitPending (wl : Nat) (pend : Option Nat) : KeepsEnd I (emitPending wl pend) := by
  cases pend with
  | none => exact Cmd.Ends.pure fun _ h => h
  | some w => exact hI.wrBits _

theorem EngineLaw.decodeWalkLoop (wl fuel : Nat) : ∀ pend, KeepsEnd I (decodeWalkLoop wl fuel pend) := by
  induction fuel with
  | zero => exact fun _ => Cmd.Ends.pure fun _ h => h
  | succ fuel ih =>
    refine fun pend => Cmd.Ends.look_bind fun _ _ => ?_
    split
    · exact (hI.walkCode _).bind fun _ => (hI.emitPending _ _).bind fun _ => ih _
    · exact Cmd.Ends.pure fun _ h => h

theorem EngineLaw.decodeWalk (wl : Nat) : KeepsEnd I (decodeWalk wl) :=
  Cmd.Ends.look_bind fun _ _ => hI.decodeWalkLoop _ _ _

theorem EngineLaw.stripPad (p wl : Nat) (pend : Option Nat) : KeepsEnd I (stripPad p wl pend) := by
  have haligned : KeepsEnd I (look >>= fun s => require s.wr.frac.isEmpty .outMisaligned) :=
    Cmd.Ends.look_bind fun _ _ => (Cmd.Keeps.require _ _).weaken (fun _ h => h) fun _ _ _ h => h.2
  cases pend with
  | none => exact Cmd.Ends.require_bind fun _ => haligned
  | some w => exact (hI.wrBits _).bind fun _ => haligned

end

/-! ## The four commands -/

section

variable {s : State}

theorem lzCompBody_engineFrame : Cmd.Ends (fun t => t = s) lzCompBody fun _ t => EngineFrame s t := by
  have hI := engineFrame_law s
  refine Cmd.Ends.look_bind fun _ _ => Cmd.Ends.require_bind fun _ => Cmd.Ends.require_bind fun _ => EngineFrame.start ?_
  exact Cmd.Ends.look_bind fun _ _ => (hI.rdBits _).bind fun _ => (hI.lzEncode _ _ _ _).bind fun _ =>
    hI.finishHeader.bind fun _ => hI.engineEnd

theorem sfCompBody_engineFrame : Cmd.Ends (fun t => t = s) sfCompBody fun _ t => EngineFrame s t := by
  have hI := engineFrame_law s
  refine Cmd.Ends.look_bind fun _ _ => Cmd.Ends.require_bind fun _ => EngineFrame.start ?_
  exact (hI.sfEncode _).bind fun _ => hI.finishHeader.bind fun _ => hI.engineEnd

theorem decodeBody_engineFrame {check : Nat → Nat → Cmd (Nat × Nat)} {rest : Nat × Nat → Cmd Unit}
    (hcheck : ∀ a b, KeepsEnd (EngineFrame s) (check a b)) (hrest : ∀ header, KeepsEnd (EngineFrame s) (rest header)) :
    Cmd.Ends (fun t => t = s) (decodeBody check rest) fun _ t => EngineFrame s t :=
  EngineFrame.start <| (engineFrame_law s).rdPadHeader.bind fun _ =>
    ((engineFrame_law s).readTwoGammas hcheck).bind fun header => hrest header

theorem lzDecBody_engineFrame : Cmd.Ends (fun t => t = s) (bodyOf .lzDec) fun _ t => EngineFrame s t := by
  have hI := engineFrame_law s
  rw [bodyOf_lzDec]
  refine decodeBody_engineFrame (fun _ _ => ?_) fun _ => ?_
  · exact Cmd.Ends.look_bind fun _ _ => Cmd.Ends.require_bind fun _ => Cmd.Ends.require_bind fun _ =>
      Cmd.Ends.pure fun _ h => h
  · exact (hI.lzDecode _ _).bind fun _ => hI.flushPoint.bind fun _ => hI.engineEnd

theorem sfDecBody_engineFrame : Cmd.Ends (fun t => t = s) (bodyOf .sfDec) fun _ t => EngineFrame s t := by
  have hI := engineFrame_law s
  rw [bodyOf_sfDec]
  refine decodeBody_engineFrame (fun _ _ => ?_) fun _ => ?_
  · exact Cmd.Ends.look_bind fun _ _ => Cmd.Ends.require_bind fun _ => Cmd.Ends.require_bind fun _ =>
      Cmd.Ends.pure fun _ h => h
  · exact (hI.sf _).bind fun _ => (hI.parseTree _).bind fun _ => (hI.decodeWalk _).bind fun _ =>
      (hI.stripPad _ _ _).bind fun _ => hI.flushPoint.bind fun _ => hI.engineEnd

end

/-- Settles O20: every part of an engine command after `WrInit` keeps `EngineFrame`. -/
theorem engineCommandsFrame : Obligations.EngineCommandsFrame := by
  intro i s t _ _ he hn hi
  have hframe : EngineFrame s t := by
    refine exec_ends (post := fun _ t => EngineFrame s t) ?_ he hn
    simp only [List.mem_cons, List.not_mem_nil, or_false] at hi
    rcases hi with rfl | rfl | rfl | rfl
    · exact lzCompBody_engineFrame
    · exact lzDecBody_engineFrame
    · exact sfCompBody_engineFrame
    · exact sfDecBody_engineFrame
  exact ⟨hframe.frame, fun a ha => (hframe.kept a ha).1⟩

end Sys2Proof.Machine

/-! Words, their frequency table and the order of the distinct Words (43_shannon_fano R270 to R273). -/

namespace Sys2Proof.Machine

/-! ## The word pad -/

section

variable {len wl : Nat}

/-- The Words are as few as cover the source (R270). -/
theorem wordCount_mul_lt (h : 1 ≤ wl) : wordCount len wl * wl < 8 * len + wl := by
  have hfloor := Nat.div_mul_le_self (8 * len + wl - 1) wl
  rw [wordCount, ceilDiv]
  omega

theorem wordCount_mul_eq (h : 1 ≤ wl) : wordCount len wl * wl = 8 * len + wordPad len wl := by
  have hcovers := wordCount_covers len wl h
  rw [wordPad, Nat.mul_comm _ wl]
  omega

theorem wordPad_lt (h : 1 ≤ wl) : wordPad len wl < wl := by
  have hlt := wordCount_mul_lt (len := len) h
  rw [wordCount_mul_eq h] at hlt
  omega

/-- The word pad by a remainder: it is the one number below WL that completes the source to whole Words (R270). -/
theorem wordPad_eq_mod (h : 1 ≤ wl) : wordPad len wl = (wl - 8 * len % wl) % wl := by
  have hlt := wordPad_lt (len := len) h
  have hrem := Nat.mod_lt (8 * len) h
  have hwhole : (8 * len % wl + wordPad len wl) % wl = 0 := by
    rw [Nat.mod_add_mod, ← wordCount_mul_eq h, Nat.mul_mod_left]
  obtain ⟨k, hk⟩ := Nat.dvd_of_mod_eq_zero hwhole
  have hk2 : k < 2 := by
    by_contra hge
    have := Nat.mul_le_mul_left wl (Nat.le_of_not_lt hge)
    omega
  interval_cases k
  · rw [show 8 * len % wl = 0 by omega, Nat.sub_zero, Nat.mod_self]
    omega
  · rw [Nat.mod_eq_of_lt (by omega)]
    omega

end

/-! ## The frequency table -/

section

variable {f : List (Nat × Nat)} {v w n : Nat} {words : List Nat}

/-- The Words of a frequency table rise (10_state R61). -/
def KeysRise (f : List (Nat × Nat)) : Prop := f.Pairwise fun a b => a.1 < b.1

theorem mem_keys_countWord : v ∈ (countWord f w).map (·.1) ↔ v = w ∨ v ∈ f.map (·.1) := by
  induction f with
  | nil => simp [countWord]
  | cons c f ih =>
    rw [countWord]
    split
    · simp
    · split
      · next h => simp [h]
      · rw [List.map_cons, List.mem_cons, ih, List.map_cons, List.mem_cons]
        exact or_left_comm

theorem KeysRise.countWord (h : KeysRise f) (w : Nat) : KeysRise (countWord f w) := by
  induction f with
  | nil => exact List.pairwise_singleton _ _
  | cons c f ih =>
    obtain ⟨hc, hf⟩ := List.pairwise_cons.1 h
    rw [Machine.countWord]
    split
    · next hlt => exact List.pairwise_cons.2 ⟨List.forall_mem_cons.2 ⟨hlt, fun b hb => hlt.trans (hc b hb)⟩, h⟩
    · split
      · exact List.pairwise_cons.2 ⟨hc, hf⟩
      · refine List.pairwise_cons.2 ⟨fun b hb => ?_, ih hf⟩
        rcases mem_keys_countWord.1 (List.mem_map_of_mem hb) with hw | hmem
        · show c.1 < b.1
          omega
        · obtain ⟨b', hb', heq⟩ := List.mem_map.1 hmem
          exact (hc b' hb').trans_eq heq

theorem freqOf_eq_zero (h : w ∉ f.map (·.1)) : freqOf f w = 0 := by
  induction f with
  | nil => rfl
  | cons c f ih =>
    rw [List.map_cons, List.mem_cons, not_or] at h
    rw [freqOf, if_neg (Ne.symm h.1), ih h.2]

theorem KeysRise.freqOf_of_mem (h : KeysRise f) (hmem : (w, n) ∈ f) : freqOf f w = n := by
  induction f with
  | nil => cases hmem
  | cons c f ih =>
    obtain ⟨hc, hf⟩ := List.pairwise_cons.1 h
    rcases List.mem_cons.1 hmem with rfl | hmem
    · exact if_pos rfl
    · rw [freqOf, if_neg (Nat.ne_of_lt (hc _ hmem)), ih hf hmem]

/-- Counting a Word adds 1 to its own frequency (R272). -/
theorem KeysRise.freqOf_countWord (h : KeysRise f) :
    freqOf (Machine.countWord f w) v = freqOf f v + if w = v then 1 else 0 := by
  induction f with
  | nil => simp [Machine.countWord, freqOf]
  | cons c f ih =>
    obtain ⟨hc, hf⟩ := List.pairwise_cons.1 h
    rw [Machine.countWord]
    split
    · next hlt =>
      have habsent : w ∉ (c :: f).map (·.1) := by
        intro hmem
        rcases List.mem_cons.1 hmem with heq | hmem
        · exact Nat.ne_of_lt hlt heq
        · obtain ⟨b, hb, rfl⟩ := List.mem_map.1 hmem
          exact Nat.lt_asymm hlt (hc b hb)
      rw [freqOf]
      split
      · next hwv => rw [← hwv, freqOf_eq_zero habsent]
      · rfl
    · split
      · next hwc =>
        subst hwc
        simp only [freqOf]
        split <;> rfl
      · next hwc =>
        simp only [freqOf, ih hf]
        split
        · next hcv => rw [if_neg (hcv ▸ hwc), Nat.add_zero]
        · rfl

theorem freqTable_concat (words : List Nat) (w : Nat) : freqTable (words ++ [w]) = countWord (freqTable words) w := by
  rw [freqTable, List.foldl_append]
  rfl

theorem freqTable_keysRise (words : List Nat) : KeysRise (freqTable words) := by
  induction words using List.reverseRecOn with
  | nil => exact List.Pairwise.nil
  | append_singleton words w ih => exact freqTable_concat words w ▸ ih.countWord w

/-- The frequency table counts (R272). -/
theorem freqOf_freqTable (words : List Nat) (w : Nat) : freqOf (freqTable words) w = words.count w := by
  induction words using List.reverseRecOn with
  | nil => rfl
  | append_singleton words u ih =>
    rw [freqTable_concat, (freqTable_keysRise words).freqOf_countWord, ih, List.count_append, List.count_singleton]
    simp

theorem mem_keys_freqTable : w ∈ (freqTable words).map (·.1) ↔ w ∈ words := by
  induction words using List.reverseRecOn with
  | nil => rfl
  | append_singleton words u ih =>
    rw [freqTable_concat, mem_keys_countWord, ih, List.mem_append, List.mem_singleton, or_comm]

theorem count_of_mem_freqTable {c : Nat × Nat} (h : c ∈ freqTable words) : words.count c.1 = c.2 := by
  rw [← freqOf_freqTable]
  exact (freqTable_keysRise words).freqOf_of_mem h

end

/-! ## The order of the distinct Words -/

section

variable {e a b c : Nat × Nat} {l f : List (Nat × Nat)} {words : List Nat} {w : Nat}

theorem rankedBefore_iff : rankedBefore a b = true ↔ b.2 < a.2 ∨ (a.2 = b.2 ∧ a.1 < b.1) := by
  simp [rankedBefore]

theorem rankedBefore_trans (h : rankedBefore a b = true) (h' : rankedBefore b c = true) : rankedBefore a c = true := by
  rw [rankedBefore_iff] at *
  omega

/-- Of two entries of different Words one ranks before the other (R273). -/
theorem rankedBefore_of_not (h : ¬ rankedBefore a b = true) (hne : a.1 ≠ b.1) : rankedBefore b a = true := by
  rw [rankedBefore_iff] at *
  omega

theorem insertRanked_perm (e : Nat × Nat) (l : List (Nat × Nat)) : (insertRanked e l).Perm (e :: l) := by
  induction l with
  | nil => exact List.Perm.refl _
  | cons c l ih =>
    rw [insertRanked]
    split
    · exact List.Perm.refl _
    · exact (ih.cons c).trans (List.Perm.swap ..)

theorem insertRanked_pairwise (h : l.Pairwise (rankedBefore · ·)) (hne : ∀ c ∈ l, e.1 ≠ c.1) :
    (insertRanked e l).Pairwise (rankedBefore · ·) := by
  induction l with
  | nil => exact List.pairwise_singleton _ _
  | cons c l ih =>
    obtain ⟨hc, hl⟩ := List.pairwise_cons.1 h
    obtain ⟨hec, hel⟩ := List.forall_mem_cons.1 hne
    rw [insertRanked]
    split
    · next hbefore =>
      exact List.pairwise_cons.2 ⟨List.forall_mem_cons.2 ⟨hbefore, fun d hd => rankedBefore_trans hbefore (hc d hd)⟩, h⟩
    · next hafter =>
      refine List.pairwise_cons.2 ⟨fun d hd => ?_, ih hl hel⟩
      rcases List.mem_cons.1 ((insertRanked_perm e l).subset hd) with rfl | hd
      · exact rankedBefore_of_not hafter hec
      · exact hc d hd

theorem rankWords_perm (f : List (Nat × Nat)) : (rankWords f).Perm f := by
  induction f with
  | nil => exact List.Perm.refl _
  | cons c f ih => exact (insertRanked_perm c _).trans (ih.cons c)

theorem KeysRise.rankWords_pairwise (h : KeysRise f) : (rankWords f).Pairwise (rankedBefore · ·) := by
  induction f with
  | nil => exact List.Pairwise.nil
  | cons c f ih =>
    obtain ⟨hc, hf⟩ := List.pairwise_cons.1 h
    exact insertRanked_pairwise (ih hf) fun d hd => Nat.ne_of_lt (hc d ((rankWords_perm f).subset hd))

theorem mem_sfOrder : w ∈ sfOrder words ↔ w ∈ words := by
  rw [← mem_keys_freqTable (words := words)]
  exact ((rankWords_perm (freqTable words)).map _).mem_iff

/-- Descending frequency, equal ones by ascending Word (R273). -/
theorem sfOrder_pairwise (words : List Nat) : (sfOrder words).Pairwise fun u v =>
    words.count v < words.count u ∨ (words.count v = words.count u ∧ u < v) := by
  have hcount (c : Nat × Nat) (hc : c ∈ rankWords (freqTable words)) : words.count c.1 = c.2 :=
    count_of_mem_freqTable ((rankWords_perm _).subset hc)
  refine List.pairwise_map.2 (List.Pairwise.imp_of_mem ?_ (freqTable_keysRise words).rankWords_pairwise)
  intro a b ha hb hab
  rw [hcount a ha, hcount b hb, eq_comm]
  exact rankedBefore_iff.1 hab

theorem sfOrder_nodup (words : List Nat) : (sfOrder words).Nodup := by
  refine (sfOrder_pairwise words).imp fun h => ?_
  rintro rfl
  omega

theorem sfOrder_eq_nil_iff : sfOrder words = [] ↔ words = [] := by
  simp only [List.eq_nil_iff_forall_not_mem, mem_sfOrder]

end

/-- Settles O50: the word pad by `wordCount_mul_eq`; the table counts, one Word at a time; the order is the table's Words,
sorted. -/
theorem wordPadAndOrder : Obligations.WordPadAndOrder :=
  ⟨fun _ _ h => ⟨wordPad_lt h, wordCount_mul_eq h, wordPad_eq_mod h⟩,
    fun words => ⟨freqOf_freqTable words, fun _ => mem_sfOrder, sfOrder_pairwise words⟩⟩

end Sys2Proof.Machine

/-! The Codes and the ParserTree of a list of Words (43_shannon_fano R274 to R277, R279): both are read off the tree of the
partitions that `Split` makes. -/

namespace Sys2Proof.Machine

/-! ## Trees and their Codes -/

section

variable {tree c0 c1 : PTree} {code tail : Bits} {u v w wl : Nat} {entries : List (Nat × Bits)}

/-- Every INTERNAL node has both its children: `PTree.full` without the width of the Words. -/
def PTree.complete : PTree → Prop
  | .none => False
  | .leaf _ => True
  | .node c0 c1 => c0.complete ∧ c1.complete

/-- The Code of a Word in a subtree, seen from the node above it. -/
def prependBit (b : Bool) (entry : Nat × Bits) : Nat × Bits := (entry.1, b :: entry.2)

/-- The Words at the leaves of a tree, first child first, each with the Code that walks to it (R276). -/
def PTree.codes : PTree → List (Nat × Bits)
  | .none => []
  | .leaf w => [(w, [])]
  | .node c0 c1 => c0.codes.map (prependBit false) ++ c1.codes.map (prependBit true)

/-- The Words at the leaves of a tree, first child first. -/
def PTree.words (tree : PTree) : List Nat := tree.codes.map (·.1)

theorem PTree.words_node : (PTree.node c0 c1).words = c0.words ++ c1.words := by
  simp [words, codes, prependBit, Function.comp_def]

theorem PTree.leafCount_eq_length (tree : PTree) : tree.leafCount = tree.words.length := by
  induction tree with
  | none | leaf w => rfl
  | node c0 c1 ih0 ih1 => rw [leafCount, words_node, List.length_append, ih0, ih1]

theorem mem_map_prependBit {b : Bool} :
    (w, code) ∈ entries.map (prependBit b) ↔ ∃ rest, code = b :: rest ∧ (w, rest) ∈ entries := by
  simp only [List.mem_map, prependBit, Prod.mk.injEq, Prod.exists]
  constructor
  · rintro ⟨_, rest, hmem, rfl, rfl⟩
    exact ⟨rest, rfl, hmem⟩
  · rintro ⟨rest, rfl, hmem⟩
    exact ⟨w, rest, hmem, rfl, rfl⟩

/-- Each Code walks to its own Word (R276). -/
theorem PTree.wordAt_of_mem_codes (h : (w, code) ∈ tree.codes) : tree.wordAt code = some w := by
  induction tree generalizing code with
  | none => cases h
  | leaf v =>
    obtain ⟨rfl, rfl⟩ := Prod.mk.inj (List.mem_singleton.1 h)
    rfl
  | node c0 c1 ih0 ih1 =>
    rcases List.mem_append.1 h with h | h
    · obtain ⟨rest, rfl, hmem⟩ := mem_map_prependBit.1 h
      exact ih0 hmem
    · obtain ⟨rest, rfl, hmem⟩ := mem_map_prependBit.1 h
      exact ih1 hmem

/-- A walk that has reached a leaf goes no further, so no Code is the beginning of another (R275). -/
theorem PTree.wordAt_append (h : tree.wordAt code = some u) (h' : tree.wordAt (code ++ tail) = some v) : tail = [] := by
  induction tree generalizing code with
  | none => cases code <;> cases h
  | leaf w =>
    cases code with
    | nil =>
      cases tail with
      | nil => rfl
      | cons b tail => cases h'
    | cons b code => cases h
  | node c0 c1 ih0 ih1 =>
    cases code with
    | nil => cases h
    | cons b code =>
      cases b with
      | false => exact ih0 h h'
      | true => exact ih1 h h'

/-- A tree the grammar can spell is a complete one whose Words fit the width (30_encoding R116). -/
theorem PTree.complete.full (h : tree.complete) (hw : ∀ w ∈ tree.words, w < 2 ^ wl) : tree.full wl := by
  induction tree with
  | none => exact h
  | leaf w => exact hw w (List.mem_singleton_self w)
  | node c0 c1 ih0 ih1 =>
    rw [words_node, List.forall_mem_append] at hw
    exact ⟨ih0 h.1 hw.1, ih1 h.2 hw.2⟩

theorem PTree.complete.codes_ne_nil (h : tree.complete) : tree.codes ≠ [] := by
  induction tree with
  | none => exact h.elim
  | leaf w => exact List.cons_ne_nil _ _
  | node c0 c1 ih0 ih1 => exact List.append_ne_nil_of_left_ne_nil (fun hc => ih0 h.1 (List.map_eq_nil_iff.1 hc)) _

/-! ## Inserting the Codes of a tree -/

/-- Insert each Word of a list along its Code (R276). -/
def PTree.insertAll (tree : PTree) (entries : List (Nat × Bits)) : PTree :=
  entries.foldl (fun t entry => PTree.insert entry.1 entry.2 t) tree

theorem PTree.insertAll_map_false (c0 c1 : PTree) (entries : List (Nat × Bits)) :
    (PTree.node c0 c1).insertAll (entries.map (prependBit false)) = .node (c0.insertAll entries) c1 := by
  induction entries generalizing c0 with
  | nil => rfl
  | cons entry entries ih => exact ih (PTree.insert entry.1 entry.2 c0)

theorem PTree.insertAll_map_true (c0 c1 : PTree) (entries : List (Nat × Bits)) :
    (PTree.node c0 c1).insertAll (entries.map (prependBit true)) = .node c0 (c1.insertAll entries) := by
  induction entries generalizing c1 with
  | nil => rfl
  | cons entry entries ih => exact ih (PTree.insert entry.1 entry.2 c1)

theorem PTree.insertAll_codes_node (t0 t1 : PTree) : (PTree.node t0 t1).insertAll (PTree.node c0 c1).codes =
    .node (t0.insertAll c0.codes) (t1.insertAll c1.codes) := by
  rw [codes, insertAll, List.foldl_append]
  exact (congrArg (insertAll · _) (insertAll_map_false t0 t1 _)).trans (insertAll_map_true _ t1 _)

/-- The walk of a Code that is not empty creates a missing node as one with no children (R276). -/
theorem PTree.insertAll_none (hne : (PTree.node c0 c1).codes ≠ []) :
    PTree.none.insertAll (PTree.node c0 c1).codes = (PTree.node .none .none).insertAll (PTree.node c0 c1).codes := by
  obtain ⟨⟨w, code⟩, entries, heq⟩ := List.exists_cons_of_ne_nil hne
  have hwalk := wordAt_of_mem_codes (heq ▸ List.mem_cons_self)
  rw [heq]
  cases code with
  | nil => cases hwalk
  | cons b code => rfl

/-- The Codes of a complete tree, inserted one after the other, build it again (R276). -/
theorem PTree.complete.insertAll_codes (h : tree.complete) : PTree.none.insertAll tree.codes = tree := by
  induction tree with
  | none => rfl
  | leaf w => rfl
  | node c0 c1 ih0 ih1 => rw [insertAll_none h.codes_ne_nil, insertAll_codes_node, ih0 h.1, ih1 h.2]

/-- The same from the root that `TreeFromCodes` starts with. -/
theorem PTree.insertAll_codes_normalize (h : tree = .none ∨ tree.complete) :
    (PTree.node .none .none).insertAll (Machine.normalize tree).codes = Machine.normalize tree := by
  cases tree with
  | none => rfl
  | leaf w => rfl
  | node c0 c1 =>
    obtain ⟨h0, h1⟩ := h.resolve_left PTree.noConfusion
    rw [Machine.normalize, insertAll_codes_node, h0.insertAll_codes, h1.insertAll_codes]

end

/-! ## The partitions -/

section

variable {freq : List (Nat × Nat)} {ws : List Nat} {w v : Nat} {rest : List Nat}

theorem splitCount_pos (freq : List (Nat × Nat)) (t w c : Nat) (ws : List Nat) : 0 < splitCount freq t (w :: ws) c := by
  rw [splitCount]
  split <;> omega

/-- The split takes no more Words than any beginning that reaches half the total (R274). -/
theorem splitCount_le {t : Nat} : ∀ (init tail : List Nat) (c : Nat), init ≠ [] → t ≤ 2 * (c + totalFreq freq init) →
    splitCount freq t (init ++ tail) c ≤ init.length
  | [], _, _, hne, _ => absurd rfl hne
  | w :: init, tail, c, _, ht => by
    rw [List.cons_append, splitCount, List.length_cons]
    rw [totalFreq, List.map_cons, List.sum_cons, ← Nat.add_assoc] at ht
    split
    · omega
    · next hlt =>
      refine Nat.succ_le_succ (splitCount_le init tail _ ?_ ht)
      rintro rfl
      exact hlt ht

/-- The Words of a list stand by descending frequency. -/
def Descending (freq : List (Nat × Nat)) (ws : List Nat) : Prop := ws.Pairwise fun u v => freqOf freq v ≤ freqOf freq u

/-- A partition of two or more Words is never split into itself: by the descending order, all its Words but the last are at
least half of it (R274). -/
theorem Descending.splitCount_lt (h : Descending freq (w :: v :: rest)) :
    splitCount freq (totalFreq freq (w :: v :: rest)) (w :: v :: rest) 0 < (w :: v :: rest).length := by
  obtain ⟨init, z, hinit⟩ : ∃ init z, v :: rest = init ++ [z] :=
    ⟨_, _, (List.dropLast_append_getLast (List.cons_ne_nil v rest)).symm⟩
  have hz : freqOf freq z ≤ freqOf freq w := List.rel_of_pairwise_cons h (by simp [hinit])
  have htotal : totalFreq freq (w :: init ++ [z]) = totalFreq freq (w :: init) + freqOf freq z := by
    simp [totalFreq, Nat.add_assoc]
  have hw : freqOf freq w ≤ totalFreq freq (w :: init) := by simp [totalFreq]
  rw [hinit, ← List.cons_append]
  have := splitCount_le (freq := freq) (t := totalFreq freq (w :: init ++ [z])) (w :: init) [z] 0 (List.cons_ne_nil _ _)
    (by omega)
  rw [List.length_append, List.length_singleton]
  omega

/-- The tree of the partitions that `Split` makes: its recursion (R274), with a LEAF for a single Word. -/
def partitionTree (freq : List (Nat × Nat)) : Nat → List Nat → PTree
  | _, [] => .none
  | _, [w] => .leaf w
  | 0, _ :: _ :: _ => .none
  | fuel + 1, w :: v :: rest =>
    let ws := w :: v :: rest
    let i := splitCount freq (totalFreq freq ws) ws 0
    .node (partitionTree freq fuel (ws.take i)) (partitionTree freq fuel (ws.drop i))

/-- `Split` assigns the Codes of the partitions' tree (R274). -/
theorem splitCodes_eq (freq : List (Nat × Nat)) (fuel : Nat) (ws : List Nat) (path : Bits) :
    splitCodes freq fuel ws path = (partitionTree freq fuel ws).codes.map fun entry => (entry.1, path ++ entry.2) := by
  fun_induction splitCodes freq fuel ws path with
  | case1 => simp [partitionTree, PTree.codes]
  | case2 => simp [partitionTree, PTree.codes]
  | case3 => rfl
  | case4 fuel w v rest path ws i ih0 ih1 =>
    rw [ih0, ih1, partitionTree, PTree.codes]
    simp [ws, i, prependBit, Function.comp_def]

theorem partitionTree_laws (freq : List (Nat × Nat)) (fuel : Nat) (ws : List Nat) (hd : Descending freq ws)
    (hfuel : ws.length ≤ fuel) :
    (partitionTree freq fuel ws).words = ws ∧ (ws ≠ [] → (partitionTree freq fuel ws).complete) := by
  fun_induction partitionTree freq fuel ws with
  | case1 => exact ⟨rfl, fun h => absurd rfl h⟩
  | case2 => exact ⟨rfl, fun _ => trivial⟩
  | case3 => cases hfuel
  | case4 fuel w v rest ws i ih0 ih1 =>
    have hlt : i < ws.length := hd.splitCount_lt
    have hpos : 0 < i := splitCount_pos ..
    have hcut : (ws.take i).length + (ws.drop i).length = ws.length := by
      rw [← List.length_append, List.take_append_drop]
    have hlen : (ws.take i).length = i := List.length_take_of_le hlt.le
    have hfuel : ws.length ≤ fuel + 1 := hfuel
    obtain ⟨hw0, hc0⟩ := ih0 (hd.sublist (List.take_sublist ..)) (by omega)
    obtain ⟨hw1, hc1⟩ := ih1 (hd.sublist (List.drop_sublist ..)) (by omega)
    refine ⟨by rw [PTree.words_node, hw0, hw1, List.take_append_drop], fun _ => ⟨hc0 ?_, hc1 ?_⟩⟩
    · exact List.ne_nil_of_length_pos (by omega)
    · exact List.ne_nil_of_length_pos (by omega)

end

/-! ## The Codes and the tree of a list of Words -/

section

variable {words : List Nat} {w wl : Nat} {code : Bits} {entries : List (Nat × Bits)}

theorem sfOrder_descending (words : List Nat) : Descending (freqTable words) (sfOrder words) := by
  refine (sfOrder_pairwise words).imp fun h => ?_
  rw [freqOf_freqTable, freqOf_freqTable]
  omega

/-- The tree of a list of Words, as its header spells it: a lone LEAF for a single Word, no tree for none (R276, R277). -/
def sfTree (words : List Nat) : PTree := partitionTree (freqTable words) (sfOrder words).length (sfOrder words)

@[simp] theorem sfTree_words (words : List Nat) : (sfTree words).words = sfOrder words :=
  (partitionTree_laws _ _ _ (sfOrder_descending words) le_rfl).1

theorem sfTree_complete (h : sfOrder words ≠ []) : (sfTree words).complete :=
  (partitionTree_laws _ _ _ (sfOrder_descending words) le_rfl).2 h

theorem sfTree_of_nil (h : sfOrder words = []) : sfTree words = .none := by rw [sfTree, h]; rfl

theorem sfTree_of_singleton (h : sfOrder words = [w]) : sfTree words = .leaf w := by rw [sfTree, h]; rfl

theorem normalize_sfTree_of_two (h : 2 ≤ (sfOrder words).length) : Machine.normalize (sfTree words) = sfTree words := by
  rw [← sfTree_words] at h
  cases htree : sfTree words with
  | none | leaf w => simp [htree, PTree.words, PTree.codes] at h
  | node c0 c1 => rfl

/-- The Codes are those of the tree, a lone LEAF's by the normalised tree (R274, R279). -/
theorem sfCodes_eq (words : List Nat) : sfCodes words = (Machine.normalize (sfTree words)).codes := by
  match h : sfOrder words with
  | [] => rw [sfTree_of_nil h, sfCodes, h]; rfl
  | [w] => rw [sfTree_of_singleton h, sfCodes, h]; rfl
  | u :: v :: rest =>
    rw [normalize_sfTree_of_two (by simp [h]), sfCodes, sfTree, h]
    exact (splitCodes_eq ..).trans (List.map_id' _)

theorem sfCodes_map_fst (words : List Nat) : (sfCodes words).map (·.1) = sfOrder words := by
  rw [sfCodes_eq, ← sfTree_words]
  cases sfTree words <;> rfl

theorem codeOf_of_mem (hd : (entries.map (·.1)).Nodup) (h : (w, code) ∈ entries) : codeOf entries w = code := by
  induction entries with
  | nil => cases h
  | cons entry entries ih =>
    obtain ⟨hentry, hd⟩ := List.nodup_cons.1 hd
    rcases List.mem_cons.1 h with rfl | h
    · exact if_pos rfl
    · have hne : entry.1 ≠ w := by
        rintro rfl
        exact hentry (List.mem_map.2 ⟨_, h, rfl⟩)
      rw [codeOf, if_neg hne, ih hd h]

/-- Each Word's Code walks to it (R276, R296). -/
theorem wordAt_codeOf (h : w ∈ words) :
    (Machine.normalize (sfTree words)).wordAt (codeOf (sfCodes words) w) = some w := by
  rw [← mem_sfOrder, ← sfCodes_map_fst] at h
  obtain ⟨⟨w, code⟩, hmem, rfl⟩ := List.mem_map.1 h
  rw [codeOf_of_mem (sfCodes_map_fst words ▸ sfOrder_nodup words) hmem]
  exact PTree.wordAt_of_mem_codes (sfCodes_eq words ▸ hmem)

/-- `TreeFromCodes` builds the tree, normalised where it is a lone LEAF (R276, R279). -/
theorem treeFromCodes_sfCodes (words : List Nat) :
    treeFromCodes (sfCodes words) (sfOrder words) = Machine.normalize (sfTree words) := by
  have hcodes : (sfOrder words).map (fun w => (w, codeOf (sfCodes words) w)) = sfCodes words := by
    rw [← sfCodes_map_fst, List.map_map]
    refine (List.map_congr_left fun entry hmem => ?_).trans (List.map_id _)
    rw [Function.comp_apply, codeOf_of_mem (sfCodes_map_fst words ▸ sfOrder_nodup words) hmem]
    rfl
  have hfold : treeFromCodes (sfCodes words) (sfOrder words) = (PTree.node .none .none).insertAll (sfCodes words) := by
    rw [PTree.insertAll, ← hcodes, List.foldl_map, hcodes]
    rfl
  rw [hfold, sfCodes_eq]
  exact PTree.insertAll_codes_normalize ((em (sfOrder words = [])).imp sfTree_of_nil sfTree_complete)

/-- A walk that starts with the Code of `u` and ends at `v` is that of `u` (R275). -/
theorem eq_of_codeOf_isPrefixOf {u v : Nat} (hu : u ∈ words) (hv : v ∈ words)
    (h : (codeOf (sfCodes words) u).isPrefixOf (codeOf (sfCodes words) v) = true) : u = v := by
  obtain ⟨tail, htail⟩ := List.isPrefixOf_iff_prefix.1 h
  have hwalk := wordAt_codeOf hv
  rw [← htail] at hwalk
  rw [PTree.wordAt_append (wordAt_codeOf hu) hwalk, List.append_nil] at hwalk
  exact Option.some.inj ((wordAt_codeOf hu).symm.trans hwalk)

theorem codeOf_ne_nil (h : w ∈ words) : codeOf (sfCodes words) w ≠ [] := by
  intro hnil
  have hwalk := wordAt_codeOf h
  rw [hnil, normalize_root] at hwalk
  cases hwalk

theorem codeOf_of_singleton (h : sfOrder words = [w]) : codeOf (sfCodes words) w = [false] := by
  rw [sfCodes, h]
  exact if_pos rfl

end

/-- Settles O51: the Codes are the walks to the leaves of the partitions' tree. -/
theorem codesArePrefixFree : Obligations.CodesArePrefixFree :=
  fun words => ⟨.of_eq (sfCodes_map_fst words), fun _ => codeOf_of_singleton,
    fun _ => ⟨fun _ => codeOf_ne_nil, fun _ hu _ hv => eq_of_codeOf_isPrefixOf hu hv⟩⟩

/-- Settles O52: `TreeFromCodes` builds the partitions' tree from its own Codes. -/
theorem treeWalksCodes : Obligations.TreeWalksCodes := by
  intro words
  refine ⟨fun w hw => ?_, fun wl h2 hwl => ?_, fun w hw => ?_⟩
  · rw [treeFromCodes_sfCodes, wordAt_codeOf hw]
  · rw [treeFromCodes_sfCodes, normalize_sfTree_of_two h2, PTree.leafCount_eq_length, sfTree_words]
    refine ⟨(sfTree_complete (List.ne_nil_of_length_pos (by omega))).full fun w hw => hwl w ?_, rfl,
      normalize_sfTree_of_two h2⟩
    rwa [sfTree_words, mem_sfOrder] at hw
  · rw [treeFromCodes_sfCodes, sfTree_of_singleton hw]

end Sys2Proof.Machine

/-! SF.COMP and SF.DEC where they complete, and the round trip (43_shannon_fano R291, R300, R305, R306). -/

namespace Sys2Proof.Machine

/-! ## The Words of a source -/

section

variable {wl n w : Nat} {left : Bits} {src : List Byte}

theorem nextWord_bits_length (wl : Nat) (left : Bits) :
    (left.take wl ++ List.replicate (wl - (left.take wl).length) false).length = wl := by
  simp

theorem nextWord_lt (wl : Nat) (left : Bits) : nextWord wl left < 2 ^ wl :=
  (val_lt _).trans_eq (congrArg (2 ^ ·) (nextWord_bits_length wl left))

/-- A Word is the next WL bits, the last one completed with zeros (R270, R271). -/
theorem nb_nextWord (wl : Nat) (left : Bits) :
    nb (nextWord wl left) wl = left.take wl ++ List.replicate (wl - left.length) false := by
  have h := nb_val (left.take wl ++ List.replicate (wl - (left.take wl).length) false)
  rw [nextWord_bits_length] at h
  rw [nextWord, h, List.length_take]
  congr 2
  omega

@[simp] theorem wordsOf_length (wl n : Nat) (left : Bits) : (wordsOf wl n left).length = n := by
  induction n generalizing left with
  | zero => rfl
  | succ n ih => rw [wordsOf_succ, List.length_cons, ih]

theorem wordsOf_lt (n : Nat) (left : Bits) : ∀ w ∈ wordsOf wl n left, w < 2 ^ wl := by
  induction n generalizing left with
  | zero => exact List.forall_mem_nil _
  | succ n ih => exact List.forall_mem_cons.2 ⟨nextWord_lt wl left, ih _⟩

/-- Words that cover a bit list are its bits and zeros (R270). -/
theorem flatMap_nb_wordsOf (n : Nat) (left : Bits) (h : left.length ≤ wl * n) :
    (wordsOf wl n left).flatMap (nb · wl) = left ++ List.replicate (wl * n - left.length) false := by
  induction n generalizing left with
  | zero =>
    rw [List.length_eq_zero_iff.1 (Nat.le_zero.1 h)]
    rfl
  | succ n ih =>
    rw [Nat.mul_succ] at h ⊢
    rw [wordsOf_succ, List.flatMap_cons, nb_nextWord, ih _ (by rw [List.length_drop]; omega), List.length_drop]
    rcases Nat.le_total wl left.length with hwl | hwl
    · rw [Nat.sub_eq_zero_of_le hwl, List.replicate_zero, List.append_nil, ← List.append_assoc, List.take_append_drop]
      congr 2
      omega
    · rw [List.take_of_length_le hwl, List.drop_of_length_le hwl, List.nil_append, List.append_assoc,
        List.replicate_append_replicate]
      congr 2
      omega

@[simp] theorem sfWords_length (wl : Nat) (src : List Byte) : (sfWords wl src).length = wordCount src.length wl :=
  wordsOf_length ..

theorem sfWords_lt : ∀ w ∈ sfWords wl src, w < 2 ^ wl := wordsOf_lt _ _

/-- The Words' bits without the word pad are those of the source (R270, R297). -/
theorem sfWords_bits_length (h : 1 ≤ wl) :
    wl * (sfWords wl src).length - wordPad src.length wl = 8 * src.length := by
  rw [sfWords_length, Nat.mul_comm, wordCount_mul_eq h, Nat.add_sub_cancel]

theorem strippedBits_sfWords (h : 1 ≤ wl) :
    strippedBits wl (wordPad src.length wl) (sfWords wl src) = bitsOf src := by
  have hcovers : (bitsOf src).length ≤ wl * wordCount src.length wl := by
    rw [bitsOf_length]
    exact wordCount_covers _ _ h
  rw [strippedBits, sfWords_bits_length h, sfWords, flatMap_nb_wordsOf _ _ hcovers, ← bitsOf_length, List.take_left]

theorem wordPad_eq_zero_of_nil (h : sfWords wl src = []) : wordPad src.length wl = 0 := by
  rw [wordPad, ← sfWords_length, h, List.length_nil, Nat.zero_mul, Nat.zero_sub]

theorem sfOrder_eq_singleton {words : List Nat} (hne : words ≠ []) (hall : ∀ v ∈ words, v = w) : sfOrder words = [w] := by
  have hrep : sfOrder words = List.replicate (sfOrder words).length w :=
    List.eq_replicate_of_mem fun v hv => hall v (mem_sfOrder.1 hv)
  have hle : (sfOrder words).length ≤ 1 := List.nodup_replicate.1 (hrep ▸ sfOrder_nodup words)
  have hpos := List.length_pos_iff.2 (mt sfOrder_eq_nil_iff.1 hne)
  rw [hrep, show (sfOrder words).length = 1 by omega]
  rfl

/-- A source that is not empty has a Word (R270). -/
theorem sfWords_ne_nil (h : 1 ≤ wl) (hne : src ≠ []) : sfWords wl src ≠ [] := by
  intro hnil
  have hbits := sfWords_bits_length (src := src) h
  rw [hnil, List.length_nil, Nat.mul_zero, Nat.zero_sub] at hbits
  exact hne (List.length_eq_zero_iff.1 (by omega))

end

/-! ## The tree header of a source -/

section

variable {words : List Nat} {wl w : Nat}

theorem sfOrder_length_le (h : ∀ w ∈ words, w < 2 ^ wl) : (sfOrder words).length ≤ 2 ^ wl := by
  have hsub : sfOrder words ⊆ List.range (2 ^ wl) := fun w hw => List.mem_range.2 (h w (mem_sfOrder.1 hw))
  simpa using ((sfOrder_nodup words).subperm hsub).length_le

/-- The header of a source with no Word is that of the lone LEAF 0 (R277). -/
theorem serTree_of_nil (wl : Nat) (tree : PTree) : serTree wl [] tree = serNode wl (.leaf 0) := by
  have h := nb_val (List.replicate wl false)
  rw [val_replicate_false, List.length_replicate] at h
  rw [serNode, h]
  rfl

theorem serTree_sfTree (h : words ≠ []) :
    serTree wl (sfOrder words) (Machine.normalize (sfTree words)) = serNode wl (sfTree words) := by
  match horder : sfOrder words with
  | [] => exact absurd (sfOrder_eq_nil_iff.1 horder) h
  | [w] => rw [sfTree_of_singleton horder]; rfl
  | u :: v :: rest => rw [normalize_sfTree_of_two (by simp [horder])]; rfl

/-- The encoder's tree header is within the grammar of 30_encoding R116, and each Word's Code walks to it. -/
theorem exists_headerTree (h : ∀ w ∈ words, w < 2 ^ wl) : ∃ tree : PTree, tree.full wl ∧ tree.leafCount ≤ 2 ^ wl ∧
    serTree wl (sfOrder words) (treeFromCodes (sfCodes words) (sfOrder words)) = serNode wl tree ∧
    ∀ w ∈ words, (Machine.normalize tree).wordAt (codeOf (sfCodes words) w) = some w := by
  rw [treeFromCodes_sfCodes]
  by_cases hne : words = []
  · refine ⟨.leaf 0, Nat.two_pow_pos wl, Nat.two_pow_pos wl, ?_, by simp [hne]⟩
    rw [sfOrder_eq_nil_iff.2 hne, serTree_of_nil]
  · refine ⟨sfTree words, (sfTree_complete (mt sfOrder_eq_nil_iff.1 hne)).full fun w hw => h w ?_, ?_, serTree_sfTree hne,
      fun w hw => wordAt_codeOf hw⟩
    · rwa [sfTree_words, mem_sfOrder] at hw
    · rw [PTree.leafCount_eq_length, sfTree_words]
      exact sfOrder_length_le h

/-- The body SF.COMP writes is of the grammar of 30_encoding R116. -/
theorem sfBody_inGrammar (wl : Nat) (src : List Byte) : ∃ (tree : PTree) (codes : List Bits), tree.full wl ∧
    tree.leafCount ≤ 2 ^ wl ∧ codes.map (Machine.normalize tree).wordAt = (sfWords wl src).map some ∧
    sfBody wl src = egCode (wordPad src.length wl) ++ egCode wl ++ serNode wl tree ++ codes.flatten := by
  obtain ⟨tree, hfull, hleaves, hser, hcode⟩ := exists_headerTree (sfWords_lt (wl := wl) (src := src))
  refine ⟨tree, (sfWords wl src).map (codeOf (sfCodes (sfWords wl src))), hfull, hleaves, ?_, ?_⟩
  · rw [List.map_map]
    exact List.map_congr_left hcode
  · rw [sfBody, hser, List.flatMap_def]

end

/-! ## The commands -/

section

variable {s : State}

/-- SF.COMP over a source that can be read into a sink that can hold the file (R291). -/
theorem exec_sfComp_completes (h1 : 1 ≤ s.arg0.toNat) (h2 : s.arg0.toNat ≤ s.par.wlMax) (hr : s.canRead)
    (hst : s.canStoreFile (sfFile s.arg0.toNat s.input).length) :
    ∃ t, exec .sfComp s = .next t ∧ CompressEnd s t (sfFile s.arg0.toNat s.input) := by
  obtain ⟨hs, hroom⟩ := hst
  obtain ⟨t, he, hend, -⟩ := exec_of_completes (i := .sfComp) (sfCompBody_completes (range_check_true h1 h2) hr hs hroom)
  exact ⟨t, he, hend⟩

/-- SF.DEC over a file of the grammar into a sink that can hold the output (R300). -/
theorem exec_sfDec_completes {n p wl : Nat} {tree : PTree} {codes : List Bits} {words : List Nat} {pad : Bits}
    (h : AcceptedHeader s n p wl (serNode wl tree ++ codes.flatten) pad) (hfull : tree.full wl)
    (hleaves : tree.leafCount ≤ 2 ^ wl) (hcodes : codes.map (Machine.normalize tree).wordAt = words.map some)
    (hnone : words = [] → p = 0) (hmod : (wl * words.length - p) % 8 = 0)
    (hst : s.canStoreFile ((wl * words.length - p) / 8)) :
    ∃ t, exec .sfDec s = .next t ∧ DecodeEnd s t n (bytesOf (strippedBits wl p words)) ∧ t.er = s.er := by
  obtain ⟨hs, hroom⟩ := hst
  exact exec_of_completes (i := .sfDec) (sfDecBody_completes h.params n p wl tree codes words pad
    (range_check_true h.wlPos h.wlMax) h.wordPad h.padCount h.pad hfull hleaves hcodes
    (h.input.trans (by simp only [List.append_assoc])) hnone hmod h.canRead hs hroom)

end

/-- Settles O53: one Word has the Code "0" and the tree header of a lone LEAF. -/
theorem singleWordBody : Obligations.SingleWordBody := by
  intro wl src w hwl hne hall
  have horder := sfOrder_eq_singleton (sfWords_ne_nil hwl hne) hall
  have hwords : sfWords wl src = List.replicate (wordCount src.length wl) w :=
    List.eq_replicate_iff.2 ⟨sfWords_length wl src, hall⟩
  have hstream : (sfWords wl src).flatMap (codeOf (sfCodes (sfWords wl src))) =
      List.replicate (wordCount src.length wl) false := by
    have hcode := codeOf_of_singleton horder
    generalize sfCodes (sfWords wl src) = codes at hcode ⊢
    rw [hwords, List.flatMap_replicate, hcode, List.flatten_replicate_singleton]
  rw [sfBody, hstream, horder]
  rfl

/-- Settles O54: `SfEncode` writes the body after a placeholder, which `FinishHeader` makes the file. -/
theorem sfCompWritesFile : Obligations.SfCompWritesFile := fun _ h1 h2 hr hst => exec_sfComp_completes h1 h2 hr hst

/-- Settles O55: the pad field and the header are read back, then the tree, then each Code in turn. -/
theorem sfDecDecodesFile : Obligations.SfDecDecodesFile := by
  intro s n p wl tree codes words pad hw h1 h2 hpw hn hp hfull hleaves hcodes hin hnone hmod hr hst
  have hhead : AcceptedHeader s n p wl (serNode wl tree ++ codes.flatten) pad :=
    ⟨hw, hr, hst.1, hin.trans (by simp only [List.append_assoc]), hn, hp, h1, h2, hpw⟩
  obtain ⟨t, he, hend, -⟩ := exec_sfDec_completes hhead hfull hleaves hcodes hnone hmod hst
  exact ⟨t, he, hend⟩

/-- Settles O57: the source of SF.DEC is the file SF.COMP wrote; its body is of the grammar (`sfBody_inGrammar`), and its
Words without the word pad are the source (`strippedBits_sfWords`). -/
theorem sfRoundTrip : Obligations.SfRoundTrip := by
  intro s t u hsw huw h1 h2 hr hst he hload h3 hur hust
  obtain ⟨_, he', hend, hfile, -⟩ := exec_sfComp_completes h1 h2 hr hst
  obtain rfl : t = _ := Host.Outcome.next.inj (he.symm.trans he')
  obtain ⟨-, -, -, hcap⟩ := Params.wf_bounds hsw
  obtain ⟨-, hlen, -⟩ := hst
  have hin := hload.input hend (by rw [hfile]; omega)
  rw [hfile] at hin
  obtain ⟨n, hn, hbits⟩ : ∃ n, n < 8 ∧ bitsOf u.input =
      nb n 3 ++ sfBody s.arg0.toNat s.input ++ List.replicate n false :=
    ⟨_, fillCount_lt _, (congrArg bitsOf hin).trans (bitsOf_bytesOf_fileBits _)⟩
  obtain ⟨tree, codes, hfull, hleaves, hcodes, hbody⟩ := sfBody_inGrammar s.arg0.toNat s.input
  rw [hbody] at hbits
  have hhead : AcceptedHeader u n (wordPad s.input.length s.arg0.toNat) s.arg0.toNat
      (serNode s.arg0.toNat tree ++ codes.flatten) (List.replicate n false) :=
    ⟨huw, hur, hust.1, hbits.trans (by simp only [List.append_assoc]), hn, List.length_replicate, h1, h3, wordPad_lt h1⟩
  have hwhole := sfWords_bits_length (src := s.input) h1
  obtain ⟨v, hv, ⟨-, hout, -⟩, her⟩ := exec_sfDec_completes hhead hfull hleaves hcodes wordPad_eq_zero_of_nil
    (by omega) (by rwa [hwhole, input_length, Nat.mul_div_cancel_left _ (by decide)])
  rw [strippedBits_sfWords h1, bytesOf_bitsOf] at hout
  exact ⟨v, hv, hout, her⟩

end Sys2Proof.Machine

/-! The system commands (44_system R330 to R332): each is one assignment, or none, so its outcome is that assignment's. -/

namespace Sys2Proof.Machine

theorem exec_nop (s : State) : exec .nop s = .next s := rfl

theorem exec_clr (s : State) : exec .clr s = .next (clearError s) := rfl

theorem exec_srst (s : State) : exec .srst s = .next (softReset s) := rfl

/-- STATUS does not show what a soft reset keeps (10_state R38, R65). -/
theorem softReset_status (s : State) : (softReset s).readReg 0x14 = State.reset.readReg 0x14 := rfl

/-- ERRINFO does not show what a soft reset keeps (10_state R47, R65). -/
theorem softReset_errInfo (s : State) : (softReset s).readReg 0x1C = State.reset.readReg 0x1C := rfl

/-- SNK after a soft reset is SNK after a hardware reset (44_system R332, 70_reset R382). -/
theorem softReset_snkByte (s : State) (a : Nat) :
    (softReset s).snkByte a = if s.unflushed a then Config.snkFree s.draw a else s.snkByte a :=
  hardReset_snkByte s a

/-- Settles O21: the registers that SRST resets read as at reset (`resetRegisterValues`); the flushed bytes of SNK are kept
by `softReset_snkByte`. -/
theorem systemCommands : Obligations.SystemCommands := by
  intro s
  obtain ⟨-, -, -, -, -, hstatus, -, hinfo, -⟩ := resetRegisterValues
  refine ⟨exec_nop s, exec_clr s, softReset s, exec_srst s, rfl, rfl, rfl, rfl, (softReset_status s).trans hstatus, rfl,
    (softReset_errInfo s).trans hinfo, rfl, rfl, fun _ => rfl, rfl, fun a hflushed => ?_⟩
  rw [softReset_snkByte, hflushed]
  rfl

end Sys2Proof.Machine

/-! Words that are ignored while `err = 1` (60_exceptions R347), and what the host reads of an error (R340, R341, R345). -/

namespace Sys2Proof.Machine

/-! ## Ignored words -/

section

variable {s : State} {w : Word}

theorem isIgnored_eq_true (he : s.er.err = true) (h0 : opField w ≠ 0x00#8) (h1 : opField w ≠ 0x01#8)
    (h2 : opField w ≠ 0x02#8) : isIgnored w s = true := by
  simp [isIgnored, isSystemOp, he, h0, h1, h2]

theorem issue_of_ignored (h : isIgnored w s = true) : issue w s = .next s := by
  rw [issue, if_pos h]

end

/-- Settles O7: the word is ignored at the state with its write off the queue. -/
theorem ignoredWhileErr : Obligations.IgnoredWhileErr := by
  intro s rest w hs he h0 h1 h2
  rw [step_of_cmdWrite hs]
  exact issue_of_ignored (isIgnored_eq_true (s := s.setHost rest) he h0 h1 h2)

/-! ## The error state as the host reads it -/

section

variable (c : Cause) (op : BitVec 8) (s : State)

theorem errorEntry_frame : errorEntry c op s = { s with er := (errorEntry c op s).er } := rfl

/-- ERRINFO's bits 15:8 are the OP (10_state R47). -/
theorem errInfo_op : (errInfo c op).extractLsb' 8 8 = op := by
  rw [errInfo, BitVec.extractLsb'_append_eq_of_le (by decide)]
  exact BitVec.extractLsb'_eq_self

theorem errInfo_setWidth : (errInfo c op).setWidth 32 = c.sub.setWidth 32 ||| (op.setWidth 32 <<< 8) := by
  have hop : op.toNat <<< 8 < 2 ^ 32 := by have := op.isLt; rw [Nat.shiftLeft_eq]; omega
  apply BitVec.eq_of_toNat_eq
  simp only [errInfo, BitVec.toNat_or, BitVec.toNat_shiftLeft, BitVec.toNat_setWidth, BitVec.toNat_append]
  rw [Nat.or_mod_two_pow, Nat.mod_eq_of_lt hop, Nat.mod_eq_of_lt (a := op.toNat) (by omega), Nat.mod_eq_of_lt hop,
    Nat.or_comm]

theorem errorEntry_status_err : ((errorEntry c op s).readReg 0x14).extractLsb' 1 1 = 1#1 :=
  (statusWord_fields (errorEntry c op s)).2.1

theorem errorEntry_status_code : ((errorEntry c op s).readReg 0x14).extractLsb' 9 4 = c.code.num := by
  obtain ⟨-, -, -, -, -, hcode, -⟩ := statusWord_fields (errorEntry c op s)
  exact hcode

theorem errorEntry_errInfo :
    (errorEntry c op s).readReg 0x1C = c.sub.setWidth 32 ||| (op.setWidth 32 <<< 8) :=
  errInfo_setWidth c op

end

/-- Settles O8: each row of the table has the numbers the model gives its cause, and STATUS and ERRINFO show those. -/
theorem errorEntryIsVisible : Obligations.ErrorEntryIsVisible := by
  unfold Obligations.ErrorEntryIsVisible
  intro rows
  have hrows : ∀ row ∈ rows, row.1.code.num = row.2.1 ∧ row.1.sub = row.2.2 := by decide
  refine ⟨fun c => by cases c <;> decide, fun row hrow op s => ?_⟩
  obtain ⟨hcode, hsub⟩ := hrows row hrow
  rw [← hcode, ← hsub]
  exact ⟨errorEntry_frame .., errorEntry_status_err .., errorEntry_status_code .., errorEntry_errInfo ..⟩

end Sys2Proof.Machine

/-! What an error leaves of the state (60_exceptions R345, R346). -/

namespace Sys2Proof.Machine

/-! ## A command that raises -/

section

variable {i : Instr} {s t : State}

/-- No command assigns `err` but to clear it. -/
theorem errClear_closed : CommandClosed fun s => s.er.err = false where
  setRd h _ := h
  setWr _ h := h
  setSnk _ h := h
  setEng _ h := h
  setResult _ h := h
  setRcnt _ h := h
  drew _ h := h
  clearError _ := rfl
  softReset _ := rfl

/-- A command issued with `err = 0` that ends with `err = 1` has entered an error: a precise one at the state it began in,
any other at what R346 leaves of its run. -/
theorem exec_error_cases (hs : s.er.err = false) (he : exec i s = .next t) (ht : t.er.err = true) :
    (∃ c : Cause, c.code.precise = true ∧ t = errorEntry c (opcode i) s) ∨
    (∃ c r, bodyOf i (Run.start s) = .error c r ∧ c.code.precise = false ∧
      t = errorEntry c (opcode i) (r.afterError s)) := by
  rcases exec_cases he with ⟨r, hr, rfl⟩ | ⟨c, r, -, hc, rfl⟩ | ⟨c, r, hr, hc, rfl⟩
  · have hall := runOf_all (errClear_closed.bodyOf i) hs
    rw [runOf_of_ok hr] at hall
    rw [hall.1] at ht
    cases ht
  · exact .inl ⟨c, hc, rfl⟩
  · exact .inr ⟨c, r, hr, hc, rfl⟩

/-- Which codes are the precise ones (R346). -/
theorem ErrCode.precise_iff (c : ErrCode) : c.precise = true ↔ c = .illegal ∨ c = .badParam ∨ c = .protocol := by
  cases c <;> simp [ErrCode.precise]

end

/-- Settles O16: a precise error is entered at the state the command began in. -/
theorem preciseErrorsChangeNothingElse : Obligations.PreciseErrorsChangeNothingElse := by
  intro i s t hs he ht hcode
  rcases exec_error_cases hs he ht with ⟨c, -, rfl⟩ | ⟨c, r, -, hc, rfl⟩
  · exact ⟨rfl, errInfo_op _ _⟩
  · rw [(ErrCode.precise_iff c.code).2 hcode] at hc
    cases hc

/-! ## `c0` -/

section

variable {α β : Type} {m : Nat}

/-- `cmark` was `m` or more at every point of the run that its `c0` tells of, and so would it be after a flush point now. -/
def Run.MarkKept (m : Nat) (r : Run) : Prop := m ≤ r.floor ∧ m ≤ r.st.wr.pos

/-- Pseudocode that leaves `c0` at `m` or above, whether it ends or raises. -/
def KeepsMark (m : Nat) (x : Cmd α) : Prop :=
  ∀ r : Run, r.MarkKept m → match x r with
    | .ok _ r' => r'.MarkKept m
    | .error _ r' => m ≤ r'.floor

theorem KeepsMark.bind {x : Cmd α} {f : α → Cmd β} (hx : KeepsMark m x) (hf : ∀ a, KeepsMark m (f a)) :
    KeepsMark m (x >>= f) := by
  intro r hr
  have h := hx r hr
  rw [Cmd.bind_apply]
  cases hxr : x r with
  | ok a r' => rw [hxr] at h; exact hf a r' h
  | error c r' => rw [hxr] at h; exact h

theorem KeepsMark.pure (a : α) : KeepsMark m (Pure.pure a : Cmd α) := fun _ hr => hr

theorem KeepsMark.raise (c : Cause) : KeepsMark m (Machine.raise c : Cmd α) := fun _ hr => hr.1

theorem KeepsMark.look_bind {f : State → Cmd β} (h : ∀ s, KeepsMark m (f s)) : KeepsMark m (Machine.look >>= f) :=
  fun r hr => h r.st r hr

theorem KeepsMark.require (ok : Bool) (c : Cause) : KeepsMark m (Machine.require ok c) := by
  intro r hr
  rw [require_apply]
  cases ok
  · exact hr.1
  · exact hr

theorem KeepsMark.require_bind {ok : Bool} {c : Cause} {f : Unit → Cmd β} (h : KeepsMark m (f ())) :
    KeepsMark m (Machine.require ok c >>= f) :=
  (KeepsMark.require ok c).bind fun _ => h

/-- An assignment that does not move `snk_pos` down. -/
theorem KeepsMark.advance {f : State → State} (hf : ∀ s, s.wr.pos ≤ (f s).wr.pos := by exact fun _ => le_rfl) :
    KeepsMark m (Machine.advance f) :=
  fun r hr => ⟨hr.1, hr.2.trans (hf r.st)⟩

theorem KeepsMark.advance_bind {f : State → State} {g : Unit → Cmd β} (h : KeepsMark m (g ()))
    (hf : ∀ s, s.wr.pos ≤ (f s).wr.pos := by exact fun _ => le_rfl) : KeepsMark m (Machine.advance f >>= g) :=
  (KeepsMark.advance hf).bind fun _ => h

/-! ### Reader -/

theorem fetchByte_keepsMark (a : Nat) : KeepsMark m (fetchByte a) := by
  refine .look_bind fun s => ?_
  split
  · exact .pure ()
  · exact .advance_bind <| .require_bind .advance

theorem deliverBit_keepsMark (j : Nat) : KeepsMark m (deliverBit j) := by
  refine (fetchByte_keepsMark _).bind fun _ => .look_bind fun s => ?_
  dsimp only
  split
  · exact .pure _
  · exact .advance_bind (.pure _)

theorem deliverBits_keepsMark (n : Nat) : ∀ j, KeepsMark m (deliverBits n j) := by
  induction n with
  | zero => exact fun _ => .pure _
  | succ n ih => exact fun j => (deliverBit_keepsMark j).bind fun _ => (ih (j + 1)).bind fun _ => .pure _

theorem rdBits_keepsMark (n : Nat) : KeepsMark m (rdBits n) :=
  .look_bind fun _ => (deliverBits_keepsMark n _).bind fun _ => .advance_bind (.pure _)

theorem requireRead_keepsMark {n : Nat} {c : Cause} {f : Bits → Cmd β} (hf : ∀ b, KeepsMark m (f b)) :
    KeepsMark m (requireAvail n c >>= fun _ => rdBits n >>= f) :=
  KeepsMark.bind (.look_bind fun _ => .require _ _) fun _ => (rdBits_keepsMark n).bind hf

theorem rdZeroRun_keepsMark (left : Nat) : ∀ k, KeepsMark m (rdZeroRun left k) := by
  induction left with
  | zero => exact fun _ => .raise _
  | succ left ih =>
    refine fun k => requireRead_keepsMark fun b => ?_
    split
    · exact .pure k
    · exact ih (k + 1)

theorem rdEG_keepsMark : KeepsMark m rdEG :=
  (rdZeroRun_keepsMark 33 0).bind fun _ => requireRead_keepsMark fun _ => .require_bind (.pure _)

/-! ### Writer -/

theorem drainBytes_keepsMark (cells : List Host.Cell) : KeepsMark m (drainBytes cells) := by
  induction cells with
  | nil => exact .pure ()
  | cons c rest ih => exact .look_bind fun _ => .require_bind <| .advance_bind ih

theorem drain_keepsMark : KeepsMark m drain := .look_bind fun _ => drainBytes_keepsMark _

theorem drainIfFull_keepsMark : KeepsMark m drainIfFull := by
  refine .look_bind fun s => ?_
  split
  · exact drain_keepsMark
  · exact .pure ()

theorem completeByte_keepsMark (v : Byte) : KeepsMark m (completeByte v) :=
  .look_bind fun _ => .require_bind <| drainIfFull_keepsMark.bind fun _ => .advance_bind <|
    drainIfFull_keepsMark.bind fun _ => .advance fun _ => Nat.le_succ _

theorem wrBits_keepsMark (bits : Bits) : KeepsMark m (wrBits bits) := by
  induction bits with
  | nil => exact .pure ()
  | cons b rest ih =>
    refine KeepsMark.bind (x := wrBit b) (.look_bind fun s => ?_) fun _ => ih
    split
    · exact .advance
    · exact .advance_bind <| (completeByte_keepsMark _).bind fun _ => .advance

/-- A flush point notes `snk_pos` as the value of `cmark` (R146). -/
theorem flushPoint_keepsMark : KeepsMark m flushPoint :=
  .look_bind fun _ => .require_bind <| drain_keepsMark.bind fun _ => fun _ hr => ⟨le_min hr.1 hr.2, hr.2⟩

theorem rawByte_keepsMark (v : Byte) : KeepsMark m (rawByte v) :=
  flushPoint_keepsMark.bind fun _ => (completeByte_keepsMark v).bind fun _ => flushPoint_keepsMark

/-! ### The commands -/

variable {i : Instr} {s : State} {c : Cause} {r : Run}

/-- A command that calls neither WrInit nor Seek0 and raises has `c0` at the `cmark` it began with, or above. -/
theorem mark_le_floor_of_error (hi : i ∉ [Instr.bwInit, .bwSeek0, .lzComp, .lzDec, .sfComp, .sfDec])
    (hs : s.wr.mark ≤ s.wr.pos) (hr : bodyOf i (Run.start s) = .error c r) : s.wr.mark ≤ r.floor := by
  suffices h : KeepsMark s.wr.mark (bodyOf i) by
    have hrun := h (Run.start s) ⟨le_rfl, hs⟩
    rwa [hr] at hrun
  cases i with
  | nop => exact .pure ()
  | clr => exact .advance
  | srst => cases hr
  | brInit => exact .look_bind fun _ => .require_bind .advance
  | brIgn => exact .look_bind fun _ => .require_bind .advance
  | brRead cnt => exact .require_bind <| .look_bind fun _ => (rdBits_keepsMark _).bind fun _ => .advance
  | bwWrite cnt => exact .require_bind <| .look_bind fun _ => wrBits_keepsMark _
  | bwFill =>
    exact KeepsMark.bind (x := fill) (.look_bind fun _ => (wrBits_keepsMark _).bind fun _ => .pure _) fun _ => .advance
  | bwFlush => exact flushPoint_keepsMark
  | bwRaw => exact .look_bind fun _ => .require_bind <| rawByte_keepsMark _
  | egEnc => exact .look_bind fun _ => wrBits_keepsMark _
  | egDec => exact rdEG_keepsMark.bind fun _ => .advance
  | bwInit | bwSeek0 | lzComp | lzDec | sfComp | sfDec => exact absurd (by decide) hi

/-- An error keeps the SNK bytes below `c0` (R346). -/
theorem Run.afterError_snkByte (hs : s.Inv) (r : Run) {a : Nat} (ha : a < r.floor) :
    (r.afterError s).snkByte a = s.snkByte a := by
  obtain ⟨hrise, -⟩ := (Memory.wf_iff _ _).1 hs.snk
  show (Memory.get? (Memory.below s.snk r.floor) a).getD (snkUnlisted (snkDrawFrom s.snkAny r.floor _) a) = _
  rw [Memory.get?_below hrise, if_pos ha, snkUnlisted_drawFrom, if_neg (by omega)]
  rfl

end

/-- Settles O17: what R346 leaves of a run has the registers and SRC of the state the command began in, and the SNK bytes
below a `c0` that is at or above `cmark`. -/
theorem impreciseErrorsKeep : Obligations.ImpreciseErrorsKeep := by
  intro i s t hinv hs he ht hcode
  rcases exec_error_cases hs he ht with ⟨c, hc, rfl⟩ | ⟨c, r, hr, -, rfl⟩
  · have hcode : c.code = .malformed ∨ c.code = .unsupported ∨ c.code = .io := hcode
    rcases hcode with h | h | h <;> rw [h] at hc <;> cases hc
  · refine ⟨rfl, rfl, rfl, rfl, rfl, rfl, rfl, errInfo_op _ _, fun hi hmark a ha => ?_⟩
    exact r.afterError_snkByte hinv (ha.trans_le (mark_le_floor_of_error hi hmark hr))

end Sys2Proof.Machine

/-! When an access of SRC or SNK that fails, and a full sink, are reported (60_exceptions R343; 40_bitstream R144, R153). -/

namespace Sys2Proof.Machine

section

variable {α β : Type} {pre : State → Prop} {c : Cause}

/-- An assignment before the failure. -/
theorem Cmd.Fails.advance_bind {s : State} {g : State → State} {f : Unit → Cmd β}
    (h : Cmd.Fails (fun t => t = g s) (f ()) c) : Cmd.Fails (fun t => t = s) (Machine.advance g >>= f) c := by
  intro r hr
  rw [Cmd.bind_apply, advance_apply]
  exact h _ (congrArg g hr)

/-- A command whose pseudocode raises, its OP named (60_exceptions R345). -/
theorem raises_of_fails {i : Instr} {op : BitVec 8} {s : State} (hop : opcode i = op)
    (h : Cmd.Fails (fun t => t = s) (bodyOf i) c) : Raises i s c.code (errInfo c op) :=
  hop ▸ exec_raises h

end

/-! ## The source -/

section

variable {s : State} {n a : Nat}

/-- The next byte is to be fetched, with a block some byte of which fails (R153). -/
structure State.SourceFaultAhead (s : State) : Prop where
  /-- a bit is left. -/
  avail : 0 < s.rd.avail
  /-- its byte is not in the refill buffer. -/
  missing : s.rd.buffered (s.rd.pos / 8) = none
  /-- a byte of its block fails. -/
  fault : ∃ a ∈ s.blockIndices (s.blockStart (s.rd.pos / 8)), srcFaultAt s.par a = true

/-- The refill buffer is emptied, which leaves the block as it was, and the block is not fetched. -/
theorem fetchByte_fails (hb : s.rd.buffered a = none)
    (hf : ∃ b ∈ s.blockIndices (s.blockStart a), srcFaultAt s.par b = true) :
    Cmd.Fails (fun t => t = s) (fetchByte a) .srcFault := by
  refine Cmd.Fails.look_bind ?_
  rw [if_neg (by simp [hb])]
  exact Cmd.Fails.advance_bind (Cmd.Fails.require_bind (by simpa using hf))

theorem rdBits_fails (h : s.SourceFaultAhead) (hn : 0 < n) : Cmd.Fails (fun t => t = s) (rdBits n) .srcFault := by
  obtain ⟨k, rfl⟩ := Nat.exists_eq_add_of_lt hn
  have hbit : Cmd.Fails (fun t => t = s) (deliverBit s.rd.pos) .srcFault := (fetchByte_fails h.missing h.fault).bind
  rw [Nat.zero_add]
  exact Cmd.Fails.look_bind (Cmd.Fails.bind (Cmd.Fails.bind hbit))

theorem brReadBody_fails {cnt : Nat} (h : s.SourceFaultAhead) (h0 : 0 < cnt) (hc : cnt ≤ 32) :
    Cmd.Fails (fun t => t = s) (brReadBody cnt) .srcFault :=
  Cmd.Fails.passed_bind (decide_eq_true hc) <| Cmd.Fails.look_bind <| (rdBits_fails h (lt_min h0 h.avail)).bind

theorem rdEG_fails (h : s.SourceFaultAhead) : Cmd.Fails (fun t => t = s) rdEG .srcFault := by
  have havail : Cmd.Completes (fun t => t = s) (requireAvail 1 .truncGamma) fun _ t => t = s := by
    refine Cmd.Completes.look_bind ?_
    rintro t rfl
    exact Cmd.Completes.require (decide_eq_true h.avail)
  exact Cmd.Fails.bind (havail.bind_fails fun _ => (rdBits_fails h Nat.one_pos).bind)

end

/-- Settles O26: the first bit that BR.READ and EG.DEC deliver needs the byte. -/
theorem sourceFaultRaised : Obligations.SourceFaultRaised := by
  intro s havail hmissing hfault
  have h : s.SourceFaultAhead := ⟨havail, hmissing, hfault⟩
  exact ⟨fun cnt h0 hc => raises_of_fails (i := .brRead cnt) (op := 0x12#8) rfl (brReadBody_fails h h0 hc),
    raises_of_fails (i := .egDec) rfl (rdEG_fails h).bind⟩

/-! ## Draining a failing byte -/

section

variable {s : State} {v : Byte}

theorem drainBytes_fails {p : Params} {cells : List Host.Cell} (h : ∃ c ∈ cells, snkFaultAt p c.1 = true) :
    Cmd.Fails (fun t => t.par = p) (drainBytes cells) .snkFault := by
  induction cells with
  | nil => obtain ⟨c, hc, -⟩ := h; cases hc
  | cons c rest ih =>
    refine Cmd.Fails.look_bind_pre fun t ht => ?_
    cases hc : snkFaultAt p c.1 with
    | true => exact Cmd.Fails.require_bind (by rw [ht, hc]; rfl)
    | false =>
      refine Cmd.Fails.passed_bind (by rw [ht, hc]; rfl) ?_
      have hrest : ∃ d ∈ rest, snkFaultAt p d.1 = true := by
        obtain ⟨d, hd, hfault⟩ := h
        rcases List.mem_cons.1 hd with rfl | hd
        · rw [hc] at hfault; cases hfault
        · exact ⟨d, hd, hfault⟩
      exact fun r hr => ih hrest _ hr

/-- Some staged byte fails. -/
def State.stagedFault (s : State) : Prop := ∃ c ∈ s.wr.staging, snkFaultAt s.par c.1 = true

theorem drain_fails (h : s.stagedFault) : Cmd.Fails (fun t => t = s) drain .snkFault := by
  refine Cmd.Fails.look_bind fun r hr => ?_
  exact drainBytes_fails h r (by rw [hr])

theorem wrInit_fails (h : s.stagedFault) : Cmd.Fails (fun t => t = s) wrInit .snkFault :=
  Cmd.Fails.noteMark_bind (drain_fails h).bind

theorem flushPoint_fails_staged (hf : s.wr.frac = []) (h : s.stagedFault) :
    Cmd.Fails (fun t => t = s) flushPoint .snkFault :=
  Cmd.Fails.look_bind <| Cmd.Fails.passed_bind (List.isEmpty_iff.2 hf) (drain_fails h).bind

/-! ## Completing a byte -/

/-- A byte at SNK_CAP is refused before it is staged (R144). -/
theorem completeByte_fails_full (h : s.par.snkCap ≤ s.wr.pos) : Cmd.Fails (fun t => t = s) (completeByte v) .snkFull :=
  Cmd.Fails.look_bind <| Cmd.Fails.require_bind (decide_eq_false (Nat.not_lt.2 h))

theorem drainIfFull_idle (h : s.wr.staging.length < s.par.wbufBytes) :
    Cmd.Completes (fun t => t = s) drainIfFull fun _ t => t = s := by
  refine Cmd.Completes.look_bind ?_
  rintro t rfl
  rw [if_neg (Nat.not_le.2 h)]
  exact Cmd.Completes.pure fun _ h => h

theorem mem_stage (cells : List Host.Cell) (a : Nat) (v : Byte) : (a, v) ∈ stage cells a v := by
  induction cells with
  | nil => exact List.mem_singleton_self _
  | cons c rest ih =>
    rw [stage]
    split
    · exact List.mem_cons_self
    · exact List.mem_cons_of_mem _ ih

/-- A failing byte that fills the staging buffer is drained with it (R343). -/
theorem completeByte_fails_filling (hcap : s.wr.pos < s.par.snkCap) (hf : snkFaultAt s.par s.wr.pos = true)
    (hw : s.wr.staging.length + 1 = s.par.wbufBytes) : Cmd.Fails (fun t => t = s) (completeByte v) .snkFault := by
  refine Cmd.Fails.look_bind <| Cmd.Fails.passed_bind (decide_eq_true hcap) ?_
  refine (drainIfFull_idle (by omega)).bind_fails fun _ => Cmd.Fails.advance_bind (Cmd.Fails.bind ?_)
  refine Cmd.Fails.look_bind ?_
  rw [if_pos (by rw [State.setWr_wr, stage_length]; exact hw.ge)]
  exact drain_fails ⟨_, mem_stage _ _ _, hf⟩

/-- A byte that only joins the staging buffer raises nothing (R343). -/
theorem completeByte_joins (hcap : s.wr.pos < s.par.snkCap) (hw : s.wr.staging.length + 1 < s.par.wbufBytes) :
    Cmd.Completes (fun t => t = s) (completeByte v) fun _ t => t.er = s.er := by
  refine Cmd.Completes.look_bind ?_
  rintro t rfl
  refine Cmd.Completes.require_bind (decide_eq_true hcap) ?_
  refine (drainIfFull_idle (by omega)).bind fun _ => Cmd.Completes.advance_bind ?_
  refine (drainIfFull_idle (by rw [State.setWr_wr, stage_length]; exact hw)).bind fun _ => ?_
  refine (Cmd.Completes.advance _).weaken (fun _ h => h) ?_
  rintro _ _ ⟨_, rfl, rfl⟩
  rfl

/-! ## Writing bits up to a byte's end -/

/-- `t` is `s` but for the incomplete byte and the count of bits written. -/
def SameButBits (s t : State) : Prop := ∃ f n, t = s.setWr { s.wr with frac := f, total := n }

theorem SameButBits.refl (s : State) : SameButBits s s := ⟨s.wr.frac, s.wr.total, rfl⟩

theorem SameButBits.setBits {t : State} (h : SameButBits s t) (f : Bits) (n : Word) :
    SameButBits s (t.setWr { t.wr with frac := f, total := n }) := by
  obtain ⟨_, _, rfl⟩ := h
  exact ⟨f, n, rfl⟩

/-- Completing a byte raises `c`, whatever the incomplete byte and the count of bits have become by then. -/
def State.nextByteRaises (s : State) (c : Cause) : Prop :=
  ∀ t v, SameButBits s t → Cmd.Fails (fun u => u = t) (completeByte v) c

theorem nextByteRaises_full (hcap : s.par.snkCap ≤ s.wr.pos) : s.nextByteRaises .snkFull := by
  rintro _ v ⟨f, n, rfl⟩
  exact completeByte_fails_full hcap

theorem nextByteRaises_filling (hcap : s.wr.pos < s.par.snkCap) (hf : snkFaultAt s.par s.wr.pos = true)
    (hw : s.wr.staging.length + 1 = s.par.wbufBytes) : s.nextByteRaises .snkFault := by
  rintro _ v ⟨f, n, rfl⟩
  exact completeByte_fails_filling hcap hf hw

/-- A bit that completes no byte (R143). -/
theorem wrBit_pending {b : Bool} (h : s.wr.frac.length < 7) : Cmd.Completes (fun t => t = s) (wrBit b) fun _ t =>
    t = s.setWr { s.wr with frac := s.wr.frac ++ [b], total := s.wr.total + 1#32 } := by
  refine Cmd.Completes.look_bind ?_
  rintro t rfl
  rw [if_pos h]
  refine (Cmd.Completes.advance _).weaken (fun _ h => h) ?_
  rintro _ _ ⟨_, rfl, rfl⟩
  rfl

/-- `WrBits` raises what its first completed byte raises. -/
theorem wrBits_fails {c : Cause} (hbyte : s.nextByteRaises c)
    (bits : Bits) : ∀ t, SameButBits s t → t.wr.frac.length < 8 → 8 ≤ t.wr.frac.length + bits.length →
    Cmd.Fails (fun u => u = t) (wrBits bits) c := by
  induction bits with
  | nil => exact fun t _ hlt hge => absurd hge (Nat.not_le.2 hlt)
  | cons b rest ih =>
    intro t ht hlt hge
    rw [List.length_cons] at hge
    by_cases h7 : t.wr.frac.length < 7
    · refine (wrBit_pending h7).bind_fails fun _ => ih _ (ht.setBits _ _) ?_ ?_ <;>
        simp only [State.setWr_wr, List.length_append, List.length_singleton] <;> omega
    · refine Cmd.Fails.bind (x := wrBit b) (Cmd.Fails.look_bind ?_)
      rw [if_neg h7]
      exact Cmd.Fails.advance_bind (hbyte _ _ (ht.setBits t.wr.frac _)).bind

/-- Bits that complete no byte raise nothing. -/
theorem wrBits_pending (e : ErrState) (bits : Bits) : ∀ t : State, t.er = e → t.wr.frac.length + bits.length < 8 →
    Cmd.Completes (fun u => u = t) (wrBits bits) fun _ u => u.er = e := by
  induction bits with
  | nil => exact fun t ht _ => Cmd.Completes.pure fun u hu => hu ▸ ht
  | cons b rest ih =>
    intro t ht hlt
    rw [List.length_cons] at hlt
    refine (wrBit_pending (by omega)).bind fun _ => ih _ ht ?_
    simp only [State.setWr_wr, List.length_append, List.length_singleton]
    omega

/-- `WrBits` of bits that complete one byte, where that byte raises nothing. -/
theorem wrBits_completes_one (hbyte : ∀ t v, SameButBits s t →
      Cmd.Completes (fun u => u = t) (completeByte v) fun _ u => u.er = s.er)
    (bits : Bits) : ∀ t, SameButBits s t → t.wr.frac.length < 8 → 8 ≤ t.wr.frac.length + bits.length →
    t.wr.frac.length + bits.length < 16 → Cmd.Completes (fun u => u = t) (wrBits bits) fun _ u => u.er = s.er := by
  induction bits with
  | nil => exact fun t _ hlt hge => absurd hge (Nat.not_le.2 hlt)
  | cons b rest ih =>
    intro t ht hlt hge hlt'
    rw [List.length_cons] at hge hlt'
    by_cases h7 : t.wr.frac.length < 7
    · refine (wrBit_pending h7).bind fun _ => ih _ (ht.setBits _ _) ?_ ?_ ?_ <;>
        simp only [State.setWr_wr, List.length_append, List.length_singleton] <;> omega
    · have hbit : Cmd.Completes (fun u => u = t) (wrBit b) fun _ u => u.er = s.er ∧ u.wr.frac = [] := by
        refine Cmd.Completes.look_bind ?_
        rintro u rfl
        rw [if_neg h7]
        refine Cmd.Completes.advance_bind ((hbyte _ _ (ht.setBits u.wr.frac _)).bind fun _ => ?_)
        refine (Cmd.Completes.advance _).weaken (fun _ h => h) ?_
        rintro _ _ ⟨u, rfl, hu⟩
        exact ⟨hu, rfl⟩
      refine hbit.bind fun _ r hr => ?_
      exact wrBits_pending _ rest r.st hr.1 (by rw [hr.2, List.length_nil]; omega) r rfl

/-! ## The commands -/

variable {c : Cause} {cnt : Nat}

theorem bwWriteBody_fails (hbyte : s.nextByteRaises c)
    (hc : cnt ≤ 32) (hf : s.wr.frac.length < 8) (h8 : 8 ≤ s.wr.frac.length + cnt) :
    Cmd.Fails (fun t => t = s) (bwWriteBody cnt) c :=
  Cmd.Fails.passed_bind (decide_eq_true hc) <| Cmd.Fails.look_bind <|
    wrBits_fails hbyte _ s (.refl s) hf (by rwa [State.writeArg, nb_length])

theorem fill_fails (hbyte : s.nextByteRaises c)
    (hf : s.wr.frac.length < 8) (hne : s.wr.frac ≠ []) : Cmd.Fails (fun t => t = s) fill c := by
  have hpos := List.length_pos_iff.2 hne
  refine Cmd.Fails.look_bind (Cmd.Fails.bind (wrBits_fails hbyte _ s (.refl s) hf ?_))
  rw [List.length_replicate]
  omega

theorem bwRawBody_fails_full (ha : s.arg0.toNat ≤ 255) (hf : s.wr.frac = []) (hs : s.stagedSound)
    (hcap : s.par.snkCap ≤ s.wr.pos) : Cmd.Fails (fun t => t = s) bwRawBody .snkFull := by
  refine Cmd.Fails.look_bind <| Cmd.Fails.passed_bind (decide_eq_true ha) ?_
  refine (flushPoint_completes s hs hf).bind_fails fun _ => Cmd.Fails.bind fun r hr => ?_
  obtain ⟨m, ht, -⟩ := hr
  exact completeByte_fails_full (by rw [ht]; exact hcap) r rfl

theorem bwWriteBody_completes_one (hcap : s.wr.pos < s.par.snkCap) (hw : s.wr.staging.length + 1 < s.par.wbufBytes)
    (hc : cnt ≤ 32) (hf : s.wr.frac.length < 8) (h8 : 8 ≤ s.wr.frac.length + cnt) (h16 : s.wr.frac.length + cnt < 16) :
    Cmd.Completes (fun t => t = s) (bwWriteBody cnt) fun _ t => t.er = s.er := by
  refine Cmd.Completes.require_bind (decide_eq_true hc) (Cmd.Completes.look_bind ?_)
  rintro t rfl
  have hlen : (t.writeArg cnt).length = cnt := nb_length _ _
  refine wrBits_completes_one ?_ _ t (.refl t) hf (by omega) (by omega)
  rintro _ v ⟨f, n, rfl⟩
  exact completeByte_joins hcap hw

end

/-- Settles O34: a byte is checked against SNK_CAP as it is completed, and against the failing indices as it is drained. -/
theorem sinkErrors : Obligations.SinkErrors := by
  intro s hinv
  refine ⟨fun hcap => ?_, fun hfault => ?_, fun cnt hc _ hcap hfault h8 h16 => ⟨fun hw => ?_, fun hw => ?_⟩⟩
  · have hbyte := nextByteRaises_full hcap
    exact ⟨fun cnt hc h8 =>
        raises_of_fails (i := .bwWrite cnt) (op := 0x21#8) rfl (bwWriteBody_fails hbyte hc hinv.frac h8),
      fun hne => raises_of_fails (i := .bwFill) rfl (fill_fails hbyte hinv.frac hne).bind,
      fun hf hs ha => raises_of_fails (i := .bwRaw) rfl (bwRawBody_fails_full ha hf hs hcap)⟩
  · exact ⟨raises_of_fails (i := .bwInit) rfl (wrInit_fails hfault), fun hf =>
      ⟨raises_of_fails (i := .bwFlush) rfl (flushPoint_fails_staged hf hfault),
        raises_of_fails (i := .bwSeek0) rfl (Cmd.Fails.noteMark_bind (flushPoint_fails_staged hf hfault).bind)⟩⟩
  · exact exec_of_completes (i := .bwWrite cnt) (bwWriteBody_completes_one hcap hw hc hinv.frac h8 h16)
  · have hbyte := nextByteRaises_filling hcap hfault hw
    exact raises_of_fails (i := .bwWrite cnt) (op := 0x21#8) rfl (bwWriteBody_fails hbyte hc hinv.frac h8)

end Sys2Proof.Machine

/-! BR.READ over SRC bytes that the host has overwritten under the reader (40_bitstream R152, 70_reset R391). -/

namespace Sys2Proof.Machine

section

variable {s t : State}

/-- `t` is `s` after bytes were fetched and bits drawn for overwritten ones: only the refill buffer and the counter of draws
have moved. -/
def Fetched (s t : State) : Prop :=
  ∃ rf at' d, t = { s with rd := { s.rd with refill := rf, refillAt := at' }, draw := d }

theorem Fetched.refl (s : State) : Fetched s s := ⟨s.rd.refill, s.rd.refillAt, s.draw, rfl⟩

theorem Fetched.drew (h : Fetched s t) (n : Nat) : Fetched s (t.drew n) := by
  obtain ⟨rf, at', d, rfl⟩ := h
  exact ⟨rf, at', d + n, rfl⟩

theorem Fetched.onlyRefill {u : State} (h : Fetched s t) (hu : OnlyRefill t u) : Fetched s u := by
  obtain ⟨_, _, d, rfl⟩ := h
  obtain ⟨⟨rf, at', rfl⟩, -⟩ := hu
  exact ⟨rf, at', d, rfl⟩

theorem Fetched.sound (h : Fetched s t) (hs : s.sourceSound s.rd.len) : t.sourceSound t.rd.len := by
  obtain ⟨_, _, _, rfl⟩ := h
  exact hs

/-- A bit is delivered whatever the host has written: one that its byte does not settle is drawn (R391). -/
theorem deliverBit_fetches (hs : s.sourceSound s.rd.len) (j : Nat) :
    Cmd.Completes (Fetched s) (deliverBit j) fun _ t => Fetched s t := by
  have hfetch : Cmd.Completes (Fetched s) (fetchByte (j / 8)) fun _ t => Fetched s t := by
    intro r hr
    obtain ⟨a, r', hok, hrefill⟩ := fetchByte_completes r.st (hr.sound hs) (j / 8) r rfl
    exact ⟨a, r', hok, hr.onlyRefill hrefill⟩
  refine hfetch.bind fun _ => Cmd.Completes.look_bind fun t ht => ?_
  dsimp only
  split
  · exact Cmd.Completes.pure fun u hu => hu ▸ ht
  · exact Cmd.Completes.advance_bind <| Cmd.Completes.pure fun u hu => hu ▸ ht.drew 1

theorem deliverBits_fetches (hs : s.sourceSound s.rd.len) (n : Nat) : ∀ j,
    Cmd.Completes (Fetched s) (deliverBits n j) fun bits t => bits.length = n ∧ Fetched s t := by
  induction n with
  | zero => exact fun _ => Cmd.Completes.pure fun _ ht => ⟨rfl, ht⟩
  | succ n ih =>
    refine fun j => (deliverBit_fetches hs j).bind fun _ => (ih (j + 1)).bind fun bits r hr => ?_
    exact ⟨_, r, rfl, congrArg (· + 1) hr.1, hr.2⟩

/-- `RdBits(n)` (R142) over a source that does not fail: `n` bits, and `rd_pos` moves by `n`. -/
theorem rdBits_fetches (hs : s.sourceSound s.rd.len) (n : Nat) :
    Cmd.Completes (fun t => t = s) (rdBits n) fun bits t =>
      bits.length = n ∧ Fetched (s.setRd { s.rd with pos := s.rd.pos + n }) t := by
  refine Cmd.Completes.look_bind ?_
  rintro t rfl
  refine ((deliverBits_fetches hs n _).weaken (fun u (hu : u = t) => hu ▸ .refl t) fun _ _ h => h).bind fun bits r hr => ?_
  obtain ⟨hlen, rf, at', d, hst⟩ := hr
  refine ⟨bits, _, rfl, hlen, rf, at', d, ?_⟩
  show r.st.setRd _ = _
  rw [hst]
  rfl

end

/-- Settles O24: `RdBits` delivers as many bits as ever, and RESULT is the value of that many bits, whichever they are. -/
theorem brReadUnderHazardCompletes : Obligations.BrReadUnderHazardCompletes := by
  intro s cnt hc hs
  have hbody : Cmd.Completes (fun t => t = s) (brReadBody cnt) fun _ t => ∃ bits u, bits.length = min cnt s.rd.avail ∧
      Fetched (s.setRd { s.rd with pos := s.rd.pos + min cnt s.rd.avail }) u ∧
      t = (u.setResult (BitVec.ofNat 32 (val bits))).setRcnt (BitVec.ofNat 6 (min cnt s.rd.avail)) := by
    refine Cmd.Completes.require_bind (decide_eq_true hc) (Cmd.Completes.look_bind ?_)
    rintro t rfl
    refine (rdBits_fetches hs _).bind fun bits => (Cmd.Completes.advance _).weaken (fun _ h => h) ?_
    rintro _ _ ⟨u, rfl, hlen, hu⟩
    exact ⟨bits, u, hlen, hu, rfl⟩
  obtain ⟨_, he, bits, _, hlen, ⟨rf, at', d, rfl⟩, rfl⟩ := exec_of_completes (i := .brRead cnt) hbody
  refine ⟨_, he, ?_, rfl, rfl, rfl⟩
  have hfits : bits.length ≤ 32 := by omega
  rw [State.setRcnt_result, State.setResult_result, toNat_ofNat_val hfits, ← hlen]
  exact val_lt bits

end Sys2Proof.Machine

/-! The hardware reset, between commands and during one (70_reset R380, 10_state R64). -/

namespace Sys2Proof.Machine

/-- What the hardware reset leaves of any state (R380). -/
theorem hardReset_afterReset (s : State) : AfterReset s (hardReset s) := by
  obtain ⟨-, -, -, -, -, hstatus, -⟩ := resetRegisterValues
  refine ⟨rfl, rfl, rfl, rfl, rfl, rfl, hstatus, rfl, rfl, rfl, rfl, rfl, fun _ => rfl, fun a hflushed => ?_⟩
  rw [hardReset_snkByte, hflushed]
  rfl

/-! ## The points of a command's run -/

section

variable {I pre : State → Prop} {s : State} {w : Word} {k : Nat}

/-- A word that starts no command has no run. -/
theorem stateDuring_of_no_command (h : isIgnored w s = true ∨ ∃ e, decode w = .error e) : stateDuring w k s = s := by
  rw [stateDuring]
  rcases h with h | ⟨e, h⟩
  · rw [if_pos h]
  · rw [h, ite_self]

/-- What every point of the run of the word's own command meets. -/
theorem stateDuring_of_runOf_all (hs : I s) (h : ∀ i, decode w = .ok i → (runOf (bodyOf i) s).All I) :
    I (stateDuring w k s) := by
  rw [stateDuring]
  split
  · exact hs
  · split
    · exact hs
    · rename_i i hi
      obtain ⟨hst, htrail⟩ := h i hi
      rw [List.getD_eq_getElem?_getD]
      cases hk : (runOf (bodyOf i) s).points[k]? with
      | none => exact hst
      | some u =>
        have hu := List.mem_of_getElem? hk
        rw [Run.points, List.mem_reverse] at hu
        exact List.forall_mem_cons.2 ⟨hst, htrail⟩ u hu

theorem runOf_all_of_keeps {body : Cmd Unit} {post : Unit → State → Prop} (hb : Cmd.Keeps I pre body post) (hs : I s)
    (hp : pre s) : (runOf body s).All I := by
  have h := hb (Run.start s) (Run.start_all hs) hp
  cases hr : body (Run.start s) with
  | ok _ r => rw [hr] at h; rw [runOf_of_ok hr]; exact h.1
  | error c r => rw [hr] at h; rw [runOf_of_error hr]; exact h

end

/-! ## The bytes below `cmark` -/

section

variable {α β : Type} {s t : State} {m a : Nat}

/-- Below index `m`, SNK holds in `t` what it holds in `s`, and the writer of `t` has stored or staged nothing there since its
last flush point. -/
structure KeptBelow (s : State) (m : Nat) (t : State) : Prop where
  /-- the record of unflushed bytes. -/
  flushed : ∀ a, a < m → t.unflushed a = false
  /-- the staging buffer. -/
  staged : ∀ c ∈ t.wr.staging, m ≤ c.1
  /-- SNK. -/
  bytes : ∀ a, a < m → t.snkByte a = s.snkByte a

/-- A state whose unflushed bytes are those from `cmark` on has none below it (70_reset R392). -/
theorem keptBelow_mark (hinv : s.Inv) (hf : s.freshFromMark) : KeptBelow s s.wr.mark s where
  flushed a ha := by
    rw [← Bool.not_eq_true, hf.2]
    omega
  staged c hc := ((hf.2 c.1).1 (hinv.stagedFresh c hc)).1
  bytes _ _ := rfl

theorem KeptBelow.afterReset {u : State} (h : KeptBelow s m t) (hr : AfterReset t u) (ha : a < m) :
    u.snkByte a = s.snkByte a := by
  obtain ⟨-, -, -, -, -, -, -, -, -, -, -, -, -, hkept⟩ := hr
  rw [hkept a (h.flushed a ha), h.bytes a ha]

/-- A byte is completed at `m` or above. -/
theorem KeptBelow.stage (h : KeptBelow s m t) (hp : m ≤ t.wr.pos) (v : Byte) : KeptBelow s m
    (t.setWr { t.wr with staging := stage t.wr.staging t.wr.pos v, fresh := noteFresh t.wr.fresh t.wr.pos }) where
  flushed a ha := by
    have hne : a ≠ t.wr.pos := by omega
    rw [State.unflushed, State.setWr_wr, covers_noteFresh, ← State.unflushed, h.flushed a ha]
    simp [hne]
  staged c hc := by
    rcases stage_mem hc with rfl | hc
    · exact hp
    · exact h.staged c hc
  bytes := h.bytes

/-- A staged byte of an index at `m` or above goes into SNK. -/
theorem KeptBelow.drainOne (h : KeptBelow s m t) (ha : m ≤ a) (v : Byte) {rest : List Host.Cell}
    (hrest : ∀ c ∈ rest, m ≤ c.1) :
    KeptBelow s m ((t.setSnk (Memory.set t.snk a v)).setWr { t.wr with staging := rest }) where
  flushed := h.flushed
  staged := hrest
  bytes b hb := by
    refine (snkByte_setSnk_set t a v b).trans ?_
    rw [if_neg (by omega)]
    exact h.bytes b hb

/-- A flush point, or a new output, leaves no byte unflushed. -/
theorem KeptBelow.flush (h : KeptBelow s m t) {w : Writer} (hs : w.staging = t.wr.staging) (hf : w.fresh = []) :
    KeptBelow s m (t.setWr w) where
  flushed a _ := by rw [State.unflushed, State.setWr_wr, hf, covers_nil]
  staged := by rw [State.setWr_wr, hs]; exact h.staged
  bytes := h.bytes

theorem KeptBelow.softReset (h : KeptBelow s m t) : KeptBelow s m (softReset t) where
  flushed _ _ := rfl
  staged := nofun
  bytes a ha := by
    rw [softReset_snkByte, h.flushed a ha]
    exact h.bytes a ha

/-! ## What no command but an engine command stores below `cmark` -/

/-- Pseudocode that starts with `snk_pos` at `m` or above, and leaves it there where it ends, keeps the bytes below `m` at
every point of its run. -/
abbrev StoresAbove (s : State) (m : Nat) (x : Cmd α) : Prop :=
  Cmd.Keeps (KeptBelow s m) (fun t => m ≤ t.wr.pos) x fun _ t => m ≤ t.wr.pos

theorem StoresAbove.look_bind {f : State → Cmd β} (h : ∀ t, KeptBelow s m t → StoresAbove s m (f t)) :
    StoresAbove s m (Machine.look >>= f) :=
  Cmd.Keeps.look_bind fun t ht hp => (h t ht).weaken (fun _ hu => hu ▸ hp) fun _ _ _ h => h

theorem StoresAbove.require_bind {ok : Bool} {c : Cause} {f : Unit → Cmd β} (h : StoresAbove s m (f ())) :
    StoresAbove s m (Machine.require ok c >>= f) :=
  (Cmd.Keeps.require ok c).bind fun _ => h.weaken (fun _ ht => ht.2) fun _ _ _ h => h

theorem StoresAbove.pure (a : α) : StoresAbove s m (Pure.pure a : Cmd α) :=
  (Cmd.Keeps.pure a).weaken (fun _ h => h) fun _ _ _ h => h.2

theorem StoresAbove.advance {f : State → State} (hf : ∀ t, KeptBelow s m t → m ≤ t.wr.pos → KeptBelow s m (f t))
    (hp : ∀ t, t.wr.pos ≤ (f t).wr.pos := by exact fun _ => le_rfl) : StoresAbove s m (Machine.advance f) := by
  refine (Cmd.Keeps.advance hf).weaken (fun _ h => h) ?_
  rintro _ _ - ⟨t, rfl, -, ht⟩
  exact ht.trans (hp t)

theorem StoresAbove.advance_bind {f : State → State} {g : Unit → Cmd β} (hg : StoresAbove s m (g ()))
    (hf : ∀ t, KeptBelow s m t → m ≤ t.wr.pos → KeptBelow s m (f t))
    (hp : ∀ t, t.wr.pos ≤ (f t).wr.pos := by exact fun _ => le_rfl) : StoresAbove s m (Machine.advance f >>= g) :=
  (StoresAbove.advance hf hp).bind fun _ => hg

theorem drainBytes_storesAbove {cells : List Host.Cell} (h : ∀ c ∈ cells, m ≤ c.1) :
    StoresAbove s m (drainBytes cells) := by
  induction cells with
  | nil => exact .pure ()
  | cons c rest ih =>
    rw [List.forall_mem_cons] at h
    exact .look_bind fun _ _ => .require_bind <| .advance_bind (ih h.2) fun _ ht _ => ht.drainOne h.1 _ h.2

theorem drain_storesAbove : StoresAbove s m drain := .look_bind fun _ ht => drainBytes_storesAbove ht.staged

theorem drainIfFull_storesAbove : StoresAbove s m drainIfFull := by
  refine .look_bind fun t _ => ?_
  split
  · exact drain_storesAbove
  · exact .pure ()

theorem completeByte_storesAbove (v : Byte) : StoresAbove s m (completeByte v) :=
  .look_bind fun _ _ => .require_bind <| drainIfFull_storesAbove.bind fun _ => StoresAbove.advance_bind
    (drainIfFull_storesAbove.bind fun _ => StoresAbove.advance (fun _ ht _ => { ht with }) fun _ => Nat.le_succ _)
    fun _ ht hp => ht.stage hp v

theorem wrBits_storesAbove (bits : Bits) : StoresAbove s m (wrBits bits) := by
  induction bits with
  | nil => exact .pure ()
  | cons b rest ih =>
    refine Cmd.Keeps.bind (x := wrBit b) (StoresAbove.look_bind fun t _ => ?_) fun _ => ih
    split
    · exact StoresAbove.advance fun _ ht _ => { ht with }
    · refine StoresAbove.advance_bind ?_ fun _ ht _ => { ht with }
      exact (completeByte_storesAbove _).bind fun _ => StoresAbove.advance fun _ ht _ => { ht with }

theorem flushPoint_storesAbove : StoresAbove s m flushPoint :=
  .look_bind fun _ _ => .require_bind <| drain_storesAbove.bind fun _ =>
    StoresAbove.advance_bind (.look_bind fun _ _ => Cmd.Keeps.noteMark _) fun _ ht _ => ht.flush rfl rfl

/-- The two primitives that move `snk_pos` to 0 store nothing after that. -/
theorem wrInit_keptBelow : Cmd.Keeps (KeptBelow s m) (fun t => m ≤ t.wr.pos) wrInit fun _ _ => True :=
  (Cmd.Keeps.noteMark 0).bind fun _ => drain_storesAbove.bind fun _ =>
    (KeepsFrame.advance fun _ ht => ht.flush rfl rfl).from

theorem seek0_keptBelow : Cmd.Keeps (KeptBelow s m) (fun t => m ≤ t.wr.pos) seek0 fun _ _ => True :=
  (Cmd.Keeps.noteMark 0).bind fun _ => flushPoint_storesAbove.bind fun _ =>
    (KeepsFrame.advance fun _ ht => { ht with }).from

/-! ## The reader -/

theorem rdBits_keptBelow (n : Nat) : KeepsFrame (KeptBelow s m) (rdBits n) :=
  rdBits_keeps (fun _ _ h => { h with }) (fun _ _ h => { h with }) n

theorem requireRead_keptBelow {n : Nat} {c : Cause} {f : Bits → Cmd β} (hf : ∀ b, KeepsFrame (KeptBelow s m) (f b)) :
    KeepsFrame (KeptBelow s m) (requireAvail n c >>= fun _ => rdBits n >>= f) :=
  (requireAvail_keeps n c).bind fun _ => (rdBits_keptBelow n).bind hf

theorem rdEG_keptBelow : KeepsFrame (KeptBelow s m) rdEG := by
  have hrun (left : Nat) : ∀ k, KeepsFrame (KeptBelow s m) (rdZeroRun left k) := by
    induction left with
    | zero => exact fun _ => Cmd.Keeps.raise _
    | succ left ih =>
      refine fun k => requireRead_keptBelow fun b => ?_
      split
      · exact KeepsFrame.pure k
      · exact ih (k + 1)
  exact (hrun 33 0).bind fun _ => requireRead_keptBelow fun _ => KeepsFrame.require_bind (KeepsFrame.pure _)

/-! ## The commands -/

/-- A command that is no engine command keeps the bytes below `m` at every point of its run. -/
theorem bodyOf_keptBelow {i : Instr} (hi : i ∉ [Instr.lzComp, .lzDec, .sfComp, .sfDec]) :
    Cmd.Keeps (KeptBelow s m) (fun t => m ≤ t.wr.pos) (bodyOf i) fun _ _ => True := by
  cases i with
  | nop => exact (KeepsFrame.pure ()).from
  | clr => exact (KeepsFrame.advance fun _ h => { h with }).from
  | srst => exact (KeepsFrame.advance fun _ h => h.softReset).from
  | brInit => exact (rdInit_keeps fun _ _ h => { h with }).from
  | brIgn =>
    exact KeepsFrame.from <| KeepsFrame.look_bind fun _ => KeepsFrame.require_bind <| KeepsFrame.advance fun _ h => { h with }
  | brRead cnt =>
    exact KeepsFrame.from <| KeepsFrame.require_bind <| KeepsFrame.look_bind fun _ => (rdBits_keptBelow _).bind fun _ =>
      KeepsFrame.advance fun _ h => { h with }
  | bwInit => exact wrInit_keptBelow
  | bwWrite cnt => exact (StoresAbove.require_bind <| .look_bind fun _ _ => wrBits_storesAbove _).toFrame
  | bwFill =>
    have hfill : StoresAbove s m fill := .look_bind fun _ _ => (wrBits_storesAbove _).bind fun _ => StoresAbove.pure _
    exact hfill.bind fun _ => (KeepsFrame.advance fun _ h => { h with }).from
  | bwFlush => exact flushPoint_storesAbove.toFrame
  | bwSeek0 => exact seek0_keptBelow
  | bwRaw =>
    refine (StoresAbove.look_bind fun _ _ => .require_bind <| flushPoint_storesAbove.bind fun _ => ?_).toFrame
    exact (completeByte_storesAbove _).bind fun _ => flushPoint_storesAbove
  | egEnc => exact (StoresAbove.look_bind fun _ _ => wrBits_storesAbove _).toFrame
  | egDec => exact KeepsFrame.from <| rdEG_keptBelow.bind fun _ => KeepsFrame.advance fun _ h => { h with }
  | lzComp | lzDec | sfComp | sfDec => exact absurd (by decide) hi

end

/-- Settles O13: a reset during a command resets a point of the command's run, and every point has the host's state
(`hostKept_closed`) and, but for an engine command, the bytes below `cmark` (`bodyOf_keptBelow`). -/
theorem hardwareReset : Obligations.HardwareReset := by
  refine ⟨fun s rest hs => ⟨_, step_of_host hs, hardReset_afterReset _⟩, fun s rest w k hs => ?_⟩
  have hreset := hardReset_afterReset (stateDuring w k (s.setHost rest))
  have hkept : HostKept (s.setHost rest) (stateDuring w k (s.setHost rest)) :=
    stateDuring_of_keeps (hostKept_closed _).bodyOf (.refl _) w k
  obtain ⟨-, -, -, -, hsrc, hpar, hhost, -⟩ := hkept
  refine ⟨_, step_of_host hs, hreset, hpar, hhost, fun a => ?_, fun hnone => ?_, fun hinv hfresh hi a ha => ?_⟩
  · show (Memory.get? (stateDuring w k (s.setHost rest)).src a).getD _ = _
    rw [hsrc]
    rfl
  · have hsame : stateDuring w k (s.setHost rest) = s.setHost rest :=
      stateDuring_of_no_command (hnone.imp_left fun ⟨he, h0, h1, h2⟩ => isIgnored_eq_true he h0 h1 h2)
    rwa [hsame] at hreset ⊢
  · have hstart : KeptBelow s s.wr.mark (s.setHost rest) := { keptBelow_mark hinv hfresh with }
    have hpoint : KeptBelow s s.wr.mark (stateDuring w k (s.setHost rest)) :=
      stateDuring_of_runOf_all hstart fun i hd => runOf_all_of_keeps (bodyOf_keptBelow (hi i hd)) hstart hfresh.1
    exact hpoint.afterReset hreset ha

end Sys2Proof.Machine
